-- ==== Sys2Proof/Word.lean ====
section
/-! DEFINITION. The byte and the fixed-width words of VCORE (00_scope.md R7, 10_state.md R22, R26).
Counts, lengths, cursors and addresses are natural numbers, as R7 writes them ("Numbers in rules are
mathematical"); bit vectors hold what the spec treats as a word of fixed width. -/

namespace Sys2Proof

/-- A byte: an integer 0 … 255 (R7). -/
abbrev Byte := BitVec 8

/-- A 32-bit register or port value (R22 CR2, CR3; R23 `CHECKSUM`; R117 32-bit operands). -/
abbrev Word := BitVec 32

/-- A 64-bit register or port value (R22 CR1). -/
abbrev DWord := BitVec 64

/-- A byte string (R7): index 0 is the lowest address and the first byte on a stream (R71). -/
abbrev Bytes := List Byte

end Sys2Proof
end

