-- ==== Sys2Proof/WellFormed.lean ====
section
/-! DEFINITION. Well-formed instructions: the operand conditions that the types of `Syntax.lean` do not carry.
An opcode of the stream carries no operand, so every opcode is well-formed. -/

namespace Sys2Proof

/-- Well-formedness.
`DEC_START`: the dictionary has at most 2^32 − 1 bytes (R300).
`ENC_NEW`: the image on `CTAB_IN` has 1536 bytes (R161); the sizes are judged by the command itself.
`ENC_ADD`: if the slice lies in the host array, `ENC_DATA` carries its `len` bytes (R223); if not, the command fails
whatever `ENC_DATA` carries. -/
def Instr.wf : Instr → Bool
  | .run | .add | .addS1 | .addS2 | .addS3 | .addS4 | .addS5 | .addS6
  | .addS7 | .addS8 | .addS9 | .addS10 | .addS11 | .addS12 | .addS13 | .addS14
  | .addS15 | .addS16 | .addS17 | .copyM0 | .copyM0S4 | .copyM0S5 | .copyM0S6 | .copyM0S7
  | .copyM0S8 | .copyM0S9 | .copyM0S10 | .copyM0S11 | .copyM0S12 | .copyM0S13 | .copyM0S14 | .copyM0S15
  | .copyM0S16 | .copyM0S17 | .copyM0S18 | .copyM1 | .copyM1S4 | .copyM1S5 | .copyM1S6 | .copyM1S7
  | .copyM1S8 | .copyM1S9 | .copyM1S10 | .copyM1S11 | .copyM1S12 | .copyM1S13 | .copyM1S14 | .copyM1S15
  | .copyM1S16 | .copyM1S17 | .copyM1S18 | .copyM2 | .copyM2S4 | .copyM2S5 | .copyM2S6 | .copyM2S7
  | .copyM2S8 | .copyM2S9 | .copyM2S10 | .copyM2S11 | .copyM2S12 | .copyM2S13 | .copyM2S14 | .copyM2S15
  | .copyM2S16 | .copyM2S17 | .copyM2S18 | .copyM3 | .copyM3S4 | .copyM3S5 | .copyM3S6 | .copyM3S7
  | .copyM3S8 | .copyM3S9 | .copyM3S10 | .copyM3S11 | .copyM3S12 | .copyM3S13 | .copyM3S14 | .copyM3S15
  | .copyM3S16 | .copyM3S17 | .copyM3S18 | .copyM4 | .copyM4S4 | .copyM4S5 | .copyM4S6 | .copyM4S7
  | .copyM4S8 | .copyM4S9 | .copyM4S10 | .copyM4S11 | .copyM4S12 | .copyM4S13 | .copyM4S14 | .copyM4S15
  | .copyM4S16 | .copyM4S17 | .copyM4S18 | .copyM5 | .copyM5S4 | .copyM5S5 | .copyM5S6 | .copyM5S7
  | .copyM5S8 | .copyM5S9 | .copyM5S10 | .copyM5S11 | .copyM5S12 | .copyM5S13 | .copyM5S14 | .copyM5S15
  | .copyM5S16 | .copyM5S17 | .copyM5S18 | .copyM6 | .copyM6S4 | .copyM6S5 | .copyM6S6 | .copyM6S7
  | .copyM6S8 | .copyM6S9 | .copyM6S10 | .copyM6S11 | .copyM6S12 | .copyM6S13 | .copyM6S14 | .copyM6S15
  | .copyM6S16 | .copyM6S17 | .copyM6S18 | .copyM7 | .copyM7S4 | .copyM7S5 | .copyM7S6 | .copyM7S7
  | .copyM7S8 | .copyM7S9 | .copyM7S10 | .copyM7S11 | .copyM7S12 | .copyM7S13 | .copyM7S14 | .copyM7S15
  | .copyM7S16 | .copyM7S17 | .copyM7S18 | .copyM8 | .copyM8S4 | .copyM8S5 | .copyM8S6 | .copyM8S7
  | .copyM8S8 | .copyM8S9 | .copyM8S10 | .copyM8S11 | .copyM8S12 | .copyM8S13 | .copyM8S14 | .copyM8S15
  | .copyM8S16 | .copyM8S17 | .copyM8S18 | .addS1CopyM0S4 | .addS1CopyM0S5 | .addS1CopyM0S6 | .addS2CopyM0S4 | .addS2CopyM0S5
  | .addS2CopyM0S6 | .addS3CopyM0S4 | .addS3CopyM0S5 | .addS3CopyM0S6 | .addS4CopyM0S4 | .addS4CopyM0S5 | .addS4CopyM0S6 | .addS1CopyM1S4
  | .addS1CopyM1S5 | .addS1CopyM1S6 | .addS2CopyM1S4 | .addS2CopyM1S5 | .addS2CopyM1S6 | .addS3CopyM1S4 | .addS3CopyM1S5 | .addS3CopyM1S6
  | .addS4CopyM1S4 | .addS4CopyM1S5 | .addS4CopyM1S6 | .addS1CopyM2S4 | .addS1CopyM2S5 | .addS1CopyM2S6 | .addS2CopyM2S4 | .addS2CopyM2S5
  | .addS2CopyM2S6 | .addS3CopyM2S4 | .addS3CopyM2S5 | .addS3CopyM2S6 | .addS4CopyM2S4 | .addS4CopyM2S5 | .addS4CopyM2S6 | .addS1CopyM3S4
  | .addS1CopyM3S5 | .addS1CopyM3S6 | .addS2CopyM3S4 | .addS2CopyM3S5 | .addS2CopyM3S6 | .addS3CopyM3S4 | .addS3CopyM3S5 | .addS3CopyM3S6
  | .addS4CopyM3S4 | .addS4CopyM3S5 | .addS4CopyM3S6 | .addS1CopyM4S4 | .addS1CopyM4S5 | .addS1CopyM4S6 | .addS2CopyM4S4 | .addS2CopyM4S5
  | .addS2CopyM4S6 | .addS3CopyM4S4 | .addS3CopyM4S5 | .addS3CopyM4S6 | .addS4CopyM4S4 | .addS4CopyM4S5 | .addS4CopyM4S6 | .addS1CopyM5S4
  | .addS1CopyM5S5 | .addS1CopyM5S6 | .addS2CopyM5S4 | .addS2CopyM5S5 | .addS2CopyM5S6 | .addS3CopyM5S4 | .addS3CopyM5S5 | .addS3CopyM5S6
  | .addS4CopyM5S4 | .addS4CopyM5S5 | .addS4CopyM5S6 | .addS1CopyM6S4 | .addS2CopyM6S4 | .addS3CopyM6S4 | .addS4CopyM6S4 | .addS1CopyM7S4
  | .addS2CopyM7S4 | .addS3CopyM7S4 | .addS4CopyM7S4 | .addS1CopyM8S4 | .addS2CopyM8S4 | .addS3CopyM8S4 | .addS4CopyM8S4 | .copyM0S4AddS1
  | .copyM1S4AddS1 | .copyM2S4AddS1 | .copyM3S4AddS1 | .copyM4S4AddS1 | .copyM5S4AddS1 | .copyM6S4AddS1 | .copyM7S4AddS1 | .copyM8S4AddS1 => true
  | .decStart dictionary => decide (dictionary.length ≤ 4294967295)
  | .encNew _ custom =>
    match custom with
    | none => true
    | some g => decide (g.image.length = 1536)
  | .encAdd n offset len bytes => decide (n < offset + len) || decide (bytes.length = len)
  | .decChunk _ | .decFinish | .decSetAllowVcdTarget _ | .decSetMaxTargetFileSize _
  | .decSetMaxTargetWindowSize _ | .decSetMaxSectionSize _ | .encInit _ | .encRun _ _ | .encCopy _ _
  | .encAddChecksum _ | .encOutput | .encWriteHeader _ | .encTargetLength | .encGetDeltaWindowSize => true

end Sys2Proof
end

