-- ==== Sys2Proof/Decode.lean ====
section
/-! DEFINITION. The decoder, total on every byte and every host transaction and rejecting by name, and the encoder.
An opcode is an index, not a bit field (30_encoding.md R101); a host command is its code on `CMD` (R117).

The two formats share the codes 0x01 to 0x07 and 0x10 to 0x19: which one a byte is read as depends on the port it comes
from, the instructions section (`decodeStream`) or `CMD` (`decodeCommand`). -/

namespace Sys2Proof

/-- Why a word names no instruction. -/
inductive DecodeError where
  /-- no byte to read: the stream is at its end -/
  | empty
  /-- a `CMD` code that R117 does not list; the machine refuses it with UsageError.BadConfiguration -/
  | unknownCommand (code : Byte)
  /-- an argument does not fit the width R117 gives it, or a byte string does not have the length the command states -/
  | illFormed (code : Byte)
deriving DecidableEq, Repr

/-- The opcodes 0x00 to 0x0F (R113). -/
def opcodes0 : List Instr :=
  [.run, .add, .addS1, .addS2,
   .addS3, .addS4, .addS5, .addS6,
   .addS7, .addS8, .addS9, .addS10,
   .addS11, .addS12, .addS13, .addS14]

/-- The opcodes 0x10 to 0x1F (R113). -/
def opcodes1 : List Instr :=
  [.addS15, .addS16, .addS17, .copyM0,
   .copyM0S4, .copyM0S5, .copyM0S6, .copyM0S7,
   .copyM0S8, .copyM0S9, .copyM0S10, .copyM0S11,
   .copyM0S12, .copyM0S13, .copyM0S14, .copyM0S15]

/-- The opcodes 0x20 to 0x2F (R113). -/
def opcodes2 : List Instr :=
  [.copyM0S16, .copyM0S17, .copyM0S18, .copyM1,
   .copyM1S4, .copyM1S5, .copyM1S6, .copyM1S7,
   .copyM1S8, .copyM1S9, .copyM1S10, .copyM1S11,
   .copyM1S12, .copyM1S13, .copyM1S14, .copyM1S15]

/-- The opcodes 0x30 to 0x3F (R113). -/
def opcodes3 : List Instr :=
  [.copyM1S16, .copyM1S17, .copyM1S18, .copyM2,
   .copyM2S4, .copyM2S5, .copyM2S6, .copyM2S7,
   .copyM2S8, .copyM2S9, .copyM2S10, .copyM2S11,
   .copyM2S12, .copyM2S13, .copyM2S14, .copyM2S15]

/-- The opcodes 0x40 to 0x4F (R113). -/
def opcodes4 : List Instr :=
  [.copyM2S16, .copyM2S17, .copyM2S18, .copyM3,
   .copyM3S4, .copyM3S5, .copyM3S6, .copyM3S7,
   .copyM3S8, .copyM3S9, .copyM3S10, .copyM3S11,
   .copyM3S12, .copyM3S13, .copyM3S14, .copyM3S15]

/-- The opcodes 0x50 to 0x5F (R113). -/
def opcodes5 : List Instr :=
  [.copyM3S16, .copyM3S17, .copyM3S18, .copyM4,
   .copyM4S4, .copyM4S5, .copyM4S6, .copyM4S7,
   .copyM4S8, .copyM4S9, .copyM4S10, .copyM4S11,
   .copyM4S12, .copyM4S13, .copyM4S14, .copyM4S15]

/-- The opcodes 0x60 to 0x6F (R113). -/
def opcodes6 : List Instr :=
  [.copyM4S16, .copyM4S17, .copyM4S18, .copyM5,
   .copyM5S4, .copyM5S5, .copyM5S6, .copyM5S7,
   .copyM5S8, .copyM5S9, .copyM5S10, .copyM5S11,
   .copyM5S12, .copyM5S13, .copyM5S14, .copyM5S15]

/-- The opcodes 0x70 to 0x7F (R113). -/
def opcodes7 : List Instr :=
  [.copyM5S16, .copyM5S17, .copyM5S18, .copyM6,
   .copyM6S4, .copyM6S5, .copyM6S6, .copyM6S7,
   .copyM6S8, .copyM6S9, .copyM6S10, .copyM6S11,
   .copyM6S12, .copyM6S13, .copyM6S14, .copyM6S15]

/-- The opcodes 0x80 to 0x8F (R113). -/
def opcodes8 : List Instr :=
  [.copyM6S16, .copyM6S17, .copyM6S18, .copyM7,
   .copyM7S4, .copyM7S5, .copyM7S6, .copyM7S7,
   .copyM7S8, .copyM7S9, .copyM7S10, .copyM7S11,
   .copyM7S12, .copyM7S13, .copyM7S14, .copyM7S15]

/-- The opcodes 0x90 to 0x9F (R113). -/
def opcodes9 : List Instr :=
  [.copyM7S16, .copyM7S17, .copyM7S18, .copyM8,
   .copyM8S4, .copyM8S5, .copyM8S6, .copyM8S7,
   .copyM8S8, .copyM8S9, .copyM8S10, .copyM8S11,
   .copyM8S12, .copyM8S13, .copyM8S14, .copyM8S15]

/-- The opcodes 0xA0 to 0xAF (R113). -/
def opcodesA : List Instr :=
  [.copyM8S16, .copyM8S17, .copyM8S18, .addS1CopyM0S4,
   .addS1CopyM0S5, .addS1CopyM0S6, .addS2CopyM0S4, .addS2CopyM0S5,
   .addS2CopyM0S6, .addS3CopyM0S4, .addS3CopyM0S5, .addS3CopyM0S6,
   .addS4CopyM0S4, .addS4CopyM0S5, .addS4CopyM0S6, .addS1CopyM1S4]

/-- The opcodes 0xB0 to 0xBF (R113). -/
def opcodesB : List Instr :=
  [.addS1CopyM1S5, .addS1CopyM1S6, .addS2CopyM1S4, .addS2CopyM1S5,
   .addS2CopyM1S6, .addS3CopyM1S4, .addS3CopyM1S5, .addS3CopyM1S6,
   .addS4CopyM1S4, .addS4CopyM1S5, .addS4CopyM1S6, .addS1CopyM2S4,
   .addS1CopyM2S5, .addS1CopyM2S6, .addS2CopyM2S4, .addS2CopyM2S5]

/-- The opcodes 0xC0 to 0xCF (R113). -/
def opcodesC : List Instr :=
  [.addS2CopyM2S6, .addS3CopyM2S4, .addS3CopyM2S5, .addS3CopyM2S6,
   .addS4CopyM2S4, .addS4CopyM2S5, .addS4CopyM2S6, .addS1CopyM3S4,
   .addS1CopyM3S5, .addS1CopyM3S6, .addS2CopyM3S4, .addS2CopyM3S5,
   .addS2CopyM3S6, .addS3CopyM3S4, .addS3CopyM3S5, .addS3CopyM3S6]

/-- The opcodes 0xD0 to 0xDF (R113). -/
def opcodesD : List Instr :=
  [.addS4CopyM3S4, .addS4CopyM3S5, .addS4CopyM3S6, .addS1CopyM4S4,
   .addS1CopyM4S5, .addS1CopyM4S6, .addS2CopyM4S4, .addS2CopyM4S5,
   .addS2CopyM4S6, .addS3CopyM4S4, .addS3CopyM4S5, .addS3CopyM4S6,
   .addS4CopyM4S4, .addS4CopyM4S5, .addS4CopyM4S6, .addS1CopyM5S4]

/-- The opcodes 0xE0 to 0xEF (R113). -/
def opcodesE : List Instr :=
  [.addS1CopyM5S5, .addS1CopyM5S6, .addS2CopyM5S4, .addS2CopyM5S5,
   .addS2CopyM5S6, .addS3CopyM5S4, .addS3CopyM5S5, .addS3CopyM5S6,
   .addS4CopyM5S4, .addS4CopyM5S5, .addS4CopyM5S6, .addS1CopyM6S4,
   .addS2CopyM6S4, .addS3CopyM6S4, .addS4CopyM6S4, .addS1CopyM7S4]

/-- The opcodes 0xF0 to 0xFF (R113). -/
def opcodesF : List Instr :=
  [.addS2CopyM7S4, .addS3CopyM7S4, .addS4CopyM7S4, .addS1CopyM8S4,
   .addS2CopyM8S4, .addS3CopyM8S4, .addS4CopyM8S4, .copyM0S4AddS1,
   .copyM1S4AddS1, .copyM2S4AddS1, .copyM3S4AddS1, .copyM4S4AddS1,
   .copyM5S4AddS1, .copyM6S4AddS1, .copyM7S4AddS1, .copyM8S4AddS1]

/-- The instructions of the stream, by opcode (R113). -/
def opcodeTable : List Instr :=
  opcodes0 ++ opcodes1 ++ opcodes2 ++ opcodes3 ++ opcodes4 ++ opcodes5 ++ opcodes6 ++ opcodes7
  ++ opcodes8 ++ opcodes9 ++ opcodesA ++ opcodesB ++ opcodesC ++ opcodesD ++ opcodesE ++ opcodesF

/-- The instruction of an opcode byte: all 256 are assigned (R113), so the fallback is never read. -/
def decodeOpcode (op : Byte) : Instr := opcodeTable.getD op.toNat .run

/-- Read one opcode from the front of an instruction stream, and give the rest. -/
def decodeStream : Bytes → Except DecodeError (Instr × Bytes)
  | [] => .error .empty
  | op :: rest => .ok (decodeOpcode op, rest)

/-- Keep a decoded command if it is well-formed. -/
def acceptIf (code : Byte) (fits : Bool) (i : Instr) : Except DecodeError Instr :=
  if fits && i.wf then .ok i else .error (.illFormed code)

/-- A 1-bit argument. -/
def fitsBit (v : Nat) : Bool := decide (v < 2)

/-- A 32-bit argument. -/
def fits32 (v : Nat) : Bool := decide (v < 4294967296)

/-- A 64-bit argument. -/
def fits64 (v : Nat) : Bool := decide (v < 18446744073709551616)

/-- The optional group of `ENC_NEW`: the image on `CTAB_IN` and the three sizes that follow `interleaved`. -/
def customGroup (t : HostCmd) : Option CustomTable :=
  t.ctabIn.map (fun img => { image := img, nearSize := t.arg1, sameSize := t.arg2, maxMode := t.arg3 })

/-- Read one transaction of the host (R117). -/
def decodeCommand (t : HostCmd) : Except DecodeError Instr :=
  let c := t.code
  if c = 0x01 then acceptIf c true (.decStart t.dict)
  else if c = 0x02 then acceptIf c true (.decChunk t.input)
  else if c = 0x03 then acceptIf c true .decFinish
  else if c = 0x04 then acceptIf c (fitsBit t.arg0) (.decSetAllowVcdTarget (t.arg0 == 1))
  else if c = 0x05 then acceptIf c (fits64 t.arg0) (.decSetMaxTargetFileSize (BitVec.ofNat 64 t.arg0))
  else if c = 0x06 then acceptIf c (fits32 t.arg0) (.decSetMaxTargetWindowSize (BitVec.ofNat 32 t.arg0))
  else if c = 0x07 then acceptIf c (fits32 t.arg0) (.decSetMaxSectionSize (BitVec.ofNat 32 t.arg0))
  else if c = 0x10 then acceptIf c (fitsBit t.arg0) (.encNew (t.arg0 == 1) (customGroup t))
  else if c = 0x11 then acceptIf c (fits32 t.arg0) (.encInit (BitVec.ofNat 32 t.arg0))
  else if c = 0x12 then acceptIf c true (.encAdd t.arg0 t.arg1 t.arg2 t.encData)
  else if c = 0x13 then
    acceptIf c (fits32 t.arg0 && decide (t.arg1 < 256)) (.encRun (BitVec.ofNat 32 t.arg0) (BitVec.ofNat 8 t.arg1))
  else if c = 0x14 then
    acceptIf c (fits32 t.arg0 && fits32 t.arg1) (.encCopy (BitVec.ofNat 32 t.arg0) (BitVec.ofNat 32 t.arg1))
  else if c = 0x15 then acceptIf c (fits32 t.arg0) (.encAddChecksum (BitVec.ofNat 32 t.arg0))
  else if c = 0x16 then acceptIf c true .encOutput
  else if c = 0x17 then acceptIf c (fitsBit t.arg0) (.encWriteHeader (t.arg0 == 1))
  else if c = 0x18 then acceptIf c true .encTargetLength
  else if c = 0x19 then acceptIf c true .encGetDeltaWindowSize
  else .error (.unknownCommand c)

/-- The codes R117 lists. -/
def isCommandCode (c : Byte) : Bool :=
  (decide (1 ≤ c.toNat) && decide (c.toNat ≤ 7)) || (decide (16 ≤ c.toNat) && decide (c.toNat ≤ 25))

/-- The decoder on either port. -/
def decode : Encoded → Except DecodeError Instr
  | .stream bytes => (decodeStream bytes).map (·.1)
  | .command t => decodeCommand t

/-- The encoder: the opcode byte of a stream instruction (R113), the transaction of a command (R117). -/
def encode : Instr → Encoded
  | .run => .stream [0x00]
  | .add => .stream [0x01]
  | .addS1 => .stream [0x02]
  | .addS2 => .stream [0x03]
  | .addS3 => .stream [0x04]
  | .addS4 => .stream [0x05]
  | .addS5 => .stream [0x06]
  | .addS6 => .stream [0x07]
  | .addS7 => .stream [0x08]
  | .addS8 => .stream [0x09]
  | .addS9 => .stream [0x0A]
  | .addS10 => .stream [0x0B]
  | .addS11 => .stream [0x0C]
  | .addS12 => .stream [0x0D]
  | .addS13 => .stream [0x0E]
  | .addS14 => .stream [0x0F]
  | .addS15 => .stream [0x10]
  | .addS16 => .stream [0x11]
  | .addS17 => .stream [0x12]
  | .copyM0 => .stream [0x13]
  | .copyM0S4 => .stream [0x14]
  | .copyM0S5 => .stream [0x15]
  | .copyM0S6 => .stream [0x16]
  | .copyM0S7 => .stream [0x17]
  | .copyM0S8 => .stream [0x18]
  | .copyM0S9 => .stream [0x19]
  | .copyM0S10 => .stream [0x1A]
  | .copyM0S11 => .stream [0x1B]
  | .copyM0S12 => .stream [0x1C]
  | .copyM0S13 => .stream [0x1D]
  | .copyM0S14 => .stream [0x1E]
  | .copyM0S15 => .stream [0x1F]
  | .copyM0S16 => .stream [0x20]
  | .copyM0S17 => .stream [0x21]
  | .copyM0S18 => .stream [0x22]
  | .copyM1 => .stream [0x23]
  | .copyM1S4 => .stream [0x24]
  | .copyM1S5 => .stream [0x25]
  | .copyM1S6 => .stream [0x26]
  | .copyM1S7 => .stream [0x27]
  | .copyM1S8 => .stream [0x28]
  | .copyM1S9 => .stream [0x29]
  | .copyM1S10 => .stream [0x2A]
  | .copyM1S11 => .stream [0x2B]
  | .copyM1S12 => .stream [0x2C]
  | .copyM1S13 => .stream [0x2D]
  | .copyM1S14 => .stream [0x2E]
  | .copyM1S15 => .stream [0x2F]
  | .copyM1S16 => .stream [0x30]
  | .copyM1S17 => .stream [0x31]
  | .copyM1S18 => .stream [0x32]
  | .copyM2 => .stream [0x33]
  | .copyM2S4 => .stream [0x34]
  | .copyM2S5 => .stream [0x35]
  | .copyM2S6 => .stream [0x36]
  | .copyM2S7 => .stream [0x37]
  | .copyM2S8 => .stream [0x38]
  | .copyM2S9 => .stream [0x39]
  | .copyM2S10 => .stream [0x3A]
  | .copyM2S11 => .stream [0x3B]
  | .copyM2S12 => .stream [0x3C]
  | .copyM2S13 => .stream [0x3D]
  | .copyM2S14 => .stream [0x3E]
  | .copyM2S15 => .stream [0x3F]
  | .copyM2S16 => .stream [0x40]
  | .copyM2S17 => .stream [0x41]
  | .copyM2S18 => .stream [0x42]
  | .copyM3 => .stream [0x43]
  | .copyM3S4 => .stream [0x44]
  | .copyM3S5 => .stream [0x45]
  | .copyM3S6 => .stream [0x46]
  | .copyM3S7 => .stream [0x47]
  | .copyM3S8 => .stream [0x48]
  | .copyM3S9 => .stream [0x49]
  | .copyM3S10 => .stream [0x4A]
  | .copyM3S11 => .stream [0x4B]
  | .copyM3S12 => .stream [0x4C]
  | .copyM3S13 => .stream [0x4D]
  | .copyM3S14 => .stream [0x4E]
  | .copyM3S15 => .stream [0x4F]
  | .copyM3S16 => .stream [0x50]
  | .copyM3S17 => .stream [0x51]
  | .copyM3S18 => .stream [0x52]
  | .copyM4 => .stream [0x53]
  | .copyM4S4 => .stream [0x54]
  | .copyM4S5 => .stream [0x55]
  | .copyM4S6 => .stream [0x56]
  | .copyM4S7 => .stream [0x57]
  | .copyM4S8 => .stream [0x58]
  | .copyM4S9 => .stream [0x59]
  | .copyM4S10 => .stream [0x5A]
  | .copyM4S11 => .stream [0x5B]
  | .copyM4S12 => .stream [0x5C]
  | .copyM4S13 => .stream [0x5D]
  | .copyM4S14 => .stream [0x5E]
  | .copyM4S15 => .stream [0x5F]
  | .copyM4S16 => .stream [0x60]
  | .copyM4S17 => .stream [0x61]
  | .copyM4S18 => .stream [0x62]
  | .copyM5 => .stream [0x63]
  | .copyM5S4 => .stream [0x64]
  | .copyM5S5 => .stream [0x65]
  | .copyM5S6 => .stream [0x66]
  | .copyM5S7 => .stream [0x67]
  | .copyM5S8 => .stream [0x68]
  | .copyM5S9 => .stream [0x69]
  | .copyM5S10 => .stream [0x6A]
  | .copyM5S11 => .stream [0x6B]
  | .copyM5S12 => .stream [0x6C]
  | .copyM5S13 => .stream [0x6D]
  | .copyM5S14 => .stream [0x6E]
  | .copyM5S15 => .stream [0x6F]
  | .copyM5S16 => .stream [0x70]
  | .copyM5S17 => .stream [0x71]
  | .copyM5S18 => .stream [0x72]
  | .copyM6 => .stream [0x73]
  | .copyM6S4 => .stream [0x74]
  | .copyM6S5 => .stream [0x75]
  | .copyM6S6 => .stream [0x76]
  | .copyM6S7 => .stream [0x77]
  | .copyM6S8 => .stream [0x78]
  | .copyM6S9 => .stream [0x79]
  | .copyM6S10 => .stream [0x7A]
  | .copyM6S11 => .stream [0x7B]
  | .copyM6S12 => .stream [0x7C]
  | .copyM6S13 => .stream [0x7D]
  | .copyM6S14 => .stream [0x7E]
  | .copyM6S15 => .stream [0x7F]
  | .copyM6S16 => .stream [0x80]
  | .copyM6S17 => .stream [0x81]
  | .copyM6S18 => .stream [0x82]
  | .copyM7 => .stream [0x83]
  | .copyM7S4 => .stream [0x84]
  | .copyM7S5 => .stream [0x85]
  | .copyM7S6 => .stream [0x86]
  | .copyM7S7 => .stream [0x87]
  | .copyM7S8 => .stream [0x88]
  | .copyM7S9 => .stream [0x89]
  | .copyM7S10 => .stream [0x8A]
  | .copyM7S11 => .stream [0x8B]
  | .copyM7S12 => .stream [0x8C]
  | .copyM7S13 => .stream [0x8D]
  | .copyM7S14 => .stream [0x8E]
  | .copyM7S15 => .stream [0x8F]
  | .copyM7S16 => .stream [0x90]
  | .copyM7S17 => .stream [0x91]
  | .copyM7S18 => .stream [0x92]
  | .copyM8 => .stream [0x93]
  | .copyM8S4 => .stream [0x94]
  | .copyM8S5 => .stream [0x95]
  | .copyM8S6 => .stream [0x96]
  | .copyM8S7 => .stream [0x97]
  | .copyM8S8 => .stream [0x98]
  | .copyM8S9 => .stream [0x99]
  | .copyM8S10 => .stream [0x9A]
  | .copyM8S11 => .stream [0x9B]
  | .copyM8S12 => .stream [0x9C]
  | .copyM8S13 => .stream [0x9D]
  | .copyM8S14 => .stream [0x9E]
  | .copyM8S15 => .stream [0x9F]
  | .copyM8S16 => .stream [0xA0]
  | .copyM8S17 => .stream [0xA1]
  | .copyM8S18 => .stream [0xA2]
  | .addS1CopyM0S4 => .stream [0xA3]
  | .addS1CopyM0S5 => .stream [0xA4]
  | .addS1CopyM0S6 => .stream [0xA5]
  | .addS2CopyM0S4 => .stream [0xA6]
  | .addS2CopyM0S5 => .stream [0xA7]
  | .addS2CopyM0S6 => .stream [0xA8]
  | .addS3CopyM0S4 => .stream [0xA9]
  | .addS3CopyM0S5 => .stream [0xAA]
  | .addS3CopyM0S6 => .stream [0xAB]
  | .addS4CopyM0S4 => .stream [0xAC]
  | .addS4CopyM0S5 => .stream [0xAD]
  | .addS4CopyM0S6 => .stream [0xAE]
  | .addS1CopyM1S4 => .stream [0xAF]
  | .addS1CopyM1S5 => .stream [0xB0]
  | .addS1CopyM1S6 => .stream [0xB1]
  | .addS2CopyM1S4 => .stream [0xB2]
  | .addS2CopyM1S5 => .stream [0xB3]
  | .addS2CopyM1S6 => .stream [0xB4]
  | .addS3CopyM1S4 => .stream [0xB5]
  | .addS3CopyM1S5 => .stream [0xB6]
  | .addS3CopyM1S6 => .stream [0xB7]
  | .addS4CopyM1S4 => .stream [0xB8]
  | .addS4CopyM1S5 => .stream [0xB9]
  | .addS4CopyM1S6 => .stream [0xBA]
  | .addS1CopyM2S4 => .stream [0xBB]
  | .addS1CopyM2S5 => .stream [0xBC]
  | .addS1CopyM2S6 => .stream [0xBD]
  | .addS2CopyM2S4 => .stream [0xBE]
  | .addS2CopyM2S5 => .stream [0xBF]
  | .addS2CopyM2S6 => .stream [0xC0]
  | .addS3CopyM2S4 => .stream [0xC1]
  | .addS3CopyM2S5 => .stream [0xC2]
  | .addS3CopyM2S6 => .stream [0xC3]
  | .addS4CopyM2S4 => .stream [0xC4]
  | .addS4CopyM2S5 => .stream [0xC5]
  | .addS4CopyM2S6 => .stream [0xC6]
  | .addS1CopyM3S4 => .stream [0xC7]
  | .addS1CopyM3S5 => .stream [0xC8]
  | .addS1CopyM3S6 => .stream [0xC9]
  | .addS2CopyM3S4 => .stream [0xCA]
  | .addS2CopyM3S5 => .stream [0xCB]
  | .addS2CopyM3S6 => .stream [0xCC]
  | .addS3CopyM3S4 => .stream [0xCD]
  | .addS3CopyM3S5 => .stream [0xCE]
  | .addS3CopyM3S6 => .stream [0xCF]
  | .addS4CopyM3S4 => .stream [0xD0]
  | .addS4CopyM3S5 => .stream [0xD1]
  | .addS4CopyM3S6 => .stream [0xD2]
  | .addS1CopyM4S4 => .stream [0xD3]
  | .addS1CopyM4S5 => .stream [0xD4]
  | .addS1CopyM4S6 => .stream [0xD5]
  | .addS2CopyM4S4 => .stream [0xD6]
  | .addS2CopyM4S5 => .stream [0xD7]
  | .addS2CopyM4S6 => .stream [0xD8]
  | .addS3CopyM4S4 => .stream [0xD9]
  | .addS3CopyM4S5 => .stream [0xDA]
  | .addS3CopyM4S6 => .stream [0xDB]
  | .addS4CopyM4S4 => .stream [0xDC]
  | .addS4CopyM4S5 => .stream [0xDD]
  | .addS4CopyM4S6 => .stream [0xDE]
  | .addS1CopyM5S4 => .stream [0xDF]
  | .addS1CopyM5S5 => .stream [0xE0]
  | .addS1CopyM5S6 => .stream [0xE1]
  | .addS2CopyM5S4 => .stream [0xE2]
  | .addS2CopyM5S5 => .stream [0xE3]
  | .addS2CopyM5S6 => .stream [0xE4]
  | .addS3CopyM5S4 => .stream [0xE5]
  | .addS3CopyM5S5 => .stream [0xE6]
  | .addS3CopyM5S6 => .stream [0xE7]
  | .addS4CopyM5S4 => .stream [0xE8]
  | .addS4CopyM5S5 => .stream [0xE9]
  | .addS4CopyM5S6 => .stream [0xEA]
  | .addS1CopyM6S4 => .stream [0xEB]
  | .addS2CopyM6S4 => .stream [0xEC]
  | .addS3CopyM6S4 => .stream [0xED]
  | .addS4CopyM6S4 => .stream [0xEE]
  | .addS1CopyM7S4 => .stream [0xEF]
  | .addS2CopyM7S4 => .stream [0xF0]
  | .addS3CopyM7S4 => .stream [0xF1]
  | .addS4CopyM7S4 => .stream [0xF2]
  | .addS1CopyM8S4 => .stream [0xF3]
  | .addS2CopyM8S4 => .stream [0xF4]
  | .addS3CopyM8S4 => .stream [0xF5]
  | .addS4CopyM8S4 => .stream [0xF6]
  | .copyM0S4AddS1 => .stream [0xF7]
  | .copyM1S4AddS1 => .stream [0xF8]
  | .copyM2S4AddS1 => .stream [0xF9]
  | .copyM3S4AddS1 => .stream [0xFA]
  | .copyM4S4AddS1 => .stream [0xFB]
  | .copyM5S4AddS1 => .stream [0xFC]
  | .copyM6S4AddS1 => .stream [0xFD]
  | .copyM7S4AddS1 => .stream [0xFE]
  | .copyM8S4AddS1 => .stream [0xFF]
  | .decStart dictionary => .command { code := 0x01, dict := dictionary }
  | .decChunk chunk => .command { code := 0x02, input := chunk }
  | .decFinish => .command { code := 0x03 }
  | .decSetAllowVcdTarget allow => .command { code := 0x04, arg0 := allow.toNat }
  | .decSetMaxTargetFileSize cap => .command { code := 0x05, arg0 := cap.toNat }
  | .decSetMaxTargetWindowSize cap => .command { code := 0x06, arg0 := cap.toNat }
  | .decSetMaxSectionSize cap => .command { code := 0x07, arg0 := cap.toNat }
  | .encNew interleaved none => .command { code := 0x10, arg0 := interleaved.toNat }
  | .encNew interleaved (some g) =>
    .command { code := 0x10, arg0 := interleaved.toNat, arg1 := g.nearSize, arg2 := g.sameSize, arg3 := g.maxMode,
               ctabIn := some g.image }
  | .encInit dictionarySize => .command { code := 0x11, arg0 := dictionarySize.toNat }
  | .encAdd n offset len bytes => .command { code := 0x12, arg0 := n, arg1 := offset, arg2 := len, encData := bytes }
  | .encRun size byte => .command { code := 0x13, arg0 := size.toNat, arg1 := byte.toNat }
  | .encCopy offset size => .command { code := 0x14, arg0 := offset.toNat, arg1 := size.toNat }
  | .encAddChecksum checksum => .command { code := 0x15, arg0 := checksum.toNat }
  | .encOutput => .command { code := 0x16 }
  | .encWriteHeader extensions => .command { code := 0x17, arg0 := extensions.toNat }
  | .encTargetLength => .command { code := 0x18 }
  | .encGetDeltaWindowSize => .command { code := 0x19 }

/-- The opcode byte of a stream instruction; a host command has none. -/
def opcodeOf (i : Instr) : Option Byte :=
  match encode i with
  | .stream (op :: _) => some op
  | _ => none

/-- The instruction of a table word (all words of the table are 8 bits). A code of R117 is read as on the `CMD` port, with
all argument ports zero or empty; every other byte is read as an opcode of the stream (log entry 1). -/
def decodeTableWord (nbits w : Nat) : Option Instr :=
  if nbits = 8 ∧ w < 256 then
    if isCommandCode (BitVec.ofNat 8 w) then (decodeCommand { code := BitVec.ofNat 8 w }).toOption
    else some (decodeOpcode (BitVec.ofNat 8 w))
  else none

end Sys2Proof
end

