-- ==== Sys2Proof/Machine/Adler32.lean ====
section
/-! DEFINITION. Unit U6, ADLER (46_adler32.md R360 to R362). -/

namespace Sys2Proof.Machine

/-- One turn of the loop of R360 on the pair `(a, b)`. -/
def adlerStep (p : Nat × Nat) (x : Byte) : Nat × Nat :=
  ((p.1 + x.toNat) % 65521, (p.2 + (p.1 + x.toNat) % 65521) % 65521)

/-- The pair `(a, b)` after the bytes of `s`, from the pair `p` (R361). -/
def adlerPair (p : Nat × Nat) (s : Bytes) : Nat × Nat := s.foldl adlerStep p

/-- `ADLER32(s)` (R360): `b · 65536 + a`, an unsigned 32-bit value. -/
def adler32 (s : Bytes) : Word :=
  BitVec.ofNat 32 ((adlerPair (1, 0) s).2 * 65536 + (adlerPair (1, 0) s).1)

end Sys2Proof.Machine
end

