-- ==== Sys2Proof/Machine/Regs.lean ====
section
/-! DEFINITION. The types of VCORE's registers: enumerations, code-table rows, the address cache and the
group of per-window working registers (10_state.md R23 to R28, R35, R37, R38; 00_scope.md R6, R9;
60_exceptions.md R372). Operations on them stand in the other files of this folder. -/

namespace Sys2Proof.Machine

/-- `SAME_INDEX_FN` (R6, R193): the source's function `DOC`, or the RFC's. -/
inductive SameIndexFn where
  | doc
  | rfc
deriving DecidableEq, Repr, Inhabited

/-- The four instruction types (R9). -/
inductive InstKind where
  | noop
  | add
  | run
  | copy
deriving DecidableEq, Repr, Inhabited

/-- `SRC_SEG_SPACE` (R23): where the source segment of the window lies. -/
inductive SegSpace where
  | none
  | dict
  | dtarget
deriving DecidableEq, Repr, Inhabited

/-- `DEC_STATE` (R37). -/
inductive DecState where
  | idle
  | expectHeader
  | customTable
  | expectWinIndicator
  | inWindow
  | finished
  | poisoned
deriving DecidableEq, Repr, Inhabited

/-- `ENC_STATE` (R38). -/
inductive EncState where
  | created
  | ready
  | failed
deriving DecidableEq, Repr, Inhabited

/-- `CT_PHASE` (R35). -/
inductive CtPhase where
  | params
  | innerHeader
  | innerWindows
deriving DecidableEq, Repr, Inhabited

/-- One half of a code-table row: `(inst, size, mode)`, three bytes (R27, R110). -/
structure Half where
  inst : Byte
  size : Byte
  mode : Byte
deriving DecidableEq, Repr, Inhabited

/-- One row of a code table: six byte-wide fields, grouped in the two halves (R27). -/
structure Row where
  first : Half
  second : Half
deriving DecidableEq, Repr, Inhabited

/-- A code table: the rows of opcodes 0, 1, … in order (R27). -/
abbrev Table := List Row

/-- The address cache of one context (R28) with its sizes and its index function.
`nearSize` and `sameSize` are the homes of CR6/CR7 (encoder) and CR9/CR10 (decoder) (R22); `indexFn` is the
parameter `SAME_INDEX_FN` of R6, which no instruction writes. -/
structure AddrCache where
  nearSize : Nat
  sameSize : Nat
  indexFn : SameIndexFn
  near : List Nat
  same : List Nat
  nextSlot : Nat
deriving DecidableEq, Repr, Inhabited

/-- The working registers of one decoder context (R23) and its cursors (R24, R25).
`bodyPos` is the offset in `PENDING` of the first byte of the window body, the `c` of R320: the sections are
views into `PENDING` (R66), and this is where the views begin. -/
structure WindowRegs where
  winIndicator : Byte
  srcSegSize : Nat
  srcSegPos : Nat
  srcSegSpace : SegSpace
  deltaLen : Nat
  targetLen : Nat
  dataLen : Nat
  instLen : Nat
  addrLen : Nat
  checksum : Word
  prevInst : InstKind
  ip : Nat
  dp : Nat
  ap : Nat
  bodyPos : Nat
deriving DecidableEq, Repr, Inhabited

/-- The error outcomes of the unit operations (R133, R196), before a rule gives them a kind. -/
inductive UnitError where
  | varIntOverflow
  | sameCacheMiss
  | copyAddressOutOfBounds
deriving DecidableEq, Repr

/-- The causes of R372, in the order of its table. -/
inductive Cause where
  | truncated
  | badMagic
  | badVersionByte
  | hdrIndicatorReserved
  | deltaIndicatorNonZero
  | winIndicatorReserved
  | winSourceAndTarget
  | sourceSegmentOutOfBounds
  | deltaLengthMismatch
  | headerVarIntOverflow
  | badCodeTable
  | customTableTooDeep
  | badCacheSizes
  | copyAddressOutOfBounds
  | sameCacheMiss
  | sectionOverrun
  | targetLengthMismatch
  | sectionNotConsumed
  | targetOverrun
  | streamVarIntOverflow
  | vcdTargetDisallowed
  | sectionTooLarge
  | windowTooLarge
  | targetFileTooLarge
  | secondaryCompressor
  | checksumMismatch
  | notInitialised
  | sliceOutOfBounds
  | copyOffsetOutOfRange
  | decoderNotStarted
  | targetLengthOverflow
  | badConfiguration
  | commandAfterFailure
  | deltaLengthDisagrees
  | noOpcodeForInstruction
deriving DecidableEq, Repr

end Sys2Proof.Machine
end

