-- ==== Sys2Proof/Machine/Errors.lean ====
section
/-! DEFINITION. The codes of the error kinds and causes (60_exceptions.md R370 to R372). -/

namespace Sys2Proof.Machine

/-- The cause code of R372, `kind · 16 + n`. -/
def causeCode : Cause → Byte
  | .truncated => 0x11
  | .badMagic => 0x21
  | .badVersionByte => 0x22
  | .hdrIndicatorReserved => 0x23
  | .deltaIndicatorNonZero => 0x24
  | .winIndicatorReserved => 0x25
  | .winSourceAndTarget => 0x26
  | .sourceSegmentOutOfBounds => 0x27
  | .deltaLengthMismatch => 0x28
  | .headerVarIntOverflow => 0x29
  | .badCodeTable => 0x2A
  | .customTableTooDeep => 0x2B
  | .badCacheSizes => 0x2C
  | .copyAddressOutOfBounds => 0x31
  | .sameCacheMiss => 0x32
  | .sectionOverrun => 0x33
  | .targetLengthMismatch => 0x34
  | .sectionNotConsumed => 0x35
  | .targetOverrun => 0x36
  | .streamVarIntOverflow => 0x37
  | .vcdTargetDisallowed => 0x41
  | .sectionTooLarge => 0x42
  | .windowTooLarge => 0x43
  | .targetFileTooLarge => 0x44
  | .secondaryCompressor => 0x45
  | .checksumMismatch => 0x51
  | .notInitialised => 0x61
  | .sliceOutOfBounds => 0x62
  | .copyOffsetOutOfRange => 0x63
  | .decoderNotStarted => 0x64
  | .targetLengthOverflow => 0x65
  | .badConfiguration => 0x66
  | .commandAfterFailure => 0x67
  | .deltaLengthDisagrees => 0x71
  | .noOpcodeForInstruction => 0x72

/-- The kind code of R370: bits 6:4 of the cause code (R372). -/
def causeKind (c : Cause) : BitVec 3 := BitVec.ofNat 3 ((causeCode c).toNat / 16)

/-- The cause under which an error of a unit operation is raised inside a section (R266, R371). -/
def sectionCause : UnitError → Cause
  | .varIntOverflow => .streamVarIntOverflow
  | .sameCacheMiss => .sameCacheMiss
  | .copyAddressOutOfBounds => .copyAddressOutOfBounds

end Sys2Proof.Machine
end

