-- ==== Sys2Proof/Machine/Space.lean ====
section
/-! DEFINITION. Byte spaces (20_memory.md R60 to R73). VCORE has no flat memory: every space is byte-addressed from 0 and
dense, so a space is held as its byte string, address `a` being index `a` (log entry 5). -/

namespace Sys2Proof.Machine

/-- `MemRead(space, addr, n)` (R8, R73): the `n` bytes from `addr` on; `none` if an address of them does not exist (R65). -/
def memRead (space : Bytes) (addr n : Nat) : Option Bytes :=
  if addr + n ≤ space.length then some ((space.drop addr).take n) else none

/-- `MemRead(space, addr, 1)`. -/
def memByte (space : Bytes) (addr : Nat) : Option Byte := space[addr]?

/-- `Append(space, v)` (R8): write at the space's current length. -/
def memAppend (space v : Bytes) : Bytes := space ++ v

/-- The (address, byte) pairs of a space from address `a` on. -/
def cellsFrom : Nat → Bytes → List Host.Cell
  | _, [] => []
  | a, b :: rest => (a, b) :: cellsFrom (a + 1) rest

/-- The (address, byte) pairs of a space: one for every address that exists, in rising order. -/
def spaceCells (space : Bytes) : List Host.Cell := cellsFrom 0 space

/-- The canonical form of a list of pairs: addresses strictly rising. An unlisted address has no byte, so no entry is
redundant. -/
def Memory.wf : List Host.Cell → Bool
  | [] => true
  | [_] => true
  | c :: d :: rest => decide (c.1 < d.1) && Memory.wf (d :: rest)

end Sys2Proof.Machine
end

