-- ==== Sys2Proof/Config.lean ====
section
/-! DEFINITION. What an implementation of VCORE fixes (00_scope.md R6) and the values the spec leaves free.
A free value is an opaque constant: no proof can see what it is. -/

namespace Sys2Proof.Config

open Sys2Proof.Machine

/-- `NEAR_SIZE_DEFAULT` (R6). -/
def nearSizeDefault : Nat := 4

/-- `SAME_SIZE_DEFAULT` (R6). -/
def sameSizeDefault : Nat := 3

/-- `MAX_MODE_DEFAULT` (R6): `1 + near + same`. -/
def maxModeDefault : Nat := 8

/-- Reset value of the three caps CR1, CR2, CR3: 64 MiB (R6, R22). -/
def capDefault : Nat := 67108864

/-- `CODE_TABLE_IMAGE_SIZE` (R6). -/
def codeTableImageSize : Nat := 1536

/-- `SAME_INDEX_FN` (R6, R193): VCORE's value is `DOC`. The operations take the function from the cache they
work on, so what is proved of them holds for `RFC` as well. -/
def sameIndexFn : SameIndexFn := .doc

/-- `META_DICT` (R6, 91_not_in_source.md N9): the dictionary of the nested decode of a custom code table.
An open parameter: nothing is assumed of its bytes (log entry 3). -/
opaque metaDict : Bytes

/-- The working registers and cursors of a decoder context outside the span of a window: any value
(93_implementation_defined.md U2; log entry 2). -/
opaque freeWindow : Nat → WindowRegs

/-- The contents of the decoder's address cache outside the span of a window: any value (R385, U2; log entry 2). -/
opaque freeCache : Nat → AddrCache

end Sys2Proof.Config
end

