-- ==== Sys2Proof/Machine/VarInt.lean ====
section
/-! DEFINITION. Unit U1, VARINT (40_varint.md R130 to R137). Pure functions; the byte format is 30_encoding.md R90. -/

namespace Sys2Proof.Machine

/-- The three outcomes of a unit operation (R8): a result with the advanced cursor, the source ended inside the
item, or an error. -/
inductive ReadOut where
  | value (v : Nat) (cur : Nat)
  | needMore
  | error (e : UnitError)
deriving DecidableEq, Repr

/-- The loop of R130; `fuel` is how many further divisions a value below 2^64 can take. -/
def viLenLoop : Nat → Nat → Nat
  | 0, _ => 1
  | fuel + 1, v => if 128 ≤ v then viLenLoop fuel (v / 128) + 1 else 1

/-- `VI_LEN` (R130): the bytes of the shortest VarInt of `v < 2^64`, 1 … 10. -/
def viLen (v : Nat) : Nat := viLenLoop 9 v

/-- Byte `i` of the `n`-byte VarInt of `v` (R131): the 7-bit group, with the continuation bit on all but the last.
The group is below 128, so adding 128 is the rule's `| 0x80`. -/
def viByte (v n i : Nat) : Byte :=
  BitVec.ofNat 8 (v / 128 ^ (n - 1 - i) % 128 + (if i + 1 < n then 128 else 0))

/-- The shortest VarInt of `v`, as bytes (`VarInt(v)` of R227). -/
def viWrite (v : Nat) : Bytes := (List.range (viLen v)).map (viByte v (viLen v))

/-- `VI_WRITE32` (R131): append the VarInt of `v ≤ 2^32 − 1` to `w`. -/
def viWrite32 (w : Bytes) (v : Nat) : Bytes := w ++ viWrite v

/-- `VI_WRITE64` (R132): append the VarInt of `v ≤ 2^64 − 1` to `w`. -/
def viWrite64 (w : Bytes) (v : Nat) : Bytes := w ++ viWrite v

/-- The loop of R133. `b[7] = 0` is `b < 128` and `b[6:0]` is `b mod 128`; the first argument counts the bytes still
allowed by the cap. -/
def viReadLoop (width : Nat) (src : Bytes) (lim : Nat) : Nat → Nat → Nat → ReadOut
  | 0, _, _ => .error .varIntOverflow
  | left + 1, cur, acc =>
    if lim ≤ cur then .needMore
    else
      match src[cur]? with
      | none => .needMore
      | some b =>
        if b.toNat < 128 then
          if 2 ^ width ≤ acc * 128 + b.toNat % 128 then .error .varIntOverflow
          else .value (acc * 128 + b.toNat % 128) (cur + 1)
        else viReadLoop width src lim left (cur + 1) (acc * 128 + b.toNat % 128)

/-- The byte cap of a VarInt of width 32 or 64: 5 or 10 bytes (R6, R133). -/
def viMaxBytes (width : Nat) : Nat := if width = 32 then 5 else 10

/-- `VI_READ(W, src, cur, end)` (R133). -/
def viRead (width : Nat) (src : Bytes) (cur lim : Nat) : ReadOut :=
  viReadLoop width src lim (viMaxBytes width) cur 0

/-- `VI_PEEK` (R136): the outcome of `VI_READ`, the caller's cursor unchanged. -/
def viPeek (width : Nat) (src : Bytes) (cur lim : Nat) : ReadOut :=
  match viRead width src cur lim with
  | .value v _ => .value v cur
  | .needMore => .needMore
  | .error e => .error e

/-- `BYTE_READ` (R137): one raw byte; it has no error outcome. -/
def byteRead (src : Bytes) (cur lim : Nat) : ReadOut :=
  if lim ≤ cur then .needMore
  else
    match src[cur]? with
    | none => .needMore
    | some b => .value b.toNat (cur + 1)

end Sys2Proof.Machine
end

