-- ==== Sys2Proof/Machine/AddressCache.lean ====
section
/-! DEFINITION. Unit U3, ACACHE (42_address_cache.md R190 to R200). -/

namespace Sys2Proof.Machine

/-- A cleared cache of the given sizes: what `AC_INIT` leaves (R191). -/
def freshCache (nearSize sameSize : Nat) (fn : SameIndexFn) : AddrCache :=
  { nearSize := nearSize, sameSize := sameSize, indexFn := fn,
    near := List.replicate nearSize 0, same := List.replicate (sameSize * 256) 0, nextSlot := 0 }

/-- `AC_INIT` (R191). -/
def acInit (c : AddrCache) : AddrCache := freshCache c.nearSize c.sameSize c.indexFn

/-- `SAME_INDEX(addr)` (R193), read only where `same_size > 0`. -/
def sameIndex (c : AddrCache) (addr : Nat) : Nat :=
  match c.indexFn with
  | .doc => addr % c.sameSize * 256 + addr % 256
  | .rfc => addr % (c.sameSize * 256)

/-- The ring part of `AC_UPDATE` (R192). -/
def acPutNear (c : AddrCache) (addr : Nat) : AddrCache :=
  if 0 < c.nearSize then
    { c with near := c.near.set c.nextSlot addr, nextSlot := (c.nextSlot + 1) % c.nearSize }
  else c

/-- The SAME part of `AC_UPDATE` (R192). -/
def acPutSame (c : AddrCache) (addr : Nat) : AddrCache :=
  if 0 < c.sameSize then { c with same := c.same.set (sameIndex c addr) addr } else c

/-- `AC_UPDATE(addr)` (R192). -/
def acUpdate (c : AddrCache) (addr : Nat) : AddrCache := acPutSame (acPutNear c addr) addr

/-- One way to write an address: `(mode, value, bytes it takes)` (R194). -/
structure Candidate where
  mode : Nat
  value : Nat
  len : Nat
deriving DecidableEq, Repr

/-- The NEAR candidates of R194, from slot `i` on. -/
def nearCandidates (addr : Nat) : Nat → List Nat → List Candidate
  | _, [] => []
  | i, base :: rest =>
    if base ≤ addr then
      { mode := 2 + i, value := addr - base, len := viLen (addr - base) } :: nearCandidates addr (i + 1) rest
    else nearCandidates addr (i + 1) rest

/-- The SAME candidate of R194, if the table holds the address. -/
def sameCandidates (c : AddrCache) (addr : Nat) : List Candidate :=
  if 0 < c.sameSize ∧ c.same[sameIndex c addr]? = some addr then
    [{ mode := 2 + c.nearSize + sameIndex c addr / 256, value := sameIndex c addr % 256, len := 1 }]
  else []

/-- The list `C` of R194, in order of rising mode: HERE, NEAR, SAME after SELF. -/
def otherCandidates (c : AddrCache) (addr here : Nat) : List Candidate :=
  { mode := 1, value := here - addr, len := viLen (here - addr) }
    :: (nearCandidates addr 0 c.near ++ sameCandidates c addr)

/-- The shortest of the candidates, the earliest (lowest mode) among equals (R194, R195). -/
def shortest (best : Candidate) : List Candidate → Candidate
  | [] => best
  | x :: rest => if x.len < best.len then shortest x rest else shortest best rest

/-- `AC_ENCODE(addr, here)` (R194): the mode and value chosen, and the updated cache. -/
def acEncode (c : AddrCache) (addr here : Nat) : Nat × Nat × AddrCache :=
  let best := shortest { mode := 0, value := addr, len := viLen addr } (otherCandidates c addr here)
  (best.mode, best.value, acUpdate c addr)

/-- The bytes of an encoded address (R225): one raw byte for a SAME mode, else a VarInt. -/
def addressBytes (c : AddrCache) (mode value : Nat) : Bytes :=
  if 2 + c.nearSize ≤ mode then [BitVec.ofNat 8 value] else viWrite value

/-- The outcomes of `AC_DECODE` (R196). `noEntry`: the mode has no cache entry, which the table check of R152 excludes. -/
inductive AcOut where
  | value (addr cur : Nat) (cache : AddrCache)
  | needMore
  | error (e : UnitError)
  | noEntry
deriving DecidableEq, Repr

/-- The range check and the update that end R196. `addr` is an integer: `here − v` may be negative and `NEAR[i] + v` may pass
2^32, "both then fail the range check" (R196). An address is 32 bits wide (`ADDR_WIDTH`, R6), as the element it is stored in (R28,
R192), so one of 2^32 or more fails also where `here` lies beyond it (R7; DEDUCED, log entry 6). -/
def acAccept (c : AddrCache) (here : Nat) (addr : Int) (cur : Nat) : AcOut :=
  if addr < 0 ∨ (here : Int) ≤ addr ∨ 4294967296 ≤ addr then .error .copyAddressOutOfBounds
  else .value addr.toNat cur (acUpdate c addr.toNat)

/-- The SAME modes of R196: fetch entry `j` and check that it could stand there (R197). -/
def acDecodeSame (c : AddrCache) (here mode b cur : Nat) : AcOut :=
  match c.same[(mode - 2 - c.nearSize) * 256 + b]? with
  | none => .noEntry
  | some addr =>
    if sameIndex c addr ≠ (mode - 2 - c.nearSize) * 256 + b then .error .sameCacheMiss
    else acAccept c here addr cur

/-- The address a VarInt mode (SELF, HERE, NEAR) denotes (R103, R196). -/
def acVarIntAddress (c : AddrCache) (here mode v : Nat) : Option Int :=
  if mode = 0 then some v
  else if mode = 1 then some ((here : Int) - v)
  else (c.near[mode - 2]?).map (fun base => ((base + v : Nat) : Int))

/-- `AC_DECODE(here, mode, src, cur, end)` (R196). -/
def acDecode (c : AddrCache) (here mode : Nat) (src : Bytes) (cur lim : Nat) : AcOut :=
  if mode < 2 + c.nearSize then
    match viRead 32 src cur lim with
    | .needMore => .needMore
    | .error e => .error e
    | .value v cur' =>
      match acVarIntAddress c here mode v with
      | none => .noEntry
      | some addr => acAccept c here addr cur'
  else
    match byteRead src cur lim with
    | .needMore => .needMore
    | .error e => .error e
    | .value b cur' => acDecodeSame c here mode b cur'

end Sys2Proof.Machine
end

