-- ==== Sys2Proof/Machine/CodeTable.lean ====
section
/-! DEFINITION. Unit U2, CTAB / IDEC / IMAP (41_code_table.md R150 to R161, 30_encoding.md R110 to R113):
the default table, the forward lookup, validation, the inverse maps, and the table image. -/

namespace Sys2Proof.Machine

/-- The numeric code of an instruction type (R9). -/
def kindCode : InstKind → Byte
  | .noop => 0
  | .add => 1
  | .run => 2
  | .copy => 3

/-- The instruction type of a code; codes above 3 name none (R152 V1). -/
def instKind (b : Byte) : Option InstKind :=
  if b = 0 then some .noop
  else if b = 1 then some .add
  else if b = 2 then some .run
  else if b = 3 then some .copy
  else none

/-- A half written as the spec writes it: type, size, mode. -/
def half (k : InstKind) (size mode : Nat) : Half :=
  { inst := kindCode k, size := BitVec.ofNat 8 size, mode := BitVec.ofNat 8 mode }

/-- The empty second half of a single opcode, `(NOOP, 0, 0)`. -/
def noHalf : Half := half .noop 0 0

/-- A row with one instruction. -/
def single (k : InstKind) (size mode : Nat) : Row := { first := half k size mode, second := noHalf }

/-- A compound row. -/
def pair (k₁ : InstKind) (size₁ mode₁ : Nat) (k₂ : InstKind) (size₂ mode₂ : Nat) : Row :=
  { first := half k₁ size₁ mode₁, second := half k₂ size₂ mode₂ }

/-- `DEFTAB` (R113), its 21 groups in opcode order. The rows are those of RFC 3284 as the spec gives them. -/
def defTab : Table :=
  -- group 1: opcode 0; group 2a: opcode 1; group 2b: opcodes 2–18
  [single .run 0 0, single .add 0 0]
  ++ (List.range 17).map (fun k => single .add (k + 1) 0)
  -- groups 3–11: opcodes 19–162, for m = 0 … 8 the explicit size, then sizes 4–18
  ++ (List.range 9).flatMap (fun m =>
      single .copy 0 m :: (List.range 15).map (fun k => single .copy (k + 4) m))
  -- groups 12–17: opcodes 163–234
  ++ (List.range 6).flatMap (fun m =>
      (List.range 4).flatMap (fun a =>
        (List.range 3).map (fun c => pair .add (a + 1) 0 .copy (c + 4) m)))
  -- groups 18–20: opcodes 235–246
  ++ (List.range 3).flatMap (fun m =>
      (List.range 4).map (fun a => pair .add (a + 1) 0 .copy 4 (m + 6)))
  -- group 21: opcodes 247–255
  ++ (List.range 9).map (fun m => pair .copy 4 m .add 1 0)

/-- The row of an opcode. A table has 256 rows (R27), so the fallback is never read. -/
def tableRow (t : Table) (op : Byte) : Row := t.getD op.toNat default

/-- `IDEC(TAB, op)` (R150): the two entries of row `op`. -/
def idec (t : Table) (op : Byte) : Half × Half := ((tableRow t op).first, (tableRow t op).second)

/-- Conditions V1 to V3 of R152 on one row. -/
def rowValid (maxMode : Nat) (r : Row) : Bool :=
  decide (r.first.inst.toNat ≤ 3) && decide (r.second.inst.toNat ≤ 3)
  && (r.first.inst != kindCode .copy || decide (r.first.mode.toNat ≤ maxMode))
  && (r.second.inst != kindCode .copy || decide (r.second.mode.toNat ≤ maxMode))
  && (r.second.inst == kindCode .noop
      || (r.first.inst != kindCode .noop && r.first.size != 0))

/-- A single row of the given type and mode with an explicit size (R152 V4, which is invariant I1 of R111: "For ADD and RUN the
mode is 0"; DEDUCED, log entry 16). -/
def explicitSingle (k : InstKind) (mode : Nat) (r : Row) : Bool :=
  r.first.inst == kindCode k && r.first.size == 0 && r.second.inst == kindCode .noop && r.first.mode.toNat == mode

/-- `TAB_VALID(TAB, max_mode)` (R152). -/
def tabValid (t : Table) (maxMode : Nat) : Bool :=
  t.all (rowValid maxMode)
  && t.any (explicitSingle .add 0) && t.any (explicitSingle .run 0)
  && (List.range (maxMode + 1)).all (fun m => t.any (explicitSingle .copy m))

/-- `FIRST[inst][size][mode]` (R153), computed on demand (R29): the lowest single opcode with that first entry. -/
def firstOf (t : Table) (inst size mode : Byte) : Option Byte :=
  (t.findIdx? (fun r =>
    r.first.inst == inst && r.first.size == size && r.first.mode == mode
    && r.first.inst != kindCode .noop && r.second.inst == kindCode .noop)).map (BitVec.ofNat 8)

/-- `IMAP_FIRST(inst, size, mode)` (R155), for `size`, `mode` in 0 … 255. -/
def imapFirst (t : Table) (k : InstKind) (size mode : Nat) : Option Byte :=
  firstOf t (kindCode k) (BitVec.ofNat 8 size) (BitVec.ofNat 8 mode)

/-- `IMAP_SECOND(op1, inst, size, mode)` (R154, R156): the lowest compound opcode whose first entry has the single
opcode `op1` and whose second entry is the given one. -/
def imapSecond (t : Table) (op₁ : Byte) (k : InstKind) (size mode : Nat) : Option Byte :=
  (t.findIdx? (fun r =>
    r.second.inst == kindCode k && r.second.size == BitVec.ofNat 8 size
    && r.second.mode == BitVec.ofNat 8 mode
    && r.first.inst != kindCode .noop && r.second.inst != kindCode .noop
    && firstOf t r.first.inst r.first.size r.first.mode == some op₁)).map (BitVec.ofNat 8)

/-- Row `op` of a table image (R160): the six arrays are `inst1`, `inst2`, `size1`, `size2`, `mode1`, `mode2` (R112).
An image has 1536 bytes, so the fallback is never read. -/
def imageRow (img : Bytes) (op : Nat) : Row :=
  { first := { inst := img.getD op 0, size := img.getD (512 + op) 0, mode := img.getD (1024 + op) 0 },
    second := { inst := img.getD (256 + op) 0, size := img.getD (768 + op) 0, mode := img.getD (1280 + op) 0 } }

/-- The table of a 1536-byte image (R160). -/
def unpackImage (img : Bytes) : Table := (List.range 256).map (imageRow img)

/-- The 1536-byte image of a table (R112), the inverse of `unpackImage`. -/
def packImage (t : Table) : Bytes :=
  t.map (·.first.inst) ++ t.map (·.second.inst) ++ t.map (·.first.size) ++ t.map (·.second.size)
  ++ t.map (·.first.mode) ++ t.map (·.second.mode)

/-- The legal cache sizes of a custom table (R6, R158, R161). -/
def cacheSizesOk (near same : Nat) : Bool :=
  decide (near ≤ 254) && decide (same ≤ 254) && decide (1 + near + same ≤ 255)

end Sys2Proof.Machine
end

