-- ==== Sys2Proof/Machine/State.lean ====
section
/-! DEFINITION. The state of VCORE as plain data (10_state.md R20 to R39), the reasons a step can stop, and the state after
hardware reset (R36, R420). INVENTORY.md lists every field with its width and reset value. -/

namespace Sys2Proof.Machine

/-- What a command puts on the `RESULT` port (R21, R370). -/
inductive Result where
  | ok
  | okValue (v : Nat)
  | err (kind : BitVec 3) (cause : Byte)
deriving DecidableEq, Repr

/-- The registers of which the nested context of R35 has a set of its own: R23 to R25 (`win`), R28 (`cache`), R31 (`tw`),
R30 (`dtarget`, `totalTargetLen`). -/
structure Ctx where
  win : WindowRegs
  cache : AddrCache
  tw : Bytes
  dtarget : Bytes
  totalTargetLen : Nat
deriving DecidableEq, Repr

/-- The nested decoder context (R35): its phase, the three parameters read from the file, its registers. -/
structure Nested where
  phase : CtPhase
  ctNear : Nat
  ctSame : Nat
  ctMaxMode : Nat
  ctx : Ctx
deriving DecidableEq, Repr

/-- The decoder context (R20). -/
structure Dec where
  allowVcdTarget : Bool          -- CR0
  maxTargetFileSize : DWord      -- CR1
  maxTargetWindowSize : Word     -- CR2
  maxSectionSize : Word          -- CR3
  maxMode : Nat                  -- CR11 (CR9 and CR10 are `ctx.cache.nearSize` and `ctx.cache.sameSize`)
  state : DecState               -- R26, R37
  errKind : BitVec 3             -- R26
  errCause : Byte                -- R26
  lintAddAdd : Bool              -- R26, R268
  hasChecksum : Bool             -- R26
  interleaved : Bool             -- R26
  dtab : Table                   -- R27
  dict : Bytes                   -- R61
  dictSize : Nat                 -- R30
  pending : Bytes                -- R30, R67
  ctx : Ctx                      -- R23 to R25, R28, R30, R31
  nested : Option Nested         -- R35
  sink : Bytes                   -- R68: everything delivered on `SINK`
  replaying : Bool               -- the model's own: REPLAY of a window is running (R260)
  freeCount : Nat                -- the model's own: how many free values have been used
deriving DecidableEq, Repr

/-- The encoder context (R20). -/
structure Enc where
  interleaved : Bool             -- CR4
  customTable : Bool             -- CR5
  maxMode : Nat                  -- CR8 (CR6 and CR7 are `cache.nearSize` and `cache.sameSize`)
  cache : AddrCache              -- R28
  etab : Table                   -- R27
  state : EncState               -- R26, R38
  errKind : BitVec 3             -- R26
  errCause : Byte                -- R26
  hasChecksum : Bool             -- R26
  mapBuilt : Bool                -- R26, R34
  dictSize : Word                -- R32
  targetLen : Nat                -- R32
  insts : Bytes                  -- R32
  data : Bytes                   -- R32
  addrs : Bytes                  -- R32
  checksum : Word                -- R32
  lastOpcodeIndex : Option Nat   -- R33
  sink : Bytes                   -- R69: everything written on `ENC_SINK`
deriving DecidableEq, Repr

/-- VCORE: its two contexts (R20), the last value on `RESULT` (R21), and the host transactions that wait on `CMD`, the next
one first. The queue is the model's own: the host issues one command at a time (R5). -/
structure State where
  dec : Dec
  enc : Enc
  result : Option Result
  cmds : List HostCmd
deriving DecidableEq, Repr

/-- Why the machine stops. Each needs a state that no run from reset reaches, so each is safe: the spec's rules prove the
access good where the model checks it. -/
inductive Fault where
  /-- raised by the replay when it reads a byte at an address its space does not have ("no other address exists at that
  moment", R65; R66): safe -/
  | noSuchAddress
  /-- raised by `AC_DECODE` for a mode without a cache entry ("A mode above `max_mode` cannot reach this operation", R196):
  safe -/
  | noSuchCacheEntry
  /-- raised by `EXEC_HALF` for a row whose type code is above 3, which a validated table does not hold (R152): safe -/
  | badTableRow
deriving DecidableEq, Repr

/-- Why the machine has no meaning for what it is given. -/
inductive Refusal where
  /-- raised by `exec` for an instruction not modelled yet: safe -/
  | notModelled (mnemonic : String)
  /-- raised by `step` for a host transaction whose arguments do not fit the widths and lengths of R117, which no host can
  put on the ports: safe -/
  | illFormedCommand (code : Byte)
deriving DecidableEq, Repr

/-- The working registers at reset: R36 leaves them unspecified; zero is the model's choice (log entry 4). -/
def WindowRegs.reset : WindowRegs :=
  { winIndicator := 0, srcSegSize := 0, srcSegPos := 0, srcSegSpace := .none, deltaLen := 0, targetLen := 0,
    dataLen := 0, instLen := 0, addrLen := 0, checksum := 0, prevInst := .noop, ip := 0, dp := 0, ap := 0,
    bodyPos := 0 }

/-- A cleared cache with the default sizes (R36, R151, R191). -/
def AddrCache.reset : AddrCache :=
  freshCache Config.nearSizeDefault Config.sameSizeDefault Config.sameIndexFn

/-- The decoder context at reset (R22, R26, R36). DESIGN CHOICE (log entry 4): where the spec gives no value, as for `DICT`, the
working registers and the history of `SINK`, zero or empty. -/
def Dec.reset : Dec :=
  { allowVcdTarget := true,
    maxTargetFileSize := BitVec.ofNat 64 Config.capDefault,
    maxTargetWindowSize := BitVec.ofNat 32 Config.capDefault,
    maxSectionSize := BitVec.ofNat 32 Config.capDefault,
    maxMode := Config.maxModeDefault,
    state := .idle, errKind := 0, errCause := 0, lintAddAdd := false, hasChecksum := false, interleaved := false,
    dtab := defTab, dict := [], dictSize := 0, pending := [],
    ctx := { win := WindowRegs.reset, cache := AddrCache.reset, tw := [], dtarget := [], totalTargetLen := 0 },
    nested := none, sink := [], replaying := false, freeCount := 0 }

/-- The encoder context at reset (R22, R26, R36). DESIGN CHOICE (log entry 4): where the spec gives no value, as for `ENC_CHECKSUM`
and the history of `ENC_SINK`, zero or empty. -/
def Enc.reset : Enc :=
  { interleaved := false, customTable := false, maxMode := Config.maxModeDefault, cache := AddrCache.reset,
    etab := defTab, state := .created, errKind := 0, errCause := 0, hasChecksum := false, mapBuilt := false,
    dictSize := 0, targetLen := 0, insts := [], data := [], addrs := [], checksum := 0, lastOpcodeIndex := none,
    sink := [] }

/-- The machine right after hardware reset (R36, R420): no session, no command waiting. -/
def State.reset : State :=
  { dec := Dec.reset, enc := Enc.reset, result := none, cmds := [] }

end Sys2Proof.Machine
end

