-- ==== Sys2Proof/Machine/Ops.lean ====
section
/-! DEFINITION. The named operations over the registers and spaces of a decoder context, and raising an error: what a
`raise` does to the decoder and to the encoder (60_exceptions.md R385 to R388). -/

namespace Sys2Proof.Machine

/-! ## The context a rule works on -/

/-- The registers the window rules work on: the nested context's while there is one (R35, R325), else the decoder's own. -/
def activeCtx (d : Dec) : Ctx :=
  match d.nested with
  | none => d.ctx
  | some n => n.ctx

/-- Write the registers of the active context. -/
def setActive (c : Ctx) (d : Dec) : Dec :=
  match d.nested with
  | none => { d with ctx := c }
  | some n => { d with nested := some { n with ctx := c } }

/-- The working registers of the active context. -/
def activeWin (d : Dec) : WindowRegs := (activeCtx d).win

/-- Write the working registers of the active context. -/
def setWin (w : WindowRegs) (d : Dec) : Dec := setActive { activeCtx d with win := w } d

/-- Write the address cache of the active context. -/
def setCache (c : AddrCache) (d : Dec) : Dec := setActive { activeCtx d with cache := c } d

/-- Write `TW` of the active context. -/
def setTw (tw : Bytes) (d : Dec) : Dec := setActive { activeCtx d with tw := tw } d

/-- `Append(TW, bytes)` (R31, R64). -/
def appendTw (bytes : Bytes) (d : Dec) : Dec := setTw (memAppend (activeCtx d).tw bytes) d

/-- `ip <- v` (R8, R24). -/
def setIp (v : Nat) (d : Dec) : Dec := setWin { activeWin d with ip := v } d

/-- `dp <- v` (R25). -/
def setDp (v : Nat) (d : Dec) : Dec := setWin { activeWin d with dp := v } d

/-- `ap <- v` (R25). -/
def setAp (v : Nat) (d : Dec) : Dec := setWin { activeWin d with ap := v } d

/-- `DICT` as the window rules see it: the dictionary, or `META_DICT` in the nested context (R325). -/
def activeDict (d : Dec) : Bytes :=
  match d.nested with
  | none => d.dict
  | some _ => Config.metaDict

/-- `DICT_SIZE` as the window rules see it (R325). -/
def activeDictSize (d : Dec) : Nat :=
  match d.nested with
  | none => d.dictSize
  | some _ => Config.metaDict.length

/-- The code table in force: `DTAB`, or `DEFTAB` in the nested context (R159, R325). -/
def activeTab (d : Dec) : Table :=
  match d.nested with
  | none => d.dtab
  | some _ => defTab

/-- `here`, the size of `U` (R25, R65). -/
def hereOf (d : Dec) : Nat := (activeWin d).srcSegSize + (activeCtx d).tw.length

/-! ## The spaces of a window -/

/-- The data section `DATA`, a view into `PENDING` (R66). -/
def dataSec (d : Dec) : Bytes := (d.pending.drop (activeWin d).bodyPos).take (activeWin d).dataLen

/-- The instructions section `INST` (R66). -/
def instSec (d : Dec) : Bytes :=
  (d.pending.drop ((activeWin d).bodyPos + (activeWin d).dataLen)).take (activeWin d).instLen

/-- The addresses section `ADDR` (R66). -/
def addrSec (d : Dec) : Bytes :=
  (d.pending.drop ((activeWin d).bodyPos + (activeWin d).dataLen + (activeWin d).instLen)).take (activeWin d).addrLen

/-- `MemRead(SRCSEG, i, 1)` for `i < S` (R63). -/
def readSegment (d : Dec) (i : Nat) : Option Byte :=
  match (activeWin d).srcSegSpace with
  | .none => none
  | .dict => memByte (activeDict d) ((activeWin d).srcSegPos + i)
  | .dtarget => memByte (activeCtx d).dtarget ((activeWin d).srcSegPos + i)

/-- `MemRead(U, x, 1)` (R65, R266): the source segment below `S`, the target window so far from `S` on. -/
def readU (d : Dec) (x : Nat) : Option Byte :=
  if x < (activeWin d).srcSegSize then readSegment d x
  else memByte (activeCtx d).tw (x - (activeWin d).srcSegSize)

/-! ## Raising an error -/

/-- The `ERR(kind, cause)` of a cause (R370). -/
def errOf (c : Cause) : Result := .err (causeKind c) (causeCode c)

/-- An address cache outside the span of a window: its sizes stand, its contents are free values (U2; log entry 2). -/
def freedCache (n : Nat) (c : AddrCache) : AddrCache :=
  { c with
    near := (Config.freeCache n).near, same := (Config.freeCache n).same, nextSlot := (Config.freeCache n).nextSlot }

/-- What a `raise` does to the decoder (R385): the error registers, `POISONED`, `PENDING` and `TW` emptied, the nested context
discarded. The working registers, cursors and cache are left in an unspecified state: free values. -/
def decRaise (c : Cause) (d : Dec) : Dec :=
  { d with
    errKind := causeKind c, errCause := causeCode c, state := .poisoned, pending := [], nested := none,
    replaying := false, freeCount := d.freeCount + 1,
    ctx := { d.ctx with
      tw := [], win := Config.freeWindow d.freeCount, cache := freedCache d.freeCount d.ctx.cache } }

/-- What a `raise` does to the encoder (R387): three registers and nothing else. -/
def encRaise (c : Cause) (e : Enc) : Enc :=
  { e with errKind := causeKind c, errCause := causeCode c, state := .failed }

/-- Leaving the error state (R388): the part of `DEC_START` that begins a new session (R300, R151). The control registers CR0
to CR3 and what was delivered to `SINK` stay. -/
def decNewSession (dictionary : Bytes) (d : Dec) : Dec :=
  { d with
    dict := dictionary, dictSize := dictionary.length, pending := [],
    dtab := defTab, maxMode := Config.maxModeDefault,
    errKind := 0, errCause := 0, lintAddAdd := false, hasChecksum := false, interleaved := false,
    nested := none, replaying := false, state := .expectHeader,
    ctx := { d.ctx with
      dtarget := [], totalTargetLen := 0, tw := [],
      cache := freshCache Config.nearSizeDefault Config.sameSizeDefault d.ctx.cache.indexFn } }

end Sys2Proof.Machine
end

