-- ==== Sys2Proof/Machine/Flags.lean ====
section
/-! DEFINITION. The status flags of the decoder that rules compute (10_state.md R26). VCORE has no arithmetic condition
codes; no instruction is predicated. -/

namespace Sys2Proof.Machine

/-- `LINT(inst)` (R268): the sticky ADD-after-ADD flag, then `PREV_INST <- inst`. -/
def lint (k : InstKind) (d : Dec) : Dec :=
  setWin { activeWin d with prevInst := k }
    { d with lintAddAdd := d.lintAddAdd || (k == .add && (activeWin d).prevInst == .add) }

/-- `DEC_HAS_CHECKSUM <- (wi & 0x04) ≠ 0` (R312). -/
def setHasChecksum (wi : Byte) (d : Dec) : Dec := { d with hasChecksum := wi &&& 0x04 != 0 }

/-- `DEC_INTERLEAVED <- (DATA_LEN = 0 and ADDR_LEN = 0)` (R317, R261). -/
def setInterleaved (d : Dec) : Dec :=
  { d with interleaved := (activeWin d).dataLen == 0 && (activeWin d).addrLen == 0 }

end Sys2Proof.Machine
end

