-- ==== Sys2Proof/Machine/Operands.lean ====
section
/-! DEFINITION. The operand forms of the delta instructions (44_delta_instructions.md R261, R262, R278): the opcode byte, the
explicit size, the data bytes and the encoded address, from the stream the layout of the window selects. -/

namespace Sys2Proof.Machine

/-- How a rule of the replay ends: it goes on, it raises, or it reads what does not exist. A `raise` keeps the decoder as it
stood, since flags already set stay set (R385). -/
inductive Run where
  | ok (d : Dec)
  | raise (c : Cause) (d : Dec)
  | fault (f : Fault)
deriving DecidableEq, Repr

/-- Do one rule, then the next. -/
def Run.andThen : Run → (Dec → Run) → Run
  | .ok d, k => k d
  | .raise c d, _ => .raise c d
  | .fault f, _ => .fault f

/-- A byte space with a cursor and a fixed end (R261). -/
structure Stream where
  space : Bytes
  cur : Nat
  lim : Nat
deriving DecidableEq, Repr

/-- The instruction stream `(INST, ip, INST_LEN)`. -/
def instStream (d : Dec) : Stream :=
  { space := instSec d, cur := (activeWin d).ip, lim := (activeWin d).instLen }

/-- The data stream (R261). -/
def dataStream (d : Dec) : Stream :=
  if d.interleaved then instStream d
  else { space := dataSec d, cur := (activeWin d).dp, lim := (activeWin d).dataLen }

/-- The address stream (R261). -/
def addrStream (d : Dec) : Stream :=
  if d.interleaved then instStream d
  else { space := addrSec d, cur := (activeWin d).ap, lim := (activeWin d).addrLen }

/-- Advance the cursor of the data stream (R261). -/
def setDataCur (v : Nat) (d : Dec) : Dec := if d.interleaved then setIp v d else setDp v d

/-- Advance the cursor of the address stream (R261). -/
def setAddrCur (v : Nat) (d : Dec) : Dec := if d.interleaved then setIp v d else setAp v d

/-- The opcode byte at `ip` (R260); the fetch cannot fail while `ip < INST_LEN`. -/
def fetchOpcode (d : Dec) : Option Byte :=
  match byteRead (instSec d) (activeWin d).ip (activeWin d).instLen with
  | .value v _ => some (BitVec.ofNat 8 v)
  | .needMore => none
  | .error _ => none

/-- `READ_SIZE` (R262): the explicit size from the instruction stream, handed to the rest of the rule. -/
def readSize (d : Dec) (k : Nat → Dec → Run) : Run :=
  match viRead 32 (instSec d) (activeWin d).ip (activeWin d).instLen with
  | .needMore => .raise .sectionOverrun d
  | .error e => .raise (sectionCause e) d
  | .value v cur => k v (setIp cur d)

/-- `size` bytes of the data stream (R264); a count that does not fit before the end is SectionOverrun (R261). -/
def readData (size : Nat) (d : Dec) (k : Bytes → Dec → Run) : Run :=
  if (dataStream d).lim < (dataStream d).cur + size then .raise .sectionOverrun d
  else
    match memRead (dataStream d).space (dataStream d).cur size with
    | none => .fault .noSuchAddress
    | some bytes => k bytes (setDataCur ((dataStream d).cur + size) d)

/-- One byte of the data stream (R265). -/
def readDataByte (d : Dec) (k : Byte → Dec → Run) : Run :=
  match byteRead (dataStream d).space (dataStream d).cur (dataStream d).lim with
  | .needMore => .raise .sectionOverrun d
  | .error e => .raise (sectionCause e) d
  | .value v cur => k (BitVec.ofNat 8 v) (setDataCur cur d)

/-- The decoded COPY address (R266): `AC_DECODE` on the address stream with `here` as it stands, then the advanced cursor and
the updated cache. -/
def readAddress (mode : Nat) (d : Dec) (k : Nat → Dec → Run) : Run :=
  match acDecode (activeCtx d).cache (hereOf d) mode (addrStream d).space (addrStream d).cur (addrStream d).lim with
  | .needMore => .raise .sectionOverrun d
  | .error e => .raise (sectionCause e) d
  | .noEntry => .fault .noSuchCacheEntry
  | .value addr cur cache => k addr (setCache cache (setAddrCur cur d))

end Sys2Proof.Machine
end

