-- ==== Sys2Proof/Machine/Replay.lean ====
section
/-! DEFINITION. The replay of delta instructions (44_delta_instructions.md R260 to R269): the four instruction types, the two
halves of an opcode, the loop. -/

namespace Sys2Proof.Machine

/-- `EXEC_ADD(size)` (R264). -/
def halfAdd (size : Nat) (d : Dec) : Run :=
  readData size d (fun bytes d => .ok (appendTw bytes d))

/-- `EXEC_RUN(size)` (R265): the byte is read even when `size` is 0. -/
def halfRun (size : Nat) (d : Dec) : Run :=
  readDataByte d (fun b d => .ok (appendTw (List.replicate size b) d))

/-- The loop of R266: byte by byte, each appended before the next is read (R73, R432). -/
def copyLoop : Nat → Nat → Dec → Run
  | 0, _, d => .ok d
  | n + 1, x, d =>
    match readU d x with
    | none => .fault .noSuchAddress
    | some b => copyLoop n (x + 1) (appendTw [b] d)

/-- `EXEC_COPY(size, mode)` (R266). -/
def halfCopy (size mode : Nat) (d : Dec) : Run :=
  readAddress mode d (fun addr d => copyLoop size addr d)

/-- The end of `EXEC_HALF` (R260), once the size is known: the overrun check (R267), the lint (R268), the instruction. -/
def execSized (k : InstKind) (size mode : Nat) (d : Dec) : Run :=
  if (activeWin d).targetLen < (activeCtx d).tw.length + size then .raise .targetOverrun d
  else
    match k with
    | .noop => .ok d
    | .add => halfAdd size (lint .add d)
    | .run => halfRun size (lint .run d)
    | .copy => halfCopy size mode (lint .copy d)

/-- `EXEC_HALF(inst, size, mode)` (R260). NOOP does nothing and reads nothing (R263). -/
def execHalf (h : Half) (d : Dec) : Run :=
  match instKind h.inst with
  | none => .fault .badTableRow
  | some .noop => .ok d
  | some .add =>
    if h.size = 0 then readSize d (fun n d => execSized .add n h.mode.toNat d)
    else execSized .add h.size.toNat h.mode.toNat d
  | some .run =>
    if h.size = 0 then readSize d (fun n d => execSized .run n h.mode.toNat d)
    else execSized .run h.size.toNat h.mode.toNat d
  | some .copy =>
    if h.size = 0 then readSize d (fun n d => execSized .copy n h.mode.toNat d)
    else execSized .copy h.size.toNat h.mode.toNat d

/-- The two halves of a row, the first executed completely before anything of the second is read (R260). -/
def execRow (r : Half × Half) (d : Dec) : Run := (execHalf r.1 d).andThen (execHalf r.2)

/-- One opcode group after its opcode byte: the row the current code table gives the opcode (R260, R150). -/
def execGroup (op : Byte) (d : Dec) : Run := execRow (idec (activeTab d) op) d

/-- One turn of the loop of R260: fetch, then the group. -/
def replayOne (d : Dec) : Run :=
  match fetchOpcode d with
  | none => .fault .noSuchAddress
  | some op => execGroup op (setIp ((activeWin d).ip + 1) d)

/-- The loop of R260. Every turn advances `ip`, so `INST_LEN − ip` turns reach its end. -/
def replayLoop : Nat → Dec → Run
  | 0, d => .ok d
  | fuel + 1, d =>
    if (activeWin d).ip < (activeWin d).instLen then (replayOne d).andThen (replayLoop fuel) else .ok d

/-- The loop of R260 from where `ip` stands. -/
def replayRest (d : Dec) : Run := replayLoop ((activeWin d).instLen - (activeWin d).ip) d

/-- `TERMINATE` (R269). -/
def terminate (d : Dec) : Run :=
  if (activeCtx d).tw.length ≠ (activeWin d).targetLen then .raise .targetLengthMismatch d
  else if (activeWin d).dp ≠ (activeWin d).dataLen ∨ (activeWin d).ap ≠ (activeWin d).addrLen then
    .raise .sectionNotConsumed d
  else .ok d

/-- The checksum check (R322). -/
def checkChecksum (d : Dec) : Run :=
  if d.hasChecksum ∧ adler32 (activeCtx d).tw ≠ (activeWin d).checksum then .raise .checksumMismatch d else .ok d

/-- Start of replay (R321): `TW` empty, cursors 0, `PREV_INST` NOOP, `AC_INIT`; the body begins at offset `c` of `PENDING`. -/
def startReplay (c : Nat) (d : Dec) : Dec :=
  { setActive { activeCtx d with
      win := { activeWin d with ip := 0, dp := 0, ap := 0, prevInst := .noop, bodyPos := c },
      cache := acInit (activeCtx d).cache,
      tw := [] } d with replaying := true }

/-- Bytes of `PENDING` the window occupies, `wlen` of R320. -/
def windowLen (d : Dec) : Nat :=
  (activeWin d).bodyPos + (activeWin d).dataLen + (activeWin d).instLen + (activeWin d).addrLen

/-- The commit (R323): `DTARGET` and the total grow by `TW`, `SINK` receives it (not from the nested context, R325), the window
leaves `PENDING`. After it the working registers and the cache hold any value (U2). -/
def commit (d : Dec) : Dec :=
  { setActive { activeCtx d with
      dtarget := memAppend (activeCtx d).dtarget (activeCtx d).tw,
      totalTargetLen := (activeCtx d).totalTargetLen + (activeCtx d).tw.length,
      win := Config.freeWindow d.freeCount,
      cache := freedCache d.freeCount (activeCtx d).cache } d with
    sink := if d.nested.isSome then d.sink else memAppend d.sink (activeCtx d).tw,
    pending := d.pending.drop (windowLen d),
    replaying := false,
    freeCount := d.freeCount + 1 }

/-- An opcode as an instruction of the machine: its group, and if that raises, the poisoning and the error on `RESULT` (R385). -/
def execOpcode (op : Byte) (s : State) : Host.Outcome State Fault Refusal :=
  match execGroup op s.dec with
  | .ok d => .next { s with dec := d }
  | .raise c d => .next { s with dec := decRaise c d, result := some (errOf c) }
  | .fault f => .fault f

end Sys2Proof.Machine
end

