-- ==== Sys2Proof/Machine/DeltaAddCopy.lean ====
section
/-! DEFINITION. The compound opcodes `ADD.a+COPY.m<m>.c` and `ADD.a+COPY.m<m>.4` (44_delta_instructions.md R275, R276).
Each meaning is the opcode under the current code table (R260); its row under the default table is in its docstring.
The fetch of the opcode byte, which advances `ip` by one, is in the step (R260). -/

namespace Sys2Proof.Machine

/-- `ADD.1+COPY.m0.4`, opcode 0xA3 (R275): row `(ADD, 1, 0), (COPY, 4, 0)`. -/
def execAddS1CopyM0S4 (s : State) : Host.Outcome State Fault Refusal := execOpcode 0xA3 s

/-- `ADD.1+COPY.m0.5`, opcode 0xA4 (R275): row `(ADD, 1, 0), (COPY, 5, 0)`. -/
def execAddS1CopyM0S5 (s : State) : Host.Outcome State Fault Refusal := execOpcode 0xA4 s

/-- `ADD.1+COPY.m0.6`, opcode 0xA5 (R275): row `(ADD, 1, 0), (COPY, 6, 0)`. -/
def execAddS1CopyM0S6 (s : State) : Host.Outcome State Fault Refusal := execOpcode 0xA5 s

/-- `ADD.2+COPY.m0.4`, opcode 0xA6 (R275): row `(ADD, 2, 0), (COPY, 4, 0)`. -/
def execAddS2CopyM0S4 (s : State) : Host.Outcome State Fault Refusal := execOpcode 0xA6 s

/-- `ADD.2+COPY.m0.5`, opcode 0xA7 (R275): row `(ADD, 2, 0), (COPY, 5, 0)`. -/
def execAddS2CopyM0S5 (s : State) : Host.Outcome State Fault Refusal := execOpcode 0xA7 s

/-- `ADD.2+COPY.m0.6`, opcode 0xA8 (R275): row `(ADD, 2, 0), (COPY, 6, 0)`. -/
def execAddS2CopyM0S6 (s : State) : Host.Outcome State Fault Refusal := execOpcode 0xA8 s

/-- `ADD.3+COPY.m0.4`, opcode 0xA9 (R275): row `(ADD, 3, 0), (COPY, 4, 0)`. -/
def execAddS3CopyM0S4 (s : State) : Host.Outcome State Fault Refusal := execOpcode 0xA9 s

/-- `ADD.3+COPY.m0.5`, opcode 0xAA (R275): row `(ADD, 3, 0), (COPY, 5, 0)`. -/
def execAddS3CopyM0S5 (s : State) : Host.Outcome State Fault Refusal := execOpcode 0xAA s

/-- `ADD.3+COPY.m0.6`, opcode 0xAB (R275): row `(ADD, 3, 0), (COPY, 6, 0)`. -/
def execAddS3CopyM0S6 (s : State) : Host.Outcome State Fault Refusal := execOpcode 0xAB s

/-- `ADD.4+COPY.m0.4`, opcode 0xAC (R275): row `(ADD, 4, 0), (COPY, 4, 0)`. -/
def execAddS4CopyM0S4 (s : State) : Host.Outcome State Fault Refusal := execOpcode 0xAC s

/-- `ADD.4+COPY.m0.5`, opcode 0xAD (R275): row `(ADD, 4, 0), (COPY, 5, 0)`. -/
def execAddS4CopyM0S5 (s : State) : Host.Outcome State Fault Refusal := execOpcode 0xAD s

/-- `ADD.4+COPY.m0.6`, opcode 0xAE (R275): row `(ADD, 4, 0), (COPY, 6, 0)`. -/
def execAddS4CopyM0S6 (s : State) : Host.Outcome State Fault Refusal := execOpcode 0xAE s

/-- `ADD.1+COPY.m1.4`, opcode 0xAF (R275): row `(ADD, 1, 0), (COPY, 4, 1)`. -/
def execAddS1CopyM1S4 (s : State) : Host.Outcome State Fault Refusal := execOpcode 0xAF s

/-- `ADD.1+COPY.m1.5`, opcode 0xB0 (R275): row `(ADD, 1, 0), (COPY, 5, 1)`. -/
def execAddS1CopyM1S5 (s : State) : Host.Outcome State Fault Refusal := execOpcode 0xB0 s

/-- `ADD.1+COPY.m1.6`, opcode 0xB1 (R275): row `(ADD, 1, 0), (COPY, 6, 1)`. -/
def execAddS1CopyM1S6 (s : State) : Host.Outcome State Fault Refusal := execOpcode 0xB1 s

/-- `ADD.2+COPY.m1.4`, opcode 0xB2 (R275): row `(ADD, 2, 0), (COPY, 4, 1)`. -/
def execAddS2CopyM1S4 (s : State) : Host.Outcome State Fault Refusal := execOpcode 0xB2 s

/-- `ADD.2+COPY.m1.5`, opcode 0xB3 (R275): row `(ADD, 2, 0), (COPY, 5, 1)`. -/
def execAddS2CopyM1S5 (s : State) : Host.Outcome State Fault Refusal := execOpcode 0xB3 s

/-- `ADD.2+COPY.m1.6`, opcode 0xB4 (R275): row `(ADD, 2, 0), (COPY, 6, 1)`. -/
def execAddS2CopyM1S6 (s : State) : Host.Outcome State Fault Refusal := execOpcode 0xB4 s

/-- `ADD.3+COPY.m1.4`, opcode 0xB5 (R275): row `(ADD, 3, 0), (COPY, 4, 1)`. -/
def execAddS3CopyM1S4 (s : State) : Host.Outcome State Fault Refusal := execOpcode 0xB5 s

/-- `ADD.3+COPY.m1.5`, opcode 0xB6 (R275): row `(ADD, 3, 0), (COPY, 5, 1)`. -/
def execAddS3CopyM1S5 (s : State) : Host.Outcome State Fault Refusal := execOpcode 0xB6 s

/-- `ADD.3+COPY.m1.6`, opcode 0xB7 (R275): row `(ADD, 3, 0), (COPY, 6, 1)`. -/
def execAddS3CopyM1S6 (s : State) : Host.Outcome State Fault Refusal := execOpcode 0xB7 s

/-- `ADD.4+COPY.m1.4`, opcode 0xB8 (R275): row `(ADD, 4, 0), (COPY, 4, 1)`. -/
def execAddS4CopyM1S4 (s : State) : Host.Outcome State Fault Refusal := execOpcode 0xB8 s

/-- `ADD.4+COPY.m1.5`, opcode 0xB9 (R275): row `(ADD, 4, 0), (COPY, 5, 1)`. -/
def execAddS4CopyM1S5 (s : State) : Host.Outcome State Fault Refusal := execOpcode 0xB9 s

/-- `ADD.4+COPY.m1.6`, opcode 0xBA (R275): row `(ADD, 4, 0), (COPY, 6, 1)`. -/
def execAddS4CopyM1S6 (s : State) : Host.Outcome State Fault Refusal := execOpcode 0xBA s

/-- `ADD.1+COPY.m2.4`, opcode 0xBB (R275): row `(ADD, 1, 0), (COPY, 4, 2)`. -/
def execAddS1CopyM2S4 (s : State) : Host.Outcome State Fault Refusal := execOpcode 0xBB s

/-- `ADD.1+COPY.m2.5`, opcode 0xBC (R275): row `(ADD, 1, 0), (COPY, 5, 2)`. -/
def execAddS1CopyM2S5 (s : State) : Host.Outcome State Fault Refusal := execOpcode 0xBC s

/-- `ADD.1+COPY.m2.6`, opcode 0xBD (R275): row `(ADD, 1, 0), (COPY, 6, 2)`. -/
def execAddS1CopyM2S6 (s : State) : Host.Outcome State Fault Refusal := execOpcode 0xBD s

/-- `ADD.2+COPY.m2.4`, opcode 0xBE (R275): row `(ADD, 2, 0), (COPY, 4, 2)`. -/
def execAddS2CopyM2S4 (s : State) : Host.Outcome State Fault Refusal := execOpcode 0xBE s

/-- `ADD.2+COPY.m2.5`, opcode 0xBF (R275): row `(ADD, 2, 0), (COPY, 5, 2)`. -/
def execAddS2CopyM2S5 (s : State) : Host.Outcome State Fault Refusal := execOpcode 0xBF s

/-- `ADD.2+COPY.m2.6`, opcode 0xC0 (R275): row `(ADD, 2, 0), (COPY, 6, 2)`. -/
def execAddS2CopyM2S6 (s : State) : Host.Outcome State Fault Refusal := execOpcode 0xC0 s

/-- `ADD.3+COPY.m2.4`, opcode 0xC1 (R275): row `(ADD, 3, 0), (COPY, 4, 2)`. -/
def execAddS3CopyM2S4 (s : State) : Host.Outcome State Fault Refusal := execOpcode 0xC1 s

/-- `ADD.3+COPY.m2.5`, opcode 0xC2 (R275): row `(ADD, 3, 0), (COPY, 5, 2)`. -/
def execAddS3CopyM2S5 (s : State) : Host.Outcome State Fault Refusal := execOpcode 0xC2 s

/-- `ADD.3+COPY.m2.6`, opcode 0xC3 (R275): row `(ADD, 3, 0), (COPY, 6, 2)`. -/
def execAddS3CopyM2S6 (s : State) : Host.Outcome State Fault Refusal := execOpcode 0xC3 s

/-- `ADD.4+COPY.m2.4`, opcode 0xC4 (R275): row `(ADD, 4, 0), (COPY, 4, 2)`. -/
def execAddS4CopyM2S4 (s : State) : Host.Outcome State Fault Refusal := execOpcode 0xC4 s

/-- `ADD.4+COPY.m2.5`, opcode 0xC5 (R275): row `(ADD, 4, 0), (COPY, 5, 2)`. -/
def execAddS4CopyM2S5 (s : State) : Host.Outcome State Fault Refusal := execOpcode 0xC5 s

/-- `ADD.4+COPY.m2.6`, opcode 0xC6 (R275): row `(ADD, 4, 0), (COPY, 6, 2)`. -/
def execAddS4CopyM2S6 (s : State) : Host.Outcome State Fault Refusal := execOpcode 0xC6 s

/-- `ADD.1+COPY.m3.4`, opcode 0xC7 (R275): row `(ADD, 1, 0), (COPY, 4, 3)`. -/
def execAddS1CopyM3S4 (s : State) : Host.Outcome State Fault Refusal := execOpcode 0xC7 s

/-- `ADD.1+COPY.m3.5`, opcode 0xC8 (R275): row `(ADD, 1, 0), (COPY, 5, 3)`. -/
def execAddS1CopyM3S5 (s : State) : Host.Outcome State Fault Refusal := execOpcode 0xC8 s

/-- `ADD.1+COPY.m3.6`, opcode 0xC9 (R275): row `(ADD, 1, 0), (COPY, 6, 3)`. -/
def execAddS1CopyM3S6 (s : State) : Host.Outcome State Fault Refusal := execOpcode 0xC9 s

/-- `ADD.2+COPY.m3.4`, opcode 0xCA (R275): row `(ADD, 2, 0), (COPY, 4, 3)`. -/
def execAddS2CopyM3S4 (s : State) : Host.Outcome State Fault Refusal := execOpcode 0xCA s

/-- `ADD.2+COPY.m3.5`, opcode 0xCB (R275): row `(ADD, 2, 0), (COPY, 5, 3)`. -/
def execAddS2CopyM3S5 (s : State) : Host.Outcome State Fault Refusal := execOpcode 0xCB s

/-- `ADD.2+COPY.m3.6`, opcode 0xCC (R275): row `(ADD, 2, 0), (COPY, 6, 3)`. -/
def execAddS2CopyM3S6 (s : State) : Host.Outcome State Fault Refusal := execOpcode 0xCC s

/-- `ADD.3+COPY.m3.4`, opcode 0xCD (R275): row `(ADD, 3, 0), (COPY, 4, 3)`. -/
def execAddS3CopyM3S4 (s : State) : Host.Outcome State Fault Refusal := execOpcode 0xCD s

/-- `ADD.3+COPY.m3.5`, opcode 0xCE (R275): row `(ADD, 3, 0), (COPY, 5, 3)`. -/
def execAddS3CopyM3S5 (s : State) : Host.Outcome State Fault Refusal := execOpcode 0xCE s

/-- `ADD.3+COPY.m3.6`, opcode 0xCF (R275): row `(ADD, 3, 0), (COPY, 6, 3)`. -/
def execAddS3CopyM3S6 (s : State) : Host.Outcome State Fault Refusal := execOpcode 0xCF s

/-- `ADD.4+COPY.m3.4`, opcode 0xD0 (R275): row `(ADD, 4, 0), (COPY, 4, 3)`. -/
def execAddS4CopyM3S4 (s : State) : Host.Outcome State Fault Refusal := execOpcode 0xD0 s

/-- `ADD.4+COPY.m3.5`, opcode 0xD1 (R275): row `(ADD, 4, 0), (COPY, 5, 3)`. -/
def execAddS4CopyM3S5 (s : State) : Host.Outcome State Fault Refusal := execOpcode 0xD1 s

/-- `ADD.4+COPY.m3.6`, opcode 0xD2 (R275): row `(ADD, 4, 0), (COPY, 6, 3)`. -/
def execAddS4CopyM3S6 (s : State) : Host.Outcome State Fault Refusal := execOpcode 0xD2 s

/-- `ADD.1+COPY.m4.4`, opcode 0xD3 (R275): row `(ADD, 1, 0), (COPY, 4, 4)`. -/
def execAddS1CopyM4S4 (s : State) : Host.Outcome State Fault Refusal := execOpcode 0xD3 s

/-- `ADD.1+COPY.m4.5`, opcode 0xD4 (R275): row `(ADD, 1, 0), (COPY, 5, 4)`. -/
def execAddS1CopyM4S5 (s : State) : Host.Outcome State Fault Refusal := execOpcode 0xD4 s

/-- `ADD.1+COPY.m4.6`, opcode 0xD5 (R275): row `(ADD, 1, 0), (COPY, 6, 4)`. -/
def execAddS1CopyM4S6 (s : State) : Host.Outcome State Fault Refusal := execOpcode 0xD5 s

/-- `ADD.2+COPY.m4.4`, opcode 0xD6 (R275): row `(ADD, 2, 0), (COPY, 4, 4)`. -/
def execAddS2CopyM4S4 (s : State) : Host.Outcome State Fault Refusal := execOpcode 0xD6 s

/-- `ADD.2+COPY.m4.5`, opcode 0xD7 (R275): row `(ADD, 2, 0), (COPY, 5, 4)`. -/
def execAddS2CopyM4S5 (s : State) : Host.Outcome State Fault Refusal := execOpcode 0xD7 s

/-- `ADD.2+COPY.m4.6`, opcode 0xD8 (R275): row `(ADD, 2, 0), (COPY, 6, 4)`. -/
def execAddS2CopyM4S6 (s : State) : Host.Outcome State Fault Refusal := execOpcode 0xD8 s

/-- `ADD.3+COPY.m4.4`, opcode 0xD9 (R275): row `(ADD, 3, 0), (COPY, 4, 4)`. -/
def execAddS3CopyM4S4 (s : State) : Host.Outcome State Fault Refusal := execOpcode 0xD9 s

/-- `ADD.3+COPY.m4.5`, opcode 0xDA (R275): row `(ADD, 3, 0), (COPY, 5, 4)`. -/
def execAddS3CopyM4S5 (s : State) : Host.Outcome State Fault Refusal := execOpcode 0xDA s

/-- `ADD.3+COPY.m4.6`, opcode 0xDB (R275): row `(ADD, 3, 0), (COPY, 6, 4)`. -/
def execAddS3CopyM4S6 (s : State) : Host.Outcome State Fault Refusal := execOpcode 0xDB s

/-- `ADD.4+COPY.m4.4`, opcode 0xDC (R275): row `(ADD, 4, 0), (COPY, 4, 4)`. -/
def execAddS4CopyM4S4 (s : State) : Host.Outcome State Fault Refusal := execOpcode 0xDC s

/-- `ADD.4+COPY.m4.5`, opcode 0xDD (R275): row `(ADD, 4, 0), (COPY, 5, 4)`. -/
def execAddS4CopyM4S5 (s : State) : Host.Outcome State Fault Refusal := execOpcode 0xDD s

/-- `ADD.4+COPY.m4.6`, opcode 0xDE (R275): row `(ADD, 4, 0), (COPY, 6, 4)`. -/
def execAddS4CopyM4S6 (s : State) : Host.Outcome State Fault Refusal := execOpcode 0xDE s

/-- `ADD.1+COPY.m5.4`, opcode 0xDF (R275): row `(ADD, 1, 0), (COPY, 4, 5)`. -/
def execAddS1CopyM5S4 (s : State) : Host.Outcome State Fault Refusal := execOpcode 0xDF s

/-- `ADD.1+COPY.m5.5`, opcode 0xE0 (R275): row `(ADD, 1, 0), (COPY, 5, 5)`. -/
def execAddS1CopyM5S5 (s : State) : Host.Outcome State Fault Refusal := execOpcode 0xE0 s

/-- `ADD.1+COPY.m5.6`, opcode 0xE1 (R275): row `(ADD, 1, 0), (COPY, 6, 5)`. -/
def execAddS1CopyM5S6 (s : State) : Host.Outcome State Fault Refusal := execOpcode 0xE1 s

/-- `ADD.2+COPY.m5.4`, opcode 0xE2 (R275): row `(ADD, 2, 0), (COPY, 4, 5)`. -/
def execAddS2CopyM5S4 (s : State) : Host.Outcome State Fault Refusal := execOpcode 0xE2 s

/-- `ADD.2+COPY.m5.5`, opcode 0xE3 (R275): row `(ADD, 2, 0), (COPY, 5, 5)`. -/
def execAddS2CopyM5S5 (s : State) : Host.Outcome State Fault Refusal := execOpcode 0xE3 s

/-- `ADD.2+COPY.m5.6`, opcode 0xE4 (R275): row `(ADD, 2, 0), (COPY, 6, 5)`. -/
def execAddS2CopyM5S6 (s : State) : Host.Outcome State Fault Refusal := execOpcode 0xE4 s

/-- `ADD.3+COPY.m5.4`, opcode 0xE5 (R275): row `(ADD, 3, 0), (COPY, 4, 5)`. -/
def execAddS3CopyM5S4 (s : State) : Host.Outcome State Fault Refusal := execOpcode 0xE5 s

/-- `ADD.3+COPY.m5.5`, opcode 0xE6 (R275): row `(ADD, 3, 0), (COPY, 5, 5)`. -/
def execAddS3CopyM5S5 (s : State) : Host.Outcome State Fault Refusal := execOpcode 0xE6 s

/-- `ADD.3+COPY.m5.6`, opcode 0xE7 (R275): row `(ADD, 3, 0), (COPY, 6, 5)`. -/
def execAddS3CopyM5S6 (s : State) : Host.Outcome State Fault Refusal := execOpcode 0xE7 s

/-- `ADD.4+COPY.m5.4`, opcode 0xE8 (R275): row `(ADD, 4, 0), (COPY, 4, 5)`. -/
def execAddS4CopyM5S4 (s : State) : Host.Outcome State Fault Refusal := execOpcode 0xE8 s

/-- `ADD.4+COPY.m5.5`, opcode 0xE9 (R275): row `(ADD, 4, 0), (COPY, 5, 5)`. -/
def execAddS4CopyM5S5 (s : State) : Host.Outcome State Fault Refusal := execOpcode 0xE9 s

/-- `ADD.4+COPY.m5.6`, opcode 0xEA (R275): row `(ADD, 4, 0), (COPY, 6, 5)`. -/
def execAddS4CopyM5S6 (s : State) : Host.Outcome State Fault Refusal := execOpcode 0xEA s

/-- `ADD.1+COPY.m6.4`, opcode 0xEB (R276): row `(ADD, 1, 0), (COPY, 4, 6)`. -/
def execAddS1CopyM6S4 (s : State) : Host.Outcome State Fault Refusal := execOpcode 0xEB s

/-- `ADD.2+COPY.m6.4`, opcode 0xEC (R276): row `(ADD, 2, 0), (COPY, 4, 6)`. -/
def execAddS2CopyM6S4 (s : State) : Host.Outcome State Fault Refusal := execOpcode 0xEC s

/-- `ADD.3+COPY.m6.4`, opcode 0xED (R276): row `(ADD, 3, 0), (COPY, 4, 6)`. -/
def execAddS3CopyM6S4 (s : State) : Host.Outcome State Fault Refusal := execOpcode 0xED s

/-- `ADD.4+COPY.m6.4`, opcode 0xEE (R276): row `(ADD, 4, 0), (COPY, 4, 6)`. -/
def execAddS4CopyM6S4 (s : State) : Host.Outcome State Fault Refusal := execOpcode 0xEE s

/-- `ADD.1+COPY.m7.4`, opcode 0xEF (R276): row `(ADD, 1, 0), (COPY, 4, 7)`. -/
def execAddS1CopyM7S4 (s : State) : Host.Outcome State Fault Refusal := execOpcode 0xEF s

/-- `ADD.2+COPY.m7.4`, opcode 0xF0 (R276): row `(ADD, 2, 0), (COPY, 4, 7)`. -/
def execAddS2CopyM7S4 (s : State) : Host.Outcome State Fault Refusal := execOpcode 0xF0 s

/-- `ADD.3+COPY.m7.4`, opcode 0xF1 (R276): row `(ADD, 3, 0), (COPY, 4, 7)`. -/
def execAddS3CopyM7S4 (s : State) : Host.Outcome State Fault Refusal := execOpcode 0xF1 s

/-- `ADD.4+COPY.m7.4`, opcode 0xF2 (R276): row `(ADD, 4, 0), (COPY, 4, 7)`. -/
def execAddS4CopyM7S4 (s : State) : Host.Outcome State Fault Refusal := execOpcode 0xF2 s

/-- `ADD.1+COPY.m8.4`, opcode 0xF3 (R276): row `(ADD, 1, 0), (COPY, 4, 8)`. -/
def execAddS1CopyM8S4 (s : State) : Host.Outcome State Fault Refusal := execOpcode 0xF3 s

/-- `ADD.2+COPY.m8.4`, opcode 0xF4 (R276): row `(ADD, 2, 0), (COPY, 4, 8)`. -/
def execAddS2CopyM8S4 (s : State) : Host.Outcome State Fault Refusal := execOpcode 0xF4 s

/-- `ADD.3+COPY.m8.4`, opcode 0xF5 (R276): row `(ADD, 3, 0), (COPY, 4, 8)`. -/
def execAddS3CopyM8S4 (s : State) : Host.Outcome State Fault Refusal := execOpcode 0xF5 s

/-- `ADD.4+COPY.m8.4`, opcode 0xF6 (R276): row `(ADD, 4, 0), (COPY, 4, 8)`. -/
def execAddS4CopyM8S4 (s : State) : Host.Outcome State Fault Refusal := execOpcode 0xF6 s

end Sys2Proof.Machine
end

