-- ==== Sys2Proof/Machine/DeltaCopy.lean ====
section
/-! DEFINITION. The opcodes `COPY.m<m>` and `COPY.m<m>.s` (44_delta_instructions.md R273, R274).
Each meaning is the opcode under the current code table (R260); its row under the default table is in its docstring.
The fetch of the opcode byte, which advances `ip` by one, is in the step (R260). -/

namespace Sys2Proof.Machine

/-- `COPY.m0`, opcode 0x13 (R273): row `(COPY, 0, 0), (NOOP, 0, 0)`. -/
def execCopyM0 (s : State) : Host.Outcome State Fault Refusal := execOpcode 0x13 s

/-- `COPY.m0.4`, opcode 0x14 (R274): row `(COPY, 4, 0), (NOOP, 0, 0)`. -/
def execCopyM0S4 (s : State) : Host.Outcome State Fault Refusal := execOpcode 0x14 s

/-- `COPY.m0.5`, opcode 0x15 (R274): row `(COPY, 5, 0), (NOOP, 0, 0)`. -/
def execCopyM0S5 (s : State) : Host.Outcome State Fault Refusal := execOpcode 0x15 s

/-- `COPY.m0.6`, opcode 0x16 (R274): row `(COPY, 6, 0), (NOOP, 0, 0)`. -/
def execCopyM0S6 (s : State) : Host.Outcome State Fault Refusal := execOpcode 0x16 s

/-- `COPY.m0.7`, opcode 0x17 (R274): row `(COPY, 7, 0), (NOOP, 0, 0)`. -/
def execCopyM0S7 (s : State) : Host.Outcome State Fault Refusal := execOpcode 0x17 s

/-- `COPY.m0.8`, opcode 0x18 (R274): row `(COPY, 8, 0), (NOOP, 0, 0)`. -/
def execCopyM0S8 (s : State) : Host.Outcome State Fault Refusal := execOpcode 0x18 s

/-- `COPY.m0.9`, opcode 0x19 (R274): row `(COPY, 9, 0), (NOOP, 0, 0)`. -/
def execCopyM0S9 (s : State) : Host.Outcome State Fault Refusal := execOpcode 0x19 s

/-- `COPY.m0.10`, opcode 0x1A (R274): row `(COPY, 10, 0), (NOOP, 0, 0)`. -/
def execCopyM0S10 (s : State) : Host.Outcome State Fault Refusal := execOpcode 0x1A s

/-- `COPY.m0.11`, opcode 0x1B (R274): row `(COPY, 11, 0), (NOOP, 0, 0)`. -/
def execCopyM0S11 (s : State) : Host.Outcome State Fault Refusal := execOpcode 0x1B s

/-- `COPY.m0.12`, opcode 0x1C (R274): row `(COPY, 12, 0), (NOOP, 0, 0)`. -/
def execCopyM0S12 (s : State) : Host.Outcome State Fault Refusal := execOpcode 0x1C s

/-- `COPY.m0.13`, opcode 0x1D (R274): row `(COPY, 13, 0), (NOOP, 0, 0)`. -/
def execCopyM0S13 (s : State) : Host.Outcome State Fault Refusal := execOpcode 0x1D s

/-- `COPY.m0.14`, opcode 0x1E (R274): row `(COPY, 14, 0), (NOOP, 0, 0)`. -/
def execCopyM0S14 (s : State) : Host.Outcome State Fault Refusal := execOpcode 0x1E s

/-- `COPY.m0.15`, opcode 0x1F (R274): row `(COPY, 15, 0), (NOOP, 0, 0)`. -/
def execCopyM0S15 (s : State) : Host.Outcome State Fault Refusal := execOpcode 0x1F s

/-- `COPY.m0.16`, opcode 0x20 (R274): row `(COPY, 16, 0), (NOOP, 0, 0)`. -/
def execCopyM0S16 (s : State) : Host.Outcome State Fault Refusal := execOpcode 0x20 s

/-- `COPY.m0.17`, opcode 0x21 (R274): row `(COPY, 17, 0), (NOOP, 0, 0)`. -/
def execCopyM0S17 (s : State) : Host.Outcome State Fault Refusal := execOpcode 0x21 s

/-- `COPY.m0.18`, opcode 0x22 (R274): row `(COPY, 18, 0), (NOOP, 0, 0)`. -/
def execCopyM0S18 (s : State) : Host.Outcome State Fault Refusal := execOpcode 0x22 s

/-- `COPY.m1`, opcode 0x23 (R273): row `(COPY, 0, 1), (NOOP, 0, 0)`. -/
def execCopyM1 (s : State) : Host.Outcome State Fault Refusal := execOpcode 0x23 s

/-- `COPY.m1.4`, opcode 0x24 (R274): row `(COPY, 4, 1), (NOOP, 0, 0)`. -/
def execCopyM1S4 (s : State) : Host.Outcome State Fault Refusal := execOpcode 0x24 s

/-- `COPY.m1.5`, opcode 0x25 (R274): row `(COPY, 5, 1), (NOOP, 0, 0)`. -/
def execCopyM1S5 (s : State) : Host.Outcome State Fault Refusal := execOpcode 0x25 s

/-- `COPY.m1.6`, opcode 0x26 (R274): row `(COPY, 6, 1), (NOOP, 0, 0)`. -/
def execCopyM1S6 (s : State) : Host.Outcome State Fault Refusal := execOpcode 0x26 s

/-- `COPY.m1.7`, opcode 0x27 (R274): row `(COPY, 7, 1), (NOOP, 0, 0)`. -/
def execCopyM1S7 (s : State) : Host.Outcome State Fault Refusal := execOpcode 0x27 s

/-- `COPY.m1.8`, opcode 0x28 (R274): row `(COPY, 8, 1), (NOOP, 0, 0)`. -/
def execCopyM1S8 (s : State) : Host.Outcome State Fault Refusal := execOpcode 0x28 s

/-- `COPY.m1.9`, opcode 0x29 (R274): row `(COPY, 9, 1), (NOOP, 0, 0)`. -/
def execCopyM1S9 (s : State) : Host.Outcome State Fault Refusal := execOpcode 0x29 s

/-- `COPY.m1.10`, opcode 0x2A (R274): row `(COPY, 10, 1), (NOOP, 0, 0)`. -/
def execCopyM1S10 (s : State) : Host.Outcome State Fault Refusal := execOpcode 0x2A s

/-- `COPY.m1.11`, opcode 0x2B (R274): row `(COPY, 11, 1), (NOOP, 0, 0)`. -/
def execCopyM1S11 (s : State) : Host.Outcome State Fault Refusal := execOpcode 0x2B s

/-- `COPY.m1.12`, opcode 0x2C (R274): row `(COPY, 12, 1), (NOOP, 0, 0)`. -/
def execCopyM1S12 (s : State) : Host.Outcome State Fault Refusal := execOpcode 0x2C s

/-- `COPY.m1.13`, opcode 0x2D (R274): row `(COPY, 13, 1), (NOOP, 0, 0)`. -/
def execCopyM1S13 (s : State) : Host.Outcome State Fault Refusal := execOpcode 0x2D s

/-- `COPY.m1.14`, opcode 0x2E (R274): row `(COPY, 14, 1), (NOOP, 0, 0)`. -/
def execCopyM1S14 (s : State) : Host.Outcome State Fault Refusal := execOpcode 0x2E s

/-- `COPY.m1.15`, opcode 0x2F (R274): row `(COPY, 15, 1), (NOOP, 0, 0)`. -/
def execCopyM1S15 (s : State) : Host.Outcome State Fault Refusal := execOpcode 0x2F s

/-- `COPY.m1.16`, opcode 0x30 (R274): row `(COPY, 16, 1), (NOOP, 0, 0)`. -/
def execCopyM1S16 (s : State) : Host.Outcome State Fault Refusal := execOpcode 0x30 s

/-- `COPY.m1.17`, opcode 0x31 (R274): row `(COPY, 17, 1), (NOOP, 0, 0)`. -/
def execCopyM1S17 (s : State) : Host.Outcome State Fault Refusal := execOpcode 0x31 s

/-- `COPY.m1.18`, opcode 0x32 (R274): row `(COPY, 18, 1), (NOOP, 0, 0)`. -/
def execCopyM1S18 (s : State) : Host.Outcome State Fault Refusal := execOpcode 0x32 s

/-- `COPY.m2`, opcode 0x33 (R273): row `(COPY, 0, 2), (NOOP, 0, 0)`. -/
def execCopyM2 (s : State) : Host.Outcome State Fault Refusal := execOpcode 0x33 s

/-- `COPY.m2.4`, opcode 0x34 (R274): row `(COPY, 4, 2), (NOOP, 0, 0)`. -/
def execCopyM2S4 (s : State) : Host.Outcome State Fault Refusal := execOpcode 0x34 s

/-- `COPY.m2.5`, opcode 0x35 (R274): row `(COPY, 5, 2), (NOOP, 0, 0)`. -/
def execCopyM2S5 (s : State) : Host.Outcome State Fault Refusal := execOpcode 0x35 s

/-- `COPY.m2.6`, opcode 0x36 (R274): row `(COPY, 6, 2), (NOOP, 0, 0)`. -/
def execCopyM2S6 (s : State) : Host.Outcome State Fault Refusal := execOpcode 0x36 s

/-- `COPY.m2.7`, opcode 0x37 (R274): row `(COPY, 7, 2), (NOOP, 0, 0)`. -/
def execCopyM2S7 (s : State) : Host.Outcome State Fault Refusal := execOpcode 0x37 s

/-- `COPY.m2.8`, opcode 0x38 (R274): row `(COPY, 8, 2), (NOOP, 0, 0)`. -/
def execCopyM2S8 (s : State) : Host.Outcome State Fault Refusal := execOpcode 0x38 s

/-- `COPY.m2.9`, opcode 0x39 (R274): row `(COPY, 9, 2), (NOOP, 0, 0)`. -/
def execCopyM2S9 (s : State) : Host.Outcome State Fault Refusal := execOpcode 0x39 s

/-- `COPY.m2.10`, opcode 0x3A (R274): row `(COPY, 10, 2), (NOOP, 0, 0)`. -/
def execCopyM2S10 (s : State) : Host.Outcome State Fault Refusal := execOpcode 0x3A s

/-- `COPY.m2.11`, opcode 0x3B (R274): row `(COPY, 11, 2), (NOOP, 0, 0)`. -/
def execCopyM2S11 (s : State) : Host.Outcome State Fault Refusal := execOpcode 0x3B s

/-- `COPY.m2.12`, opcode 0x3C (R274): row `(COPY, 12, 2), (NOOP, 0, 0)`. -/
def execCopyM2S12 (s : State) : Host.Outcome State Fault Refusal := execOpcode 0x3C s

/-- `COPY.m2.13`, opcode 0x3D (R274): row `(COPY, 13, 2), (NOOP, 0, 0)`. -/
def execCopyM2S13 (s : State) : Host.Outcome State Fault Refusal := execOpcode 0x3D s

/-- `COPY.m2.14`, opcode 0x3E (R274): row `(COPY, 14, 2), (NOOP, 0, 0)`. -/
def execCopyM2S14 (s : State) : Host.Outcome State Fault Refusal := execOpcode 0x3E s

/-- `COPY.m2.15`, opcode 0x3F (R274): row `(COPY, 15, 2), (NOOP, 0, 0)`. -/
def execCopyM2S15 (s : State) : Host.Outcome State Fault Refusal := execOpcode 0x3F s

/-- `COPY.m2.16`, opcode 0x40 (R274): row `(COPY, 16, 2), (NOOP, 0, 0)`. -/
def execCopyM2S16 (s : State) : Host.Outcome State Fault Refusal := execOpcode 0x40 s

/-- `COPY.m2.17`, opcode 0x41 (R274): row `(COPY, 17, 2), (NOOP, 0, 0)`. -/
def execCopyM2S17 (s : State) : Host.Outcome State Fault Refusal := execOpcode 0x41 s

/-- `COPY.m2.18`, opcode 0x42 (R274): row `(COPY, 18, 2), (NOOP, 0, 0)`. -/
def execCopyM2S18 (s : State) : Host.Outcome State Fault Refusal := execOpcode 0x42 s

/-- `COPY.m3`, opcode 0x43 (R273): row `(COPY, 0, 3), (NOOP, 0, 0)`. -/
def execCopyM3 (s : State) : Host.Outcome State Fault Refusal := execOpcode 0x43 s

/-- `COPY.m3.4`, opcode 0x44 (R274): row `(COPY, 4, 3), (NOOP, 0, 0)`. -/
def execCopyM3S4 (s : State) : Host.Outcome State Fault Refusal := execOpcode 0x44 s

/-- `COPY.m3.5`, opcode 0x45 (R274): row `(COPY, 5, 3), (NOOP, 0, 0)`. -/
def execCopyM3S5 (s : State) : Host.Outcome State Fault Refusal := execOpcode 0x45 s

/-- `COPY.m3.6`, opcode 0x46 (R274): row `(COPY, 6, 3), (NOOP, 0, 0)`. -/
def execCopyM3S6 (s : State) : Host.Outcome State Fault Refusal := execOpcode 0x46 s

/-- `COPY.m3.7`, opcode 0x47 (R274): row `(COPY, 7, 3), (NOOP, 0, 0)`. -/
def execCopyM3S7 (s : State) : Host.Outcome State Fault Refusal := execOpcode 0x47 s

/-- `COPY.m3.8`, opcode 0x48 (R274): row `(COPY, 8, 3), (NOOP, 0, 0)`. -/
def execCopyM3S8 (s : State) : Host.Outcome State Fault Refusal := execOpcode 0x48 s

/-- `COPY.m3.9`, opcode 0x49 (R274): row `(COPY, 9, 3), (NOOP, 0, 0)`. -/
def execCopyM3S9 (s : State) : Host.Outcome State Fault Refusal := execOpcode 0x49 s

/-- `COPY.m3.10`, opcode 0x4A (R274): row `(COPY, 10, 3), (NOOP, 0, 0)`. -/
def execCopyM3S10 (s : State) : Host.Outcome State Fault Refusal := execOpcode 0x4A s

/-- `COPY.m3.11`, opcode 0x4B (R274): row `(COPY, 11, 3), (NOOP, 0, 0)`. -/
def execCopyM3S11 (s : State) : Host.Outcome State Fault Refusal := execOpcode 0x4B s

/-- `COPY.m3.12`, opcode 0x4C (R274): row `(COPY, 12, 3), (NOOP, 0, 0)`. -/
def execCopyM3S12 (s : State) : Host.Outcome State Fault Refusal := execOpcode 0x4C s

/-- `COPY.m3.13`, opcode 0x4D (R274): row `(COPY, 13, 3), (NOOP, 0, 0)`. -/
def execCopyM3S13 (s : State) : Host.Outcome State Fault Refusal := execOpcode 0x4D s

/-- `COPY.m3.14`, opcode 0x4E (R274): row `(COPY, 14, 3), (NOOP, 0, 0)`. -/
def execCopyM3S14 (s : State) : Host.Outcome State Fault Refusal := execOpcode 0x4E s

/-- `COPY.m3.15`, opcode 0x4F (R274): row `(COPY, 15, 3), (NOOP, 0, 0)`. -/
def execCopyM3S15 (s : State) : Host.Outcome State Fault Refusal := execOpcode 0x4F s

/-- `COPY.m3.16`, opcode 0x50 (R274): row `(COPY, 16, 3), (NOOP, 0, 0)`. -/
def execCopyM3S16 (s : State) : Host.Outcome State Fault Refusal := execOpcode 0x50 s

/-- `COPY.m3.17`, opcode 0x51 (R274): row `(COPY, 17, 3), (NOOP, 0, 0)`. -/
def execCopyM3S17 (s : State) : Host.Outcome State Fault Refusal := execOpcode 0x51 s

/-- `COPY.m3.18`, opcode 0x52 (R274): row `(COPY, 18, 3), (NOOP, 0, 0)`. -/
def execCopyM3S18 (s : State) : Host.Outcome State Fault Refusal := execOpcode 0x52 s

/-- `COPY.m4`, opcode 0x53 (R273): row `(COPY, 0, 4), (NOOP, 0, 0)`. -/
def execCopyM4 (s : State) : Host.Outcome State Fault Refusal := execOpcode 0x53 s

/-- `COPY.m4.4`, opcode 0x54 (R274): row `(COPY, 4, 4), (NOOP, 0, 0)`. -/
def execCopyM4S4 (s : State) : Host.Outcome State Fault Refusal := execOpcode 0x54 s

/-- `COPY.m4.5`, opcode 0x55 (R274): row `(COPY, 5, 4), (NOOP, 0, 0)`. -/
def execCopyM4S5 (s : State) : Host.Outcome State Fault Refusal := execOpcode 0x55 s

/-- `COPY.m4.6`, opcode 0x56 (R274): row `(COPY, 6, 4), (NOOP, 0, 0)`. -/
def execCopyM4S6 (s : State) : Host.Outcome State Fault Refusal := execOpcode 0x56 s

/-- `COPY.m4.7`, opcode 0x57 (R274): row `(COPY, 7, 4), (NOOP, 0, 0)`. -/
def execCopyM4S7 (s : State) : Host.Outcome State Fault Refusal := execOpcode 0x57 s

/-- `COPY.m4.8`, opcode 0x58 (R274): row `(COPY, 8, 4), (NOOP, 0, 0)`. -/
def execCopyM4S8 (s : State) : Host.Outcome State Fault Refusal := execOpcode 0x58 s

/-- `COPY.m4.9`, opcode 0x59 (R274): row `(COPY, 9, 4), (NOOP, 0, 0)`. -/
def execCopyM4S9 (s : State) : Host.Outcome State Fault Refusal := execOpcode 0x59 s

/-- `COPY.m4.10`, opcode 0x5A (R274): row `(COPY, 10, 4), (NOOP, 0, 0)`. -/
def execCopyM4S10 (s : State) : Host.Outcome State Fault Refusal := execOpcode 0x5A s

/-- `COPY.m4.11`, opcode 0x5B (R274): row `(COPY, 11, 4), (NOOP, 0, 0)`. -/
def execCopyM4S11 (s : State) : Host.Outcome State Fault Refusal := execOpcode 0x5B s

/-- `COPY.m4.12`, opcode 0x5C (R274): row `(COPY, 12, 4), (NOOP, 0, 0)`. -/
def execCopyM4S12 (s : State) : Host.Outcome State Fault Refusal := execOpcode 0x5C s

/-- `COPY.m4.13`, opcode 0x5D (R274): row `(COPY, 13, 4), (NOOP, 0, 0)`. -/
def execCopyM4S13 (s : State) : Host.Outcome State Fault Refusal := execOpcode 0x5D s

/-- `COPY.m4.14`, opcode 0x5E (R274): row `(COPY, 14, 4), (NOOP, 0, 0)`. -/
def execCopyM4S14 (s : State) : Host.Outcome State Fault Refusal := execOpcode 0x5E s

/-- `COPY.m4.15`, opcode 0x5F (R274): row `(COPY, 15, 4), (NOOP, 0, 0)`. -/
def execCopyM4S15 (s : State) : Host.Outcome State Fault Refusal := execOpcode 0x5F s

/-- `COPY.m4.16`, opcode 0x60 (R274): row `(COPY, 16, 4), (NOOP, 0, 0)`. -/
def execCopyM4S16 (s : State) : Host.Outcome State Fault Refusal := execOpcode 0x60 s

/-- `COPY.m4.17`, opcode 0x61 (R274): row `(COPY, 17, 4), (NOOP, 0, 0)`. -/
def execCopyM4S17 (s : State) : Host.Outcome State Fault Refusal := execOpcode 0x61 s

/-- `COPY.m4.18`, opcode 0x62 (R274): row `(COPY, 18, 4), (NOOP, 0, 0)`. -/
def execCopyM4S18 (s : State) : Host.Outcome State Fault Refusal := execOpcode 0x62 s

/-- `COPY.m5`, opcode 0x63 (R273): row `(COPY, 0, 5), (NOOP, 0, 0)`. -/
def execCopyM5 (s : State) : Host.Outcome State Fault Refusal := execOpcode 0x63 s

/-- `COPY.m5.4`, opcode 0x64 (R274): row `(COPY, 4, 5), (NOOP, 0, 0)`. -/
def execCopyM5S4 (s : State) : Host.Outcome State Fault Refusal := execOpcode 0x64 s

/-- `COPY.m5.5`, opcode 0x65 (R274): row `(COPY, 5, 5), (NOOP, 0, 0)`. -/
def execCopyM5S5 (s : State) : Host.Outcome State Fault Refusal := execOpcode 0x65 s

/-- `COPY.m5.6`, opcode 0x66 (R274): row `(COPY, 6, 5), (NOOP, 0, 0)`. -/
def execCopyM5S6 (s : State) : Host.Outcome State Fault Refusal := execOpcode 0x66 s

/-- `COPY.m5.7`, opcode 0x67 (R274): row `(COPY, 7, 5), (NOOP, 0, 0)`. -/
def execCopyM5S7 (s : State) : Host.Outcome State Fault Refusal := execOpcode 0x67 s

/-- `COPY.m5.8`, opcode 0x68 (R274): row `(COPY, 8, 5), (NOOP, 0, 0)`. -/
def execCopyM5S8 (s : State) : Host.Outcome State Fault Refusal := execOpcode 0x68 s

/-- `COPY.m5.9`, opcode 0x69 (R274): row `(COPY, 9, 5), (NOOP, 0, 0)`. -/
def execCopyM5S9 (s : State) : Host.Outcome State Fault Refusal := execOpcode 0x69 s

/-- `COPY.m5.10`, opcode 0x6A (R274): row `(COPY, 10, 5), (NOOP, 0, 0)`. -/
def execCopyM5S10 (s : State) : Host.Outcome State Fault Refusal := execOpcode 0x6A s

/-- `COPY.m5.11`, opcode 0x6B (R274): row `(COPY, 11, 5), (NOOP, 0, 0)`. -/
def execCopyM5S11 (s : State) : Host.Outcome State Fault Refusal := execOpcode 0x6B s

/-- `COPY.m5.12`, opcode 0x6C (R274): row `(COPY, 12, 5), (NOOP, 0, 0)`. -/
def execCopyM5S12 (s : State) : Host.Outcome State Fault Refusal := execOpcode 0x6C s

/-- `COPY.m5.13`, opcode 0x6D (R274): row `(COPY, 13, 5), (NOOP, 0, 0)`. -/
def execCopyM5S13 (s : State) : Host.Outcome State Fault Refusal := execOpcode 0x6D s

/-- `COPY.m5.14`, opcode 0x6E (R274): row `(COPY, 14, 5), (NOOP, 0, 0)`. -/
def execCopyM5S14 (s : State) : Host.Outcome State Fault Refusal := execOpcode 0x6E s

/-- `COPY.m5.15`, opcode 0x6F (R274): row `(COPY, 15, 5), (NOOP, 0, 0)`. -/
def execCopyM5S15 (s : State) : Host.Outcome State Fault Refusal := execOpcode 0x6F s

/-- `COPY.m5.16`, opcode 0x70 (R274): row `(COPY, 16, 5), (NOOP, 0, 0)`. -/
def execCopyM5S16 (s : State) : Host.Outcome State Fault Refusal := execOpcode 0x70 s

/-- `COPY.m5.17`, opcode 0x71 (R274): row `(COPY, 17, 5), (NOOP, 0, 0)`. -/
def execCopyM5S17 (s : State) : Host.Outcome State Fault Refusal := execOpcode 0x71 s

/-- `COPY.m5.18`, opcode 0x72 (R274): row `(COPY, 18, 5), (NOOP, 0, 0)`. -/
def execCopyM5S18 (s : State) : Host.Outcome State Fault Refusal := execOpcode 0x72 s

/-- `COPY.m6`, opcode 0x73 (R273): row `(COPY, 0, 6), (NOOP, 0, 0)`. -/
def execCopyM6 (s : State) : Host.Outcome State Fault Refusal := execOpcode 0x73 s

/-- `COPY.m6.4`, opcode 0x74 (R274): row `(COPY, 4, 6), (NOOP, 0, 0)`. -/
def execCopyM6S4 (s : State) : Host.Outcome State Fault Refusal := execOpcode 0x74 s

/-- `COPY.m6.5`, opcode 0x75 (R274): row `(COPY, 5, 6), (NOOP, 0, 0)`. -/
def execCopyM6S5 (s : State) : Host.Outcome State Fault Refusal := execOpcode 0x75 s

/-- `COPY.m6.6`, opcode 0x76 (R274): row `(COPY, 6, 6), (NOOP, 0, 0)`. -/
def execCopyM6S6 (s : State) : Host.Outcome State Fault Refusal := execOpcode 0x76 s

/-- `COPY.m6.7`, opcode 0x77 (R274): row `(COPY, 7, 6), (NOOP, 0, 0)`. -/
def execCopyM6S7 (s : State) : Host.Outcome State Fault Refusal := execOpcode 0x77 s

/-- `COPY.m6.8`, opcode 0x78 (R274): row `(COPY, 8, 6), (NOOP, 0, 0)`. -/
def execCopyM6S8 (s : State) : Host.Outcome State Fault Refusal := execOpcode 0x78 s

/-- `COPY.m6.9`, opcode 0x79 (R274): row `(COPY, 9, 6), (NOOP, 0, 0)`. -/
def execCopyM6S9 (s : State) : Host.Outcome State Fault Refusal := execOpcode 0x79 s

/-- `COPY.m6.10`, opcode 0x7A (R274): row `(COPY, 10, 6), (NOOP, 0, 0)`. -/
def execCopyM6S10 (s : State) : Host.Outcome State Fault Refusal := execOpcode 0x7A s

/-- `COPY.m6.11`, opcode 0x7B (R274): row `(COPY, 11, 6), (NOOP, 0, 0)`. -/
def execCopyM6S11 (s : State) : Host.Outcome State Fault Refusal := execOpcode 0x7B s

/-- `COPY.m6.12`, opcode 0x7C (R274): row `(COPY, 12, 6), (NOOP, 0, 0)`. -/
def execCopyM6S12 (s : State) : Host.Outcome State Fault Refusal := execOpcode 0x7C s

/-- `COPY.m6.13`, opcode 0x7D (R274): row `(COPY, 13, 6), (NOOP, 0, 0)`. -/
def execCopyM6S13 (s : State) : Host.Outcome State Fault Refusal := execOpcode 0x7D s

/-- `COPY.m6.14`, opcode 0x7E (R274): row `(COPY, 14, 6), (NOOP, 0, 0)`. -/
def execCopyM6S14 (s : State) : Host.Outcome State Fault Refusal := execOpcode 0x7E s

/-- `COPY.m6.15`, opcode 0x7F (R274): row `(COPY, 15, 6), (NOOP, 0, 0)`. -/
def execCopyM6S15 (s : State) : Host.Outcome State Fault Refusal := execOpcode 0x7F s

/-- `COPY.m6.16`, opcode 0x80 (R274): row `(COPY, 16, 6), (NOOP, 0, 0)`. -/
def execCopyM6S16 (s : State) : Host.Outcome State Fault Refusal := execOpcode 0x80 s

/-- `COPY.m6.17`, opcode 0x81 (R274): row `(COPY, 17, 6), (NOOP, 0, 0)`. -/
def execCopyM6S17 (s : State) : Host.Outcome State Fault Refusal := execOpcode 0x81 s

/-- `COPY.m6.18`, opcode 0x82 (R274): row `(COPY, 18, 6), (NOOP, 0, 0)`. -/
def execCopyM6S18 (s : State) : Host.Outcome State Fault Refusal := execOpcode 0x82 s

/-- `COPY.m7`, opcode 0x83 (R273): row `(COPY, 0, 7), (NOOP, 0, 0)`. -/
def execCopyM7 (s : State) : Host.Outcome State Fault Refusal := execOpcode 0x83 s

/-- `COPY.m7.4`, opcode 0x84 (R274): row `(COPY, 4, 7), (NOOP, 0, 0)`. -/
def execCopyM7S4 (s : State) : Host.Outcome State Fault Refusal := execOpcode 0x84 s

/-- `COPY.m7.5`, opcode 0x85 (R274): row `(COPY, 5, 7), (NOOP, 0, 0)`. -/
def execCopyM7S5 (s : State) : Host.Outcome State Fault Refusal := execOpcode 0x85 s

/-- `COPY.m7.6`, opcode 0x86 (R274): row `(COPY, 6, 7), (NOOP, 0, 0)`. -/
def execCopyM7S6 (s : State) : Host.Outcome State Fault Refusal := execOpcode 0x86 s

/-- `COPY.m7.7`, opcode 0x87 (R274): row `(COPY, 7, 7), (NOOP, 0, 0)`. -/
def execCopyM7S7 (s : State) : Host.Outcome State Fault Refusal := execOpcode 0x87 s

/-- `COPY.m7.8`, opcode 0x88 (R274): row `(COPY, 8, 7), (NOOP, 0, 0)`. -/
def execCopyM7S8 (s : State) : Host.Outcome State Fault Refusal := execOpcode 0x88 s

/-- `COPY.m7.9`, opcode 0x89 (R274): row `(COPY, 9, 7), (NOOP, 0, 0)`. -/
def execCopyM7S9 (s : State) : Host.Outcome State Fault Refusal := execOpcode 0x89 s

/-- `COPY.m7.10`, opcode 0x8A (R274): row `(COPY, 10, 7), (NOOP, 0, 0)`. -/
def execCopyM7S10 (s : State) : Host.Outcome State Fault Refusal := execOpcode 0x8A s

/-- `COPY.m7.11`, opcode 0x8B (R274): row `(COPY, 11, 7), (NOOP, 0, 0)`. -/
def execCopyM7S11 (s : State) : Host.Outcome State Fault Refusal := execOpcode 0x8B s

/-- `COPY.m7.12`, opcode 0x8C (R274): row `(COPY, 12, 7), (NOOP, 0, 0)`. -/
def execCopyM7S12 (s : State) : Host.Outcome State Fault Refusal := execOpcode 0x8C s

/-- `COPY.m7.13`, opcode 0x8D (R274): row `(COPY, 13, 7), (NOOP, 0, 0)`. -/
def execCopyM7S13 (s : State) : Host.Outcome State Fault Refusal := execOpcode 0x8D s

/-- `COPY.m7.14`, opcode 0x8E (R274): row `(COPY, 14, 7), (NOOP, 0, 0)`. -/
def execCopyM7S14 (s : State) : Host.Outcome State Fault Refusal := execOpcode 0x8E s

/-- `COPY.m7.15`, opcode 0x8F (R274): row `(COPY, 15, 7), (NOOP, 0, 0)`. -/
def execCopyM7S15 (s : State) : Host.Outcome State Fault Refusal := execOpcode 0x8F s

/-- `COPY.m7.16`, opcode 0x90 (R274): row `(COPY, 16, 7), (NOOP, 0, 0)`. -/
def execCopyM7S16 (s : State) : Host.Outcome State Fault Refusal := execOpcode 0x90 s

/-- `COPY.m7.17`, opcode 0x91 (R274): row `(COPY, 17, 7), (NOOP, 0, 0)`. -/
def execCopyM7S17 (s : State) : Host.Outcome State Fault Refusal := execOpcode 0x91 s

/-- `COPY.m7.18`, opcode 0x92 (R274): row `(COPY, 18, 7), (NOOP, 0, 0)`. -/
def execCopyM7S18 (s : State) : Host.Outcome State Fault Refusal := execOpcode 0x92 s

/-- `COPY.m8`, opcode 0x93 (R273): row `(COPY, 0, 8), (NOOP, 0, 0)`. -/
def execCopyM8 (s : State) : Host.Outcome State Fault Refusal := execOpcode 0x93 s

/-- `COPY.m8.4`, opcode 0x94 (R274): row `(COPY, 4, 8), (NOOP, 0, 0)`. -/
def execCopyM8S4 (s : State) : Host.Outcome State Fault Refusal := execOpcode 0x94 s

/-- `COPY.m8.5`, opcode 0x95 (R274): row `(COPY, 5, 8), (NOOP, 0, 0)`. -/
def execCopyM8S5 (s : State) : Host.Outcome State Fault Refusal := execOpcode 0x95 s

/-- `COPY.m8.6`, opcode 0x96 (R274): row `(COPY, 6, 8), (NOOP, 0, 0)`. -/
def execCopyM8S6 (s : State) : Host.Outcome State Fault Refusal := execOpcode 0x96 s

/-- `COPY.m8.7`, opcode 0x97 (R274): row `(COPY, 7, 8), (NOOP, 0, 0)`. -/
def execCopyM8S7 (s : State) : Host.Outcome State Fault Refusal := execOpcode 0x97 s

/-- `COPY.m8.8`, opcode 0x98 (R274): row `(COPY, 8, 8), (NOOP, 0, 0)`. -/
def execCopyM8S8 (s : State) : Host.Outcome State Fault Refusal := execOpcode 0x98 s

/-- `COPY.m8.9`, opcode 0x99 (R274): row `(COPY, 9, 8), (NOOP, 0, 0)`. -/
def execCopyM8S9 (s : State) : Host.Outcome State Fault Refusal := execOpcode 0x99 s

/-- `COPY.m8.10`, opcode 0x9A (R274): row `(COPY, 10, 8), (NOOP, 0, 0)`. -/
def execCopyM8S10 (s : State) : Host.Outcome State Fault Refusal := execOpcode 0x9A s

/-- `COPY.m8.11`, opcode 0x9B (R274): row `(COPY, 11, 8), (NOOP, 0, 0)`. -/
def execCopyM8S11 (s : State) : Host.Outcome State Fault Refusal := execOpcode 0x9B s

/-- `COPY.m8.12`, opcode 0x9C (R274): row `(COPY, 12, 8), (NOOP, 0, 0)`. -/
def execCopyM8S12 (s : State) : Host.Outcome State Fault Refusal := execOpcode 0x9C s

/-- `COPY.m8.13`, opcode 0x9D (R274): row `(COPY, 13, 8), (NOOP, 0, 0)`. -/
def execCopyM8S13 (s : State) : Host.Outcome State Fault Refusal := execOpcode 0x9D s

/-- `COPY.m8.14`, opcode 0x9E (R274): row `(COPY, 14, 8), (NOOP, 0, 0)`. -/
def execCopyM8S14 (s : State) : Host.Outcome State Fault Refusal := execOpcode 0x9E s

/-- `COPY.m8.15`, opcode 0x9F (R274): row `(COPY, 15, 8), (NOOP, 0, 0)`. -/
def execCopyM8S15 (s : State) : Host.Outcome State Fault Refusal := execOpcode 0x9F s

/-- `COPY.m8.16`, opcode 0xA0 (R274): row `(COPY, 16, 8), (NOOP, 0, 0)`. -/
def execCopyM8S16 (s : State) : Host.Outcome State Fault Refusal := execOpcode 0xA0 s

/-- `COPY.m8.17`, opcode 0xA1 (R274): row `(COPY, 17, 8), (NOOP, 0, 0)`. -/
def execCopyM8S17 (s : State) : Host.Outcome State Fault Refusal := execOpcode 0xA1 s

/-- `COPY.m8.18`, opcode 0xA2 (R274): row `(COPY, 18, 8), (NOOP, 0, 0)`. -/
def execCopyM8S18 (s : State) : Host.Outcome State Fault Refusal := execOpcode 0xA2 s

end Sys2Proof.Machine
end

