-- ==== Sys2Proof/Machine/DeltaCopyAdd.lean ====
section
/-! DEFINITION. The compound opcodes `COPY.m<m>.4+ADD.1` (44_delta_instructions.md R277).
Each meaning is the opcode under the current code table (R260); its row under the default table is in its docstring.
The fetch of the opcode byte, which advances `ip` by one, is in the step (R260). -/

namespace Sys2Proof.Machine

/-- `COPY.m0.4+ADD.1`, opcode 0xF7 (R277): row `(COPY, 4, 0), (ADD, 1, 0)`. -/
def execCopyM0S4AddS1 (s : State) : Host.Outcome State Fault Refusal := execOpcode 0xF7 s

/-- `COPY.m1.4+ADD.1`, opcode 0xF8 (R277): row `(COPY, 4, 1), (ADD, 1, 0)`. -/
def execCopyM1S4AddS1 (s : State) : Host.Outcome State Fault Refusal := execOpcode 0xF8 s

/-- `COPY.m2.4+ADD.1`, opcode 0xF9 (R277): row `(COPY, 4, 2), (ADD, 1, 0)`. -/
def execCopyM2S4AddS1 (s : State) : Host.Outcome State Fault Refusal := execOpcode 0xF9 s

/-- `COPY.m3.4+ADD.1`, opcode 0xFA (R277): row `(COPY, 4, 3), (ADD, 1, 0)`. -/
def execCopyM3S4AddS1 (s : State) : Host.Outcome State Fault Refusal := execOpcode 0xFA s

/-- `COPY.m4.4+ADD.1`, opcode 0xFB (R277): row `(COPY, 4, 4), (ADD, 1, 0)`. -/
def execCopyM4S4AddS1 (s : State) : Host.Outcome State Fault Refusal := execOpcode 0xFB s

/-- `COPY.m5.4+ADD.1`, opcode 0xFC (R277): row `(COPY, 4, 5), (ADD, 1, 0)`. -/
def execCopyM5S4AddS1 (s : State) : Host.Outcome State Fault Refusal := execOpcode 0xFC s

/-- `COPY.m6.4+ADD.1`, opcode 0xFD (R277): row `(COPY, 4, 6), (ADD, 1, 0)`. -/
def execCopyM6S4AddS1 (s : State) : Host.Outcome State Fault Refusal := execOpcode 0xFD s

/-- `COPY.m7.4+ADD.1`, opcode 0xFE (R277): row `(COPY, 4, 7), (ADD, 1, 0)`. -/
def execCopyM7S4AddS1 (s : State) : Host.Outcome State Fault Refusal := execOpcode 0xFE s

/-- `COPY.m8.4+ADD.1`, opcode 0xFF (R277): row `(COPY, 4, 8), (ADD, 1, 0)`. -/
def execCopyM8S4AddS1 (s : State) : Host.Outcome State Fault Refusal := execOpcode 0xFF s

end Sys2Proof.Machine
end

