-- ==== Sys2Proof/Machine/DeltaRunAdd.lean ====
section
/-! DEFINITION. The opcodes `RUN`, `ADD` and `ADD.s` (44_delta_instructions.md R270 to R272).
Each meaning is the opcode under the current code table (R260); its row under the default table is in its docstring.
The fetch of the opcode byte, which advances `ip` by one, is in the step (R260). -/

namespace Sys2Proof.Machine

/-- `RUN`, opcode 0x00 (R270): row `(RUN, 0, 0), (NOOP, 0, 0)`. -/
def execRun (s : State) : Host.Outcome State Fault Refusal := execOpcode 0x00 s

/-- `ADD`, opcode 0x01 (R271): row `(ADD, 0, 0), (NOOP, 0, 0)`. -/
def execAdd (s : State) : Host.Outcome State Fault Refusal := execOpcode 0x01 s

/-- `ADD.1`, opcode 0x02 (R272): row `(ADD, 1, 0), (NOOP, 0, 0)`. -/
def execAddS1 (s : State) : Host.Outcome State Fault Refusal := execOpcode 0x02 s

/-- `ADD.2`, opcode 0x03 (R272): row `(ADD, 2, 0), (NOOP, 0, 0)`. -/
def execAddS2 (s : State) : Host.Outcome State Fault Refusal := execOpcode 0x03 s

/-- `ADD.3`, opcode 0x04 (R272): row `(ADD, 3, 0), (NOOP, 0, 0)`. -/
def execAddS3 (s : State) : Host.Outcome State Fault Refusal := execOpcode 0x04 s

/-- `ADD.4`, opcode 0x05 (R272): row `(ADD, 4, 0), (NOOP, 0, 0)`. -/
def execAddS4 (s : State) : Host.Outcome State Fault Refusal := execOpcode 0x05 s

/-- `ADD.5`, opcode 0x06 (R272): row `(ADD, 5, 0), (NOOP, 0, 0)`. -/
def execAddS5 (s : State) : Host.Outcome State Fault Refusal := execOpcode 0x06 s

/-- `ADD.6`, opcode 0x07 (R272): row `(ADD, 6, 0), (NOOP, 0, 0)`. -/
def execAddS6 (s : State) : Host.Outcome State Fault Refusal := execOpcode 0x07 s

/-- `ADD.7`, opcode 0x08 (R272): row `(ADD, 7, 0), (NOOP, 0, 0)`. -/
def execAddS7 (s : State) : Host.Outcome State Fault Refusal := execOpcode 0x08 s

/-- `ADD.8`, opcode 0x09 (R272): row `(ADD, 8, 0), (NOOP, 0, 0)`. -/
def execAddS8 (s : State) : Host.Outcome State Fault Refusal := execOpcode 0x09 s

/-- `ADD.9`, opcode 0x0A (R272): row `(ADD, 9, 0), (NOOP, 0, 0)`. -/
def execAddS9 (s : State) : Host.Outcome State Fault Refusal := execOpcode 0x0A s

/-- `ADD.10`, opcode 0x0B (R272): row `(ADD, 10, 0), (NOOP, 0, 0)`. -/
def execAddS10 (s : State) : Host.Outcome State Fault Refusal := execOpcode 0x0B s

/-- `ADD.11`, opcode 0x0C (R272): row `(ADD, 11, 0), (NOOP, 0, 0)`. -/
def execAddS11 (s : State) : Host.Outcome State Fault Refusal := execOpcode 0x0C s

/-- `ADD.12`, opcode 0x0D (R272): row `(ADD, 12, 0), (NOOP, 0, 0)`. -/
def execAddS12 (s : State) : Host.Outcome State Fault Refusal := execOpcode 0x0D s

/-- `ADD.13`, opcode 0x0E (R272): row `(ADD, 13, 0), (NOOP, 0, 0)`. -/
def execAddS13 (s : State) : Host.Outcome State Fault Refusal := execOpcode 0x0E s

/-- `ADD.14`, opcode 0x0F (R272): row `(ADD, 14, 0), (NOOP, 0, 0)`. -/
def execAddS14 (s : State) : Host.Outcome State Fault Refusal := execOpcode 0x0F s

/-- `ADD.15`, opcode 0x10 (R272): row `(ADD, 15, 0), (NOOP, 0, 0)`. -/
def execAddS15 (s : State) : Host.Outcome State Fault Refusal := execOpcode 0x10 s

/-- `ADD.16`, opcode 0x11 (R272): row `(ADD, 16, 0), (NOOP, 0, 0)`. -/
def execAddS16 (s : State) : Host.Outcome State Fault Refusal := execOpcode 0x11 s

/-- `ADD.17`, opcode 0x12 (R272): row `(ADD, 17, 0), (NOOP, 0, 0)`. -/
def execAddS17 (s : State) : Host.Outcome State Fault Refusal := execOpcode 0x12 s

end Sys2Proof.Machine
end

