-- ==== Sys2Proof/Machine/Window.lean ====
section
/-! DEFINITION. The parse of a window header (45_window_decoder.md R311 to R320) and of the file header (R308, R309). The cursor
`c` counts from the front of `PENDING`. A parse that wants more input changes nothing (R311). -/

namespace Sys2Proof.Machine

/-- How a parse ends: at a cursor, wanting more input, or raising. -/
inductive Parse where
  | ok (d : Dec) (c : Nat)
  | more
  | raise (e : Cause) (d : Dec)
deriving DecidableEq, Repr

/-- Do one rule of the parse, then the next. -/
def Parse.andThen : Parse → (Dec → Nat → Parse) → Parse
  | .ok d c, k => k d c
  | .more, _ => .more
  | .raise e d, _ => .raise e d

/-- A header VarInt (R311): overflow is MalformedHeader.VarIntOverflow (R371). -/
def headerVarInt (d : Dec) (c : Nat) (k : Nat → Nat → Parse) : Parse :=
  match viRead 32 d.pending c d.pending.length with
  | .value v c' => k v c'
  | .needMore => .more
  | .error _ => .raise .headerVarIntOverflow d

/-- A header byte (R311). -/
def headerByte (d : Dec) (c : Nat) (k : Byte → Nat → Parse) : Parse :=
  match byteRead d.pending c d.pending.length with
  | .value v c' => k (BitVec.ofNat 8 v) c'
  | .needMore => .more
  | .error _ => .raise .headerVarIntOverflow d

/-- Win_Indicator (R312). -/
def parseWinIndicator (d : Dec) (c : Nat) : Parse :=
  headerByte d c (fun wi c =>
    if wi &&& 0xF8 ≠ 0 then .raise .winIndicatorReserved d
    else if wi &&& 0x03 = 0x03 then .raise .winSourceAndTarget d
    else if wi &&& 0x02 ≠ 0 ∧ d.allowVcdTarget = false then .raise .vcdTargetDisallowed d
    else .ok (setHasChecksum wi (setWin { activeWin d with winIndicator := wi } d)) c)

/-- The space a source segment lies in (R313). -/
def segmentSpace (wi : Byte) : SegSpace := if wi &&& 0x01 ≠ 0 then .dict else .dtarget

/-- The length of that space (R313). -/
def segmentBound (wi : Byte) (d : Dec) : Nat :=
  if wi &&& 0x01 ≠ 0 then activeDictSize d else (activeCtx d).totalTargetLen

/-- Source segment (R313). -/
def parseSourceSegment (d : Dec) (c : Nat) : Parse :=
  let wi := (activeWin d).winIndicator
  if wi &&& 0x03 = 0 then
    .ok (setWin { activeWin d with srcSegSpace := .none, srcSegSize := 0, srcSegPos := 0 } d) c
  else
    headerVarInt d c (fun size c =>
      headerVarInt d c (fun pos c =>
        if segmentBound wi d < pos + size then .raise .sourceSegmentOutOfBounds d
        else
          .ok (setWin { activeWin d with
            srcSegSpace := segmentSpace wi, srcSegSize := size, srcSegPos := pos } d) c))

/-- Length of the delta encoding (R314). -/
def parseDeltaLen (d : Dec) (c : Nat) : Parse :=
  headerVarInt d c (fun v c => .ok (setWin { activeWin d with deltaLen := v } d) c)

/-- Target-window size (R315). -/
def parseTargetLen (d : Dec) (c : Nat) : Parse :=
  headerVarInt d c (fun v c =>
    if d.maxTargetWindowSize.toNat < v then .raise .windowTooLarge d
    else if d.maxTargetFileSize.toNat < (activeCtx d).totalTargetLen + v then .raise .targetFileTooLarge d
    else .ok (setWin { activeWin d with targetLen := v } d) c)

/-- Delta_Indicator (R316). -/
def parseDeltaIndicator (d : Dec) (c : Nat) : Parse :=
  headerByte d c (fun di c => if di ≠ 0 then .raise .deltaIndicatorNonZero d else .ok d c)

/-- One section length, checked as soon as it is read (R317). -/
def parseSectionLen (put : Nat → WindowRegs → WindowRegs) (d : Dec) (c : Nat) : Parse :=
  headerVarInt d c (fun v c =>
    if d.maxSectionSize.toNat < v then .raise .sectionTooLarge d
    else .ok (setWin (put v (activeWin d)) d) c)

/-- The three section lengths, data, instructions, addresses, and the layout flag (R317). -/
def parseSectionLens (d : Dec) (c : Nat) : Parse :=
  (parseSectionLen (fun v w => { w with dataLen := v }) d c).andThen fun d c =>
    (parseSectionLen (fun v w => { w with instLen := v }) d c).andThen fun d c =>
      (parseSectionLen (fun v w => { w with addrLen := v }) d c).andThen fun d c => .ok (setInterleaved d) c

/-- The checksum field (R318). -/
def parseChecksum (d : Dec) (c : Nat) : Parse :=
  if d.hasChecksum then
    headerVarInt d c (fun v c => .ok (setWin { activeWin d with checksum := BitVec.ofNat 32 v } d) c)
  else .ok d c

/-- Length consistency (R319): `start` is the offset of the first byte of the delta encoding. -/
def checkDeltaLen (start : Nat) (d : Dec) (c : Nat) : Parse :=
  if c - start + (activeWin d).dataLen + (activeWin d).instLen + (activeWin d).addrLen ≠ (activeWin d).deltaLen then
    .raise .deltaLengthMismatch d
  else .ok d c

/-- The window header, R312 to R319 in stream order (R311, R375). -/
def parseWindowHeader (d : Dec) : Parse :=
  (parseWinIndicator d 0).andThen fun d c =>
    (parseSourceSegment d c).andThen fun d c =>
      (parseDeltaLen d c).andThen fun d start =>
        (parseTargetLen d start).andThen fun d c =>
          (parseDeltaIndicator d c).andThen fun d c =>
            (parseSectionLens d c).andThen fun d c =>
              (parseChecksum d c).andThen fun d c => checkDeltaLen start d c

/-- The file header, R308 and R309, up to and including the consumption of its five bytes; the cursor answered is the
Hdr_Indicator. -/
def parseFileHeader (d : Dec) : Parse :=
  match d.pending with
  | h0 :: h1 :: h2 :: h3 :: h4 :: rest =>
    if h0 ≠ 0xD6 ∨ h1 ≠ 0xC3 ∨ h2 ≠ 0xC4 then .raise .badMagic d
    else if h3 ≠ 0x00 ∧ h3 ≠ 0x53 then .raise .badVersionByte d
    else if h4 &&& 0xFC ≠ 0 then .raise .hdrIndicatorReserved d
    else if h4 &&& 0x01 ≠ 0 then .raise .secondaryCompressor d
    else .ok { d with pending := rest } h4.toNat
  | _ => .more

end Sys2Proof.Machine
end

