-- ==== Sys2Proof/Machine/Driver.lean ====
section
/-! DEFINITION. The streaming driver (45_window_decoder.md R302): file header, custom code table section (R310, 41_code_table.md
R158 to R160), windows (R311 to R323). -/

namespace Sys2Proof.Machine

/-- How one procedure of the driver ends: one item consumed, more input wanted and nothing consumed, raised, or stopped (R302). -/
inductive Item where
  | done (d : Dec)
  | more
  | raise (c : Cause) (d : Dec)
  | fault (f : Fault)
deriving DecidableEq, Repr

/-- The registers of a new nested context (R35, R310): default cache sizes, inner target empty. Its working registers hold any
value until a window header writes them (log entry 2). DESIGN CHOICE (log entry 7): the spec gives the new inner cache and the new
inner `TW` no contents before the first inner window clears them (R321, U2); the model begins with a cleared cache and an empty
`TW`. -/
def freshInner (d : Dec) : Ctx :=
  { win := Config.freeWindow d.freeCount,
    cache := freshCache Config.nearSizeDefault Config.sameSizeDefault d.ctx.cache.indexFn,
    tw := [], dtarget := [], totalTargetLen := 0 }

/-- A nested context before its parameters are read (R309). -/
def freshNested (d : Dec) : Nested :=
  { phase := .params, ctNear := 0, ctSame := 0, ctMaxMode := 0, ctx := freshInner d }

/-- Enter `CUSTOM_TABLE` with `CT_PHASE = PARAMS` (R309). -/
def enterCustomTable (d : Dec) : Dec :=
  { d with state := .customTable, nested := some (freshNested d), freeCount := d.freeCount + 1 }

/-- `PARSE_FILE_HEADER` of the outer file (R308, R309). -/
def outerHeader (d : Dec) : Item :=
  match parseFileHeader d with
  | .more => .more
  | .raise c d => .raise c d
  | .ok d hdr =>
    if BitVec.ofNat 8 hdr &&& (0x02 : Byte) ≠ 0 then .done (enterCustomTable d)
    else .done { d with state := .expectWinIndicator }

/-- The parameter group of the custom table section (R158, R93). -/
def paramsStep (n : Nested) (d : Dec) : Item :=
  match viRead 32 d.pending 0 d.pending.length with
  | .needMore => .more
  | .error _ => .raise .headerVarIntOverflow d
  | .value near c =>
    match viRead 32 d.pending c d.pending.length with
    | .needMore => .more
    | .error _ => .raise .headerVarIntOverflow d
    | .value same c =>
      match byteRead d.pending c d.pending.length with
      | .needMore => .more
      | .error _ => .raise .headerVarIntOverflow d
      | .value maxMode c =>
        if cacheSizesOk near same = false then .raise .badCacheSizes d
        else if maxMode ≠ 1 + near + same then .raise .badCacheSizes d
        else
          .done { d with
            pending := d.pending.drop c,
            nested := some { n with phase := .innerHeader, ctNear := near, ctSame := same, ctMaxMode := maxMode } }

/-- The file header of the embedded delta (R310): a custom table inside a custom table is refused. -/
def innerHeaderStep (n : Nested) (d : Dec) : Item :=
  match parseFileHeader d with
  | .more => .more
  | .raise c d => .raise c d
  | .ok d hdr =>
    if BitVec.ofNat 8 hdr &&& (0x02 : Byte) ≠ 0 then .raise .customTableTooDeep d
    else .done { d with nested := some { n with phase := .innerWindows } }

/-- Image to table (R160): `DTAB`, the sizes, the check, and the nested context is discarded. -/
def loadTable (n : Nested) (d : Dec) : Item :=
  let d := { d with
    dtab := unpackImage n.ctx.dtarget, maxMode := n.ctMaxMode,
    ctx := { d.ctx with cache := freshCache n.ctNear n.ctSame d.ctx.cache.indexFn } }
  if tabValid d.dtab d.maxMode then .done { d with nested := none, state := .expectWinIndicator }
  else .raise .badCodeTable d

/-- After a window has committed: what `DRIVE` (R302) does in the outer context, and `CUSTOM_TABLE_STEP` (R310) in the nested
one. -/
def windowDone (d : Dec) : Item :=
  match d.nested with
  | none => .done { d with state := .expectWinIndicator }
  | some n =>
    if n.ctx.dtarget.length < Config.codeTableImageSize then .done d
    else if Config.codeTableImageSize < n.ctx.dtarget.length then .raise .badCodeTable d
    else loadTable n d

/-- The end of a window once its instructions are replayed: termination tests, checksum, commit (R269, R322, R323). -/
def closeWindow (d : Dec) : Item :=
  match (terminate d).andThen checkChecksum with
  | .ok d => windowDone (commit d)
  | .raise c d => .raise c d
  | .fault f => .fault f

/-- The replay of a window from where `ip` stands, and its end. -/
def finishWindow (d : Dec) : Item :=
  match replayRest d with
  | .ok d => closeWindow d
  | .raise c d => .raise c d
  | .fault f => .fault f

/-- `DECODE_WINDOW` (R311, R320, R321). -/
def decodeWindow (d : Dec) : Item :=
  match parseWindowHeader d with
  | .more => .more
  | .raise c d => .raise c d
  | .ok d' c =>
    if d'.pending.length < c + (activeWin d').dataLen + (activeWin d').instLen + (activeWin d').addrLen then .more
    else finishWindow (startReplay c d')

/-- `CUSTOM_TABLE_STEP` (R310). -/
def customTableStep (d : Dec) : Item :=
  match d.nested with
  | none => .more
  | some n =>
    match n.phase with
    | .params => paramsStep n d
    | .innerHeader => innerHeaderStep n d
    | .innerWindows => if d.pending.length = 0 then .more else decodeWindow d

/-- What the driver does next (R302). -/
def driveItem (d : Dec) : Item :=
  match d.state with
  | .expectHeader => outerHeader d
  | .customTable => customTableStep d
  | .expectWinIndicator | .inWindow | .idle | .finished | .poisoned => decodeWindow d

/-- `DEC_STATE` when the driver returns wanting more (R302): `IN_WINDOW` if it was at a window. -/
def wantMore (d : Dec) : Dec :=
  match d.state with
  | .expectHeader | .customTable => d
  | .expectWinIndicator | .inWindow | .idle | .finished | .poisoned => { d with state := .inWindow }

/-- The driver stands between windows with nothing pending (R302): it returns. -/
def atRest (d : Dec) : Bool :=
  match d.state with
  | .expectHeader | .customTable => false
  | .expectWinIndicator | .inWindow | .idle | .finished | .poisoned => d.pending.length == 0

/-- The loop of `DRIVE` (R302). Every item done consumes a byte of `PENDING`, so `|PENDING| + 1` turns suffice. -/
def driveLoop : Nat → Dec → Run
  | 0, d => .ok d
  | fuel + 1, d =>
    if atRest d then .ok { d with state := .expectWinIndicator }
    else
      match driveItem d with
      | .done d' => driveLoop fuel d'
      | .more => .ok (wantMore d)
      | .raise c d' => .raise c d'
      | .fault f => .fault f

/-- `DRIVE` (R302). -/
def drive (d : Dec) : Run := driveLoop (d.pending.length + 1) d

/-- The rest of a `DEC_CHUNK` whose window has reached the end of its instructions: the end of the window, then `DRIVE` goes
on. -/
def resumeDrive (d : Dec) : Run :=
  match closeWindow d with
  | .done d' => drive d'
  | .more => .ok d
  | .raise c d' => .raise c d'
  | .fault f => .fault f

/-- The end of a decoder command on the machine: `OK`, or the poisoning and the error on `RESULT` (R301, R385). -/
def endCommand (s : State) : Run → Host.Outcome State Fault Refusal
  | .ok d => .next { s with dec := d, result := some .ok }
  | .raise c d => .next { s with dec := decRaise c d, result := some (errOf c) }
  | .fault f => .fault f

end Sys2Proof.Machine
end

