-- ==== Sys2Proof/Machine/HostDecoder.lean ====
section
/-! DEFINITION. The decoder's host commands (45_window_decoder.md R300 to R307). -/

namespace Sys2Proof.Machine

/-- `DEC_START(dictionary)` (R300), legal in every state. -/
def execDecStart (dictionary : Bytes) (s : State) : Host.Outcome State Fault Refusal :=
  .next { s with dec := decNewSession dictionary s.dec, result := some .ok }

/-- The stored first error of a poisoned decoder (R386 c). -/
def storedError (d : Dec) : Result := .err d.errKind d.errCause

/-- `DEC_CHUNK(bytes)` (R301). -/
def execDecChunk (chunk : Bytes) (s : State) : Host.Outcome State Fault Refusal :=
  match s.dec.state with
  | .idle | .finished => .next { s with result := some (errOf .decoderNotStarted) }
  | .poisoned => .next { s with result := some (storedError s.dec) }
  | .expectHeader | .customTable | .expectWinIndicator | .inWindow =>
    endCommand s (drive { s.dec with pending := memAppend s.dec.pending chunk })

/-- `DEC_FINISH` (R303). -/
def execDecFinish (s : State) : Host.Outcome State Fault Refusal :=
  match s.dec.state with
  | .idle | .finished => .next { s with result := some (errOf .decoderNotStarted) }
  | .poisoned => .next { s with result := some (storedError s.dec) }
  | .expectHeader | .customTable | .expectWinIndicator | .inWindow =>
    if s.dec.state = .expectWinIndicator ∧ s.dec.pending.length = 0 then
      .next { s with dec := { s.dec with state := .finished }, result := some .ok }
    else .next { s with dec := decRaise .truncated s.dec, result := some (errOf .truncated) }

/-- `DEC_SET_ALLOW_VCD_TARGET(b)` (R304). -/
def execDecSetAllowVcdTarget (allow : Bool) (s : State) : Host.Outcome State Fault Refusal :=
  .next { s with dec := { s.dec with allowVcdTarget := allow }, result := some .ok }

/-- `DEC_SET_MAX_TARGET_FILE_SIZE(v)` (R305). -/
def execDecSetMaxTargetFileSize (cap : DWord) (s : State) : Host.Outcome State Fault Refusal :=
  .next { s with dec := { s.dec with maxTargetFileSize := cap }, result := some .ok }

/-- `DEC_SET_MAX_TARGET_WINDOW_SIZE(v)` (R306). -/
def execDecSetMaxTargetWindowSize (cap : Word) (s : State) : Host.Outcome State Fault Refusal :=
  .next { s with dec := { s.dec with maxTargetWindowSize := cap }, result := some .ok }

/-- `DEC_SET_MAX_SECTION_SIZE(v)` (R307). -/
def execDecSetMaxSectionSize (cap : Word) (s : State) : Host.Outcome State Fault Refusal :=
  .next { s with dec := { s.dec with maxSectionSize := cap }, result := some .ok }

end Sys2Proof.Machine
end

