-- ==== Sys2Proof/Machine/Encoder.lean ====
section
/-! DEFINITION. The window encoder's shared operations (43_window_encoder.md R221, R222, R228, R229). -/

namespace Sys2Proof.Machine

/-- The per-window state cleared (R221, R227): target length, last opcode index, cache, the three buffers, the checksum flag. -/
def encClearWindow (e : Enc) : Enc :=
  { e with targetLen := 0, lastOpcodeIndex := none, cache := acInit e.cache, insts := [], data := [], addrs := [],
           hasChecksum := false }

/-- The compound upgrade of R222 steps 1 and 2: overwrite the opcode byte at the index, and forget the index. -/
def upgradeOpcode (i : Nat) (op : Byte) (e : Enc) : Enc :=
  { e with insts := e.insts.set i op, lastOpcodeIndex := none }

/-- A new single opcode of R222 steps 3 and 4: remember its index, append it. -/
def appendOpcode (op : Byte) (e : Enc) : Enc :=
  { e with lastOpcodeIndex := some e.insts.length, insts := memAppend e.insts [op] }

/-- `VI_WRITE32(INSTS, size)`. -/
def appendSize (size : Nat) (e : Enc) : Enc := { e with insts := viWrite32 e.insts size }

/-- The pending single opcode, if there is one: its index and its byte (R222, R33). -/
def pendingOpcode (e : Enc) : Option (Nat × Byte) :=
  match e.lastOpcodeIndex with
  | none => none
  | some i => (e.insts[i]?).map (fun b => (i, b))

/-- The compound opcode for the pending opcode and a second instruction, if the table has one (R222 steps 1 and 2). -/
def compoundFor (e : Enc) (k : InstKind) (size mode : Nat) : Option (Nat × Byte) :=
  match pendingOpcode e with
  | none => none
  | some (i, b) => (imapSecond e.etab b k size mode).map (fun op => (i, op))

/-- R222 steps 3 and 4: a single opcode with implicit size, else with explicit size; `none` if the table has neither. -/
def encodeSingle (k : InstKind) (size mode : Nat) (e : Enc) : Option Enc :=
  match (if 1 ≤ size ∧ size ≤ 255 then imapFirst e.etab k size mode else none) with
  | some op => some (appendOpcode op e)
  | none =>
    match imapFirst e.etab k 0 mode with
    | some op => some (appendSize size (appendOpcode op e))
    | none => none

/-- `EncodeInstruction(inst, size, mode)` (R222); `none` is InternalInvariant.NoOpcodeForInstruction. -/
def encodeInstruction (k : InstKind) (size mode : Nat) (e : Enc) : Option Enc :=
  match (if 1 ≤ size ∧ size ≤ 255 then compoundFor e k size mode else none) with
  | some (i, op) => some (upgradeOpcode i op e)
  | none =>
    match compoundFor e k 0 mode with
    | some (i, op) => some (appendSize size (upgradeOpcode i op e))
    | none => encodeSingle k size mode e

/-- Append data bytes where the layout routes them (R223, R224, R229). -/
def appendData (bytes : Bytes) (e : Enc) : Enc :=
  if e.interleaved then { e with insts := memAppend e.insts bytes } else { e with data := memAppend e.data bytes }

/-- Append address bytes where the layout routes them (R225, R229). -/
def appendAddress (bytes : Bytes) (e : Enc) : Enc :=
  if e.interleaved then { e with insts := memAppend e.insts bytes } else { e with addrs := memAppend e.addrs bytes }

/-- `ENC_TARGET_LEN <- ENC_TARGET_LEN + n`. -/
def growTarget (n : Nat) (e : Enc) : Enc := { e with targetLen := e.targetLen + n }

/-- `here` on the encoder's side (R65, R225): `ENC_DICT_SIZE + ENC_TARGET_LEN`. -/
def encHere (e : Enc) : Nat := e.dictSize.toNat + e.targetLen

/-- `L` (R228). -/
def deltaWindowSize (e : Enc) : Nat :=
  viLen e.targetLen + 1 + viLen e.data.length + viLen e.insts.length + viLen e.addrs.length
  + e.data.length + e.insts.length + e.addrs.length
  + (if e.hasChecksum then viLen e.checksum.toNat else 0)

/-- The delta encoding `B` of R227. -/
def deltaEncoding (e : Enc) : Bytes :=
  viWrite e.targetLen ++ [0x00] ++ viWrite e.data.length ++ viWrite e.insts.length ++ viWrite e.addrs.length
  ++ (if e.hasChecksum then viWrite e.checksum.toNat else [])
  ++ e.data ++ e.insts ++ e.addrs

/-- What precedes the delta encoding, `W` of R227. -/
def windowPreamble (e : Enc) : Bytes :=
  [0x01 ||| (if e.hasChecksum then 0x04 else 0x00)] ++ viWrite e.dictSize.toNat ++ viWrite 0
  ++ viWrite (deltaWindowSize e)

/-- How an encoder command ends: with a new context and a result, or raising. -/
inductive EncEnd where
  | ok (e : Enc) (r : Result)
  | raise (c : Cause)
deriving DecidableEq, Repr

/-- Run an encoder command other than `ENC_NEW` (R387): refused in `FAILED` with nothing changed; a `raise` writes the three
failure registers of the context as it was before the command. -/
def encCommand (s : State) (body : Enc → EncEnd) : Host.Outcome State Fault Refusal :=
  if s.enc.state = .failed then .next { s with result := some (errOf .commandAfterFailure) }
  else
    match body s.enc with
    | .ok e r => .next { s with enc := e, result := some r }
    | .raise c => .next { s with enc := encRaise c s.enc, result := some (errOf c) }

/-- A command that needs `READY` (R223 to R227, R232). -/
def whenReady (e : Enc) (body : EncEnd) : EncEnd :=
  if e.state = .ready then body else .raise .notInitialised

/-- The address width as a limit: `ENC_DICT_SIZE + ENC_TARGET_LEN + n > 2^32 − 1` (R223 to R225). -/
def wouldOverflow (e : Enc) (n : Nat) : Bool := decide (4294967295 < encHere e + n)

end Sys2Proof.Machine
end

