-- ==== Sys2Proof/Machine/HostEncoder.lean ====
section
/-! DEFINITION. The encoder's host commands (43_window_encoder.md R220 to R233, R249). -/

namespace Sys2Proof.Machine

/-- The table, sizes and flag `ENC_NEW` takes, or `none` if the configuration is bad (R220, R151, R161). -/
def encConfigure (custom : Option CustomTable) (e : Enc) : Option Enc :=
  match custom with
  | none =>
    some { e with
      customTable := false, etab := defTab, maxMode := Config.maxModeDefault,
      cache := freshCache Config.nearSizeDefault Config.sameSizeDefault e.cache.indexFn }
  | some g =>
    if cacheSizesOk g.nearSize g.sameSize ∧ g.maxMode = 1 + g.nearSize + g.sameSize
        ∧ tabValid (unpackImage g.image) g.maxMode then
      some { e with
        customTable := true, etab := unpackImage g.image, maxMode := g.maxMode,
        cache := freshCache g.nearSize g.sameSize e.cache.indexFn }
    else none

/-- `ENC_NEW(interleaved, [custom_table, near_size, same_size, max_mode])` (R220), legal in every state. -/
def execEncNew (interleaved : Bool) (custom : Option CustomTable) (s : State) :
    Host.Outcome State Fault Refusal :=
  match encConfigure custom s.enc with
  | some e =>
    .next { s with
      enc := { e with
        interleaved := interleaved, insts := [], data := [], addrs := [], targetLen := 0, dictSize := 0,
        lastOpcodeIndex := none, hasChecksum := false, errKind := 0, errCause := 0, mapBuilt := false,
        state := .created },
      result := some .ok }
  | none => .next { s with enc := encRaise .badConfiguration s.enc, result := some (errOf .badConfiguration) }

/-- `ENC_INIT(dictionary_size)` (R221). -/
def execEncInit (dictionarySize : Word) (s : State) : Host.Outcome State Fault Refusal :=
  encCommand s fun e =>
    .ok { encClearWindow e with dictSize := dictionarySize, mapBuilt := true, state := .ready } .ok

/-- `ENC_ADD(n, offset, len, bytes)` (R223). -/
def execEncAdd (n offset len : Nat) (bytes : Bytes) (s : State) : Host.Outcome State Fault Refusal :=
  encCommand s fun e => whenReady e (
    if n < offset + len then .raise .sliceOutOfBounds
    else if wouldOverflow e len then .raise .targetLengthOverflow
    else
      match encodeInstruction .add len 0 e with
      | none => .raise .noOpcodeForInstruction
      | some e => .ok (growTarget len (appendData bytes e)) .ok)

/-- `ENC_RUN(size, byte)` (R224). -/
def execEncRun (size : Word) (byte : Byte) (s : State) : Host.Outcome State Fault Refusal :=
  encCommand s fun e => whenReady e (
    if wouldOverflow e size.toNat then .raise .targetLengthOverflow
    else
      match encodeInstruction .run size.toNat 0 e with
      | none => .raise .noOpcodeForInstruction
      | some e => .ok (growTarget size.toNat (appendData [byte] e)) .ok)

/-- `ENC_COPY(offset, size)` (R225): the cache chooses the mode and is updated before the instruction is encoded. -/
def execEncCopy (offset size : Word) (s : State) : Host.Outcome State Fault Refusal :=
  encCommand s fun e => whenReady e (
    if encHere e ≤ offset.toNat then .raise .copyOffsetOutOfRange
    else if wouldOverflow e size.toNat then .raise .targetLengthOverflow
    else
      let (mode, value, cache) := acEncode e.cache offset.toNat (encHere e)
      match encodeInstruction .copy size.toNat mode { e with cache := cache } with
      | none => .raise .noOpcodeForInstruction
      | some e => .ok (growTarget size.toNat (appendAddress (addressBytes e.cache mode value) e)) .ok)

/-- `ENC_ADD_CHECKSUM(c)` (R226). -/
def execEncAddChecksum (checksum : Word) (s : State) : Host.Outcome State Fault Refusal :=
  encCommand s fun e => whenReady e (.ok { e with checksum := checksum, hasChecksum := true } .ok)

/-- `ENC_OUTPUT` (R227, R233). An `L` above 2^32 − 1 is InternalInvariant.DeltaLengthDisagrees, as R228 allows. -/
def execEncOutput (s : State) : Host.Outcome State Fault Refusal :=
  encCommand s fun e => whenReady e (
    if e.insts.length = 0 then .ok (encClearWindow e) .ok
    else if (deltaEncoding e).length ≠ deltaWindowSize e ∨ 4294967295 < deltaWindowSize e then
      .raise .deltaLengthDisagrees
    else .ok { encClearWindow e with sink := memAppend e.sink (windowPreamble e ++ deltaEncoding e) } .ok)

/-- The five header bytes (R230, R249). -/
def headerBytes (extensions : Bool) : Bytes := [0xD6, 0xC3, 0xC4, if extensions then 0x53 else 0x00, 0x00]

/-- `ENC_WRITE_HEADER(extensions)` (R230). -/
def execEncWriteHeader (extensions : Bool) (s : State) : Host.Outcome State Fault Refusal :=
  encCommand s fun e => .ok { e with sink := memAppend e.sink (headerBytes extensions) } .ok

/-- `ENC_TARGET_LENGTH` (R231). -/
def execEncTargetLength (s : State) : Host.Outcome State Fault Refusal :=
  encCommand s fun e => .ok e (.okValue e.targetLen)

/-- `ENC_GET_DELTA_WINDOW_SIZE` (R232). -/
def execEncGetDeltaWindowSize (s : State) : Host.Outcome State Fault Refusal :=
  encCommand s fun e => whenReady e (.ok e (.okValue (deltaWindowSize e)))

end Sys2Proof.Machine
end

