-- ==== Sys2Proof/Machine/Dispatch.lean ====
section
/-! DEFINITION. The dispatch: one arm per instruction, each a call of its meaning. -/

namespace Sys2Proof.Machine

def exec (i : Instr) (s : State) : Host.Outcome State Fault Refusal :=
  match i with
  | .run => Sys2Proof.Machine.execRun s
  | .add => Sys2Proof.Machine.execAdd s
  | .addS1 => Sys2Proof.Machine.execAddS1 s
  | .addS2 => Sys2Proof.Machine.execAddS2 s
  | .addS3 => Sys2Proof.Machine.execAddS3 s
  | .addS4 => Sys2Proof.Machine.execAddS4 s
  | .addS5 => Sys2Proof.Machine.execAddS5 s
  | .addS6 => Sys2Proof.Machine.execAddS6 s
  | .addS7 => Sys2Proof.Machine.execAddS7 s
  | .addS8 => Sys2Proof.Machine.execAddS8 s
  | .addS9 => Sys2Proof.Machine.execAddS9 s
  | .addS10 => Sys2Proof.Machine.execAddS10 s
  | .addS11 => Sys2Proof.Machine.execAddS11 s
  | .addS12 => Sys2Proof.Machine.execAddS12 s
  | .addS13 => Sys2Proof.Machine.execAddS13 s
  | .addS14 => Sys2Proof.Machine.execAddS14 s
  | .addS15 => Sys2Proof.Machine.execAddS15 s
  | .addS16 => Sys2Proof.Machine.execAddS16 s
  | .addS17 => Sys2Proof.Machine.execAddS17 s
  | .copyM0 => Sys2Proof.Machine.execCopyM0 s
  | .copyM0S4 => Sys2Proof.Machine.execCopyM0S4 s
  | .copyM0S5 => Sys2Proof.Machine.execCopyM0S5 s
  | .copyM0S6 => Sys2Proof.Machine.execCopyM0S6 s
  | .copyM0S7 => Sys2Proof.Machine.execCopyM0S7 s
  | .copyM0S8 => Sys2Proof.Machine.execCopyM0S8 s
  | .copyM0S9 => Sys2Proof.Machine.execCopyM0S9 s
  | .copyM0S10 => Sys2Proof.Machine.execCopyM0S10 s
  | .copyM0S11 => Sys2Proof.Machine.execCopyM0S11 s
  | .copyM0S12 => Sys2Proof.Machine.execCopyM0S12 s
  | .copyM0S13 => Sys2Proof.Machine.execCopyM0S13 s
  | .copyM0S14 => Sys2Proof.Machine.execCopyM0S14 s
  | .copyM0S15 => Sys2Proof.Machine.execCopyM0S15 s
  | .copyM0S16 => Sys2Proof.Machine.execCopyM0S16 s
  | .copyM0S17 => Sys2Proof.Machine.execCopyM0S17 s
  | .copyM0S18 => Sys2Proof.Machine.execCopyM0S18 s
  | .copyM1 => Sys2Proof.Machine.execCopyM1 s
  | .copyM1S4 => Sys2Proof.Machine.execCopyM1S4 s
  | .copyM1S5 => Sys2Proof.Machine.execCopyM1S5 s
  | .copyM1S6 => Sys2Proof.Machine.execCopyM1S6 s
  | .copyM1S7 => Sys2Proof.Machine.execCopyM1S7 s
  | .copyM1S8 => Sys2Proof.Machine.execCopyM1S8 s
  | .copyM1S9 => Sys2Proof.Machine.execCopyM1S9 s
  | .copyM1S10 => Sys2Proof.Machine.execCopyM1S10 s
  | .copyM1S11 => Sys2Proof.Machine.execCopyM1S11 s
  | .copyM1S12 => Sys2Proof.Machine.execCopyM1S12 s
  | .copyM1S13 => Sys2Proof.Machine.execCopyM1S13 s
  | .copyM1S14 => Sys2Proof.Machine.execCopyM1S14 s
  | .copyM1S15 => Sys2Proof.Machine.execCopyM1S15 s
  | .copyM1S16 => Sys2Proof.Machine.execCopyM1S16 s
  | .copyM1S17 => Sys2Proof.Machine.execCopyM1S17 s
  | .copyM1S18 => Sys2Proof.Machine.execCopyM1S18 s
  | .copyM2 => Sys2Proof.Machine.execCopyM2 s
  | .copyM2S4 => Sys2Proof.Machine.execCopyM2S4 s
  | .copyM2S5 => Sys2Proof.Machine.execCopyM2S5 s
  | .copyM2S6 => Sys2Proof.Machine.execCopyM2S6 s
  | .copyM2S7 => Sys2Proof.Machine.execCopyM2S7 s
  | .copyM2S8 => Sys2Proof.Machine.execCopyM2S8 s
  | .copyM2S9 => Sys2Proof.Machine.execCopyM2S9 s
  | .copyM2S10 => Sys2Proof.Machine.execCopyM2S10 s
  | .copyM2S11 => Sys2Proof.Machine.execCopyM2S11 s
  | .copyM2S12 => Sys2Proof.Machine.execCopyM2S12 s
  | .copyM2S13 => Sys2Proof.Machine.execCopyM2S13 s
  | .copyM2S14 => Sys2Proof.Machine.execCopyM2S14 s
  | .copyM2S15 => Sys2Proof.Machine.execCopyM2S15 s
  | .copyM2S16 => Sys2Proof.Machine.execCopyM2S16 s
  | .copyM2S17 => Sys2Proof.Machine.execCopyM2S17 s
  | .copyM2S18 => Sys2Proof.Machine.execCopyM2S18 s
  | .copyM3 => Sys2Proof.Machine.execCopyM3 s
  | .copyM3S4 => Sys2Proof.Machine.execCopyM3S4 s
  | .copyM3S5 => Sys2Proof.Machine.execCopyM3S5 s
  | .copyM3S6 => Sys2Proof.Machine.execCopyM3S6 s
  | .copyM3S7 => Sys2Proof.Machine.execCopyM3S7 s
  | .copyM3S8 => Sys2Proof.Machine.execCopyM3S8 s
  | .copyM3S9 => Sys2Proof.Machine.execCopyM3S9 s
  | .copyM3S10 => Sys2Proof.Machine.execCopyM3S10 s
  | .copyM3S11 => Sys2Proof.Machine.execCopyM3S11 s
  | .copyM3S12 => Sys2Proof.Machine.execCopyM3S12 s
  | .copyM3S13 => Sys2Proof.Machine.execCopyM3S13 s
  | .copyM3S14 => Sys2Proof.Machine.execCopyM3S14 s
  | .copyM3S15 => Sys2Proof.Machine.execCopyM3S15 s
  | .copyM3S16 => Sys2Proof.Machine.execCopyM3S16 s
  | .copyM3S17 => Sys2Proof.Machine.execCopyM3S17 s
  | .copyM3S18 => Sys2Proof.Machine.execCopyM3S18 s
  | .copyM4 => Sys2Proof.Machine.execCopyM4 s
  | .copyM4S4 => Sys2Proof.Machine.execCopyM4S4 s
  | .copyM4S5 => Sys2Proof.Machine.execCopyM4S5 s
  | .copyM4S6 => Sys2Proof.Machine.execCopyM4S6 s
  | .copyM4S7 => Sys2Proof.Machine.execCopyM4S7 s
  | .copyM4S8 => Sys2Proof.Machine.execCopyM4S8 s
  | .copyM4S9 => Sys2Proof.Machine.execCopyM4S9 s
  | .copyM4S10 => Sys2Proof.Machine.execCopyM4S10 s
  | .copyM4S11 => Sys2Proof.Machine.execCopyM4S11 s
  | .copyM4S12 => Sys2Proof.Machine.execCopyM4S12 s
  | .copyM4S13 => Sys2Proof.Machine.execCopyM4S13 s
  | .copyM4S14 => Sys2Proof.Machine.execCopyM4S14 s
  | .copyM4S15 => Sys2Proof.Machine.execCopyM4S15 s
  | .copyM4S16 => Sys2Proof.Machine.execCopyM4S16 s
  | .copyM4S17 => Sys2Proof.Machine.execCopyM4S17 s
  | .copyM4S18 => Sys2Proof.Machine.execCopyM4S18 s
  | .copyM5 => Sys2Proof.Machine.execCopyM5 s
  | .copyM5S4 => Sys2Proof.Machine.execCopyM5S4 s
  | .copyM5S5 => Sys2Proof.Machine.execCopyM5S5 s
  | .copyM5S6 => Sys2Proof.Machine.execCopyM5S6 s
  | .copyM5S7 => Sys2Proof.Machine.execCopyM5S7 s
  | .copyM5S8 => Sys2Proof.Machine.execCopyM5S8 s
  | .copyM5S9 => Sys2Proof.Machine.execCopyM5S9 s
  | .copyM5S10 => Sys2Proof.Machine.execCopyM5S10 s
  | .copyM5S11 => Sys2Proof.Machine.execCopyM5S11 s
  | .copyM5S12 => Sys2Proof.Machine.execCopyM5S12 s
  | .copyM5S13 => Sys2Proof.Machine.execCopyM5S13 s
  | .copyM5S14 => Sys2Proof.Machine.execCopyM5S14 s
  | .copyM5S15 => Sys2Proof.Machine.execCopyM5S15 s
  | .copyM5S16 => Sys2Proof.Machine.execCopyM5S16 s
  | .copyM5S17 => Sys2Proof.Machine.execCopyM5S17 s
  | .copyM5S18 => Sys2Proof.Machine.execCopyM5S18 s
  | .copyM6 => Sys2Proof.Machine.execCopyM6 s
  | .copyM6S4 => Sys2Proof.Machine.execCopyM6S4 s
  | .copyM6S5 => Sys2Proof.Machine.execCopyM6S5 s
  | .copyM6S6 => Sys2Proof.Machine.execCopyM6S6 s
  | .copyM6S7 => Sys2Proof.Machine.execCopyM6S7 s
  | .copyM6S8 => Sys2Proof.Machine.execCopyM6S8 s
  | .copyM6S9 => Sys2Proof.Machine.execCopyM6S9 s
  | .copyM6S10 => Sys2Proof.Machine.execCopyM6S10 s
  | .copyM6S11 => Sys2Proof.Machine.execCopyM6S11 s
  | .copyM6S12 => Sys2Proof.Machine.execCopyM6S12 s
  | .copyM6S13 => Sys2Proof.Machine.execCopyM6S13 s
  | .copyM6S14 => Sys2Proof.Machine.execCopyM6S14 s
  | .copyM6S15 => Sys2Proof.Machine.execCopyM6S15 s
  | .copyM6S16 => Sys2Proof.Machine.execCopyM6S16 s
  | .copyM6S17 => Sys2Proof.Machine.execCopyM6S17 s
  | .copyM6S18 => Sys2Proof.Machine.execCopyM6S18 s
  | .copyM7 => Sys2Proof.Machine.execCopyM7 s
  | .copyM7S4 => Sys2Proof.Machine.execCopyM7S4 s
  | .copyM7S5 => Sys2Proof.Machine.execCopyM7S5 s
  | .copyM7S6 => Sys2Proof.Machine.execCopyM7S6 s
  | .copyM7S7 => Sys2Proof.Machine.execCopyM7S7 s
  | .copyM7S8 => Sys2Proof.Machine.execCopyM7S8 s
  | .copyM7S9 => Sys2Proof.Machine.execCopyM7S9 s
  | .copyM7S10 => Sys2Proof.Machine.execCopyM7S10 s
  | .copyM7S11 => Sys2Proof.Machine.execCopyM7S11 s
  | .copyM7S12 => Sys2Proof.Machine.execCopyM7S12 s
  | .copyM7S13 => Sys2Proof.Machine.execCopyM7S13 s
  | .copyM7S14 => Sys2Proof.Machine.execCopyM7S14 s
  | .copyM7S15 => Sys2Proof.Machine.execCopyM7S15 s
  | .copyM7S16 => Sys2Proof.Machine.execCopyM7S16 s
  | .copyM7S17 => Sys2Proof.Machine.execCopyM7S17 s
  | .copyM7S18 => Sys2Proof.Machine.execCopyM7S18 s
  | .copyM8 => Sys2Proof.Machine.execCopyM8 s
  | .copyM8S4 => Sys2Proof.Machine.execCopyM8S4 s
  | .copyM8S5 => Sys2Proof.Machine.execCopyM8S5 s
  | .copyM8S6 => Sys2Proof.Machine.execCopyM8S6 s
  | .copyM8S7 => Sys2Proof.Machine.execCopyM8S7 s
  | .copyM8S8 => Sys2Proof.Machine.execCopyM8S8 s
  | .copyM8S9 => Sys2Proof.Machine.execCopyM8S9 s
  | .copyM8S10 => Sys2Proof.Machine.execCopyM8S10 s
  | .copyM8S11 => Sys2Proof.Machine.execCopyM8S11 s
  | .copyM8S12 => Sys2Proof.Machine.execCopyM8S12 s
  | .copyM8S13 => Sys2Proof.Machine.execCopyM8S13 s
  | .copyM8S14 => Sys2Proof.Machine.execCopyM8S14 s
  | .copyM8S15 => Sys2Proof.Machine.execCopyM8S15 s
  | .copyM8S16 => Sys2Proof.Machine.execCopyM8S16 s
  | .copyM8S17 => Sys2Proof.Machine.execCopyM8S17 s
  | .copyM8S18 => Sys2Proof.Machine.execCopyM8S18 s
  | .addS1CopyM0S4 => Sys2Proof.Machine.execAddS1CopyM0S4 s
  | .addS1CopyM0S5 => Sys2Proof.Machine.execAddS1CopyM0S5 s
  | .addS1CopyM0S6 => Sys2Proof.Machine.execAddS1CopyM0S6 s
  | .addS2CopyM0S4 => Sys2Proof.Machine.execAddS2CopyM0S4 s
  | .addS2CopyM0S5 => Sys2Proof.Machine.execAddS2CopyM0S5 s
  | .addS2CopyM0S6 => Sys2Proof.Machine.execAddS2CopyM0S6 s
  | .addS3CopyM0S4 => Sys2Proof.Machine.execAddS3CopyM0S4 s
  | .addS3CopyM0S5 => Sys2Proof.Machine.execAddS3CopyM0S5 s
  | .addS3CopyM0S6 => Sys2Proof.Machine.execAddS3CopyM0S6 s
  | .addS4CopyM0S4 => Sys2Proof.Machine.execAddS4CopyM0S4 s
  | .addS4CopyM0S5 => Sys2Proof.Machine.execAddS4CopyM0S5 s
  | .addS4CopyM0S6 => Sys2Proof.Machine.execAddS4CopyM0S6 s
  | .addS1CopyM1S4 => Sys2Proof.Machine.execAddS1CopyM1S4 s
  | .addS1CopyM1S5 => Sys2Proof.Machine.execAddS1CopyM1S5 s
  | .addS1CopyM1S6 => Sys2Proof.Machine.execAddS1CopyM1S6 s
  | .addS2CopyM1S4 => Sys2Proof.Machine.execAddS2CopyM1S4 s
  | .addS2CopyM1S5 => Sys2Proof.Machine.execAddS2CopyM1S5 s
  | .addS2CopyM1S6 => Sys2Proof.Machine.execAddS2CopyM1S6 s
  | .addS3CopyM1S4 => Sys2Proof.Machine.execAddS3CopyM1S4 s
  | .addS3CopyM1S5 => Sys2Proof.Machine.execAddS3CopyM1S5 s
  | .addS3CopyM1S6 => Sys2Proof.Machine.execAddS3CopyM1S6 s
  | .addS4CopyM1S4 => Sys2Proof.Machine.execAddS4CopyM1S4 s
  | .addS4CopyM1S5 => Sys2Proof.Machine.execAddS4CopyM1S5 s
  | .addS4CopyM1S6 => Sys2Proof.Machine.execAddS4CopyM1S6 s
  | .addS1CopyM2S4 => Sys2Proof.Machine.execAddS1CopyM2S4 s
  | .addS1CopyM2S5 => Sys2Proof.Machine.execAddS1CopyM2S5 s
  | .addS1CopyM2S6 => Sys2Proof.Machine.execAddS1CopyM2S6 s
  | .addS2CopyM2S4 => Sys2Proof.Machine.execAddS2CopyM2S4 s
  | .addS2CopyM2S5 => Sys2Proof.Machine.execAddS2CopyM2S5 s
  | .addS2CopyM2S6 => Sys2Proof.Machine.execAddS2CopyM2S6 s
  | .addS3CopyM2S4 => Sys2Proof.Machine.execAddS3CopyM2S4 s
  | .addS3CopyM2S5 => Sys2Proof.Machine.execAddS3CopyM2S5 s
  | .addS3CopyM2S6 => Sys2Proof.Machine.execAddS3CopyM2S6 s
  | .addS4CopyM2S4 => Sys2Proof.Machine.execAddS4CopyM2S4 s
  | .addS4CopyM2S5 => Sys2Proof.Machine.execAddS4CopyM2S5 s
  | .addS4CopyM2S6 => Sys2Proof.Machine.execAddS4CopyM2S6 s
  | .addS1CopyM3S4 => Sys2Proof.Machine.execAddS1CopyM3S4 s
  | .addS1CopyM3S5 => Sys2Proof.Machine.execAddS1CopyM3S5 s
  | .addS1CopyM3S6 => Sys2Proof.Machine.execAddS1CopyM3S6 s
  | .addS2CopyM3S4 => Sys2Proof.Machine.execAddS2CopyM3S4 s
  | .addS2CopyM3S5 => Sys2Proof.Machine.execAddS2CopyM3S5 s
  | .addS2CopyM3S6 => Sys2Proof.Machine.execAddS2CopyM3S6 s
  | .addS3CopyM3S4 => Sys2Proof.Machine.execAddS3CopyM3S4 s
  | .addS3CopyM3S5 => Sys2Proof.Machine.execAddS3CopyM3S5 s
  | .addS3CopyM3S6 => Sys2Proof.Machine.execAddS3CopyM3S6 s
  | .addS4CopyM3S4 => Sys2Proof.Machine.execAddS4CopyM3S4 s
  | .addS4CopyM3S5 => Sys2Proof.Machine.execAddS4CopyM3S5 s
  | .addS4CopyM3S6 => Sys2Proof.Machine.execAddS4CopyM3S6 s
  | .addS1CopyM4S4 => Sys2Proof.Machine.execAddS1CopyM4S4 s
  | .addS1CopyM4S5 => Sys2Proof.Machine.execAddS1CopyM4S5 s
  | .addS1CopyM4S6 => Sys2Proof.Machine.execAddS1CopyM4S6 s
  | .addS2CopyM4S4 => Sys2Proof.Machine.execAddS2CopyM4S4 s
  | .addS2CopyM4S5 => Sys2Proof.Machine.execAddS2CopyM4S5 s
  | .addS2CopyM4S6 => Sys2Proof.Machine.execAddS2CopyM4S6 s
  | .addS3CopyM4S4 => Sys2Proof.Machine.execAddS3CopyM4S4 s
  | .addS3CopyM4S5 => Sys2Proof.Machine.execAddS3CopyM4S5 s
  | .addS3CopyM4S6 => Sys2Proof.Machine.execAddS3CopyM4S6 s
  | .addS4CopyM4S4 => Sys2Proof.Machine.execAddS4CopyM4S4 s
  | .addS4CopyM4S5 => Sys2Proof.Machine.execAddS4CopyM4S5 s
  | .addS4CopyM4S6 => Sys2Proof.Machine.execAddS4CopyM4S6 s
  | .addS1CopyM5S4 => Sys2Proof.Machine.execAddS1CopyM5S4 s
  | .addS1CopyM5S5 => Sys2Proof.Machine.execAddS1CopyM5S5 s
  | .addS1CopyM5S6 => Sys2Proof.Machine.execAddS1CopyM5S6 s
  | .addS2CopyM5S4 => Sys2Proof.Machine.execAddS2CopyM5S4 s
  | .addS2CopyM5S5 => Sys2Proof.Machine.execAddS2CopyM5S5 s
  | .addS2CopyM5S6 => Sys2Proof.Machine.execAddS2CopyM5S6 s
  | .addS3CopyM5S4 => Sys2Proof.Machine.execAddS3CopyM5S4 s
  | .addS3CopyM5S5 => Sys2Proof.Machine.execAddS3CopyM5S5 s
  | .addS3CopyM5S6 => Sys2Proof.Machine.execAddS3CopyM5S6 s
  | .addS4CopyM5S4 => Sys2Proof.Machine.execAddS4CopyM5S4 s
  | .addS4CopyM5S5 => Sys2Proof.Machine.execAddS4CopyM5S5 s
  | .addS4CopyM5S6 => Sys2Proof.Machine.execAddS4CopyM5S6 s
  | .addS1CopyM6S4 => Sys2Proof.Machine.execAddS1CopyM6S4 s
  | .addS2CopyM6S4 => Sys2Proof.Machine.execAddS2CopyM6S4 s
  | .addS3CopyM6S4 => Sys2Proof.Machine.execAddS3CopyM6S4 s
  | .addS4CopyM6S4 => Sys2Proof.Machine.execAddS4CopyM6S4 s
  | .addS1CopyM7S4 => Sys2Proof.Machine.execAddS1CopyM7S4 s
  | .addS2CopyM7S4 => Sys2Proof.Machine.execAddS2CopyM7S4 s
  | .addS3CopyM7S4 => Sys2Proof.Machine.execAddS3CopyM7S4 s
  | .addS4CopyM7S4 => Sys2Proof.Machine.execAddS4CopyM7S4 s
  | .addS1CopyM8S4 => Sys2Proof.Machine.execAddS1CopyM8S4 s
  | .addS2CopyM8S4 => Sys2Proof.Machine.execAddS2CopyM8S4 s
  | .addS3CopyM8S4 => Sys2Proof.Machine.execAddS3CopyM8S4 s
  | .addS4CopyM8S4 => Sys2Proof.Machine.execAddS4CopyM8S4 s
  | .copyM0S4AddS1 => Sys2Proof.Machine.execCopyM0S4AddS1 s
  | .copyM1S4AddS1 => Sys2Proof.Machine.execCopyM1S4AddS1 s
  | .copyM2S4AddS1 => Sys2Proof.Machine.execCopyM2S4AddS1 s
  | .copyM3S4AddS1 => Sys2Proof.Machine.execCopyM3S4AddS1 s
  | .copyM4S4AddS1 => Sys2Proof.Machine.execCopyM4S4AddS1 s
  | .copyM5S4AddS1 => Sys2Proof.Machine.execCopyM5S4AddS1 s
  | .copyM6S4AddS1 => Sys2Proof.Machine.execCopyM6S4AddS1 s
  | .copyM7S4AddS1 => Sys2Proof.Machine.execCopyM7S4AddS1 s
  | .copyM8S4AddS1 => Sys2Proof.Machine.execCopyM8S4AddS1 s
  | .decStart dictionary => Sys2Proof.Machine.execDecStart dictionary s
  | .decChunk chunk => Sys2Proof.Machine.execDecChunk chunk s
  | .decFinish => Sys2Proof.Machine.execDecFinish s
  | .decSetAllowVcdTarget allow => Sys2Proof.Machine.execDecSetAllowVcdTarget allow s
  | .decSetMaxTargetFileSize cap => Sys2Proof.Machine.execDecSetMaxTargetFileSize cap s
  | .decSetMaxTargetWindowSize cap => Sys2Proof.Machine.execDecSetMaxTargetWindowSize cap s
  | .decSetMaxSectionSize cap => Sys2Proof.Machine.execDecSetMaxSectionSize cap s
  | .encNew interleaved custom => Sys2Proof.Machine.execEncNew interleaved custom s
  | .encInit dictionarySize => Sys2Proof.Machine.execEncInit dictionarySize s
  | .encAdd n offset len bytes => Sys2Proof.Machine.execEncAdd n offset len bytes s
  | .encRun size byte => Sys2Proof.Machine.execEncRun size byte s
  | .encCopy offset size => Sys2Proof.Machine.execEncCopy offset size s
  | .encAddChecksum checksum => Sys2Proof.Machine.execEncAddChecksum checksum s
  | .encOutput => Sys2Proof.Machine.execEncOutput s
  | .encWriteHeader extensions => Sys2Proof.Machine.execEncWriteHeader extensions s
  | .encTargetLength => Sys2Proof.Machine.execEncTargetLength s
  | .encGetDeltaWindowSize => Sys2Proof.Machine.execEncGetDeltaWindowSize s

end Sys2Proof.Machine
end

