-- ==== Sys2Proof/Machine/Fetch.lean ====
section
/-! DEFINITION. Where the next instruction comes from: the instructions section of the window in replay (44_delta_instructions.md
R260), or the host's `CMD` port (30_encoding.md R117). -/

namespace Sys2Proof.Machine

/-- What the fetch finds. -/
inductive Fetched where
  /-- an instruction, and the state with its opcode byte or its command taken -/
  | instr (i : Instr) (s : State)
  /-- the end of the instructions section of the window in replay -/
  | endOfWindow
  /-- a command code R117 does not list, taken from the port -/
  | unknownCommand (s : State)
  /-- a transaction whose arguments do not fit -/
  | illFormed (code : Byte)
  /-- nothing: no window in replay and no command waiting -/
  | idle
  /-- the section has no byte at `ip`, which R260 excludes -/
  | missing

/-- The fetch from the instructions section (R260): the opcode at `ip`, and `ip` advanced by one. -/
def fetchStream (s : State) : Fetched :=
  if (activeWin s.dec).ip < (activeWin s.dec).instLen then
    match fetchOpcode s.dec with
    | none => .missing
    | some op => .instr (decodeOpcode op) { s with dec := setIp ((activeWin s.dec).ip + 1) s.dec }
  else .endOfWindow

/-- The fetch from `CMD` (R117): the next transaction leaves the port. -/
def fetchCommand (s : State) : Fetched :=
  match s.cmds with
  | [] => .idle
  | t :: rest =>
    match decodeCommand t with
    | .ok i => .instr i { s with cmds := rest }
    | .error (.unknownCommand _) => .unknownCommand { s with cmds := rest }
    | .error (.illFormed code) => .illFormed code
    | .error .empty => .illFormed t.code

/-- The fetch: while a window is in replay no command is accepted (R5, R434). -/
def fetch (s : State) : Fetched := if s.dec.replaying then fetchStream s else fetchCommand s

/-- A command of the `CMD` port as the next one, its argument ports zero or empty. -/
def placeCommand (s : State) (code : Byte) : State :=
  { s with dec := { s.dec with replaying := false }, cmds := { code := code } :: s.cmds }

/-- How many zero bytes follow a placed opcode: the most operand bytes a row can take when its sizes and addresses are zero
bytes, two ADD halves of 255. -/
def placedZeros : Nat := 510

/-- An opcode as the first instruction of a window in replay: the window has no source, is in interleaved layout, and its
instructions section is the opcode and zeros; the registers are as R312 to R321 leave them for such a window. -/
def placeOpcode (s : State) (op : Byte) : State :=
  { s with
    dec := { s.dec with
      state := .inWindow, hasChecksum := false, interleaved := true, nested := none, replaying := true,
      pending := op :: List.replicate placedZeros 0,
      ctx := { s.dec.ctx with
        tw := [],
        cache := acInit s.dec.ctx.cache,
        win := { WindowRegs.reset with
          instLen := placedZeros + 1, targetLen := s.dec.maxTargetWindowSize.toNat } } } }

/-- Place a table word where the next fetch finds it: a code of R117 on `CMD`, any other byte in the instructions section. -/
def placeWord (s : State) (nbits w : Nat) : State :=
  if nbits = 8 ∧ w < 256 then
    if isCommandCode (BitVec.ofNat 8 w) then placeCommand s (BitVec.ofNat 8 w) else placeOpcode s (BitVec.ofNat 8 w)
  else s

end Sys2Proof.Machine
end

