-- ==== Sys2Proof/Machine/Step.lean ====
section
/-! DEFINITION. One step of VCORE. -/

namespace Sys2Proof.Machine

/-- One step. While a window is in replay, the next instruction is the opcode at `ip` of its instructions section (R260), and
at the end of the section the rest of the command runs. Otherwise the next instruction is the host's next command (R5);
with none waiting the machine idles with all state held (R398). -/
def step (s : State) : Host.Outcome State Fault Refusal :=
  match fetch s with
  | .instr i s' => exec i s'
  | .endOfWindow => endCommand s (resumeDrive s.dec)
  | .unknownCommand s' => .next { s' with result := some (errOf .badConfiguration) }
  | .illFormed code => .refused (.illFormedCommand code)
  | .idle => .next s
  | .missing => .fault .noSuchAddress

/-- The state in which the very next step runs the instruction of a table word (log entry 1). -/
def State.withFetchWord (s : State) (nbits w : Nat) : State := placeWord s nbits w

end Sys2Proof.Machine
end

