-- ==== Sys2Proof/Safety.lean ====
section
/-! DEFINITION. What the statements are written in: the invariants of the two contexts, and the conditions and effects of the
four instruction types on a decoder context, read off the rules independently of the operations in Machine/. -/

namespace Sys2Proof.Safety

open Sys2Proof.Machine

/-! ## Invariants -/

/-- The arrays of a cache have the sizes of its registers, the ring index lies in the ring, and every element is a 32-bit
address (R28). -/
def CacheOk (c : AddrCache) : Prop :=
  c.near.length = c.nearSize ∧ c.same.length = c.sameSize * 256 ∧
  (if c.nearSize = 0 then c.nextSlot = 0 else c.nextSlot < c.nearSize) ∧
  (∀ a ∈ c.near, a < 4294967296) ∧ ∀ a ∈ c.same, a < 4294967296

/-- A table in use is valid for its highest mode, which the cache sizes give (R22 CR8, CR11; R152). -/
def TableOk (t : Table) (maxMode : Nat) (c : AddrCache) : Prop :=
  t.length = 256 ∧ tabValid t maxMode = true ∧ maxMode = 1 + c.nearSize + c.sameSize ∧
  cacheSizesOk c.nearSize c.sameSize = true

/-- The source segment of the window lies inside the space it is a slice of (R63, R313). -/
def SegmentOk (d : Dec) : Prop :=
  match (activeWin d).srcSegSpace with
  | .none => (activeWin d).srcSegSize = 0
  | .dict => (activeWin d).srcSegPos + (activeWin d).srcSegSize ≤ (activeDict d).length
  | .dtarget => (activeWin d).srcSegPos + (activeWin d).srcSegSize ≤ (activeCtx d).dtarget.length

/-- The cursors of a window lie in their sections (R24, R25), the layout flag says what the section lengths say (R261), the
body is in `PENDING` (R320), and `TW` has not outgrown the declared window (R31, R267). -/
def WindowOk (d : Dec) : Prop :=
  CacheOk (activeCtx d).cache ∧ SegmentOk d ∧ windowLen d ≤ d.pending.length ∧
  (activeWin d).ip ≤ (activeWin d).instLen ∧ (activeWin d).dp ≤ (activeWin d).dataLen ∧
  (activeWin d).ap ≤ (activeWin d).addrLen ∧ (activeCtx d).tw.length ≤ (activeWin d).targetLen ∧
  d.interleaved = ((activeWin d).dataLen == 0 && (activeWin d).addrLen == 0)

/-- The lengths of a window fit their 32-bit registers, and the target with it the 64-bit total (R23, R30, R315). -/
def WidthsOk (d : Dec) : Prop :=
  (activeWin d).targetLen < 2 ^ 32 ∧ (activeWin d).dataLen < 2 ^ 32 ∧ (activeWin d).instLen < 2 ^ 32 ∧
  (activeWin d).addrLen < 2 ^ 32 ∧ (activeCtx d).totalTargetLen + (activeWin d).targetLen < 2 ^ 64

/-- The nested context exists exactly in `CUSTOM_TABLE`, with the default cache sizes; its target is shorter than an image while
it lives; and the parameters are checked once read (R35, R158, R159, R310). -/
def NestedOk (d : Dec) : Prop :=
  match d.nested with
  | none => d.state ≠ .customTable
  | some n =>
    d.state = .customTable ∧ n.ctx.cache.nearSize = 4 ∧ n.ctx.cache.sameSize = 3 ∧
    n.ctx.totalTargetLen = n.ctx.dtarget.length ∧ n.ctx.dtarget.length < 1536 ∧
    (n.phase ≠ .params → cacheSizesOk n.ctNear n.ctSame = true ∧ n.ctMaxMode = 1 + n.ctNear + n.ctSame) ∧
    (d.replaying = true → n.phase = .innerWindows)

/-- What `PENDING` holds in each state when no window is in replay (R302, R385). -/
def RestOk (d : Dec) : Prop :=
  match d.state with
  | .idle | .finished | .expectWinIndicator | .poisoned => d.pending = []
  | .expectHeader => d.pending.length < 5
  | .inWindow => d.pending ≠ []
  | .customTable => True

/-- A window is in replay only in a session that is at a window (R37, R302). -/
def ReplayState (d : Dec) : Prop :=
  d.state = .expectWinIndicator ∨ d.state = .inWindow ∨ d.state = .customTable

/-- The invariant of the decoder context. -/
def DecInv (d : Dec) : Prop :=
  d.dictSize = d.dict.length ∧ d.dict.length ≤ 4294967295 ∧
  d.ctx.totalTargetLen = d.ctx.dtarget.length ∧ d.ctx.totalTargetLen < 2 ^ 64 ∧ d.ctx.dtarget <:+ d.sink ∧
  NestedOk d ∧ (d.state ≠ .poisoned → TableOk d.dtab d.maxMode d.ctx.cache) ∧
  (d.state = .poisoned ↔ d.errKind ≠ 0) ∧
  (d.replaying = false → RestOk d) ∧
  (d.replaying = true → ReplayState d ∧ WindowOk d ∧ WidthsOk d)

/-- The pending single opcode stands in `INSTS` and is a single opcode of the table (R33). -/
def LastOpcodeOk (e : Enc) : Prop :=
  match e.lastOpcodeIndex with
  | none => True
  | some i =>
    ∃ op, e.insts[i]? = some op ∧ (tableRow e.etab op).first.inst ≠ kindCode .noop ∧
      (tableRow e.etab op).second.inst = kindCode .noop

/-- The invariant of the encoder context. -/
def EncInv (e : Enc) : Prop :=
  CacheOk e.cache ∧ TableOk e.etab e.maxMode e.cache ∧
  (e.customTable = false → e.etab = defTab ∧ e.cache.nearSize = 4 ∧ e.cache.sameSize = 3) ∧
  encHere e ≤ 4294967295 ∧ (e.interleaved = true → e.data = [] ∧ e.addrs = []) ∧ LastOpcodeOk e ∧
  (e.state = .created → e.insts = [] ∧ e.targetLen = 0 ∧ e.lastOpcodeIndex = none) ∧
  (e.state = .failed ↔ e.errKind ≠ 0)

/-- The invariant of VCORE. -/
def Inv (s : State) : Prop := DecInv s.dec ∧ EncInv s.enc

/-! ## The four instruction types, as conditions and effects -/

/-- The bytes an ADD or RUN reads next, up to the end of the data stream (R261). -/
def dataBytes (d : Dec) : Bytes :=
  if d.interleaved then (instSec d).drop (activeWin d).ip else (dataSec d).drop (activeWin d).dp

/-- The registers after `n` bytes of the data stream are consumed by an instruction of type `k`. -/
def consumedData (k : InstKind) (n : Nat) (d : Dec) : WindowRegs :=
  if d.interleaved then { activeWin d with ip := (activeWin d).ip + n, prevInst := k }
  else { activeWin d with dp := (activeWin d).dp + n, prevInst := k }

/-- `DEC_LINT_ADD_ADD` after an instruction of type `k` (R268). -/
def lintAfter (k : InstKind) (d : Dec) : Bool :=
  d.lintAddAdd || (k == .add && (activeWin d).prevInst == .add)

/-- The sections are whole: each view has the length its register says (R66, R320). -/
def SectionsWhole (d : Dec) : Prop := windowLen d ≤ d.pending.length

/-- An ADD or RUN that consumes `n` data bytes and appends `size` bytes has room and operands (R264, R265, R267). -/
def DataReady (size n : Nat) (d : Dec) : Prop :=
  (activeCtx d).tw.length + size ≤ (activeWin d).targetLen ∧ SectionsWhole d ∧ n ≤ (dataBytes d).length ∧
  (activeWin d).ip ≤ (activeWin d).instLen ∧ (activeWin d).dp ≤ (activeWin d).dataLen

/-- The decoder after an ADD of `n` bytes (R264): `TW` grown by the next `n` data bytes, the cursor moved, the lint flag and
`PREV_INST` set; nothing else. -/
def afterAdd (n : Nat) (d : Dec) : Dec :=
  setActive { activeCtx d with tw := (activeCtx d).tw ++ (dataBytes d).take n, win := consumedData .add n d }
    { d with lintAddAdd := lintAfter .add d }

/-- The decoder after a RUN of `size` copies of `b` (R265): one data byte consumed. -/
def afterRun (size : Nat) (b : Byte) (d : Dec) : Dec :=
  setActive { activeCtx d with tw := (activeCtx d).tw ++ List.replicate size b, win := consumedData .run 1 d } d

/-- The outcome of decoding the address of a COPY from the address stream (R261, R266). -/
def decodedAddress (mode : Nat) (d : Dec) : AcOut :=
  if d.interleaved then
    acDecode (activeCtx d).cache (hereOf d) mode (instSec d) (activeWin d).ip (activeWin d).instLen
  else acDecode (activeCtx d).cache (hereOf d) mode (addrSec d) (activeWin d).ap (activeWin d).addrLen

/-- A COPY has room, a readable source segment and an address in range (R266, R267). -/
def CopyReady (size mode addr cur : Nat) (cache : AddrCache) (d : Dec) : Prop :=
  (activeCtx d).tw.length + size ≤ (activeWin d).targetLen ∧ SegmentOk d ∧
  decodedAddress mode d = .value addr cur cache

/-- The bytes of the source segment (R63). -/
def segmentBytes (d : Dec) : Bytes :=
  match (activeWin d).srcSegSpace with
  | .none => []
  | .dict => ((activeDict d).drop (activeWin d).srcSegPos).take (activeWin d).srcSegSize
  | .dtarget => ((activeCtx d).dtarget.drop (activeWin d).srcSegPos).take (activeWin d).srcSegSize

/-- `out` is what a COPY of `size` bytes from `addr` appends: byte `k` is byte `addr + k` of the source segment followed by
`TW` followed by `out` itself (R65, R266, R432). -/
def IsCopyOf (size addr : Nat) (d : Dec) (out : Bytes) : Prop :=
  out.length = size ∧ ∀ k, k < size → out[k]? = (segmentBytes d ++ (activeCtx d).tw ++ out)[addr + k]?

/-- The decoder after a COPY that appended `out` (R266): the cursor of the address stream at `cur`, the cache updated,
`PREV_INST` set; nothing else. -/
def afterCopy (out : Bytes) (cur : Nat) (cache : AddrCache) (d : Dec) : Dec :=
  setActive { activeCtx d with
      tw := (activeCtx d).tw ++ out, cache := cache,
      win := if d.interleaved then { activeWin d with ip := cur, prevInst := .copy }
             else { activeWin d with ap := cur, prevInst := .copy } } d

/-- The explicit size at `ip` and the cursor after it (R262). -/
def ExplicitSize (size cur : Nat) (d : Dec) : Prop :=
  viRead 32 (instSec d) (activeWin d).ip (activeWin d).instLen = .value size cur

/-- The machine after the error `c` of a replay that leaves the lint flag at `lint` (R385): the decoder poisoned, the error on
`RESULT`, nothing else. -/
def raised (c : Cause) (lint : Bool) (s : State) : State :=
  { s with dec := decRaise c { s.dec with lintAddAdd := lint }, result := some (errOf c) }

/-- An ADD of `n` bytes from the decoder `d`, in a machine `s` that answers `o` (R264, R267, R268): it raises TargetOverrun, it
raises SectionOverrun, or `k` holds of the decoder after it. -/
def AddEffect (n : Nat) (s : State) (d : Dec) (o : Host.Outcome State Fault Refusal) (k : Dec → Prop) : Prop :=
  ((activeWin d).targetLen < (activeCtx d).tw.length + n → o = .next (raised .targetOverrun d.lintAddAdd s)) ∧
  ((activeCtx d).tw.length + n ≤ (activeWin d).targetLen → (dataBytes d).length < n →
    o = .next (raised .sectionOverrun (lintAfter .add d) s)) ∧
  ((activeCtx d).tw.length + n ≤ (activeWin d).targetLen → n ≤ (dataBytes d).length → k (afterAdd n d))

/-- A RUN of `n` bytes (R265, R267): TargetOverrun, SectionOverrun for want of its one data byte, or done. -/
def RunEffect (n : Nat) (s : State) (d : Dec) (o : Host.Outcome State Fault Refusal) (k : Dec → Prop) : Prop :=
  ((activeWin d).targetLen < (activeCtx d).tw.length + n → o = .next (raised .targetOverrun d.lintAddAdd s)) ∧
  ((activeCtx d).tw.length + n ≤ (activeWin d).targetLen → dataBytes d = [] →
    o = .next (raised .sectionOverrun d.lintAddAdd s)) ∧
  ((activeCtx d).tw.length + n ≤ (activeWin d).targetLen → ∀ b rest, dataBytes d = b :: rest → k (afterRun n b d))

/-- A COPY of `n` bytes in `mode` (R266, R267): TargetOverrun, SectionOverrun where the address is cut off, the error of the
address decode, or done with the bytes `IsCopyOf` describes. A mode without a cache entry, which a validated table excludes
(R196), stops by name. -/
def CopyEffect (n mode : Nat) (s : State) (d : Dec) (o : Host.Outcome State Fault Refusal) (k : Dec → Prop) : Prop :=
  ((activeWin d).targetLen < (activeCtx d).tw.length + n → o = .next (raised .targetOverrun d.lintAddAdd s)) ∧
  ((activeCtx d).tw.length + n ≤ (activeWin d).targetLen → decodedAddress mode d = .needMore →
    o = .next (raised .sectionOverrun d.lintAddAdd s)) ∧
  ((activeCtx d).tw.length + n ≤ (activeWin d).targetLen → ∀ e, decodedAddress mode d = .error e →
    o = .next (raised (sectionCause e) d.lintAddAdd s)) ∧
  ((activeCtx d).tw.length + n ≤ (activeWin d).targetLen → decodedAddress mode d = .noEntry →
    o = .fault .noSuchCacheEntry) ∧
  ((activeCtx d).tw.length + n ≤ (activeWin d).targetLen → ∀ addr cur cache, decodedAddress mode d = .value addr cur cache →
    ∃ out, IsCopyOf n addr d out ∧ k (afterCopy out cur cache d))

/-- An explicit size at `ip` of the decoder `d` (R262): SectionOverrun where it is cut off, VarIntOverflow, or `k` holds of the
size and of the decoder with `ip` behind it. -/
def SizeEffect (s : State) (d : Dec) (o : Host.Outcome State Fault Refusal) (k : Nat → Dec → Prop) : Prop :=
  (viRead 32 (instSec d) (activeWin d).ip (activeWin d).instLen = .needMore →
    o = .next (raised .sectionOverrun d.lintAddAdd s)) ∧
  (viRead 32 (instSec d) (activeWin d).ip (activeWin d).instLen = .error .varIntOverflow →
    o = .next (raised .streamVarIntOverflow d.lintAddAdd s)) ∧
  ∀ n cur, ExplicitSize n cur d → k n (setIp cur d)

/-- One half of a row (R260): NOOP does nothing; ADD, RUN and COPY with the size of the row, or with an explicit size where the
row says 0. A type code above 3, which a validated table excludes (R152), stops by name. -/
def HalfEffect (h : Half) (s : State) (d : Dec) (o : Host.Outcome State Fault Refusal) (k : Dec → Prop) : Prop :=
  match instKind h.inst with
  | none => o = .fault .badTableRow
  | some .noop => k d
  | some .add =>
    if h.size = 0 then SizeEffect s d o (fun n d => AddEffect n s d o k) else AddEffect h.size.toNat s d o k
  | some .run =>
    if h.size = 0 then SizeEffect s d o (fun n d => RunEffect n s d o k) else RunEffect h.size.toNat s d o k
  | some .copy =>
    if h.size = 0 then SizeEffect s d o (fun n d => CopyEffect n h.mode.toNat s d o k)
    else CopyEffect h.size.toNat h.mode.toNat s d o k

/-- The machine `s` goes on with the decoder `d` and nothing else changed. -/
def goesOn (s : State) (o : Host.Outcome State Fault Refusal) (d : Dec) : Prop := o = .next { s with dec := d }

/-- A window in replay under the default code table. -/
def DefaultWindow (d : Dec) : Prop := WindowOk d ∧ activeTab d = defTab

/-- The machine after an encoder command that failed (R387). -/
def encFailed (c : Cause) (s : State) : State :=
  { s with enc := encRaise c s.enc, result := some (errOf c) }

/-- The machine after a command refused with nothing changed (R386, R387). -/
def refusedWith (r : Result) (s : State) : State := { s with result := some r }

/-- `EncodeInstruction` succeeds and leaves these `INSTS` and this `LAST_OPCODE_INDEX`; it changes nothing else (R222). -/
def EncodesTo (k : InstKind) (size mode : Nat) (e : Enc) (insts : Bytes) (last : Option Nat) : Prop :=
  encodeInstruction k size mode e = some { e with insts := insts, lastOpcodeIndex := last }

/-- The encoder after `INSTS` and `LAST_OPCODE_INDEX` of an instruction, with `data` and `addr` appended where the layout routes
them, and `n` more target bytes (R223 to R225, R229). -/
def afterEncode (insts : Bytes) (last : Option Nat) (data addr : Bytes) (n : Nat) (e : Enc) : Enc :=
  { e with
    insts := if e.interleaved then insts ++ data ++ addr else insts,
    data := if e.interleaved then e.data else e.data ++ data,
    addrs := if e.interleaved then e.addrs else e.addrs ++ addr,
    lastOpcodeIndex := last, targetLen := e.targetLen + n }

/-- The states in which a session takes chunks (R301). -/
def InSession (st : DecState) : Prop :=
  st = .expectHeader ∨ st = .customTable ∨ st = .expectWinIndicator ∨ st = .inWindow

/-- Run `n` steps, stopping at the first that answers no next state. -/
def runSteps : Nat → State → Host.Outcome State Fault Refusal
  | 0, s => .next s
  | n + 1, s =>
    match step s with
    | .next t => runSteps n t
    | .fault f => .fault f
    | .refused r => .refused r

/-- The command at `s` fails with the cause `c` (R385): the decoder is poisoned with it and it stands on `RESULT`; what was
delivered, the dictionary, the control registers, the encoder and the port are as before. -/
def FailsWith (c : Cause) (s : State) (o : Host.Outcome State Fault Refusal) : Prop :=
  ∃ t : State, o = .next t ∧ t.result = some (.err (causeKind c) (causeCode c)) ∧ t.dec.state = .poisoned ∧
    t.dec.errKind = causeKind c ∧ t.dec.errCause = causeCode c ∧ t.dec.pending = [] ∧ t.dec.ctx.tw = [] ∧
    t.dec.nested = none ∧ t.dec.replaying = false ∧
    t.dec.sink = s.dec.sink ∧ t.dec.ctx.dtarget = s.dec.ctx.dtarget ∧
    t.dec.ctx.totalTargetLen = s.dec.ctx.totalTargetLen ∧ t.dec.dict = s.dec.dict ∧ t.dec.dictSize = s.dec.dictSize ∧
    t.dec.allowVcdTarget = s.dec.allowVcdTarget ∧ t.dec.maxTargetFileSize = s.dec.maxTargetFileSize ∧
    t.dec.maxTargetWindowSize = s.dec.maxTargetWindowSize ∧ t.dec.maxSectionSize = s.dec.maxSectionSize ∧
    t.enc = s.enc ∧ t.cmds = s.cmds

/-- Run a list of instructions, stopping at the first that answers no next state. -/
def runInstrs : List Instr → State → Host.Outcome State Fault Refusal
  | [], s => .next s
  | i :: rest, s =>
    match exec i s with
    | .next t => runInstrs rest t
    | .fault f => .fault f
    | .refused r => .refused r

/-- The commands that belong to the encoder (R117). -/
def isEncoderCommand (i : Instr) : Bool :=
  match encode i with
  | .stream _ => false
  | .command t => decide (0x10 ≤ t.code.toNat)

/-! ## Bytes -/

/-- The number the 7-bit groups of a byte string write, most significant first (R90, R133). -/
def groupsValue (b : Bytes) : Nat := b.foldl (fun n x => n * 128 + x.toNat % 128) 0

/-- The sum of the bytes, each weighted by how many bytes there are from it to the end. -/
def adlerWeighted : Bytes → Nat
  | [] => 0
  | x :: rest => (rest.length + 1) * x.toNat + adlerWeighted rest

/-! ## Windows as they stand in a stream -/

/-- The bytes `b` are a VarInt of `v`, of any legal length (R90, R133). -/
def IsVarInt (v : Nat) (b : Bytes) : Prop := viRead 32 b 0 b.length = .value v b.length

/-- The bytes `b` begin with a VarInt that overflows (R133). -/
def Overflows (b : Bytes) : Prop := viRead 32 b 0 b.length = .error .varIntOverflow

/-- A window header as it stands in a stream (R94 to R98): its values, and the bytes that write each of them. The size and
position of the source segment are there only if there is a source, the checksum only if `hasChecksum`. -/
structure StreamHeader where
  space : SegSpace
  hasChecksum : Bool
  size : Nat
  pos : Nat
  deltaLen : Nat
  targetLen : Nat
  dataLen : Nat
  instLen : Nat
  addrLen : Nat
  checksum : Nat
  sizeBytes : Bytes
  posBytes : Bytes
  deltaLenBytes : Bytes
  targetLenBytes : Bytes
  dataLenBytes : Bytes
  instLenBytes : Bytes
  addrLenBytes : Bytes
  checksumBytes : Bytes

/-- The Win_Indicator (R95). -/
def StreamHeader.indicator (w : StreamHeader) : Byte :=
  (match w.space with | .none => 0x00 | .dict => 0x01 | .dtarget => 0x02) ||| (if w.hasChecksum then 0x04 else 0x00)

/-- The ten fields in stream order: Win_Indicator, source segment size and position, length of the delta encoding, target
length, Delta_Indicator, the three section lengths, checksum (R94, R96). A field that is not there is empty. -/
def StreamHeader.fields (w : StreamHeader) : List Bytes :=
  [[w.indicator], if w.space = .none then [] else w.sizeBytes, if w.space = .none then [] else w.posBytes,
   w.deltaLenBytes, w.targetLenBytes, [0x00], w.dataLenBytes, w.instLenBytes, w.addrLenBytes,
   if w.hasChecksum then w.checksumBytes else []]

/-- The first `k` fields. -/
def StreamHeader.upTo (w : StreamHeader) (k : Nat) : Bytes := (w.fields.take k).flatten

/-- Every field is written as a VarInt of its value. -/
def StreamHeader.Encoded (w : StreamHeader) : Prop :=
  (w.space = .none → w.size = 0 ∧ w.pos = 0) ∧
  (w.space ≠ .none → IsVarInt w.size w.sizeBytes ∧ IsVarInt w.pos w.posBytes) ∧
  IsVarInt w.deltaLen w.deltaLenBytes ∧ IsVarInt w.targetLen w.targetLenBytes ∧ IsVarInt w.dataLen w.dataLenBytes ∧
  IsVarInt w.instLen w.instLenBytes ∧ IsVarInt w.addrLen w.addrLenBytes ∧
  (w.hasChecksum = true → IsVarInt w.checksum w.checksumBytes)

/-- The length of the space the source segment lies in (R313). -/
def StreamHeader.bound (w : StreamHeader) (d : Dec) : Nat :=
  match w.space with
  | .none => 0
  | .dict => activeDictSize d
  | .dtarget => (activeCtx d).totalTargetLen

/-- The checks on the first `k` fields pass in the decoder `d` (R312, R313, R315, R317). -/
def StreamHeader.Accepted (w : StreamHeader) (k : Nat) (d : Dec) : Prop :=
  (1 ≤ k → w.space = .dtarget → d.allowVcdTarget = true) ∧
  (3 ≤ k → w.pos + w.size ≤ w.bound d) ∧
  (5 ≤ k → w.targetLen ≤ d.maxTargetWindowSize.toNat ∧
    (activeCtx d).totalTargetLen + w.targetLen ≤ d.maxTargetFileSize.toNat) ∧
  (7 ≤ k → w.dataLen ≤ d.maxSectionSize.toNat) ∧ (8 ≤ k → w.instLen ≤ d.maxSectionSize.toNat) ∧
  (9 ≤ k → w.addrLen ≤ d.maxSectionSize.toNat)

/-- The bytes of the delta encoding before the sections, with the sections, are `L` (R319). -/
def StreamHeader.Consistent (w : StreamHeader) : Prop :=
  (w.fields.drop 4).flatten.length + w.dataLen + w.instLen + w.addrLen = w.deltaLen

/-- A decoder that reads a window header next (R302, R310). -/
def AtWindow (d : Dec) : Prop :=
  d.state = .expectWinIndicator ∨ d.state = .inWindow ∨
  (d.state = .customTable ∧ ∃ n, d.nested = some n ∧ n.phase = .innerWindows)

/-- The decoder at the start of the replay of the window (R312 to R321), `stream` being what is in `PENDING`: the working
registers hold the header, cursors are 0, `TW` is empty, the cache is cleared. -/
def StreamHeader.started (w : StreamHeader) (stream : Bytes) (d : Dec) : Dec :=
  setActive { activeCtx d with
      tw := [], cache := acInit (activeCtx d).cache,
      win := {
        winIndicator := w.indicator, srcSegSize := w.size, srcSegPos := w.pos, srcSegSpace := w.space,
        deltaLen := w.deltaLen, targetLen := w.targetLen, dataLen := w.dataLen, instLen := w.instLen,
        addrLen := w.addrLen, prevInst := .noop, ip := 0, dp := 0, ap := 0, bodyPos := (w.upTo 10).length,
        checksum := if w.hasChecksum then BitVec.ofNat 32 w.checksum else (activeWin d).checksum } }
    { d with
      pending := stream, hasChecksum := w.hasChecksum, interleaved := w.dataLen == 0 && w.addrLen == 0,
      replaying := true }

/-! ## Who does what -/

/-- The step takes a command with the code `c` from the port. -/
def Issues (c : Byte) (s : State) : Prop :=
  s.dec.replaying = false ∧ ∃ t rest, s.cmds = t :: rest ∧ t.code = c

/-- `DEC_START`, the chunks in order, `DEC_FINISH`. -/
def session (dictionary : Bytes) (chunks : List Bytes) : List Instr :=
  .decStart dictionary :: (chunks.map .decChunk ++ [.decFinish])

/-- A pending single opcode at index `i` of `INSTS` and the compound opcode `c` the table has for it followed by an instruction
(R222 steps 1 and 2). -/
def Upgrades (e : Enc) (k : InstKind) (size mode i : Nat) (c : Byte) : Prop :=
  ∃ b, e.lastOpcodeIndex = some i ∧ e.insts[i]? = some b ∧ imapSecond e.etab b k size mode = some c

/-- The arguments of `ENC_NEW` describe a table the encoder takes (R161). -/
def GoodTable (g : CustomTable) : Prop :=
  g.nearSize ≤ 254 ∧ g.sameSize ≤ 254 ∧ g.maxMode = 1 + g.nearSize + g.sameSize ∧ g.maxMode ≤ 255 ∧
  tabValid (unpackImage g.image) g.maxMode = true

/-- The delta encoding of the window as it stands, `B` of R227. -/
def windowBody (e : Enc) : Bytes :=
  viWrite e.targetLen ++ [0x00] ++ viWrite e.data.length ++ viWrite e.insts.length ++ viWrite e.addrs.length ++
  (if e.hasChecksum then viWrite e.checksum.toNat else []) ++ e.data ++ e.insts ++ e.addrs

/-- What precedes it, `W` of R227, with `L` written as given. -/
def windowFront (e : Enc) (len : Nat) : Bytes :=
  [if e.hasChecksum then 0x05 else 0x01] ++ viWrite e.dictSize.toNat ++ viWrite 0 ++ viWrite len

/-- The per-window registers of the encoder as `ENC_INIT` and `ENC_OUTPUT` leave them (R221, R227). -/
def windowCleared (e : Enc) : Enc :=
  { e with targetLen := 0, lastOpcodeIndex := none, cache := acInit e.cache, insts := [], data := [], addrs := [],
           hasChecksum := false }

/-! ## Files -/

/-- `n` bytes copied onto the end of `u` from its address `x` on, each there before the next is read (R266, R328). -/
def copyOnto : Nat → Nat → Bytes → Bytes
  | 0, _, u => u
  | n + 1, x, u => copyOnto n (x + 1) (u ++ [u.getD x 0])

/-- A command that adds to the target of a window (R223 to R225). -/
inductive Piece where
  | add (n offset : Nat) (slice : Bytes)
  | run (size : Word) (byte : Byte)
  | copy (offset size : Word)
deriving DecidableEq, Repr

/-- The command itself. -/
def Piece.command : Piece → Instr
  | .add n offset slice => .encAdd n offset slice.length slice
  | .run size byte => .encRun size byte
  | .copy offset size => .encCopy offset size

/-- What the command describes (R328), appended to the dictionary followed by the window's target so far. -/
def Piece.onto : Piece → Bytes → Bytes
  | .add _ _ slice, u => u ++ slice
  | .run size byte, u => u ++ List.replicate size.toNat byte
  | .copy offset size, u => copyOnto size.toNat offset.toNat u

/-- A window as the host writes it: its commands in order, and whether it gets a checksum. -/
structure WindowPlan where
  pieces : List Piece
  checked : Bool
deriving DecidableEq, Repr

/-- The target the commands of a window describe. -/
def WindowPlan.target (dictionary : Bytes) (w : WindowPlan) : Bytes :=
  (w.pieces.foldl (fun u p => p.onto u) dictionary).drop dictionary.length

/-- The commands of a window before `ENC_OUTPUT`, the checksum being the Adler32 of its target (R437). -/
def WindowPlan.commands (dictionary : Bytes) (w : WindowPlan) : List Instr :=
  w.pieces.map Piece.command ++ (if w.checked then [.encAddChecksum (adler32 (w.target dictionary))] else [])

/-- Commands that all answer `OK` take the machine from `s` to `t`. -/
def RunsOk : List Instr → State → State → Prop
  | [], s, t => s = t
  | i :: rest, s, t => ∃ u, exec i s = .next u ∧ u.result = some .ok ∧ RunsOk rest u t

/-- The window in the encoder is within the caps of the decoder, but for the cap on the file (R315, R317). -/
def WindowFits (e : Enc) (d : Dec) : Prop :=
  e.targetLen ≤ d.maxTargetWindowSize.toNat ∧ e.data.length ≤ d.maxSectionSize.toNat ∧
  e.insts.length ≤ d.maxSectionSize.toNat ∧ e.addrs.length ≤ d.maxSectionSize.toNat

/-- Writing windows one after the other, every command answering `OK`, each window within the caps of the decoder `d`. -/
def WritesWindows (dictionary : Bytes) (d : Dec) : List WindowPlan → State → State → Prop
  | [], s, t => s = t
  | w :: rest, s, t => ∃ u v, RunsOk (w.commands dictionary) s u ∧ WindowFits u.enc d ∧ RunsOk [.encOutput] u v ∧
      WritesWindows dictionary d rest v t

/-- The target of a file: the targets of its windows, one after the other. -/
def fileTarget (dictionary : Bytes) (plans : List WindowPlan) : Bytes := (plans.map (WindowPlan.target dictionary)).flatten

end Sys2Proof.Safety
end

