-- ==== Sys2Proof/Certificates/Slice0/Obligations.lean ====
section
/-! DEFINITION. The statements about the model, for the provers. -/

open Sys2Proof Sys2Proof.Machine Sys2Proof.Safety

/-! ## Encoding -/

/-- Decoding an encoded well-formed instruction gives it back, whatever its operands (R113, R117). -/
def Obligations.DecodeInvertsEncode : Prop :=
  ∀ i : Instr, i.wf = true → decode (encode i) = .ok i

/-- Every byte is the opcode of exactly the instruction that encodes to it (R113), and the decoder takes one byte from the
stream; a few opcodes written out from the formulas of R113. -/
def Obligations.OpcodeBytesDecode : Prop :=
  (∀ (op : Byte) (rest : Bytes), decodeStream (op :: rest) = .ok (decodeOpcode op, rest) ∧
    encode (decodeOpcode op) = .stream [op]) ∧
  decodeStream [] = .error .empty ∧
  decodeOpcode 0 = .run ∧ decodeOpcode 1 = .add ∧ decodeOpcode 18 = .addS17 ∧ decodeOpcode 147 = .copyM8 ∧
  decodeOpcode 29 = .copyM0S13 ∧ decodeOpcode 167 = .addS2CopyM0S5 ∧ decodeOpcode 246 = .addS4CopyM8S4 ∧
  decodeOpcode 249 = .copyM2S4AddS1

/-- The 17 command codes with their arguments (R117). Any other code on `CMD` leaves the port, is answered with
UsageError.BadConfiguration, and changes nothing else. -/
def Obligations.HostCommandCodes : Prop :=
  (∀ dictionary : Bytes, dictionary.length ≤ 4294967295 →
    decodeCommand { code := 0x01, dict := dictionary } = .ok (.decStart dictionary)) ∧
  (∀ chunk : Bytes, decodeCommand { code := 0x02, input := chunk } = .ok (.decChunk chunk)) ∧
  decodeCommand { code := 0x03 } = .ok .decFinish ∧
  (∀ b : Bool, decodeCommand { code := 0x04, arg0 := b.toNat } = .ok (.decSetAllowVcdTarget b)) ∧
  (∀ v : DWord, decodeCommand { code := 0x05, arg0 := v.toNat } = .ok (.decSetMaxTargetFileSize v)) ∧
  (∀ v : Word, decodeCommand { code := 0x06, arg0 := v.toNat } = .ok (.decSetMaxTargetWindowSize v)) ∧
  (∀ v : Word, decodeCommand { code := 0x07, arg0 := v.toNat } = .ok (.decSetMaxSectionSize v)) ∧
  (∀ b : Bool, decodeCommand { code := 0x10, arg0 := b.toNat } = .ok (.encNew b none)) ∧
  (∀ (b : Bool) (image : Bytes) (near same mode : Nat), image.length = 1536 →
    decodeCommand { code := 0x10, arg0 := b.toNat, arg1 := near, arg2 := same, arg3 := mode, ctabIn := some image }
      = .ok (.encNew b (some { image := image, nearSize := near, sameSize := same, maxMode := mode }))) ∧
  (∀ v : Word, decodeCommand { code := 0x11, arg0 := v.toNat } = .ok (.encInit v)) ∧
  (∀ (n offset : Nat) (slice : Bytes),
    decodeCommand { code := 0x12, arg0 := n, arg1 := offset, arg2 := slice.length, encData := slice }
      = .ok (.encAdd n offset slice.length slice)) ∧
  (∀ (size : Word) (b : Byte), decodeCommand { code := 0x13, arg0 := size.toNat, arg1 := b.toNat } = .ok (.encRun size b)) ∧
  (∀ offset size : Word,
    decodeCommand { code := 0x14, arg0 := offset.toNat, arg1 := size.toNat } = .ok (.encCopy offset size)) ∧
  (∀ v : Word, decodeCommand { code := 0x15, arg0 := v.toNat } = .ok (.encAddChecksum v)) ∧
  decodeCommand { code := 0x16 } = .ok .encOutput ∧
  (∀ b : Bool, decodeCommand { code := 0x17, arg0 := b.toNat } = .ok (.encWriteHeader b)) ∧
  decodeCommand { code := 0x18 } = .ok .encTargetLength ∧
  decodeCommand { code := 0x19 } = .ok .encGetDeltaWindowSize ∧
  ∀ (s : State) (t : HostCmd) (rest : List HostCmd), s.dec.replaying = false → s.cmds = t :: rest →
    ¬ (1 ≤ t.code.toNat ∧ t.code.toNat ≤ 7) → ¬ (16 ≤ t.code.toNat ∧ t.code.toNat ≤ 25) →
    step s = .next { s with cmds := rest, result := some (errOf .badConfiguration) }

/-! ## Reset and the invariant -/

/-- The state after hardware reset, where R36 and R420 give a value, and that VCORE then does nothing until the host issues a
command. -/
def Obligations.ResetValues : Prop :=
  let d := State.reset.dec
  let e := State.reset.enc
  d.allowVcdTarget = true ∧ d.maxTargetFileSize = 67108864 ∧ d.maxTargetWindowSize = 67108864 ∧
  d.maxSectionSize = 67108864 ∧ d.ctx.cache.nearSize = 4 ∧ d.ctx.cache.sameSize = 3 ∧ d.maxMode = 8 ∧
  d.state = .idle ∧ d.errKind = 0 ∧ d.errCause = 0 ∧ d.lintAddAdd = false ∧ d.hasChecksum = false ∧
  d.interleaved = false ∧ d.pending = [] ∧ d.ctx.dtarget = [] ∧ d.ctx.tw = [] ∧ d.ctx.totalTargetLen = 0 ∧
  d.dtab = defTab ∧ d.nested = none ∧
  d.ctx.cache.near = List.replicate 4 0 ∧ d.ctx.cache.same = List.replicate 768 0 ∧ d.ctx.cache.nextSlot = 0 ∧
  e.interleaved = false ∧ e.customTable = false ∧ e.cache.nearSize = 4 ∧ e.cache.sameSize = 3 ∧ e.maxMode = 8 ∧
  e.state = .created ∧ e.errKind = 0 ∧ e.errCause = 0 ∧ e.hasChecksum = false ∧ e.mapBuilt = false ∧
  e.dictSize = 0 ∧ e.targetLen = 0 ∧ e.insts = [] ∧ e.data = [] ∧ e.addrs = [] ∧ e.lastOpcodeIndex = none ∧
  e.etab = defTab ∧
  e.cache.near = List.replicate 4 0 ∧ e.cache.same = List.replicate 768 0 ∧ e.cache.nextSlot = 0 ∧
  step State.reset = .next State.reset

/-- The invariant of VCORE holds after reset; and the histories of the two output streams begin empty, which is the model's choice
(log entry 4): R36 and R420 name no value for them. -/
def Obligations.ResetMeetsInvariant : Prop :=
  Inv State.reset ∧ State.reset.dec.sink = [] ∧ State.reset.enc.sink = []

/-- Every step keeps the invariant: tables in use are valid for their cache sizes, `DTARGET` is what `SINK` received in the
session, cursors stay in their sections, `TW` within the declared window, error registers and states agree, the pending opcode
of the encoder is a single opcode. -/
def Obligations.StepKeepsInvariant : Prop :=
  ∀ s t : State, Inv s → step s = .next t → Inv t

/-- From a state that meets the invariant no step faults: every address a rule reads exists (R65, R66, R266), every mode has its
cache entry (R196), every row its types (R152). -/
def Obligations.NoStepFaults : Prop :=
  ∀ (s : State) (f : Fault), Inv s → step s ≠ .fault f

/-! ## The step -/

/-- Between windows a step runs the command the host issued; with none waiting it changes nothing (R5, R398). A transaction
whose arguments do not fit their ports is refused by name (log entry 10). -/
def Obligations.StepRunsHostCommand : Prop :=
  (∀ (s : State) (t : HostCmd) (rest : List HostCmd) (i : Instr), s.dec.replaying = false → s.cmds = t :: rest →
    decode (.command t) = .ok i → step s = exec i { s with cmds := rest }) ∧
  (∀ (s : State) (t : HostCmd) (rest : List HostCmd) (c : Byte), s.dec.replaying = false → s.cmds = t :: rest →
    decode (.command t) = .error (.illFormed c) → step s = .refused (.illFormedCommand c)) ∧
  ∀ s : State, s.dec.replaying = false → s.cmds = [] → step s = .next s

/-- In a window a step runs the opcode at `ip`, with `ip` already behind it (R260). -/
def Obligations.StepRunsOpcode : Prop :=
  ∀ (s : State) (op : Byte), s.dec.replaying = true → (activeWin s.dec).ip < (activeWin s.dec).instLen →
    (instSec s.dec)[(activeWin s.dec).ip]? = some op →
    step s = exec (decodeOpcode op)
      { s with dec := setActive { activeCtx s.dec with win :=
          { activeWin s.dec with ip := (activeWin s.dec).ip + 1 } } s.dec }

/-! ## The code tables -/

/-- The default code table by its groups (R113). -/
def Obligations.DefaultTableGroups : Prop :=
  defTab.length = 256 ∧ tableRow defTab 0 = single .run 0 0 ∧ tableRow defTab 1 = single .add 0 0 ∧
  (∀ s, 1 ≤ s → s ≤ 17 → tableRow defTab (BitVec.ofNat 8 (1 + s)) = single .add s 0) ∧
  (∀ m, m ≤ 8 → tableRow defTab (BitVec.ofNat 8 (19 + 16 * m)) = single .copy 0 m ∧
    tableRow defTab (BitVec.ofNat 8 (247 + m)) = pair .copy 4 m .add 1 0) ∧
  (∀ m s, m ≤ 8 → 4 ≤ s → s ≤ 18 → tableRow defTab (BitVec.ofNat 8 (19 + 16 * m + (s - 3))) = single .copy s m) ∧
  (∀ m a c, m ≤ 5 → 1 ≤ a → a ≤ 4 → 4 ≤ c → c ≤ 6 →
    tableRow defTab (BitVec.ofNat 8 (163 + 12 * m + 3 * (a - 1) + (c - 4))) = pair .add a 0 .copy c m) ∧
  (∀ m a, 6 ≤ m → m ≤ 8 → 1 ≤ a → a ≤ 4 →
    tableRow defTab (BitVec.ofNat 8 (235 + 4 * (m - 6) + (a - 1))) = pair .add a 0 .copy 4 m) ∧
  tabValid defTab 8 = true

/-- `TAB_VALID` is the four conditions of R152, with I1 as R111 words it: the explicit-size single row of ADD and of RUN has mode 0
(log entry 16). So `FIRST` (R153), whose lookups for ADD and RUN use mode 0, holds every explicit-size single opcode of a valid
table. -/
def Obligations.TableValidity : Prop :=
  ∀ (t : Table) (maxMode : Nat),
   (tabValid t maxMode = true ↔
    (∀ r ∈ t, r.first.inst.toNat ≤ 3 ∧ r.second.inst.toNat ≤ 3 ∧
      (r.first.inst = 3 → r.first.mode.toNat ≤ maxMode) ∧ (r.second.inst = 3 → r.second.mode.toNat ≤ maxMode) ∧
      (r.second.inst ≠ 0 → r.first.inst ≠ 0 ∧ r.first.size ≠ 0)) ∧
    (∃ r ∈ t, r.first.inst = 1 ∧ r.first.size = 0 ∧ r.second.inst = 0 ∧ r.first.mode = 0) ∧
    (∃ r ∈ t, r.first.inst = 2 ∧ r.first.size = 0 ∧ r.second.inst = 0 ∧ r.first.mode = 0) ∧
    ∀ m, m ≤ maxMode → ∃ r ∈ t, r.first.inst = 3 ∧ r.first.size = 0 ∧ r.second.inst = 0 ∧ r.first.mode.toNat = m) ∧
   (tabValid t maxMode = true → imapFirst t .add 0 0 ≠ none ∧ imapFirst t .run 0 0 ≠ none ∧
    ∀ m, m ≤ maxMode → imapFirst t .copy 0 m ≠ none)

/-- The two inverse maps (R153 to R156): `FIRST` is the lowest single opcode of an instruction, `SECOND` the lowest compound
opcode whose first half has the given single opcode and whose second half is the given instruction. -/
def Obligations.InstructionMaps : Prop :=
  ∀ (t : Table) (k : InstKind) (size mode : Nat), t.length = 256 → k ≠ .noop → size ≤ 255 → mode ≤ 255 →
    (∀ op : Byte, imapFirst t k size mode = some op ↔
      (tableRow t op).first = half k size mode ∧ (tableRow t op).second.inst = 0 ∧
      ∀ lower : Byte, lower.toNat < op.toNat →
        ¬ ((tableRow t lower).first = half k size mode ∧ (tableRow t lower).second.inst = 0)) ∧
    (∀ op₁ op : Byte, imapSecond t op₁ k size mode = some op ↔
      ((tableRow t op).first.inst ≠ 0 ∧ (tableRow t op).second = half k size mode ∧
        firstOf t (tableRow t op).first.inst (tableRow t op).first.size (tableRow t op).first.mode = some op₁) ∧
      ∀ lower : Byte, lower.toNat < op.toNat →
        ¬ ((tableRow t lower).first.inst ≠ 0 ∧ (tableRow t lower).second = half k size mode ∧
          firstOf t (tableRow t lower).first.inst (tableRow t lower).first.size (tableRow t lower).first.mode = some op₁))

/-- The 1536-byte image of a table is six arrays of 256 bytes (R112), and loading an image (R160) undoes it both ways. -/
def Obligations.TableImage : Prop :=
  (∀ t : Table, t.length = 256 → (packImage t).length = 1536 ∧ unpackImage (packImage t) = t ∧
    ∀ op : Byte,
      (packImage t)[op.toNat]? = some (tableRow t op).first.inst ∧
      (packImage t)[256 + op.toNat]? = some (tableRow t op).second.inst ∧
      (packImage t)[512 + op.toNat]? = some (tableRow t op).first.size ∧
      (packImage t)[768 + op.toNat]? = some (tableRow t op).second.size ∧
      (packImage t)[1024 + op.toNat]? = some (tableRow t op).first.mode ∧
      (packImage t)[1280 + op.toNat]? = some (tableRow t op).second.mode) ∧
  ∀ img : Bytes, img.length = 1536 → (unpackImage img).length = 256 ∧ packImage (unpackImage img) = img

/-! ## VarInt and Adler32 -/

/-- `VI_LEN` (R130) is the length of the shortest VarInt: the least number of 7-bit groups that holds the value. The round trip of
R138 for both widths: a written VarInt has the length `VI_LEN` says, reads back whatever follows it, and every proper prefix of
it wants more. -/
def Obligations.VarIntRoundTrip : Prop :=
  (∀ v : Nat, v < 2 ^ 64 →
    1 ≤ viLen v ∧ viLen v ≤ 10 ∧ v < 128 ^ viLen v ∧ (1 < viLen v → 128 ^ (viLen v - 1) ≤ v) ∧
    (v < 2 ^ 32 → viLen v ≤ 5)) ∧
  ∀ width : Nat, width = 32 ∨ width = 64 → ∀ v : Nat, v < 2 ^ width → ∀ s : Bytes,
    s = (if width = 32 then viWrite32 [] v else viWrite64 [] v) →
    s.length = viLen v ∧
    (∀ t : Bytes, viRead width (s ++ t) 0 (s.length + t.length) = .value v s.length) ∧
    ∀ p q : Bytes, s = p ++ q → q ≠ [] → viRead width p 0 p.length = .needMore

/-- What `VI_READ` reads (R133), with a cap of 5 or 10 bytes: a VarInt of any length up to the cap, minimal or not (R135), is the
number its groups write, unless that does not fit the width; a cap of bytes that all continue overflows. The order of outcomes
(R134): too few bytes that all continue want more, whatever their value; enough bytes never want more; overflow is decided on the
last byte of the cap. -/
def Obligations.VarIntOutcomes : Prop :=
  ∀ (width cap : Nat), (width = 32 ∧ cap = 5) ∨ (width = 64 ∧ cap = 10) →
    (∀ (before head rest : Bytes) (last : Byte) (lim : Nat), head.length < cap → (∀ b ∈ head, 128 ≤ b.toNat) →
      last.toNat < 128 → before.length + head.length < lim →
      viRead width (before ++ head ++ last :: rest) before.length lim =
        if groupsValue (head ++ [last]) < 2 ^ width then
          .value (groupsValue (head ++ [last])) (before.length + head.length + 1)
        else .error .varIntOverflow) ∧
    (∀ (before head rest : Bytes) (lim : Nat), head.length = cap → (∀ b ∈ head, 128 ≤ b.toNat) →
      before.length + head.length ≤ lim →
      viRead width (before ++ head ++ rest) before.length lim = .error .varIntOverflow) ∧
    ∀ (src : Bytes) (cur lim : Nat), cur ≤ lim → lim ≤ src.length →
      (lim - cur < cap → (∀ k b, cur ≤ k → k < lim → src[k]? = some b → 128 ≤ b.toNat) →
        viRead width src cur lim = .needMore) ∧
      (cap ≤ lim - cur → viRead width src cur lim ≠ .needMore) ∧
      (∀ e, viRead width src cur lim = .error e → e = .varIntOverflow ∧ cap ≤ lim - cur ∧
        ∀ k b, cur ≤ k → k + 1 < cur + cap → src[k]? = some b → 128 ≤ b.toNat)

/-- Adler32 as two sums (R360): one plus the bytes, and the bytes weighted by what is left; it goes on from where it stood (R361);
and changing exactly one byte always changes it (R364). -/
def Obligations.AdlerSeesEveryByte : Prop :=
  (∀ s : Bytes, (adler32 s).toNat =
    (s.length + adlerWeighted s) % 65521 * 65536 + (1 + (s.map BitVec.toNat).sum) % 65521) ∧
  (∀ s t : Bytes, adlerPair (1, 0) (s ++ t) = adlerPair (adlerPair (1, 0) s) t) ∧
  ∀ (before after : Bytes) (x y : Byte), x ≠ y →
    adler32 (before ++ x :: after) ≠ adler32 (before ++ y :: after)

/-! ## The address cache -/

/-- `AC_INIT` clears both arrays and the ring index (R191); `AC_UPDATE` of a 32-bit address writes the next ring slot and one SAME
entry and nothing else, and skips an array of size 0 (R192, R200); every element stays a 32-bit address (R28). -/
def Obligations.CacheInitAndUpdate : Prop :=
  (∀ c : AddrCache,
    let n := acInit c
    n.nearSize = c.nearSize ∧ n.sameSize = c.sameSize ∧ n.indexFn = c.indexFn ∧ n.nextSlot = 0 ∧
    n.near.length = c.nearSize ∧ n.same.length = c.sameSize * 256 ∧ (∀ a ∈ n.near, a = 0) ∧ (∀ a ∈ n.same, a = 0)) ∧
  ∀ (c : AddrCache) (addr : Nat), CacheOk c → addr < 4294967296 →
    let n := acUpdate c addr
    CacheOk n ∧ n.nearSize = c.nearSize ∧ n.sameSize = c.sameSize ∧ n.indexFn = c.indexFn ∧
    (0 < c.nearSize → n.near[c.nextSlot]? = some addr ∧ n.nextSlot = (c.nextSlot + 1) % c.nearSize) ∧
    (c.nearSize = 0 → n.nextSlot = c.nextSlot) ∧
    (∀ k, k ≠ c.nextSlot ∨ c.nearSize = 0 → n.near[k]? = c.near[k]?) ∧
    (0 < c.sameSize → n.same[sameIndex c addr]? = some addr) ∧
    (∀ j, j ≠ sameIndex c addr ∨ c.sameSize = 0 → n.same[j]? = c.same[j]?)

/-- The address decode of R196 for each kind of mode, with the range rule of R198: `here` itself is out of range, `here − 1` is
the last address in range, and so is no address that is not a 32-bit number (R7, R28, R192; log entry 6). -/
def Obligations.AddressDecode : Prop :=
  ∀ (c : AddrCache) (here : Nat) (src : Bytes) (cur lim : Nat), CacheOk c →
    (∀ mode v cur', mode < 2 + c.nearSize → viRead 32 src cur lim = .value v cur' →
      ∀ addr : Int,
        addr = (if mode = 0 then (v : Int) else if mode = 1 then (here : Int) - v else ((c.near.getD (mode - 2) 0 + v : Nat) : Int)) →
        acDecode c here mode src cur lim =
          if 0 ≤ addr ∧ addr < here ∧ addr < 4294967296 then .value addr.toNat cur' (acUpdate c addr.toNat)
          else .error .copyAddressOutOfBounds) ∧
    (∀ mode, mode < 2 + c.nearSize → viRead 32 src cur lim = .needMore → acDecode c here mode src cur lim = .needMore) ∧
    (∀ mode e, mode < 2 + c.nearSize → viRead 32 src cur lim = .error e → acDecode c here mode src cur lim = .error e) ∧
    (∀ k b cur' addr, k < c.sameSize → byteRead src cur lim = .value b cur' → b < 256 →
      c.same[k * 256 + b]? = some addr →
      acDecode c here (2 + c.nearSize + k) src cur lim =
        if sameIndex c addr ≠ k * 256 + b then .error .sameCacheMiss
        else if addr < here then .value addr cur' (acUpdate c addr)
        else .error .copyAddressOutOfBounds) ∧
    (∀ k, k < c.sameSize → byteRead src cur lim = .needMore →
      acDecode c here (2 + c.nearSize + k) src cur lim = .needMore) ∧
    (∀ mode addr cur' c', acDecode c here mode src cur lim = .value addr cur' c' →
      addr < here ∧ addr < 4294967296 ∧ c' = acUpdate c addr)

/-- The SAME check (R197): after `AC_INIT` and any updates with 32-bit addresses, an entry never written is a miss, except entry 0, which decodes to
address 0; an entry that was written always passes, with the address written last. -/
def Obligations.SameEntryCheck : Prop :=
  ∀ (c₀ : AddrCache) (addrs : List Nat) (here k : Nat) (b : Byte), k < c₀.sameSize →
    (∀ x ∈ addrs, x < 4294967296) →
    let c := addrs.foldl acUpdate (acInit c₀)
    let j := k * 256 + b.toNat
    ((∀ x ∈ addrs, sameIndex c₀ x ≠ j) → j ≠ 0 →
      acDecode c here (2 + c₀.nearSize + k) [b] 0 1 = .error .sameCacheMiss) ∧
    ((∀ x ∈ addrs, sameIndex c₀ x ≠ j) → j = 0 → 0 < here →
      acDecode c here (2 + c₀.nearSize + k) [b] 0 1 = .value 0 1 (acUpdate c 0)) ∧
    (∀ earlier x later, addrs = earlier ++ x :: later → sameIndex c₀ x = j → (∀ y ∈ later, sameIndex c₀ y ≠ j) → x < here →
      acDecode c here (2 + c₀.nearSize + k) [b] 0 1 = .value x 1 (acUpdate c x))

/-- The tie-break (R195): no way of writing the address that the decoder would accept is shorter than the one `AC_ENCODE`
chooses, and none as short has a lower mode; and the consequences R195 draws. -/
def Obligations.AddressEncodeIsShortest : Prop :=
  ∀ (c : AddrCache) (addr here mode value : Nat) (c' : AddrCache), CacheOk c → addr < here → here ≤ 4294967295 →
    acEncode c addr here = (mode, value, c') →
    (∀ (m : Nat) (bytes : Bytes) (c'' : AddrCache), acDecode c here m bytes 0 bytes.length = .value addr bytes.length c'' →
      (addressBytes c mode value).length ≤ bytes.length ∧
      (bytes.length = (addressBytes c mode value).length → mode ≤ m)) ∧
    (addr < 128 → mode = 0) ∧
    (2 + c.nearSize ≤ mode → 128 ≤ addr ∧ 128 ≤ here - addr ∧ ∀ base ∈ c.near, base ≤ addr → 128 ≤ addr - base) ∧
    (2 ≤ mode → mode < 2 + c.nearSize → ∀ base, c.near[mode - 2]? = some base → base ≠ 0)

/-- The synchronisation law (R199): what the encoder's cache writes, a decoder's cache in the same state reads back, and the two
caches are again equal. -/
def Obligations.CachesStayInStep : Prop :=
  ∀ (c : AddrCache) (addr here mode value : Nat) (c' : AddrCache), CacheOk c → addr < here → here ≤ 4294967295 →
    acEncode c addr here = (mode, value, c') →
    ∃ s : Bytes, s = (if 2 + c.nearSize ≤ mode then [BitVec.ofNat 8 value] else viWrite32 [] value) ∧
      acDecode c here mode s 0 s.length = .value addr s.length c'

/-! ## The delta instructions -/

/-- `RUN` (R270): an explicit size, then a RUN of it. -/
def Obligations.RunRuns : Prop :=
  ∀ (i : Instr) (s : State), opcodeOf i = some 0x00 → DefaultWindow s.dec →
    SizeEffect s s.dec (exec i s) (fun n d => RunEffect n s d (exec i s) (goesOn s (exec i s)))

/-- `ADD` with an explicit size (R271). -/
def Obligations.AddExplicitAdds : Prop :=
  ∀ (i : Instr) (s : State), opcodeOf i = some 0x01 → DefaultWindow s.dec →
    SizeEffect s s.dec (exec i s) (fun n d => AddEffect n s d (exec i s) (goesOn s (exec i s)))

/-- `ADD.s`, opcode `s + 1` (R272): an ADD of `s` bytes, no size operand. -/
def Obligations.AddSizedAdds : Prop :=
  ∀ (i : Instr) (s : State) (n : Nat), 1 ≤ n → n ≤ 17 → opcodeOf i = some (BitVec.ofNat 8 (n + 1)) → DefaultWindow s.dec →
    AddEffect n s s.dec (exec i s) (goesOn s (exec i s))

/-- `COPY.m<m>` with an explicit size, opcode `19 + 16·m` (R273). -/
def Obligations.CopyExplicitCopies : Prop :=
  ∀ (i : Instr) (s : State) (m : Nat), m ≤ 8 → opcodeOf i = some (BitVec.ofNat 8 (19 + 16 * m)) → DefaultWindow s.dec →
    SizeEffect s s.dec (exec i s) (fun n d => CopyEffect n m s d (exec i s) (goesOn s (exec i s)))

/-- `COPY.m<m>.s`, opcode `19 + 16·m + (s − 3)` (R274). -/
def Obligations.CopySizedCopies : Prop :=
  ∀ (i : Instr) (s : State) (m n : Nat), m ≤ 8 → 4 ≤ n → n ≤ 18 →
    opcodeOf i = some (BitVec.ofNat 8 (19 + 16 * m + (n - 3))) → DefaultWindow s.dec →
    CopyEffect n m s s.dec (exec i s) (goesOn s (exec i s))

/-- `ADD.a+COPY.m<m>.c`, opcode `163 + k` (R275): the ADD completely, then the COPY from the decoder the ADD leaves, so that
`here` counts the bytes just added; if the ADD raises, the COPY does not run. -/
def Obligations.AddThenCopy : Prop :=
  ∀ (i : Instr) (s : State) (k : Nat), k < 72 → opcodeOf i = some (BitVec.ofNat 8 (163 + k)) → DefaultWindow s.dec →
    AddEffect (k % 12 / 3 + 1) s s.dec (exec i s)
      (fun d => CopyEffect (k % 3 + 4) (k / 12) s d (exec i s) (goesOn s (exec i s)))

/-- `ADD.a+COPY.m<m>.4`, opcode `235 + k` (R276), with the SAME modes 6 to 8. -/
def Obligations.AddThenCopySame : Prop :=
  ∀ (i : Instr) (s : State) (k : Nat), k < 12 → opcodeOf i = some (BitVec.ofNat 8 (235 + k)) → DefaultWindow s.dec →
    AddEffect (k % 4 + 1) s s.dec (exec i s)
      (fun d => CopyEffect 4 (6 + k / 4) s d (exec i s) (goesOn s (exec i s)))

/-- `COPY.m<m>.4+ADD.1`, opcode `247 + m` (R277): the COPY completely, then the ADD. -/
def Obligations.CopyThenAdd : Prop :=
  ∀ (i : Instr) (s : State) (m : Nat), m ≤ 8 → opcodeOf i = some (BitVec.ofNat 8 (247 + m)) → DefaultWindow s.dec →
    CopyEffect 4 m s s.dec (exec i s)
      (fun d => AddEffect 1 s d (exec i s) (goesOn s (exec i s)))

/-- Every opcode under any code table, default or custom, outer or nested: its row's two halves, the first completely before
anything of the second (R260). -/
def Obligations.EveryOpcodeRunsItsRow : Prop :=
  ∀ (i : Instr) (s : State) (op : Byte), opcodeOf i = some op → WindowOk s.dec →
    HalfEffect (tableRow (activeTab s.dec) op).first s s.dec (exec i s)
      (fun d => HalfEffect (tableRow (activeTab s.dec) op).second s d (exec i s) (goesOn s (exec i s)))

/-- The frame of every opcode under any table: the encoder, the command queue, the control registers, the dictionary, the code
tables, `DTARGET` with its total and `SINK` are unchanged. If the opcode goes on, `PENDING` (and with it the sections), the
result port, the state and the error registers are unchanged too, cursors only advance and stay in their sections, bytes already
in `TW` are unchanged and the window's header registers keep their values; if it raises, the decoder is poisoned. -/
def Obligations.OpcodeFrame : Prop :=
  ∀ (i : Instr) (s t : State) (op : Byte), opcodeOf i = some op → WindowOk s.dec → exec i s = .next t →
    t.enc = s.enc ∧ t.cmds = s.cmds ∧ t.dec.allowVcdTarget = s.dec.allowVcdTarget ∧
    t.dec.maxTargetFileSize = s.dec.maxTargetFileSize ∧ t.dec.maxTargetWindowSize = s.dec.maxTargetWindowSize ∧
    t.dec.maxSectionSize = s.dec.maxSectionSize ∧ t.dec.maxMode = s.dec.maxMode ∧ t.dec.dtab = s.dec.dtab ∧
    t.dec.dict = s.dec.dict ∧ t.dec.dictSize = s.dec.dictSize ∧ t.dec.sink = s.dec.sink ∧
    t.dec.ctx.dtarget = s.dec.ctx.dtarget ∧ t.dec.ctx.totalTargetLen = s.dec.ctx.totalTargetLen ∧
    t.dec.hasChecksum = s.dec.hasChecksum ∧ t.dec.interleaved = s.dec.interleaved ∧
    (t.dec.state = .poisoned ∧ t.dec.errKind ≠ 0 ∨
      t.result = s.result ∧ t.dec.pending = s.dec.pending ∧ t.dec.state = s.dec.state ∧
      t.dec.errKind = s.dec.errKind ∧ t.dec.errCause = s.dec.errCause ∧ t.dec.replaying = s.dec.replaying ∧
      t.dec.nested.isSome = s.dec.nested.isSome ∧
      (activeWin s.dec).ip ≤ (activeWin t.dec).ip ∧ (activeWin t.dec).ip ≤ (activeWin s.dec).instLen ∧
      (activeWin s.dec).dp ≤ (activeWin t.dec).dp ∧ (activeWin t.dec).dp ≤ (activeWin s.dec).dataLen ∧
      (activeWin s.dec).ap ≤ (activeWin t.dec).ap ∧ (activeWin t.dec).ap ≤ (activeWin s.dec).addrLen ∧
      (∀ a, a < (activeCtx s.dec).tw.length → (activeCtx t.dec).tw[a]? = (activeCtx s.dec).tw[a]?) ∧
      activeWin t.dec =
        { activeWin s.dec with
          ip := (activeWin t.dec).ip, dp := (activeWin t.dec).dp, ap := (activeWin t.dec).ap,
          prevInst := (activeWin t.dec).prevInst })

/-- Opcode by opcode in steps, a window in replay reaches the end of its command, in at most one step for each byte of the
instructions section left and one more, and the machine is then as the command's own run to completion leaves it (R5, R260,
R301): the loop of R260, the end of the window, and the driver going on. -/
def Obligations.ReplayStepsReachEndOfCommand : Prop :=
  ∀ s : State, Inv s → s.dec.replaying = true →
    ∃ (n : Nat) (t : State), n ≤ (activeWin s.dec).instLen - (activeWin s.dec).ip + 1 ∧ runSteps n s = .next t ∧
      t.dec.replaying = false ∧ endCommand s ((replayRest s.dec).andThen resumeDrive) = .next t

/-- The end of a window (R269, R322, R323). In both contexts (R325) the termination tests in order, then the checksum, each failing
with its cause. An outer window then commits, which appends `TW` to `DTARGET` and `SINK` and takes the window from `PENDING`, and the
command goes on with the rest of `PENDING`, as a chunk of it would (the working registers and the cache of the committed window are
left open). -/
def Obligations.WindowEnd : Prop :=
  ∀ s : State, Inv s → s.dec.replaying = true → (activeWin s.dec).ip = (activeWin s.dec).instLen →
    let w := activeWin s.dec
    let tw := (activeCtx s.dec).tw
    (tw.length ≠ w.targetLen → step s = .next (raised .targetLengthMismatch s.dec.lintAddAdd s)) ∧
    (tw.length = w.targetLen → w.dp ≠ w.dataLen ∨ w.ap ≠ w.addrLen →
      step s = .next (raised .sectionNotConsumed s.dec.lintAddAdd s)) ∧
    (tw.length = w.targetLen → w.dp = w.dataLen → w.ap = w.addrLen →
      (s.dec.hasChecksum = true → adler32 tw ≠ w.checksum →
        step s = .next (raised .checksumMismatch s.dec.lintAddAdd s)) ∧
      (s.dec.nested = none → (s.dec.hasChecksum = true → adler32 tw = w.checksum) →
        ∃ c : Ctx, c.dtarget = s.dec.ctx.dtarget ++ tw ∧ c.totalTargetLen = s.dec.ctx.totalTargetLen + tw.length ∧
          c.tw = tw ∧ c.cache.nearSize = s.dec.ctx.cache.nearSize ∧ c.cache.sameSize = s.dec.ctx.cache.sameSize ∧
          c.cache.indexFn = s.dec.ctx.cache.indexFn ∧
          ∃ k : Nat, step s = exec (.decChunk (s.dec.pending.drop (windowLen s.dec)))
            { s with dec := { s.dec with
                ctx := c, sink := s.dec.sink ++ tw, pending := [], replaying := false, freeCount := k,
                state := .expectWinIndicator } }))

/-- The end of an inner window of a custom code table (R159, R160, R310, R325), its tests passed (`WindowEnd` says how each fails):
nothing goes to `SINK`; an image still short goes on with the next inner window; one too long or not valid is BadCodeTable; a valid
one becomes `DTAB` with its sizes, the nested context is discarded and the file's windows begin. That the cache of the new sizes is
cleared as it is loaded is the model's choice (log entry 7): R160 only gives its sizes. -/
def Obligations.InnerWindowEnd : Prop :=
  ∀ (s : State) (n : Nested), Inv s → s.dec.replaying = true → s.dec.nested = some n →
    n.ctx.win.ip = n.ctx.win.instLen → n.ctx.tw.length = n.ctx.win.targetLen → n.ctx.win.dp = n.ctx.win.dataLen →
    n.ctx.win.ap = n.ctx.win.addrLen → (s.dec.hasChecksum = true → adler32 n.ctx.tw = n.ctx.win.checksum) →
    let image := n.ctx.dtarget ++ n.ctx.tw
    (image.length < 1536 →
      ∃ (c : Ctx) (k : Nat), c.dtarget = image ∧ c.totalTargetLen = n.ctx.totalTargetLen + n.ctx.tw.length ∧
        step s = exec (.decChunk (s.dec.pending.drop (windowLen s.dec)))
          { s with dec := { s.dec with
              nested := some { n with ctx := c }, pending := [], replaying := false, freeCount := k } }) ∧
    (1536 < image.length ∨ (image.length = 1536 ∧ tabValid (unpackImage image) n.ctMaxMode = false) →
      FailsWith .badCodeTable s (step s)) ∧
    (image.length = 1536 → tabValid (unpackImage image) n.ctMaxMode = true →
      ∃ k : Nat, step s = exec (.decChunk (s.dec.pending.drop (windowLen s.dec)))
        { s with dec := { s.dec with
            dtab := unpackImage image, maxMode := n.ctMaxMode,
            ctx := { s.dec.ctx with cache := freshCache n.ctNear n.ctSame s.dec.ctx.cache.indexFn },
            nested := none, state := .expectWinIndicator, pending := [], replaying := false, freeCount := k } })


/-! ## The window header -/

/-- The checks on a window header, in stream order (R375, items 1 to 8), each raised as soon as the field it concerns has been
read, whatever follows it (R311): the fields before it are accepted, in any legal VarInt encoding. -/
def Obligations.HeaderErrors : Prop :=
  ∀ (s : State) (chunk : Bytes) (w : StreamHeader) (rest : Bytes), Inv s → s.dec.replaying = false → AtWindow s.dec →
    w.Encoded →
    let o := exec (.decChunk chunk) s
    let stream := s.dec.pending ++ chunk
    (∀ wi : Byte, stream = wi :: rest →
      (wi &&& 0xF8 ≠ 0 → FailsWith .winIndicatorReserved s o) ∧
      (wi &&& 0xF8 = 0 → wi &&& 0x03 = 0x03 → FailsWith .winSourceAndTarget s o) ∧
      (wi &&& 0xF8 = 0 → wi &&& 0x03 = 0x02 → s.dec.allowVcdTarget = false → FailsWith .vcdTargetDisallowed s o)) ∧
    (∀ k, w.Accepted k s.dec → stream = w.upTo k ++ rest → Overflows rest →
      (k = 1 ∧ w.space ≠ .none) ∨ (k = 2 ∧ w.space ≠ .none) ∨ k = 3 ∨ k = 4 ∨ k = 6 ∨ k = 7 ∨ k = 8 ∨
        (k = 9 ∧ w.hasChecksum = true) →
      FailsWith .headerVarIntOverflow s o) ∧
    (w.Accepted 2 s.dec → stream = w.upTo 3 ++ rest → w.bound s.dec < w.pos + w.size →
      FailsWith .sourceSegmentOutOfBounds s o) ∧
    (w.Accepted 4 s.dec → stream = w.upTo 5 ++ rest → s.dec.maxTargetWindowSize.toNat < w.targetLen →
      FailsWith .windowTooLarge s o) ∧
    (w.Accepted 4 s.dec → stream = w.upTo 5 ++ rest → w.targetLen ≤ s.dec.maxTargetWindowSize.toNat →
      s.dec.maxTargetFileSize.toNat < (activeCtx s.dec).totalTargetLen + w.targetLen →
      FailsWith .targetFileTooLarge s o) ∧
    (w.Accepted 5 s.dec → ∀ di : Byte, stream = w.upTo 5 ++ di :: rest → di ≠ 0 →
      FailsWith .deltaIndicatorNonZero s o) ∧
    (w.Accepted 6 s.dec → stream = w.upTo 7 ++ rest → s.dec.maxSectionSize.toNat < w.dataLen →
      FailsWith .sectionTooLarge s o) ∧
    (w.Accepted 7 s.dec → stream = w.upTo 8 ++ rest → s.dec.maxSectionSize.toNat < w.instLen →
      FailsWith .sectionTooLarge s o) ∧
    (w.Accepted 8 s.dec → stream = w.upTo 9 ++ rest → s.dec.maxSectionSize.toNat < w.addrLen →
      FailsWith .sectionTooLarge s o) ∧
    (w.Accepted 10 s.dec → stream = w.upTo 10 ++ rest → ¬ w.Consistent → FailsWith .deltaLengthMismatch s o)

/-- A window that has not wholly arrived waits (R302, R311, R320, R374): if what is pending is a proper part of an acceptable
window, `DEC_CHUNK` returns `OK`, keeps it in `PENDING` and changes nothing else but the state, which is `IN_WINDOW` (in the
nested context it stays `CUSTOM_TABLE`). That the flags of the header and the working registers are then as before the command,
although R312 to R318 write them before the wait, is the model's reading of R302 and R311 (log entry 8). -/
def Obligations.WindowWaits : Prop :=
  ∀ (s : State) (chunk : Bytes) (w : StreamHeader) (body missing : Bytes), Inv s → s.dec.replaying = false →
    AtWindow s.dec → w.Encoded → w.Accepted 10 s.dec → w.Consistent →
    body.length = w.dataLen + w.instLen + w.addrLen → missing ≠ [] → s.dec.pending ++ chunk ≠ [] →
    (s.dec.pending ++ chunk) ++ missing = w.upTo 10 ++ body →
    exec (.decChunk chunk) s = .next { s with
      result := some .ok,
      dec := { s.dec with
        pending := s.dec.pending ++ chunk,
        state := if s.dec.state = .customTable then .customTable else .inWindow } }

/-- A window that has arrived is decoded (R311 to R321): its registers hold its header, the cursors start at 0, `TW` empty, the
cache cleared; and from there its opcodes, run one a step, take the machine to where the one command `DEC_CHUNK` takes it. -/
def Obligations.WindowRuns : Prop :=
  ∀ (s : State) (chunk : Bytes) (w : StreamHeader) (body rest : Bytes), Inv s → s.dec.replaying = false →
    AtWindow s.dec → w.Encoded → w.Accepted 10 s.dec → w.Consistent →
    body.length = w.dataLen + w.instLen + w.addrLen → s.dec.pending ++ chunk = w.upTo 10 ++ body ++ rest →
    ∃ (n : Nat) (t : State), n ≤ w.instLen + 1 ∧ exec (.decChunk chunk) s = .next t ∧
      runSteps n { s with dec := w.started (s.dec.pending ++ chunk) s.dec } = .next t ∧ t.dec.replaying = false

/-! ## The file header and the custom code table section -/

/-- The file header (R308, R309): fewer than five bytes wait, whatever they are; then the checks, magic, version byte, reserved
bits, secondary compressor; then the five bytes are consumed and the command goes on with what follows them, at the first window
or in the custom code table section. -/
def Obligations.FileHeader : Prop :=
  ∀ (s : State) (chunk : Bytes), Inv s → s.dec.replaying = false → s.dec.state = .expectHeader →
    let o := exec (.decChunk chunk) s
    ((s.dec.pending ++ chunk).length < 5 →
      o = .next { s with result := some .ok, dec := { s.dec with pending := s.dec.pending ++ chunk } }) ∧
    ∀ (h0 h1 h2 h3 h4 : Byte) (rest : Bytes), s.dec.pending ++ chunk = h0 :: h1 :: h2 :: h3 :: h4 :: rest →
      (h0 ≠ 0xD6 ∨ h1 ≠ 0xC3 ∨ h2 ≠ 0xC4 → FailsWith .badMagic s o) ∧
      (h0 = 0xD6 → h1 = 0xC3 → h2 = 0xC4 →
        (h3 ≠ 0x00 → h3 ≠ 0x53 → FailsWith .badVersionByte s o) ∧
        (h3 = 0x00 ∨ h3 = 0x53 →
          (h4 &&& 0xFC ≠ 0 → FailsWith .hdrIndicatorReserved s o) ∧
          (h4 = 0x01 ∨ h4 = 0x03 → FailsWith .secondaryCompressor s o) ∧
          (h4 = 0x00 → o = exec (.decChunk rest)
            { s with dec := { s.dec with pending := [], state := .expectWinIndicator } }) ∧
          (h4 = 0x02 → ∃ (n : Nested) (k : Nat), n.phase = .params ∧ n.ctx.dtarget = [] ∧ n.ctx.totalTargetLen = 0 ∧
            n.ctx.cache.nearSize = 4 ∧ n.ctx.cache.sameSize = 3 ∧
            o = exec (.decChunk rest)
              { s with dec := { s.dec with
                  pending := [], state := .customTable, nested := some n, freeCount := k } })))

/-- The parameters of a custom code table (R158): two VarInts and a byte; the sizes and the highest mode are checked together
once all three are read; then the inner context is empty with the default cache sizes (R159, R310). -/
def Obligations.CustomTableParameters : Prop :=
  ∀ (s : State) (n : Nested) (chunk nearBytes sameBytes rest : Bytes) (near same : Nat) (maxMode : Byte), Inv s →
    s.dec.replaying = false → s.dec.nested = some n → n.phase = .params → IsVarInt near nearBytes → IsVarInt same sameBytes →
    let o := exec (.decChunk chunk) s
    let stream := s.dec.pending ++ chunk
    (Overflows stream → FailsWith .headerVarIntOverflow s o) ∧
    (stream = nearBytes ++ rest → Overflows rest → FailsWith .headerVarIntOverflow s o) ∧
    (∀ p q : Bytes, stream = p → p ++ q = nearBytes ++ sameBytes ++ [maxMode] → q ≠ [] →
      o = .next { s with result := some .ok, dec := { s.dec with pending := p } }) ∧
    (stream = nearBytes ++ sameBytes ++ maxMode :: rest →
      (¬ (near ≤ 254 ∧ same ≤ 254 ∧ 1 + near + same ≤ 255 ∧ maxMode.toNat = 1 + near + same) →
        FailsWith .badCacheSizes s o) ∧
      (near ≤ 254 → same ≤ 254 → 1 + near + same ≤ 255 → maxMode.toNat = 1 + near + same →
        o = exec (.decChunk rest)
          { s with dec := { s.dec with
              pending := [],
              nested := some { n with phase := .innerHeader, ctNear := near, ctSame := same, ctMaxMode := maxMode.toNat } } }))

/-- The header of the embedded delta file (R310): the checks of a file header, except that the custom-table bit is refused; then
its windows begin. -/
def Obligations.InnerFileHeader : Prop :=
  ∀ (s : State) (n : Nested) (chunk : Bytes), Inv s → s.dec.replaying = false → s.dec.nested = some n →
    n.phase = .innerHeader →
    let o := exec (.decChunk chunk) s
    ((s.dec.pending ++ chunk).length < 5 →
      o = .next { s with result := some .ok, dec := { s.dec with pending := s.dec.pending ++ chunk } }) ∧
    ∀ (h0 h1 h2 h3 h4 : Byte) (rest : Bytes), s.dec.pending ++ chunk = h0 :: h1 :: h2 :: h3 :: h4 :: rest →
      (h0 ≠ 0xD6 ∨ h1 ≠ 0xC3 ∨ h2 ≠ 0xC4 → FailsWith .badMagic s o) ∧
      (h0 = 0xD6 → h1 = 0xC3 → h2 = 0xC4 →
        (h3 ≠ 0x00 → h3 ≠ 0x53 → FailsWith .badVersionByte s o) ∧
        (h3 = 0x00 ∨ h3 = 0x53 →
          (h4 &&& 0xFC ≠ 0 → FailsWith .hdrIndicatorReserved s o) ∧
          (h4 = 0x01 ∨ h4 = 0x03 → FailsWith .secondaryCompressor s o) ∧
          (h4 = 0x02 → FailsWith .customTableTooDeep s o) ∧
          (h4 = 0x00 → o = exec (.decChunk rest)
            { s with dec := { s.dec with pending := [], nested := some { n with phase := .innerWindows } } })))

/-! ## The decoder's commands -/

/-- `DEC_START` (R300): in every state a new session with the default table and sizes. The control registers, what was delivered
to `SINK`, and the encoder stay. -/
def Obligations.DecStartBeginsSession : Prop :=
  ∀ (s : State) (dictionary : Bytes), ∃ t : State, exec (.decStart dictionary) s = .next t ∧
    t.result = some .ok ∧ t.dec.dict = dictionary ∧ t.dec.dictSize = dictionary.length ∧ t.dec.pending = [] ∧
    t.dec.ctx.dtarget = [] ∧ t.dec.ctx.totalTargetLen = 0 ∧ t.dec.ctx.tw = [] ∧ t.dec.dtab = defTab ∧
    t.dec.ctx.cache.nearSize = 4 ∧ t.dec.ctx.cache.sameSize = 3 ∧ t.dec.maxMode = 8 ∧ t.dec.errKind = 0 ∧
    t.dec.errCause = 0 ∧ t.dec.lintAddAdd = false ∧ t.dec.hasChecksum = false ∧ t.dec.interleaved = false ∧
    t.dec.nested = none ∧ t.dec.state = .expectHeader ∧ t.dec.replaying = false ∧
    t.dec.allowVcdTarget = s.dec.allowVcdTarget ∧ t.dec.maxTargetFileSize = s.dec.maxTargetFileSize ∧
    t.dec.maxTargetWindowSize = s.dec.maxTargetWindowSize ∧ t.dec.maxSectionSize = s.dec.maxSectionSize ∧
    t.dec.sink = s.dec.sink ∧ t.enc = s.enc ∧ t.cmds = s.cmds

/-- How a `DEC_CHUNK` in a session ends (R301, R302): `OK` in exactly one of the four rest states, or one error with the decoder
poisoned; either way `DTARGET` and `SINK` have grown by the same bytes (which, where it fails, `Poisoning` says), and the dictionary,
the control registers, the encoder and the port are as before. -/
def Obligations.DecChunkEnds : Prop :=
  ∀ (s : State) (chunk : Bytes), Inv s → s.dec.replaying = false → InSession s.dec.state →
    ∃ t : State, exec (.decChunk chunk) s = .next t ∧
      (t.result = some .ok ∧
          (t.dec.state = .expectHeader ∧ t.dec.pending.length < 5 ∨ t.dec.state = .customTable ∨
           t.dec.state = .expectWinIndicator ∧ t.dec.pending = [] ∨ t.dec.state = .inWindow ∧ t.dec.pending ≠ []) ∨
        t.dec.state = .poisoned ∧ t.dec.errKind ≠ 0 ∧ t.result = some (.err t.dec.errKind t.dec.errCause)) ∧
      (∃ out : Bytes, t.dec.sink = s.dec.sink ++ out ∧ t.dec.ctx.dtarget = s.dec.ctx.dtarget ++ out ∧
        t.dec.ctx.totalTargetLen = s.dec.ctx.totalTargetLen + out.length) ∧
      t.dec.replaying = false ∧ t.dec.dict = s.dec.dict ∧ t.dec.dictSize = s.dec.dictSize ∧
      t.dec.allowVcdTarget = s.dec.allowVcdTarget ∧ t.dec.maxTargetFileSize = s.dec.maxTargetFileSize ∧
      t.dec.maxTargetWindowSize = s.dec.maxTargetWindowSize ∧ t.dec.maxSectionSize = s.dec.maxSectionSize ∧
      t.enc = s.enc ∧ t.cmds = s.cmds

/-- `DEC_FINISH` in a session (R303): between windows with nothing pending it ends the session and changes only the state;
anywhere else it raises Truncated. -/
def Obligations.DecFinishEnds : Prop :=
  ∀ s : State, Inv s → s.dec.replaying = false → InSession s.dec.state →
    (s.dec.state = .expectWinIndicator →
      exec .decFinish s = .next { s with result := some .ok, dec := { s.dec with state := .finished } }) ∧
    (s.dec.state ≠ .expectWinIndicator → FailsWith .truncated s (exec .decFinish s))

/-- The decoder errors that do not poison (R386): without a session DecoderNotStarted; poisoned, the stored first error; an
unknown command code BadConfiguration. Nothing but the result port changes, and the setters work in every state. -/
def Obligations.DecoderRefusals : Prop :=
  ∀ (s : State) (chunk : Bytes),
    (s.dec.state = .idle ∨ s.dec.state = .finished →
      exec (.decChunk chunk) s = .next { s with result := some (.err 6 0x64) } ∧
      exec .decFinish s = .next { s with result := some (.err 6 0x64) }) ∧
    (s.dec.state = .poisoned →
      exec (.decChunk chunk) s = .next { s with result := some (.err s.dec.errKind s.dec.errCause) } ∧
      exec .decFinish s = .next { s with result := some (.err s.dec.errKind s.dec.errCause) }) ∧
    (∀ (t : HostCmd) (rest : List HostCmd), s.dec.replaying = false → s.cmds = t :: rest →
      ¬ (1 ≤ t.code.toNat ∧ t.code.toNat ≤ 7) → ¬ (16 ≤ t.code.toNat ∧ t.code.toNat ≤ 25) →
      step s = .next { s with cmds := rest, result := some (.err 6 0x66) }) ∧
    ∀ (b : Bool) (v : DWord) (w : Word), ∀ i ∈ [Instr.decSetAllowVcdTarget b, .decSetMaxTargetFileSize v,
      .decSetMaxTargetWindowSize w, .decSetMaxSectionSize w],
      ∃ t : State, exec i s = .next t ∧ t.result = some .ok ∧ t.dec.state = s.dec.state

/-- The four setters (R304 to R307): in every state, whatever is in progress, one control register written and nothing else. -/
def Obligations.SettersWriteOneRegister : Prop :=
  ∀ s : State,
    (∀ b : Bool, exec (.decSetAllowVcdTarget b) s
      = .next { s with result := some .ok, dec := { s.dec with allowVcdTarget := b } }) ∧
    (∀ v : DWord, exec (.decSetMaxTargetFileSize v) s
      = .next { s with result := some .ok, dec := { s.dec with maxTargetFileSize := v } }) ∧
    (∀ v : Word, exec (.decSetMaxTargetWindowSize v) s
      = .next { s with result := some .ok, dec := { s.dec with maxTargetWindowSize := v } }) ∧
    ∀ v : Word, exec (.decSetMaxSectionSize v) s
      = .next { s with result := some .ok, dec := { s.dec with maxSectionSize := v } }

/-! ## Rules about the whole machine -/

/-- What a raise does to the decoder (R385).
In whatever step it happens: kind and cause recorded and on `RESULT`, `PENDING` and `TW` emptied, the nested context discarded; the
dictionary, the control registers and the encoder are as before; `SINK`, `DTARGET` and the total grow by the same bytes, none if an
opcode of a window in replay raises or `DEC_FINISH` does.
When `DEC_CHUNK` raises, its bytes are a front part and a rest. The front part alone ends with `OK` and nothing pending: it is whole
windows, headers and table parts, and what it delivers is delivered. The rest begins with what fails: fed after the front part, it
takes the machine to the same state and delivers nothing, and any shorter part of it fails too or waits, wholly pending. (A step
that ends a window in replay goes on as the chunk that `WindowEnd` and `InnerWindowEnd` name.) -/
def Obligations.Poisoning : Prop :=
  (∀ s t : State, Inv s → step s = .next t → s.dec.state ≠ .poisoned → t.dec.state = .poisoned →
    t.dec.errKind ≠ 0 ∧ t.result = some (.err t.dec.errKind t.dec.errCause) ∧ t.dec.pending = [] ∧ t.dec.ctx.tw = [] ∧
    t.dec.nested = none ∧ t.dec.replaying = false ∧
    (∃ out : Bytes, t.dec.sink = s.dec.sink ++ out ∧ t.dec.ctx.dtarget = s.dec.ctx.dtarget ++ out ∧
      t.dec.ctx.totalTargetLen = s.dec.ctx.totalTargetLen + out.length ∧
      (s.dec.replaying = true ∧ (activeWin s.dec).ip < (activeWin s.dec).instLen ∨ Issues 0x03 s → out = [])) ∧
    t.dec.dict = s.dec.dict ∧ t.dec.dictSize = s.dec.dictSize ∧ t.dec.allowVcdTarget = s.dec.allowVcdTarget ∧
    t.dec.maxTargetFileSize = s.dec.maxTargetFileSize ∧ t.dec.maxTargetWindowSize = s.dec.maxTargetWindowSize ∧
    t.dec.maxSectionSize = s.dec.maxSectionSize ∧ t.enc = s.enc) ∧
  ∀ (s t : State) (chunk : Bytes), Inv s → s.dec.replaying = false → InSession s.dec.state →
    exec (.decChunk chunk) s = .next t → t.dec.state = .poisoned →
    ∃ (front rest : Bytes) (u : State), s.dec.pending ++ chunk = front ++ rest ∧
      exec (.decChunk front) { s with dec := { s.dec with pending := [] } } = .next u ∧
      u.result = some .ok ∧ u.dec.pending = [] ∧
      exec (.decChunk rest) u = .next t ∧ t.dec.sink = u.dec.sink ∧ t.dec.ctx.dtarget = u.dec.ctx.dtarget ∧
      t.dec.ctx.totalTargetLen = u.dec.ctx.totalTargetLen ∧
      ∀ part more : Bytes, rest = part ++ more → ∃ v : State, exec (.decChunk part) u = .next v ∧
        v.dec.sink = u.dec.sink ∧ v.dec.ctx.dtarget = u.dec.ctx.dtarget ∧
        (v.dec.state = .poisoned ∨ v.result = some .ok ∧ v.dec.pending = part)

/-- The decoder leaves `POISONED` only by `DEC_START`, the encoder leaves `FAILED` only by `ENC_NEW` (R388); until then every
step keeps the context as it is, the first error included, but for the control registers of the decoder. -/
def Obligations.LeavingErrorState : Prop :=
  (∀ s t : State, Inv s → s.dec.state = .poisoned → step s = .next t → ¬ Issues 0x01 s →
    t.dec = { s.dec with
      allowVcdTarget := t.dec.allowVcdTarget, maxTargetFileSize := t.dec.maxTargetFileSize,
      maxTargetWindowSize := t.dec.maxTargetWindowSize, maxSectionSize := t.dec.maxSectionSize }) ∧
  ∀ s t : State, Inv s → s.enc.state = .failed → step s = .next t → ¬ Issues 0x10 s → t.enc = s.enc

/-- The two contexts are independent (R20, R79): no instruction of one changes the other, and what an instruction does to its own
context and to the result port does not depend on the other. -/
def Obligations.ContextsAreIndependent : Prop :=
  ∀ (i : Instr) (s t : State), exec i s = .next t →
    (isEncoderCommand i = true → t.dec = s.dec ∧ ∀ d : Dec, exec i { s with dec := d } = .next { t with dec := d }) ∧
    (isEncoderCommand i = false → t.enc = s.enc ∧ ∀ e : Enc, exec i { s with enc := e } = .next { t with enc := e })

/-- Who writes what (R22, R61, R64, R68, R69, R395): each policy register only its setter, the dictionary only `DEC_START`, the
encoder's configuration and table only `ENC_NEW`; `SINK` and `ENC_SINK` only grow, the latter only by `ENC_OUTPUT` and
`ENC_WRITE_HEADER`; `DTARGET` grows as `SINK` does, unless `DEC_START` empties it. -/
def Obligations.WhoWrites : Prop :=
  ∀ s t : State, Inv s → step s = .next t →
    (t.dec.allowVcdTarget ≠ s.dec.allowVcdTarget → Issues 0x04 s) ∧
    (t.dec.maxTargetFileSize ≠ s.dec.maxTargetFileSize → Issues 0x05 s) ∧
    (t.dec.maxTargetWindowSize ≠ s.dec.maxTargetWindowSize → Issues 0x06 s) ∧
    (t.dec.maxSectionSize ≠ s.dec.maxSectionSize → Issues 0x07 s) ∧
    (t.dec.dict ≠ s.dec.dict ∨ t.dec.dictSize ≠ s.dec.dictSize → Issues 0x01 s) ∧
    (t.enc.interleaved ≠ s.enc.interleaved ∨ t.enc.customTable ≠ s.enc.customTable ∨ t.enc.maxMode ≠ s.enc.maxMode ∨
      t.enc.cache.nearSize ≠ s.enc.cache.nearSize ∨ t.enc.cache.sameSize ≠ s.enc.cache.sameSize ∨
      t.enc.etab ≠ s.enc.etab → Issues 0x10 s) ∧
    (∃ out : Bytes, t.dec.sink = s.dec.sink ++ out ∧
      (t.dec.ctx.dtarget = s.dec.ctx.dtarget ++ out ∨ Issues 0x01 s ∧ t.dec.ctx.dtarget = [] ∧ out = [])) ∧
    ∃ out : Bytes, t.enc.sink = s.enc.sink ++ out ∧ (out ≠ [] → Issues 0x16 s ∨ Issues 0x17 s)

/-- The chunking law (R326): for any byte string, valid or not, and any way of cutting it, the session ends in the same state as
with the whole string in one chunk, whatever was delivered, whatever error. -/
def Obligations.ChunkingLaw : Prop :=
  ∀ (s : State) (dictionary : Bytes) (chunks : List Bytes), dictionary.length ≤ 4294967295 →
    runInstrs (session dictionary chunks) s = runInstrs (session dictionary [chunks.flatten]) s

/-- The truncation law (R327): if a delta file decodes, then any front part of it never fails while it is fed, and `DEC_FINISH`
then succeeds if the part ends between windows and raises Truncated if it does not; with the last byte missing it does not. -/
def Obligations.TruncationLaw : Prop :=
  ∀ (s t : State) (dictionary file : Bytes), dictionary.length ≤ 4294967295 →
    runInstrs (session dictionary [file]) s = .next t → t.result = some .ok →
    (∀ front rest : Bytes, file = front ++ rest →
      ∃ u v : State, runInstrs [.decStart dictionary, .decChunk front] s = .next u ∧ u.result = some .ok ∧
        exec .decFinish u = .next v ∧
        (u.dec.state = .expectWinIndicator → v.result = some .ok ∧ v.dec.state = .finished) ∧
        (u.dec.state ≠ .expectWinIndicator → v.result = some (.err 1 0x11) ∧ v.dec.state = .poisoned)) ∧
    ∀ (front : Bytes) (last : Byte), file = front ++ [last] →
      ∃ v : State, runInstrs (session dictionary [front]) s = .next v ∧ v.result = some (.err 1 0x11)

/-! ## The encoder -/

/-- `ENC_NEW` (R220, R151, R161): in every state a context configured with the default table or with a good custom one, its
buffers and registers cleared, what was written to `ENC_SINK` kept; a bad custom table fails with BadConfiguration. -/
def Obligations.EncNewConfigures : Prop :=
  ∀ (s : State) (interleaved : Bool) (custom : Option CustomTable),
    ((∀ g, custom = some g → GoodTable g) →
      ∃ t : State, exec (.encNew interleaved custom) s = .next t ∧
        t.result = some .ok ∧ t.enc.interleaved = interleaved ∧ t.enc.customTable = custom.isSome ∧
        (custom = none → t.enc.etab = defTab ∧ t.enc.cache.nearSize = 4 ∧ t.enc.cache.sameSize = 3 ∧ t.enc.maxMode = 8) ∧
        (∀ g, custom = some g → t.enc.etab = unpackImage g.image ∧ t.enc.cache.nearSize = g.nearSize ∧
          t.enc.cache.sameSize = g.sameSize ∧ t.enc.maxMode = g.maxMode) ∧
        t.enc.insts = [] ∧ t.enc.data = [] ∧ t.enc.addrs = [] ∧ t.enc.targetLen = 0 ∧ t.enc.dictSize = 0 ∧
        t.enc.lastOpcodeIndex = none ∧ t.enc.hasChecksum = false ∧ t.enc.errKind = 0 ∧ t.enc.errCause = 0 ∧
        t.enc.mapBuilt = false ∧ t.enc.state = .created ∧ t.enc.checksum = s.enc.checksum ∧ t.enc.sink = s.enc.sink ∧
        t.dec = s.dec ∧ t.cmds = s.cmds) ∧
    (∀ g, custom = some g → ¬ GoodTable g →
      exec (.encNew interleaved custom) s = .next { s with
        result := some (.err 6 0x66),
        enc := { s.enc with errKind := 6, errCause := 0x66, state := .failed } })

/-- `ENC_INIT` (R221): the window state cleared, the dictionary size recorded, the context ready. -/
def Obligations.EncInitReadies : Prop :=
  ∀ (s : State) (size : Word), s.enc.state ≠ .failed →
    exec (.encInit size) s = .next { s with
      result := some .ok,
      enc := { s.enc with
        dictSize := size, targetLen := 0, lastOpcodeIndex := none, cache := acInit s.enc.cache, insts := [], data := [],
        addrs := [], hasChecksum := false, mapBuilt := true, state := .ready } }

/-- The four steps of `EncodeInstruction` (R222), each tried only if the earlier ones find nothing: compound with implicit size,
compound with explicit size, single with implicit size, single with explicit size. With the default table the last always
finds an opcode. -/
def Obligations.EncodeInstructionSteps : Prop :=
  ∀ (e : Enc) (k : InstKind) (size mode : Nat),
    let step1 := fun (i : Nat) (c : Byte) => 1 ≤ size ∧ size ≤ 255 ∧ Upgrades e k size mode i c
    let step2 := fun (i : Nat) (c : Byte) => Upgrades e k 0 mode i c
    let step3 := fun (c : Byte) => 1 ≤ size ∧ size ≤ 255 ∧ imapFirst e.etab k size mode = some c
    (∀ i c, step1 i c → EncodesTo k size mode e (e.insts.set i c) none) ∧
    (∀ i c, (∀ i c, ¬ step1 i c) → step2 i c →
      EncodesTo k size mode e (e.insts.set i c ++ viWrite size) none) ∧
    (∀ c, (∀ i c, ¬ step1 i c) → (∀ i c, ¬ step2 i c) → step3 c →
      EncodesTo k size mode e (e.insts ++ [c]) (some e.insts.length)) ∧
    (∀ c, (∀ i c, ¬ step1 i c) → (∀ i c, ¬ step2 i c) → (∀ c, ¬ step3 c) → imapFirst e.etab k 0 mode = some c →
      EncodesTo k size mode e (e.insts ++ [c] ++ viWrite size) (some e.insts.length)) ∧
    ((∀ i c, ¬ step1 i c) → (∀ i c, ¬ step2 i c) → (∀ c, ¬ step3 c) → imapFirst e.etab k 0 mode = none →
      encodeInstruction k size mode e = none) ∧
    (e.etab = defTab → k ≠ .noop → mode ≤ 8 → (k ≠ .copy → mode = 0) → encodeInstruction k size mode e ≠ none)

/-- `ENC_ADD` (R223) and `ENC_RUN` (R224): the checks in order, then the instruction, then its data bytes where the layout routes
them (R229), then the target length. -/
def Obligations.EncAddAndRun : Prop :=
  ∀ s : State,
    (∀ (n offset len : Nat) (slice : Bytes),
      let o := exec (.encAdd n offset len slice) s
      (s.enc.state = .created → o = .next (encFailed .notInitialised s)) ∧
      (s.enc.state = .ready → n < offset + len → o = .next (encFailed .sliceOutOfBounds s)) ∧
      (s.enc.state = .ready → offset + len ≤ n →
        (4294967295 < s.enc.dictSize.toNat + s.enc.targetLen + len → o = .next (encFailed .targetLengthOverflow s)) ∧
        (s.enc.dictSize.toNat + s.enc.targetLen + len ≤ 4294967295 →
          (encodeInstruction .add len 0 s.enc = none → o = .next (encFailed .noOpcodeForInstruction s)) ∧
          ∀ insts last, EncodesTo .add len 0 s.enc insts last →
            o = .next { s with result := some .ok, enc := afterEncode insts last slice [] len s.enc }))) ∧
    ∀ (size : Word) (b : Byte),
      let o := exec (.encRun size b) s
      (s.enc.state = .created → o = .next (encFailed .notInitialised s)) ∧
      (s.enc.state = .ready →
        (4294967295 < s.enc.dictSize.toNat + s.enc.targetLen + size.toNat →
          o = .next (encFailed .targetLengthOverflow s)) ∧
        (s.enc.dictSize.toNat + s.enc.targetLen + size.toNat ≤ 4294967295 →
          (encodeInstruction .run size.toNat 0 s.enc = none → o = .next (encFailed .noOpcodeForInstruction s)) ∧
          ∀ insts last, EncodesTo .run size.toNat 0 s.enc insts last →
            o = .next { s with result := some .ok, enc := afterEncode insts last [b] [] size.toNat s.enc }))

/-- `ENC_COPY` (R225): the checks in order; the cache chooses the mode and is updated; then the instruction, the address bytes,
one raw byte in a SAME mode and a VarInt in any other, where the layout routes them, and the target length. Where there is no opcode
the command fails with the cache as it was before: that is the model's reading of R387 against the order of R225 (log entry 13), and
with a valid table it does not happen (`EncoderFailure`). -/
def Obligations.EncCopyCopies : Prop :=
  ∀ (s : State) (offset size : Word),
    let o := exec (.encCopy offset size) s
    let here := s.enc.dictSize.toNat + s.enc.targetLen
    (s.enc.state = .created → o = .next (encFailed .notInitialised s)) ∧
    (s.enc.state = .ready → here ≤ offset.toNat → o = .next (encFailed .copyOffsetOutOfRange s)) ∧
    (s.enc.state = .ready → offset.toNat < here → 4294967295 < here + size.toNat →
      o = .next (encFailed .targetLengthOverflow s)) ∧
    (s.enc.state = .ready → offset.toNat < here → here + size.toNat ≤ 4294967295 →
      ∀ mode value cache, acEncode s.enc.cache offset.toNat here = (mode, value, cache) →
        (encodeInstruction .copy size.toNat mode { s.enc with cache := cache } = none →
          o = .next (encFailed .noOpcodeForInstruction s)) ∧
        ∀ insts last, EncodesTo .copy size.toNat mode { s.enc with cache := cache } insts last →
          o = .next { s with
            result := some .ok,
            enc := afterEncode insts last []
              (if 2 + s.enc.cache.nearSize ≤ mode then [BitVec.ofNat 8 value] else viWrite value) size.toNat
              { s.enc with cache := cache } })

/-- `ENC_ADD_CHECKSUM` (R226), `ENC_WRITE_HEADER` (R230), `ENC_TARGET_LENGTH` (R231) and `ENC_GET_DELTA_WINDOW_SIZE` (R232). -/
def Obligations.EncSmallCommands : Prop :=
  ∀ s : State,
    (∀ c : Word,
      (s.enc.state = .created → exec (.encAddChecksum c) s = .next (encFailed .notInitialised s)) ∧
      (s.enc.state = .ready → exec (.encAddChecksum c) s
        = .next { s with result := some .ok, enc := { s.enc with checksum := c, hasChecksum := true } })) ∧
    (s.enc.state ≠ .failed →
      exec (.encWriteHeader false) s = .next { s with
        result := some .ok, enc := { s.enc with sink := s.enc.sink ++ [0xD6, 0xC3, 0xC4, 0x00, 0x00] } } ∧
      exec (.encWriteHeader true) s = .next { s with
        result := some .ok, enc := { s.enc with sink := s.enc.sink ++ [0xD6, 0xC3, 0xC4, 0x53, 0x00] } } ∧
      exec .encTargetLength s = .next { s with result := some (.okValue s.enc.targetLen) }) ∧
    (s.enc.state = .created → exec .encGetDeltaWindowSize s = .next (encFailed .notInitialised s)) ∧
    (s.enc.state = .ready →
      exec .encGetDeltaWindowSize s = .next { s with result := some (.okValue
        (viLen s.enc.targetLen + 1 + viLen s.enc.data.length + viLen s.enc.insts.length + viLen s.enc.addrs.length +
          s.enc.data.length + s.enc.insts.length + s.enc.addrs.length +
          (if s.enc.hasChecksum then viLen s.enc.checksum.toNat else 0))) })

/-- `ENC_OUTPUT` (R227, R233): nothing is written for an empty window; else the whole window is appended to `ENC_SINK` in one step,
its length field being the length of its delta encoding; either way the window state is cleared. A delta encoding longer than a
32-bit length fails with DeltaLengthDisagrees (the choice of log entry 9, which R228 allows), and nothing else does. -/
def Obligations.EncOutputFlushes : Prop :=
  ∀ s : State,
    (s.enc.state = .created → exec .encOutput s = .next (encFailed .notInitialised s)) ∧
    (s.enc.state = .ready → s.enc.insts = [] →
      exec .encOutput s = .next { s with result := some .ok, enc := windowCleared s.enc }) ∧
    (s.enc.state = .ready → s.enc.insts ≠ [] → (windowBody s.enc).length ≤ 4294967295 →
      exec .encOutput s = .next { s with
        result := some .ok,
        enc := { windowCleared s.enc with
          sink := s.enc.sink ++ (windowFront s.enc (windowBody s.enc).length ++ windowBody s.enc) } }) ∧
    (s.enc.state = .ready → s.enc.insts ≠ [] → 4294967295 < (windowBody s.enc).length →
      exec .encOutput s = .next (encFailed .deltaLengthDisagrees s))

/-- How encoder commands fail (R387): in `FAILED` every command but `ENC_NEW` answers CommandAfterFailure and changes nothing;
from any other state a command that answers an error has changed the three failure registers and nothing else of the
machine. From a state that meets the invariant, in which the table is validated, no command answers NoOpcodeForInstruction
(R152). -/
def Obligations.EncoderFailure : Prop :=
  (∀ (i : Instr) (s : State), isEncoderCommand i = true → (∀ b c, i ≠ .encNew b c) → s.enc.state = .failed →
    exec i s = .next { s with result := some (.err 6 0x67) }) ∧
  (∀ (i : Instr) (s t : State) (kind : BitVec 3) (cause : Byte), isEncoderCommand i = true →
    s.enc.state ≠ .failed ∨ (∃ b c, i = .encNew b c) → exec i s = .next t → t.result = some (.err kind cause) →
    t = { s with
      result := some (.err kind cause),
      enc := { s.enc with errKind := kind, errCause := cause, state := .failed } }) ∧
  ∀ (i : Instr) (s t : State), EncInv s.enc → isEncoderCommand i = true → exec i s = .next t →
    t.result ≠ some (errOf .noOpcodeForInstruction)

/-- The round trip (R328). Whatever windows the host writes after `ENC_WRITE_HEADER` and `ENC_INIT` with the default code table, in
either layout, each of any commands that all answer `OK`, with or without the checksum of its target: the bytes written, decoded by
`DEC_START` with the same dictionary, `DEC_CHUNK` and `DEC_FINISH` in a decoder with the same index function whose caps the windows
meet, succeed and deliver the targets the commands describe. -/
def Obligations.RoundTrip : Prop :=
  ∀ (s t d : State) (dictionary : Bytes) (extensions : Bool) (plans : List WindowPlan), dictionary.length ≤ 4294967295 →
    EncInv s.enc → s.enc.customTable = false → d.dec.ctx.cache.indexFn = s.enc.cache.indexFn →
    (∃ u, RunsOk [.encWriteHeader extensions, .encInit (BitVec.ofNat 32 dictionary.length)] s u ∧
      WritesWindows dictionary d.dec plans u t) →
    (fileTarget dictionary plans).length ≤ d.dec.maxTargetFileSize.toNat →
    ∃ (file : Bytes) (v : State), t.enc.sink = s.enc.sink ++ file ∧
      runInstrs (session dictionary [file]) d = .next v ∧ v.result = some .ok ∧ v.dec.state = .finished ∧
      v.dec.sink = d.dec.sink ++ fileTarget dictionary plans ∧ v.dec.ctx.dtarget = fileTarget dictionary plans
end

