-- ==== Sys2Proof/Laws/State.lean ====
section
/-! SUPPORT. The small lemmas of the state's named updates: one per field and update, so that no later proof unfolds a record
update. -/

namespace Sys2Proof.Machine

/-! ## The active context -/

@[simp] theorem activeCtx_setActive (c : Ctx) (d : Dec) : activeCtx (setActive c d) = c := by
  unfold activeCtx setActive; cases d.nested <;> rfl

@[simp] theorem activeWin_setActive (c : Ctx) (d : Dec) : activeWin (setActive c d) = c.win := by
  simp [activeWin]

@[simp] theorem setActive_activeCtx (d : Dec) : setActive (activeCtx d) d = d := by
  unfold activeCtx setActive; cases h : d.nested <;> simp [← h]

@[simp] theorem setActive_setActive (c c' : Ctx) (d : Dec) : setActive c (setActive c' d) = setActive c d := by
  unfold setActive; cases d.nested <;> rfl

@[simp] theorem nested_isSome_setActive (c : Ctx) (d : Dec) : (setActive c d).nested.isSome = d.nested.isSome := by
  unfold setActive; cases d.nested <;> rfl

theorem setActive_of_none (c : Ctx) (d : Dec) (h : d.nested = none) : setActive c d = { d with ctx := c } := by
  simp [setActive, h]

theorem setActive_of_some (c : Ctx) (d : Dec) (n : Nested) (h : d.nested = some n) :
    setActive c d = { d with nested := some { n with ctx := c } } := by
  simp [setActive, h]

theorem activeCtx_of_none (d : Dec) (h : d.nested = none) : activeCtx d = d.ctx := by simp [activeCtx, h]

theorem activeCtx_of_some (d : Dec) (n : Nested) (h : d.nested = some n) : activeCtx d = n.ctx := by
  simp [activeCtx, h]

@[simp] theorem activeDict_setActive (c : Ctx) (d : Dec) : activeDict (setActive c d) = activeDict d := by
  unfold activeDict setActive; cases d.nested <;> rfl

@[simp] theorem activeDictSize_setActive (c : Ctx) (d : Dec) : activeDictSize (setActive c d) = activeDictSize d := by
  unfold activeDictSize setActive; cases d.nested <;> rfl

@[simp] theorem activeTab_setActive (c : Ctx) (d : Dec) : activeTab (setActive c d) = activeTab d := by
  unfold activeTab setActive; cases d.nested <;> rfl

/-- A write of the active context and a write of the lint flag do not meet. -/
theorem setActive_lint (c : Ctx) (d : Dec) (b : Bool) :
    setActive c { d with lintAddAdd := b } = { setActive c d with lintAddAdd := b } := by
  unfold setActive; cases d.nested <;> rfl
@[simp] theorem activeCtx_lint (d : Dec) (b : Bool) : activeCtx { d with lintAddAdd := b } = activeCtx d := rfl
@[simp] theorem activeWin_lint (d : Dec) (b : Bool) : activeWin { d with lintAddAdd := b } = activeWin d := rfl
@[simp] theorem activeDict_lint (d : Dec) (b : Bool) : activeDict { d with lintAddAdd := b } = activeDict d := rfl
@[simp] theorem activeTab_lint (d : Dec) (b : Bool) : activeTab { d with lintAddAdd := b } = activeTab d := rfl

@[simp] theorem setActive_allowVcdTarget (c : Ctx) (d : Dec) : (setActive c d).allowVcdTarget = d.allowVcdTarget := by
  unfold setActive; cases d.nested <;> rfl

@[simp] theorem setActive_maxTargetFileSize (c : Ctx) (d : Dec) : (setActive c d).maxTargetFileSize = d.maxTargetFileSize := by
  unfold setActive; cases d.nested <;> rfl

@[simp] theorem setActive_maxTargetWindowSize (c : Ctx) (d : Dec) : (setActive c d).maxTargetWindowSize = d.maxTargetWindowSize := by
  unfold setActive; cases d.nested <;> rfl

@[simp] theorem setActive_maxSectionSize (c : Ctx) (d : Dec) : (setActive c d).maxSectionSize = d.maxSectionSize := by
  unfold setActive; cases d.nested <;> rfl

@[simp] theorem setActive_maxMode (c : Ctx) (d : Dec) : (setActive c d).maxMode = d.maxMode := by
  unfold setActive; cases d.nested <;> rfl

@[simp] theorem setActive_state (c : Ctx) (d : Dec) : (setActive c d).state = d.state := by
  unfold setActive; cases d.nested <;> rfl

@[simp] theorem setActive_errKind (c : Ctx) (d : Dec) : (setActive c d).errKind = d.errKind := by
  unfold setActive; cases d.nested <;> rfl

@[simp] theorem setActive_errCause (c : Ctx) (d : Dec) : (setActive c d).errCause = d.errCause := by
  unfold setActive; cases d.nested <;> rfl

@[simp] theorem setActive_lintAddAdd (c : Ctx) (d : Dec) : (setActive c d).lintAddAdd = d.lintAddAdd := by
  unfold setActive; cases d.nested <;> rfl

@[simp] theorem setActive_hasChecksum (c : Ctx) (d : Dec) : (setActive c d).hasChecksum = d.hasChecksum := by
  unfold setActive; cases d.nested <;> rfl

@[simp] theorem setActive_interleaved (c : Ctx) (d : Dec) : (setActive c d).interleaved = d.interleaved := by
  unfold setActive; cases d.nested <;> rfl

@[simp] theorem setActive_dtab (c : Ctx) (d : Dec) : (setActive c d).dtab = d.dtab := by
  unfold setActive; cases d.nested <;> rfl

@[simp] theorem setActive_dict (c : Ctx) (d : Dec) : (setActive c d).dict = d.dict := by
  unfold setActive; cases d.nested <;> rfl

@[simp] theorem setActive_dictSize (c : Ctx) (d : Dec) : (setActive c d).dictSize = d.dictSize := by
  unfold setActive; cases d.nested <;> rfl

@[simp] theorem setActive_pending (c : Ctx) (d : Dec) : (setActive c d).pending = d.pending := by
  unfold setActive; cases d.nested <;> rfl

@[simp] theorem setActive_sink (c : Ctx) (d : Dec) : (setActive c d).sink = d.sink := by
  unfold setActive; cases d.nested <;> rfl

@[simp] theorem setActive_replaying (c : Ctx) (d : Dec) : (setActive c d).replaying = d.replaying := by
  unfold setActive; cases d.nested <;> rfl

@[simp] theorem setActive_freeCount (c : Ctx) (d : Dec) : (setActive c d).freeCount = d.freeCount := by
  unfold setActive; cases d.nested <;> rfl

/-! ## Writes of parts of the active context -/
@[simp] theorem setWin_allowVcdTarget (w : WindowRegs) (d : Dec) : (setWin w d).allowVcdTarget = d.allowVcdTarget := by simp [setWin]

@[simp] theorem setWin_maxTargetFileSize (w : WindowRegs) (d : Dec) : (setWin w d).maxTargetFileSize = d.maxTargetFileSize := by simp [setWin]
@[simp] theorem setWin_maxTargetWindowSize (w : WindowRegs) (d : Dec) : (setWin w d).maxTargetWindowSize = d.maxTargetWindowSize := by simp [setWin]

@[simp] theorem setWin_maxSectionSize (w : WindowRegs) (d : Dec) : (setWin w d).maxSectionSize = d.maxSectionSize := by simp [setWin]
@[simp] theorem setWin_maxMode (w : WindowRegs) (d : Dec) : (setWin w d).maxMode = d.maxMode := by simp [setWin]

@[simp] theorem setWin_state (w : WindowRegs) (d : Dec) : (setWin w d).state = d.state := by simp [setWin]
@[simp] theorem setWin_errKind (w : WindowRegs) (d : Dec) : (setWin w d).errKind = d.errKind := by simp [setWin]

@[simp] theorem setWin_errCause (w : WindowRegs) (d : Dec) : (setWin w d).errCause = d.errCause := by simp [setWin]
@[simp] theorem setWin_lintAddAdd (w : WindowRegs) (d : Dec) : (setWin w d).lintAddAdd = d.lintAddAdd := by simp [setWin]

@[simp] theorem setWin_hasChecksum (w : WindowRegs) (d : Dec) : (setWin w d).hasChecksum = d.hasChecksum := by simp [setWin]
@[simp] theorem setWin_interleaved (w : WindowRegs) (d : Dec) : (setWin w d).interleaved = d.interleaved := by simp [setWin]

@[simp] theorem setWin_dtab (w : WindowRegs) (d : Dec) : (setWin w d).dtab = d.dtab := by simp [setWin]
@[simp] theorem setWin_dict (w : WindowRegs) (d : Dec) : (setWin w d).dict = d.dict := by simp [setWin]

@[simp] theorem setWin_dictSize (w : WindowRegs) (d : Dec) : (setWin w d).dictSize = d.dictSize := by simp [setWin]
@[simp] theorem setWin_pending (w : WindowRegs) (d : Dec) : (setWin w d).pending = d.pending := by simp [setWin]

@[simp] theorem setWin_sink (w : WindowRegs) (d : Dec) : (setWin w d).sink = d.sink := by simp [setWin]
@[simp] theorem setWin_replaying (w : WindowRegs) (d : Dec) : (setWin w d).replaying = d.replaying := by simp [setWin]

@[simp] theorem setWin_freeCount (w : WindowRegs) (d : Dec) : (setWin w d).freeCount = d.freeCount := by simp [setWin]
@[simp] theorem activeCtx_setWin_win (w : WindowRegs) (d : Dec) : (activeCtx (setWin w d)).win = w := by simp [setWin]

@[simp] theorem activeCtx_setWin_cache (w : WindowRegs) (d : Dec) : (activeCtx (setWin w d)).cache = (activeCtx d).cache := by simp [setWin]
@[simp] theorem activeCtx_setWin_tw (w : WindowRegs) (d : Dec) : (activeCtx (setWin w d)).tw = (activeCtx d).tw := by simp [setWin]

@[simp] theorem activeCtx_setWin_dtarget (w : WindowRegs) (d : Dec) : (activeCtx (setWin w d)).dtarget = (activeCtx d).dtarget := by simp [setWin]
@[simp] theorem activeCtx_setWin_totalTargetLen (w : WindowRegs) (d : Dec) : (activeCtx (setWin w d)).totalTargetLen = (activeCtx d).totalTargetLen := by simp [setWin]

@[simp] theorem activeWin_setWin (w : WindowRegs) (d : Dec) : activeWin (setWin w d) = w := by simp [activeWin, setWin]
@[simp] theorem activeDict_setWin (w : WindowRegs) (d : Dec) : activeDict (setWin w d) = activeDict d := by simp [setWin]

@[simp] theorem activeDictSize_setWin (w : WindowRegs) (d : Dec) : activeDictSize (setWin w d) = activeDictSize d := by simp [setWin]
@[simp] theorem activeTab_setWin (w : WindowRegs) (d : Dec) : activeTab (setWin w d) = activeTab d := by simp [setWin]

@[simp] theorem setCache_allowVcdTarget (c : AddrCache) (d : Dec) : (setCache c d).allowVcdTarget = d.allowVcdTarget := by simp [setCache]
@[simp] theorem setCache_maxTargetFileSize (c : AddrCache) (d : Dec) : (setCache c d).maxTargetFileSize = d.maxTargetFileSize := by simp [setCache]

@[simp] theorem setCache_maxTargetWindowSize (c : AddrCache) (d : Dec) : (setCache c d).maxTargetWindowSize = d.maxTargetWindowSize := by simp [setCache]
@[simp] theorem setCache_maxSectionSize (c : AddrCache) (d : Dec) : (setCache c d).maxSectionSize = d.maxSectionSize := by simp [setCache]

@[simp] theorem setCache_maxMode (c : AddrCache) (d : Dec) : (setCache c d).maxMode = d.maxMode := by simp [setCache]
@[simp] theorem setCache_state (c : AddrCache) (d : Dec) : (setCache c d).state = d.state := by simp [setCache]

@[simp] theorem setCache_errKind (c : AddrCache) (d : Dec) : (setCache c d).errKind = d.errKind := by simp [setCache]
@[simp] theorem setCache_errCause (c : AddrCache) (d : Dec) : (setCache c d).errCause = d.errCause := by simp [setCache]

@[simp] theorem setCache_lintAddAdd (c : AddrCache) (d : Dec) : (setCache c d).lintAddAdd = d.lintAddAdd := by simp [setCache]
@[simp] theorem setCache_hasChecksum (c : AddrCache) (d : Dec) : (setCache c d).hasChecksum = d.hasChecksum := by simp [setCache]

@[simp] theorem setCache_interleaved (c : AddrCache) (d : Dec) : (setCache c d).interleaved = d.interleaved := by simp [setCache]
@[simp] theorem setCache_dtab (c : AddrCache) (d : Dec) : (setCache c d).dtab = d.dtab := by simp [setCache]

@[simp] theorem setCache_dict (c : AddrCache) (d : Dec) : (setCache c d).dict = d.dict := by simp [setCache]
@[simp] theorem setCache_dictSize (c : AddrCache) (d : Dec) : (setCache c d).dictSize = d.dictSize := by simp [setCache]

@[simp] theorem setCache_pending (c : AddrCache) (d : Dec) : (setCache c d).pending = d.pending := by simp [setCache]
@[simp] theorem setCache_sink (c : AddrCache) (d : Dec) : (setCache c d).sink = d.sink := by simp [setCache]

@[simp] theorem setCache_replaying (c : AddrCache) (d : Dec) : (setCache c d).replaying = d.replaying := by simp [setCache]
@[simp] theorem setCache_freeCount (c : AddrCache) (d : Dec) : (setCache c d).freeCount = d.freeCount := by simp [setCache]

@[simp] theorem activeCtx_setCache_win (c : AddrCache) (d : Dec) : (activeCtx (setCache c d)).win = (activeCtx d).win := by simp [setCache]
@[simp] theorem activeCtx_setCache_cache (c : AddrCache) (d : Dec) : (activeCtx (setCache c d)).cache = c := by simp [setCache]

@[simp] theorem activeCtx_setCache_tw (c : AddrCache) (d : Dec) : (activeCtx (setCache c d)).tw = (activeCtx d).tw := by simp [setCache]
@[simp] theorem activeCtx_setCache_dtarget (c : AddrCache) (d : Dec) : (activeCtx (setCache c d)).dtarget = (activeCtx d).dtarget := by simp [setCache]

@[simp] theorem activeCtx_setCache_totalTargetLen (c : AddrCache) (d : Dec) : (activeCtx (setCache c d)).totalTargetLen = (activeCtx d).totalTargetLen := by simp [setCache]
@[simp] theorem activeWin_setCache (c : AddrCache) (d : Dec) : activeWin (setCache c d) = (activeCtx d).win := by simp [activeWin, setCache]

@[simp] theorem activeDict_setCache (c : AddrCache) (d : Dec) : activeDict (setCache c d) = activeDict d := by simp [setCache]
@[simp] theorem activeDictSize_setCache (c : AddrCache) (d : Dec) : activeDictSize (setCache c d) = activeDictSize d := by simp [setCache]

@[simp] theorem activeTab_setCache (c : AddrCache) (d : Dec) : activeTab (setCache c d) = activeTab d := by simp [setCache]
@[simp] theorem setTw_allowVcdTarget (t : Bytes) (d : Dec) : (setTw t d).allowVcdTarget = d.allowVcdTarget := by simp [setTw]

@[simp] theorem setTw_maxTargetFileSize (t : Bytes) (d : Dec) : (setTw t d).maxTargetFileSize = d.maxTargetFileSize := by simp [setTw]
@[simp] theorem setTw_maxTargetWindowSize (t : Bytes) (d : Dec) : (setTw t d).maxTargetWindowSize = d.maxTargetWindowSize := by simp [setTw]

@[simp] theorem setTw_maxSectionSize (t : Bytes) (d : Dec) : (setTw t d).maxSectionSize = d.maxSectionSize := by simp [setTw]
@[simp] theorem setTw_maxMode (t : Bytes) (d : Dec) : (setTw t d).maxMode = d.maxMode := by simp [setTw]

@[simp] theorem setTw_state (t : Bytes) (d : Dec) : (setTw t d).state = d.state := by simp [setTw]
@[simp] theorem setTw_errKind (t : Bytes) (d : Dec) : (setTw t d).errKind = d.errKind := by simp [setTw]

@[simp] theorem setTw_errCause (t : Bytes) (d : Dec) : (setTw t d).errCause = d.errCause := by simp [setTw]
@[simp] theorem setTw_lintAddAdd (t : Bytes) (d : Dec) : (setTw t d).lintAddAdd = d.lintAddAdd := by simp [setTw]

@[simp] theorem setTw_hasChecksum (t : Bytes) (d : Dec) : (setTw t d).hasChecksum = d.hasChecksum := by simp [setTw]
@[simp] theorem setTw_interleaved (t : Bytes) (d : Dec) : (setTw t d).interleaved = d.interleaved := by simp [setTw]

@[simp] theorem setTw_dtab (t : Bytes) (d : Dec) : (setTw t d).dtab = d.dtab := by simp [setTw]
@[simp] theorem setTw_dict (t : Bytes) (d : Dec) : (setTw t d).dict = d.dict := by simp [setTw]

@[simp] theorem setTw_dictSize (t : Bytes) (d : Dec) : (setTw t d).dictSize = d.dictSize := by simp [setTw]
@[simp] theorem setTw_pending (t : Bytes) (d : Dec) : (setTw t d).pending = d.pending := by simp [setTw]

@[simp] theorem setTw_sink (t : Bytes) (d : Dec) : (setTw t d).sink = d.sink := by simp [setTw]
@[simp] theorem setTw_replaying (t : Bytes) (d : Dec) : (setTw t d).replaying = d.replaying := by simp [setTw]

@[simp] theorem setTw_freeCount (t : Bytes) (d : Dec) : (setTw t d).freeCount = d.freeCount := by simp [setTw]
@[simp] theorem activeCtx_setTw_win (t : Bytes) (d : Dec) : (activeCtx (setTw t d)).win = (activeCtx d).win := by simp [setTw]

@[simp] theorem activeCtx_setTw_cache (t : Bytes) (d : Dec) : (activeCtx (setTw t d)).cache = (activeCtx d).cache := by simp [setTw]
@[simp] theorem activeCtx_setTw_tw (t : Bytes) (d : Dec) : (activeCtx (setTw t d)).tw = t := by simp [setTw]

@[simp] theorem activeCtx_setTw_dtarget (t : Bytes) (d : Dec) : (activeCtx (setTw t d)).dtarget = (activeCtx d).dtarget := by simp [setTw]
@[simp] theorem activeCtx_setTw_totalTargetLen (t : Bytes) (d : Dec) : (activeCtx (setTw t d)).totalTargetLen = (activeCtx d).totalTargetLen := by simp [setTw]

@[simp] theorem activeWin_setTw (t : Bytes) (d : Dec) : activeWin (setTw t d) = (activeCtx d).win := by simp [activeWin, setTw]
@[simp] theorem activeDict_setTw (t : Bytes) (d : Dec) : activeDict (setTw t d) = activeDict d := by simp [setTw]

@[simp] theorem activeDictSize_setTw (t : Bytes) (d : Dec) : activeDictSize (setTw t d) = activeDictSize d := by simp [setTw]
@[simp] theorem activeTab_setTw (t : Bytes) (d : Dec) : activeTab (setTw t d) = activeTab d := by simp [setTw]

theorem appendTw_eq (b : Bytes) (d : Dec) :
    appendTw b d = setActive { activeCtx d with tw := (activeCtx d).tw ++ b } d := by
  simp [appendTw, setTw, memAppend]

theorem setIp_eq (v : Nat) (d : Dec) :
    setIp v d = setActive { activeCtx d with win := { activeWin d with ip := v } } d := by
  simp [setIp, setWin]

theorem setDp_eq (v : Nat) (d : Dec) :
    setDp v d = setActive { activeCtx d with win := { activeWin d with dp := v } } d := by
  simp [setDp, setWin]

theorem setAp_eq (v : Nat) (d : Dec) :
    setAp v d = setActive { activeCtx d with win := { activeWin d with ap := v } } d := by
  simp [setAp, setWin]

theorem lint_eq (k : InstKind) (d : Dec) :
    lint k d = setActive { activeCtx d with win := { activeWin d with prevInst := k } }
      { d with lintAddAdd := d.lintAddAdd || (k == .add && (activeWin d).prevInst == .add) } := by
  simp [lint, setWin]

/-! ## Raising an error -/
@[simp] theorem decRaise_allowVcdTarget (c : Cause) (d : Dec) : (decRaise c d).allowVcdTarget = d.allowVcdTarget := rfl

@[simp] theorem decRaise_maxTargetFileSize (c : Cause) (d : Dec) : (decRaise c d).maxTargetFileSize = d.maxTargetFileSize := rfl
@[simp] theorem decRaise_maxTargetWindowSize (c : Cause) (d : Dec) : (decRaise c d).maxTargetWindowSize = d.maxTargetWindowSize := rfl

@[simp] theorem decRaise_maxSectionSize (c : Cause) (d : Dec) : (decRaise c d).maxSectionSize = d.maxSectionSize := rfl
@[simp] theorem decRaise_maxMode (c : Cause) (d : Dec) : (decRaise c d).maxMode = d.maxMode := rfl

@[simp] theorem decRaise_lintAddAdd (c : Cause) (d : Dec) : (decRaise c d).lintAddAdd = d.lintAddAdd := rfl
@[simp] theorem decRaise_hasChecksum (c : Cause) (d : Dec) : (decRaise c d).hasChecksum = d.hasChecksum := rfl

@[simp] theorem decRaise_interleaved (c : Cause) (d : Dec) : (decRaise c d).interleaved = d.interleaved := rfl
@[simp] theorem decRaise_dtab (c : Cause) (d : Dec) : (decRaise c d).dtab = d.dtab := rfl

@[simp] theorem decRaise_dict (c : Cause) (d : Dec) : (decRaise c d).dict = d.dict := rfl
@[simp] theorem decRaise_dictSize (c : Cause) (d : Dec) : (decRaise c d).dictSize = d.dictSize := rfl

@[simp] theorem decRaise_sink (c : Cause) (d : Dec) : (decRaise c d).sink = d.sink := rfl
@[simp] theorem decRaise_errKind (c : Cause) (d : Dec) : (decRaise c d).errKind = causeKind c := rfl

@[simp] theorem decRaise_errCause (c : Cause) (d : Dec) : (decRaise c d).errCause = causeCode c := rfl
@[simp] theorem decRaise_state (c : Cause) (d : Dec) : (decRaise c d).state = .poisoned := rfl

@[simp] theorem decRaise_pending (c : Cause) (d : Dec) : (decRaise c d).pending = [] := rfl
@[simp] theorem decRaise_nested (c : Cause) (d : Dec) : (decRaise c d).nested = none := rfl

@[simp] theorem decRaise_replaying (c : Cause) (d : Dec) : (decRaise c d).replaying = false := rfl
@[simp] theorem decRaise_freeCount (c : Cause) (d : Dec) : (decRaise c d).freeCount = d.freeCount + 1 := rfl

@[simp] theorem decRaise_ctx_tw (c : Cause) (d : Dec) : (decRaise c d).ctx.tw = [] := rfl
@[simp] theorem decRaise_ctx_dtarget (c : Cause) (d : Dec) : (decRaise c d).ctx.dtarget = d.ctx.dtarget := rfl

@[simp] theorem decRaise_ctx_totalTargetLen (c : Cause) (d : Dec) : (decRaise c d).ctx.totalTargetLen = d.ctx.totalTargetLen := rfl
@[simp] theorem decRaise_ctx_cache_nearSize (c : Cause) (d : Dec) : (decRaise c d).ctx.cache.nearSize = d.ctx.cache.nearSize := rfl

@[simp] theorem decRaise_ctx_cache_sameSize (c : Cause) (d : Dec) : (decRaise c d).ctx.cache.sameSize = d.ctx.cache.sameSize := rfl
@[simp] theorem decRaise_ctx_cache_indexFn (c : Cause) (d : Dec) : (decRaise c d).ctx.cache.indexFn = d.ctx.cache.indexFn := rfl

@[simp] theorem encRaise_interleaved (c : Cause) (e : Enc) : (encRaise c e).interleaved = e.interleaved := rfl
@[simp] theorem encRaise_customTable (c : Cause) (e : Enc) : (encRaise c e).customTable = e.customTable := rfl

@[simp] theorem encRaise_maxMode (c : Cause) (e : Enc) : (encRaise c e).maxMode = e.maxMode := rfl
@[simp] theorem encRaise_cache (c : Cause) (e : Enc) : (encRaise c e).cache = e.cache := rfl

@[simp] theorem encRaise_etab (c : Cause) (e : Enc) : (encRaise c e).etab = e.etab := rfl
@[simp] theorem encRaise_state (c : Cause) (e : Enc) : (encRaise c e).state = .failed := rfl

@[simp] theorem encRaise_errKind (c : Cause) (e : Enc) : (encRaise c e).errKind = causeKind c := rfl
@[simp] theorem encRaise_errCause (c : Cause) (e : Enc) : (encRaise c e).errCause = causeCode c := rfl

@[simp] theorem encRaise_hasChecksum (c : Cause) (e : Enc) : (encRaise c e).hasChecksum = e.hasChecksum := rfl
@[simp] theorem encRaise_mapBuilt (c : Cause) (e : Enc) : (encRaise c e).mapBuilt = e.mapBuilt := rfl

@[simp] theorem encRaise_dictSize (c : Cause) (e : Enc) : (encRaise c e).dictSize = e.dictSize := rfl
@[simp] theorem encRaise_targetLen (c : Cause) (e : Enc) : (encRaise c e).targetLen = e.targetLen := rfl

@[simp] theorem encRaise_insts (c : Cause) (e : Enc) : (encRaise c e).insts = e.insts := rfl
@[simp] theorem encRaise_data (c : Cause) (e : Enc) : (encRaise c e).data = e.data := rfl

@[simp] theorem encRaise_addrs (c : Cause) (e : Enc) : (encRaise c e).addrs = e.addrs := rfl
@[simp] theorem encRaise_checksum (c : Cause) (e : Enc) : (encRaise c e).checksum = e.checksum := rfl

@[simp] theorem encRaise_lastOpcodeIndex (c : Cause) (e : Enc) : (encRaise c e).lastOpcodeIndex = e.lastOpcodeIndex := rfl
@[simp] theorem encRaise_sink (c : Cause) (e : Enc) : (encRaise c e).sink = e.sink := rfl

/-! ## A new session, the start of a replay, the commit -/
@[simp] theorem decNewSession_allowVcdTarget (b : Bytes) (d : Dec) : (decNewSession b d).allowVcdTarget = d.allowVcdTarget := rfl

@[simp] theorem decNewSession_maxTargetFileSize (b : Bytes) (d : Dec) : (decNewSession b d).maxTargetFileSize = d.maxTargetFileSize := rfl
@[simp] theorem decNewSession_maxTargetWindowSize (b : Bytes) (d : Dec) : (decNewSession b d).maxTargetWindowSize = d.maxTargetWindowSize := rfl

@[simp] theorem decNewSession_maxSectionSize (b : Bytes) (d : Dec) : (decNewSession b d).maxSectionSize = d.maxSectionSize := rfl
@[simp] theorem decNewSession_sink (b : Bytes) (d : Dec) : (decNewSession b d).sink = d.sink := rfl

@[simp] theorem decNewSession_freeCount (b : Bytes) (d : Dec) : (decNewSession b d).freeCount = d.freeCount := rfl
@[simp] theorem decNewSession_dict (b : Bytes) (d : Dec) : (decNewSession b d).dict = b := rfl

@[simp] theorem decNewSession_dictSize (b : Bytes) (d : Dec) : (decNewSession b d).dictSize = b.length := rfl
@[simp] theorem decNewSession_pending (b : Bytes) (d : Dec) : (decNewSession b d).pending = [] := rfl

@[simp] theorem decNewSession_dtab (b : Bytes) (d : Dec) : (decNewSession b d).dtab = defTab := rfl
@[simp] theorem decNewSession_maxMode (b : Bytes) (d : Dec) : (decNewSession b d).maxMode = 8 := rfl

@[simp] theorem decNewSession_errKind (b : Bytes) (d : Dec) : (decNewSession b d).errKind = 0 := rfl
@[simp] theorem decNewSession_errCause (b : Bytes) (d : Dec) : (decNewSession b d).errCause = 0 := rfl

@[simp] theorem decNewSession_lintAddAdd (b : Bytes) (d : Dec) : (decNewSession b d).lintAddAdd = false := rfl
@[simp] theorem decNewSession_hasChecksum (b : Bytes) (d : Dec) : (decNewSession b d).hasChecksum = false := rfl

@[simp] theorem decNewSession_interleaved (b : Bytes) (d : Dec) : (decNewSession b d).interleaved = false := rfl
@[simp] theorem decNewSession_nested (b : Bytes) (d : Dec) : (decNewSession b d).nested = none := rfl

@[simp] theorem decNewSession_replaying (b : Bytes) (d : Dec) : (decNewSession b d).replaying = false := rfl
@[simp] theorem decNewSession_state (b : Bytes) (d : Dec) : (decNewSession b d).state = .expectHeader := rfl

@[simp] theorem decNewSession_ctx_dtarget (b : Bytes) (d : Dec) : (decNewSession b d).ctx.dtarget = [] := rfl
@[simp] theorem decNewSession_ctx_totalTargetLen (b : Bytes) (d : Dec) : (decNewSession b d).ctx.totalTargetLen = 0 := rfl

@[simp] theorem decNewSession_ctx_tw (b : Bytes) (d : Dec) : (decNewSession b d).ctx.tw = [] := rfl
@[simp] theorem decNewSession_ctx_win (b : Bytes) (d : Dec) : (decNewSession b d).ctx.win = d.ctx.win := rfl

@[simp] theorem decNewSession_ctx_cache (b : Bytes) (d : Dec) : (decNewSession b d).ctx.cache = freshCache 4 3 d.ctx.cache.indexFn := rfl
@[simp] theorem startReplay_allowVcdTarget (c : Nat) (d : Dec) : (startReplay c d).allowVcdTarget = d.allowVcdTarget := by simp [startReplay]

@[simp] theorem startReplay_maxTargetFileSize (c : Nat) (d : Dec) : (startReplay c d).maxTargetFileSize = d.maxTargetFileSize := by simp [startReplay]
@[simp] theorem startReplay_maxTargetWindowSize (c : Nat) (d : Dec) : (startReplay c d).maxTargetWindowSize = d.maxTargetWindowSize := by simp [startReplay]

@[simp] theorem startReplay_maxSectionSize (c : Nat) (d : Dec) : (startReplay c d).maxSectionSize = d.maxSectionSize := by simp [startReplay]
@[simp] theorem startReplay_maxMode (c : Nat) (d : Dec) : (startReplay c d).maxMode = d.maxMode := by simp [startReplay]

@[simp] theorem startReplay_state (c : Nat) (d : Dec) : (startReplay c d).state = d.state := by simp [startReplay]
@[simp] theorem startReplay_errKind (c : Nat) (d : Dec) : (startReplay c d).errKind = d.errKind := by simp [startReplay]

@[simp] theorem startReplay_errCause (c : Nat) (d : Dec) : (startReplay c d).errCause = d.errCause := by simp [startReplay]
@[simp] theorem startReplay_lintAddAdd (c : Nat) (d : Dec) : (startReplay c d).lintAddAdd = d.lintAddAdd := by simp [startReplay]

@[simp] theorem startReplay_hasChecksum (c : Nat) (d : Dec) : (startReplay c d).hasChecksum = d.hasChecksum := by simp [startReplay]
@[simp] theorem startReplay_interleaved (c : Nat) (d : Dec) : (startReplay c d).interleaved = d.interleaved := by simp [startReplay]

@[simp] theorem startReplay_dtab (c : Nat) (d : Dec) : (startReplay c d).dtab = d.dtab := by simp [startReplay]
@[simp] theorem startReplay_dict (c : Nat) (d : Dec) : (startReplay c d).dict = d.dict := by simp [startReplay]

@[simp] theorem startReplay_dictSize (c : Nat) (d : Dec) : (startReplay c d).dictSize = d.dictSize := by simp [startReplay]
@[simp] theorem startReplay_pending (c : Nat) (d : Dec) : (startReplay c d).pending = d.pending := by simp [startReplay]

@[simp] theorem startReplay_sink (c : Nat) (d : Dec) : (startReplay c d).sink = d.sink := by simp [startReplay]
@[simp] theorem startReplay_replaying (c : Nat) (d : Dec) : (startReplay c d).replaying = true := by simp [startReplay]

@[simp] theorem startReplay_freeCount (c : Nat) (d : Dec) : (startReplay c d).freeCount = d.freeCount := by simp [startReplay]

@[simp] theorem activeCtx_startReplay (c : Nat) (d : Dec) :
    activeCtx (startReplay c d) =
      { activeCtx d with
        win := { activeWin d with ip := 0, dp := 0, ap := 0, prevInst := .noop, bodyPos := c },
        cache := acInit (activeCtx d).cache, tw := [] } := by
  unfold startReplay activeCtx setActive; cases d.nested <;> rfl

@[simp] theorem activeDict_startReplay (c : Nat) (d : Dec) : activeDict (startReplay c d) = activeDict d := by
  unfold startReplay activeDict setActive; cases d.nested <;> rfl

@[simp] theorem activeTab_startReplay (c : Nat) (d : Dec) : activeTab (startReplay c d) = activeTab d := by
  unfold startReplay activeTab setActive; cases d.nested <;> rfl
@[simp] theorem commit_allowVcdTarget (d : Dec) : (commit d).allowVcdTarget = d.allowVcdTarget := by simp [commit]

@[simp] theorem commit_maxTargetFileSize (d : Dec) : (commit d).maxTargetFileSize = d.maxTargetFileSize := by simp [commit]
@[simp] theorem commit_maxTargetWindowSize (d : Dec) : (commit d).maxTargetWindowSize = d.maxTargetWindowSize := by simp [commit]

@[simp] theorem commit_maxSectionSize (d : Dec) : (commit d).maxSectionSize = d.maxSectionSize := by simp [commit]
@[simp] theorem commit_maxMode (d : Dec) : (commit d).maxMode = d.maxMode := by simp [commit]

@[simp] theorem commit_state (d : Dec) : (commit d).state = d.state := by simp [commit]
@[simp] theorem commit_errKind (d : Dec) : (commit d).errKind = d.errKind := by simp [commit]

@[simp] theorem commit_errCause (d : Dec) : (commit d).errCause = d.errCause := by simp [commit]
@[simp] theorem commit_lintAddAdd (d : Dec) : (commit d).lintAddAdd = d.lintAddAdd := by simp [commit]

@[simp] theorem commit_hasChecksum (d : Dec) : (commit d).hasChecksum = d.hasChecksum := by simp [commit]
@[simp] theorem commit_interleaved (d : Dec) : (commit d).interleaved = d.interleaved := by simp [commit]

@[simp] theorem commit_dtab (d : Dec) : (commit d).dtab = d.dtab := by simp [commit]
@[simp] theorem commit_dict (d : Dec) : (commit d).dict = d.dict := by simp [commit]

@[simp] theorem commit_dictSize (d : Dec) : (commit d).dictSize = d.dictSize := by simp [commit]
@[simp] theorem commit_pending (d : Dec) : (commit d).pending = d.pending.drop (windowLen d) := by simp [commit]

@[simp] theorem commit_sink (d : Dec) : (commit d).sink = if d.nested.isSome then d.sink else d.sink ++ (activeCtx d).tw := by simp [commit, memAppend]
@[simp] theorem commit_replaying (d : Dec) : (commit d).replaying = false := by simp [commit]

@[simp] theorem commit_freeCount (d : Dec) : (commit d).freeCount = d.freeCount + 1 := by simp [commit]

@[simp] theorem freedCache_nearSize (n : Nat) (c : AddrCache) : (freedCache n c).nearSize = c.nearSize := rfl
@[simp] theorem freedCache_sameSize (n : Nat) (c : AddrCache) : (freedCache n c).sameSize = c.sameSize := rfl
@[simp] theorem freedCache_indexFn (n : Nat) (c : AddrCache) : (freedCache n c).indexFn = c.indexFn := rfl

@[simp] theorem activeCtx_commit (d : Dec) :
    activeCtx (commit d) =
      { activeCtx d with
        dtarget := (activeCtx d).dtarget ++ (activeCtx d).tw,
        totalTargetLen := (activeCtx d).totalTargetLen + (activeCtx d).tw.length,
        win := Config.freeWindow d.freeCount,
        cache := freedCache d.freeCount (activeCtx d).cache } := by
  unfold commit activeCtx setActive; cases d.nested <;> rfl

@[simp] theorem nested_isSome_commit (d : Dec) : (commit d).nested.isSome = d.nested.isSome := by
  unfold commit setActive; cases d.nested <;> rfl

/-! ## The encoder's updates -/
@[simp] theorem encClearWindow_interleaved (e : Enc) : (encClearWindow e).interleaved = e.interleaved := rfl

@[simp] theorem encClearWindow_customTable (e : Enc) : (encClearWindow e).customTable = e.customTable := rfl
@[simp] theorem encClearWindow_maxMode (e : Enc) : (encClearWindow e).maxMode = e.maxMode := rfl

@[simp] theorem encClearWindow_cache (e : Enc) : (encClearWindow e).cache = acInit e.cache := rfl
@[simp] theorem encClearWindow_etab (e : Enc) : (encClearWindow e).etab = e.etab := rfl

@[simp] theorem encClearWindow_state (e : Enc) : (encClearWindow e).state = e.state := rfl
@[simp] theorem encClearWindow_errKind (e : Enc) : (encClearWindow e).errKind = e.errKind := rfl

@[simp] theorem encClearWindow_errCause (e : Enc) : (encClearWindow e).errCause = e.errCause := rfl
@[simp] theorem encClearWindow_hasChecksum (e : Enc) : (encClearWindow e).hasChecksum = false := rfl

@[simp] theorem encClearWindow_mapBuilt (e : Enc) : (encClearWindow e).mapBuilt = e.mapBuilt := rfl
@[simp] theorem encClearWindow_dictSize (e : Enc) : (encClearWindow e).dictSize = e.dictSize := rfl

@[simp] theorem encClearWindow_targetLen (e : Enc) : (encClearWindow e).targetLen = 0 := rfl
@[simp] theorem encClearWindow_insts (e : Enc) : (encClearWindow e).insts = [] := rfl

@[simp] theorem encClearWindow_data (e : Enc) : (encClearWindow e).data = [] := rfl
@[simp] theorem encClearWindow_addrs (e : Enc) : (encClearWindow e).addrs = [] := rfl

@[simp] theorem encClearWindow_checksum (e : Enc) : (encClearWindow e).checksum = e.checksum := rfl
@[simp] theorem encClearWindow_lastOpcodeIndex (e : Enc) : (encClearWindow e).lastOpcodeIndex = none := rfl

@[simp] theorem encClearWindow_sink (e : Enc) : (encClearWindow e).sink = e.sink := rfl
@[simp] theorem growTarget_interleaved (n : Nat) (e : Enc) : (growTarget n e).interleaved = e.interleaved := rfl

@[simp] theorem growTarget_customTable (n : Nat) (e : Enc) : (growTarget n e).customTable = e.customTable := rfl
@[simp] theorem growTarget_maxMode (n : Nat) (e : Enc) : (growTarget n e).maxMode = e.maxMode := rfl

@[simp] theorem growTarget_cache (n : Nat) (e : Enc) : (growTarget n e).cache = e.cache := rfl
@[simp] theorem growTarget_etab (n : Nat) (e : Enc) : (growTarget n e).etab = e.etab := rfl

@[simp] theorem growTarget_state (n : Nat) (e : Enc) : (growTarget n e).state = e.state := rfl
@[simp] theorem growTarget_errKind (n : Nat) (e : Enc) : (growTarget n e).errKind = e.errKind := rfl

@[simp] theorem growTarget_errCause (n : Nat) (e : Enc) : (growTarget n e).errCause = e.errCause := rfl
@[simp] theorem growTarget_hasChecksum (n : Nat) (e : Enc) : (growTarget n e).hasChecksum = e.hasChecksum := rfl

@[simp] theorem growTarget_mapBuilt (n : Nat) (e : Enc) : (growTarget n e).mapBuilt = e.mapBuilt := rfl
@[simp] theorem growTarget_dictSize (n : Nat) (e : Enc) : (growTarget n e).dictSize = e.dictSize := rfl

@[simp] theorem growTarget_targetLen (n : Nat) (e : Enc) : (growTarget n e).targetLen = e.targetLen + n := rfl
@[simp] theorem growTarget_insts (n : Nat) (e : Enc) : (growTarget n e).insts = e.insts := rfl

@[simp] theorem growTarget_data (n : Nat) (e : Enc) : (growTarget n e).data = e.data := rfl
@[simp] theorem growTarget_addrs (n : Nat) (e : Enc) : (growTarget n e).addrs = e.addrs := rfl

@[simp] theorem growTarget_checksum (n : Nat) (e : Enc) : (growTarget n e).checksum = e.checksum := rfl
@[simp] theorem growTarget_lastOpcodeIndex (n : Nat) (e : Enc) : (growTarget n e).lastOpcodeIndex = e.lastOpcodeIndex := rfl

@[simp] theorem growTarget_sink (n : Nat) (e : Enc) : (growTarget n e).sink = e.sink := rfl
@[simp] theorem upgradeOpcode_interleaved (i : Nat) (op : Byte) (e : Enc) : (upgradeOpcode i op e).interleaved = e.interleaved := rfl

@[simp] theorem upgradeOpcode_customTable (i : Nat) (op : Byte) (e : Enc) : (upgradeOpcode i op e).customTable = e.customTable := rfl
@[simp] theorem upgradeOpcode_maxMode (i : Nat) (op : Byte) (e : Enc) : (upgradeOpcode i op e).maxMode = e.maxMode := rfl

@[simp] theorem upgradeOpcode_cache (i : Nat) (op : Byte) (e : Enc) : (upgradeOpcode i op e).cache = e.cache := rfl
@[simp] theorem upgradeOpcode_etab (i : Nat) (op : Byte) (e : Enc) : (upgradeOpcode i op e).etab = e.etab := rfl

@[simp] theorem upgradeOpcode_state (i : Nat) (op : Byte) (e : Enc) : (upgradeOpcode i op e).state = e.state := rfl
@[simp] theorem upgradeOpcode_errKind (i : Nat) (op : Byte) (e : Enc) : (upgradeOpcode i op e).errKind = e.errKind := rfl

@[simp] theorem upgradeOpcode_errCause (i : Nat) (op : Byte) (e : Enc) : (upgradeOpcode i op e).errCause = e.errCause := rfl
@[simp] theorem upgradeOpcode_hasChecksum (i : Nat) (op : Byte) (e : Enc) : (upgradeOpcode i op e).hasChecksum = e.hasChecksum := rfl

@[simp] theorem upgradeOpcode_mapBuilt (i : Nat) (op : Byte) (e : Enc) : (upgradeOpcode i op e).mapBuilt = e.mapBuilt := rfl
@[simp] theorem upgradeOpcode_dictSize (i : Nat) (op : Byte) (e : Enc) : (upgradeOpcode i op e).dictSize = e.dictSize := rfl

@[simp] theorem upgradeOpcode_targetLen (i : Nat) (op : Byte) (e : Enc) : (upgradeOpcode i op e).targetLen = e.targetLen := rfl
@[simp] theorem upgradeOpcode_insts (i : Nat) (op : Byte) (e : Enc) : (upgradeOpcode i op e).insts = e.insts.set i op := rfl

@[simp] theorem upgradeOpcode_data (i : Nat) (op : Byte) (e : Enc) : (upgradeOpcode i op e).data = e.data := rfl
@[simp] theorem upgradeOpcode_addrs (i : Nat) (op : Byte) (e : Enc) : (upgradeOpcode i op e).addrs = e.addrs := rfl

@[simp] theorem upgradeOpcode_checksum (i : Nat) (op : Byte) (e : Enc) : (upgradeOpcode i op e).checksum = e.checksum := rfl
@[simp] theorem upgradeOpcode_lastOpcodeIndex (i : Nat) (op : Byte) (e : Enc) : (upgradeOpcode i op e).lastOpcodeIndex = none := rfl

@[simp] theorem upgradeOpcode_sink (i : Nat) (op : Byte) (e : Enc) : (upgradeOpcode i op e).sink = e.sink := rfl
@[simp] theorem appendOpcode_interleaved (op : Byte) (e : Enc) : (appendOpcode op e).interleaved = e.interleaved := rfl

@[simp] theorem appendOpcode_customTable (op : Byte) (e : Enc) : (appendOpcode op e).customTable = e.customTable := rfl
@[simp] theorem appendOpcode_maxMode (op : Byte) (e : Enc) : (appendOpcode op e).maxMode = e.maxMode := rfl

@[simp] theorem appendOpcode_cache (op : Byte) (e : Enc) : (appendOpcode op e).cache = e.cache := rfl
@[simp] theorem appendOpcode_etab (op : Byte) (e : Enc) : (appendOpcode op e).etab = e.etab := rfl

@[simp] theorem appendOpcode_state (op : Byte) (e : Enc) : (appendOpcode op e).state = e.state := rfl
@[simp] theorem appendOpcode_errKind (op : Byte) (e : Enc) : (appendOpcode op e).errKind = e.errKind := rfl

@[simp] theorem appendOpcode_errCause (op : Byte) (e : Enc) : (appendOpcode op e).errCause = e.errCause := rfl
@[simp] theorem appendOpcode_hasChecksum (op : Byte) (e : Enc) : (appendOpcode op e).hasChecksum = e.hasChecksum := rfl

@[simp] theorem appendOpcode_mapBuilt (op : Byte) (e : Enc) : (appendOpcode op e).mapBuilt = e.mapBuilt := rfl
@[simp] theorem appendOpcode_dictSize (op : Byte) (e : Enc) : (appendOpcode op e).dictSize = e.dictSize := rfl

@[simp] theorem appendOpcode_targetLen (op : Byte) (e : Enc) : (appendOpcode op e).targetLen = e.targetLen := rfl
@[simp] theorem appendOpcode_insts (op : Byte) (e : Enc) : (appendOpcode op e).insts = e.insts ++ [op] := rfl

@[simp] theorem appendOpcode_data (op : Byte) (e : Enc) : (appendOpcode op e).data = e.data := rfl
@[simp] theorem appendOpcode_addrs (op : Byte) (e : Enc) : (appendOpcode op e).addrs = e.addrs := rfl

@[simp] theorem appendOpcode_checksum (op : Byte) (e : Enc) : (appendOpcode op e).checksum = e.checksum := rfl
@[simp] theorem appendOpcode_lastOpcodeIndex (op : Byte) (e : Enc) : (appendOpcode op e).lastOpcodeIndex = some e.insts.length := rfl

@[simp] theorem appendOpcode_sink (op : Byte) (e : Enc) : (appendOpcode op e).sink = e.sink := rfl
@[simp] theorem appendSize_interleaved (n : Nat) (e : Enc) : (appendSize n e).interleaved = e.interleaved := rfl

@[simp] theorem appendSize_customTable (n : Nat) (e : Enc) : (appendSize n e).customTable = e.customTable := rfl
@[simp] theorem appendSize_maxMode (n : Nat) (e : Enc) : (appendSize n e).maxMode = e.maxMode := rfl

@[simp] theorem appendSize_cache (n : Nat) (e : Enc) : (appendSize n e).cache = e.cache := rfl
@[simp] theorem appendSize_etab (n : Nat) (e : Enc) : (appendSize n e).etab = e.etab := rfl

@[simp] theorem appendSize_state (n : Nat) (e : Enc) : (appendSize n e).state = e.state := rfl
@[simp] theorem appendSize_errKind (n : Nat) (e : Enc) : (appendSize n e).errKind = e.errKind := rfl

@[simp] theorem appendSize_errCause (n : Nat) (e : Enc) : (appendSize n e).errCause = e.errCause := rfl
@[simp] theorem appendSize_hasChecksum (n : Nat) (e : Enc) : (appendSize n e).hasChecksum = e.hasChecksum := rfl

@[simp] theorem appendSize_mapBuilt (n : Nat) (e : Enc) : (appendSize n e).mapBuilt = e.mapBuilt := rfl
@[simp] theorem appendSize_dictSize (n : Nat) (e : Enc) : (appendSize n e).dictSize = e.dictSize := rfl

@[simp] theorem appendSize_targetLen (n : Nat) (e : Enc) : (appendSize n e).targetLen = e.targetLen := rfl
@[simp] theorem appendSize_insts (n : Nat) (e : Enc) : (appendSize n e).insts = e.insts ++ viWrite n := rfl

@[simp] theorem appendSize_data (n : Nat) (e : Enc) : (appendSize n e).data = e.data := rfl
@[simp] theorem appendSize_addrs (n : Nat) (e : Enc) : (appendSize n e).addrs = e.addrs := rfl

@[simp] theorem appendSize_checksum (n : Nat) (e : Enc) : (appendSize n e).checksum = e.checksum := rfl
@[simp] theorem appendSize_lastOpcodeIndex (n : Nat) (e : Enc) : (appendSize n e).lastOpcodeIndex = e.lastOpcodeIndex := rfl

@[simp] theorem appendSize_sink (n : Nat) (e : Enc) : (appendSize n e).sink = e.sink := rfl

@[simp] theorem appendData_interleaved (b : Bytes) (e : Enc) : (appendData b e).interleaved = e.interleaved := by
  unfold appendData; split <;> rfl

@[simp] theorem appendData_customTable (b : Bytes) (e : Enc) : (appendData b e).customTable = e.customTable := by
  unfold appendData; split <;> rfl

@[simp] theorem appendData_maxMode (b : Bytes) (e : Enc) : (appendData b e).maxMode = e.maxMode := by
  unfold appendData; split <;> rfl

@[simp] theorem appendData_cache (b : Bytes) (e : Enc) : (appendData b e).cache = e.cache := by
  unfold appendData; split <;> rfl

@[simp] theorem appendData_etab (b : Bytes) (e : Enc) : (appendData b e).etab = e.etab := by
  unfold appendData; split <;> rfl

@[simp] theorem appendData_state (b : Bytes) (e : Enc) : (appendData b e).state = e.state := by
  unfold appendData; split <;> rfl

@[simp] theorem appendData_errKind (b : Bytes) (e : Enc) : (appendData b e).errKind = e.errKind := by
  unfold appendData; split <;> rfl

@[simp] theorem appendData_errCause (b : Bytes) (e : Enc) : (appendData b e).errCause = e.errCause := by
  unfold appendData; split <;> rfl

@[simp] theorem appendData_hasChecksum (b : Bytes) (e : Enc) : (appendData b e).hasChecksum = e.hasChecksum := by
  unfold appendData; split <;> rfl

@[simp] theorem appendData_mapBuilt (b : Bytes) (e : Enc) : (appendData b e).mapBuilt = e.mapBuilt := by
  unfold appendData; split <;> rfl

@[simp] theorem appendData_dictSize (b : Bytes) (e : Enc) : (appendData b e).dictSize = e.dictSize := by
  unfold appendData; split <;> rfl

@[simp] theorem appendData_targetLen (b : Bytes) (e : Enc) : (appendData b e).targetLen = e.targetLen := by
  unfold appendData; split <;> rfl

@[simp] theorem appendData_insts (b : Bytes) (e : Enc) : (appendData b e).insts = if e.interleaved then e.insts ++ b else e.insts := by
  unfold appendData; split <;> simp_all [memAppend]

@[simp] theorem appendData_data (b : Bytes) (e : Enc) : (appendData b e).data = if e.interleaved then e.data else e.data ++ b := by
  unfold appendData; split <;> simp_all [memAppend]

@[simp] theorem appendData_addrs (b : Bytes) (e : Enc) : (appendData b e).addrs = e.addrs := by
  unfold appendData; split <;> rfl

@[simp] theorem appendData_checksum (b : Bytes) (e : Enc) : (appendData b e).checksum = e.checksum := by
  unfold appendData; split <;> rfl

@[simp] theorem appendData_lastOpcodeIndex (b : Bytes) (e : Enc) : (appendData b e).lastOpcodeIndex = e.lastOpcodeIndex := by
  unfold appendData; split <;> rfl

@[simp] theorem appendData_sink (b : Bytes) (e : Enc) : (appendData b e).sink = e.sink := by
  unfold appendData; split <;> rfl

@[simp] theorem appendAddress_interleaved (b : Bytes) (e : Enc) : (appendAddress b e).interleaved = e.interleaved := by
  unfold appendAddress; split <;> rfl

@[simp] theorem appendAddress_customTable (b : Bytes) (e : Enc) : (appendAddress b e).customTable = e.customTable := by
  unfold appendAddress; split <;> rfl

@[simp] theorem appendAddress_maxMode (b : Bytes) (e : Enc) : (appendAddress b e).maxMode = e.maxMode := by
  unfold appendAddress; split <;> rfl

@[simp] theorem appendAddress_cache (b : Bytes) (e : Enc) : (appendAddress b e).cache = e.cache := by
  unfold appendAddress; split <;> rfl

@[simp] theorem appendAddress_etab (b : Bytes) (e : Enc) : (appendAddress b e).etab = e.etab := by
  unfold appendAddress; split <;> rfl

@[simp] theorem appendAddress_state (b : Bytes) (e : Enc) : (appendAddress b e).state = e.state := by
  unfold appendAddress; split <;> rfl

@[simp] theorem appendAddress_errKind (b : Bytes) (e : Enc) : (appendAddress b e).errKind = e.errKind := by
  unfold appendAddress; split <;> rfl

@[simp] theorem appendAddress_errCause (b : Bytes) (e : Enc) : (appendAddress b e).errCause = e.errCause := by
  unfold appendAddress; split <;> rfl

@[simp] theorem appendAddress_hasChecksum (b : Bytes) (e : Enc) : (appendAddress b e).hasChecksum = e.hasChecksum := by
  unfold appendAddress; split <;> rfl

@[simp] theorem appendAddress_mapBuilt (b : Bytes) (e : Enc) : (appendAddress b e).mapBuilt = e.mapBuilt := by
  unfold appendAddress; split <;> rfl

@[simp] theorem appendAddress_dictSize (b : Bytes) (e : Enc) : (appendAddress b e).dictSize = e.dictSize := by
  unfold appendAddress; split <;> rfl

@[simp] theorem appendAddress_targetLen (b : Bytes) (e : Enc) : (appendAddress b e).targetLen = e.targetLen := by
  unfold appendAddress; split <;> rfl

@[simp] theorem appendAddress_insts (b : Bytes) (e : Enc) : (appendAddress b e).insts = if e.interleaved then e.insts ++ b else e.insts := by
  unfold appendAddress; split <;> simp_all [memAppend]

@[simp] theorem appendAddress_data (b : Bytes) (e : Enc) : (appendAddress b e).data = e.data := by
  unfold appendAddress; split <;> rfl

@[simp] theorem appendAddress_addrs (b : Bytes) (e : Enc) : (appendAddress b e).addrs = if e.interleaved then e.addrs else e.addrs ++ b := by
  unfold appendAddress; split <;> simp_all [memAppend]

@[simp] theorem appendAddress_checksum (b : Bytes) (e : Enc) : (appendAddress b e).checksum = e.checksum := by
  unfold appendAddress; split <;> rfl

@[simp] theorem appendAddress_lastOpcodeIndex (b : Bytes) (e : Enc) : (appendAddress b e).lastOpcodeIndex = e.lastOpcodeIndex := by
  unfold appendAddress; split <;> rfl

@[simp] theorem appendAddress_sink (b : Bytes) (e : Enc) : (appendAddress b e).sink = e.sink := by
  unfold appendAddress; split <;> rfl

end Sys2Proof.Machine
end

