-- ==== Sys2Proof/Laws/Units.lean ====
section
/-! SUPPORT. What the unit operations can answer: one lemma per operation, cited instead of unfolding it. -/

namespace Sys2Proof.Machine

open Sys2Proof.Safety

/-! ## VARINT -/

/-- A value answered by the loop of `VI_READ`: the cursor moved by at least one byte, inside the limit, and the value fits. -/
theorem viReadLoop_value {width : Nat} {src : Bytes} {lim left cur acc v c : Nat}
    (h : viReadLoop width src lim left cur acc = .value v c) :
    cur < c ∧ c ≤ lim ∧ c ≤ src.length ∧ c ≤ cur + left ∧ v < 2 ^ width := by
  induction left generalizing cur acc with
  | zero => simp [viReadLoop] at h
  | succ n ih =>
    rw [viReadLoop] at h
    split at h
    · simp at h
    · split at h
      · simp at h
      · rename_i b hb
        have hlt : cur < src.length := by
          rw [List.getElem?_eq_some_iff] at hb; exact hb.1
        split at h
        · split at h
          · simp at h
          · simp only [ReadOut.value.injEq] at h
            omega
        · have := ih h; omega

/-- `VI_READ` in the same terms (R133). -/
theorem viRead_value {width : Nat} {src : Bytes} {cur lim v c : Nat} (h : viRead width src cur lim = .value v c) :
    cur < c ∧ c ≤ lim ∧ c ≤ src.length ∧ c ≤ cur + viMaxBytes width ∧ v < 2 ^ width :=
  viReadLoop_value h

/-- The only error of the loop of `VI_READ` is the overflow. -/
theorem viReadLoop_error {width : Nat} {src : Bytes} {lim left cur acc : Nat} {e : UnitError}
    (h : viReadLoop width src lim left cur acc = .error e) : e = .varIntOverflow := by
  induction left generalizing cur acc with
  | zero => simp [viReadLoop] at h; exact h.symm
  | succ n ih =>
    rw [viReadLoop] at h
    split at h
    · simp at h
    · split at h
      · simp at h
      · split at h
        · split at h
          · simp at h; exact h.symm
          · simp at h
        · exact ih h

theorem viRead_error {width : Nat} {src : Bytes} {cur lim : Nat} {e : UnitError}
    (h : viRead width src cur lim = .error e) : e = .varIntOverflow :=
  viReadLoop_error h

/-- `BYTE_READ` answers the byte at the cursor, or wants more (R137). -/
theorem byteRead_value {src : Bytes} {cur lim v c : Nat} (h : byteRead src cur lim = .value v c) :
    cur < lim ∧ c = cur + 1 ∧ ∃ b, src[cur]? = some b ∧ v = b.toNat := by
  unfold byteRead at h
  split at h
  · simp at h
  · split at h
    · simp at h
    · rename_i b hb
      simp only [ReadOut.value.injEq] at h
      exact ⟨by omega, h.2.symm, b, hb, h.1.symm⟩

theorem byteRead_not_error {src : Bytes} {cur lim : Nat} {e : UnitError} : byteRead src cur lim ≠ .error e := by
  unfold byteRead
  split
  · simp
  · split <;> simp

/-- The bytes of a written VarInt are as many as `VI_LEN` says (R131). -/
@[simp] theorem viWrite_length (v : Nat) : (viWrite v).length = viLen v := by simp [viWrite]

/-! ## Spaces -/

/-- `MemRead` answers exactly the bytes of the range, and only if all its addresses exist (R8, R65). -/
theorem memRead_eq_some {space : Bytes} {addr n : Nat} {b : Bytes} :
    memRead space addr n = some b ↔ addr + n ≤ space.length ∧ b = (space.drop addr).take n := by
  unfold memRead
  split
  · rename_i h; simp [h, eq_comm]
  · rename_i h; simp [h]

/-- Appending leaves every existing address as it was (R8). -/
theorem memByte_append {space v : Bytes} {a : Nat} (h : a < space.length) :
    memByte (memAppend space v) a = memByte space a := by
  simp [memByte, memAppend, List.getElem?_append_left h]

theorem cellsFrom_wf (a : Nat) (space : Bytes) : Memory.wf (cellsFrom a space) = true := by
  induction space generalizing a with
  | nil => rfl
  | cons x rest ih =>
    cases rest with
    | nil => rfl
    | cons y rest =>
      have := ih (a + 1)
      simp only [cellsFrom] at this ⊢
      simp [Memory.wf, this]

/-- The pairs of every space are in the canonical form, so every memory operation keeps it. -/
theorem spaceCells_wf (space : Bytes) : Memory.wf (spaceCells space) = true := cellsFrom_wf 0 space

theorem cellsFrom_inj {a : Nat} {x y : Bytes} (h : cellsFrom a x = cellsFrom a y) : x = y := by
  induction x generalizing a y with
  | nil => cases y <;> simp_all [cellsFrom]
  | cons b rest ih =>
    cases y with
    | nil => simp [cellsFrom] at h
    | cons c rest' =>
      simp only [cellsFrom, List.cons.injEq, Prod.mk.injEq, true_and] at h
      rw [h.1, ih h.2]

/-- Equal spaces are equal data: the pairs determine the bytes. -/
theorem spaceCells_inj {x y : Bytes} (h : spaceCells x = spaceCells y) : x = y := cellsFrom_inj h

/-! ## ACACHE -/

theorem freshCache_ok (n k : Nat) (fn : SameIndexFn) : CacheOk (freshCache n k fn) := by
  refine ⟨by simp [freshCache], by simp [freshCache], ?_, ?_, ?_⟩
  · simp only [freshCache]
    split
    · trivial
    · omega
  · intro a ha; rw [List.eq_of_mem_replicate ha]; omega
  · intro a ha; rw [List.eq_of_mem_replicate ha]; omega

@[simp] theorem freshCache_nearSize (n k : Nat) (fn : SameIndexFn) : (freshCache n k fn).nearSize = n := rfl
@[simp] theorem freshCache_sameSize (n k : Nat) (fn : SameIndexFn) : (freshCache n k fn).sameSize = k := rfl
@[simp] theorem freshCache_indexFn (n k : Nat) (fn : SameIndexFn) : (freshCache n k fn).indexFn = fn := rfl

theorem acInit_ok (c : AddrCache) : CacheOk (acInit c) := freshCache_ok _ _ _

@[simp] theorem acInit_nearSize (c : AddrCache) : (acInit c).nearSize = c.nearSize := rfl
@[simp] theorem acInit_sameSize (c : AddrCache) : (acInit c).sameSize = c.sameSize := rfl
@[simp] theorem acInit_indexFn (c : AddrCache) : (acInit c).indexFn = c.indexFn := rfl

@[simp] theorem acUpdate_nearSize (c : AddrCache) (a : Nat) : (acUpdate c a).nearSize = c.nearSize := by
  unfold acUpdate acPutSame acPutNear; split <;> split <;> rfl

@[simp] theorem acUpdate_sameSize (c : AddrCache) (a : Nat) : (acUpdate c a).sameSize = c.sameSize := by
  unfold acUpdate acPutSame acPutNear; split <;> split <;> rfl

@[simp] theorem acUpdate_indexFn (c : AddrCache) (a : Nat) : (acUpdate c a).indexFn = c.indexFn := by
  unfold acUpdate acPutSame acPutNear; split <;> split <;> rfl

theorem acUpdate_near (c : AddrCache) (a : Nat) :
    (acUpdate c a).near = if 0 < c.nearSize then c.near.set c.nextSlot a else c.near := by
  unfold acUpdate acPutSame acPutNear; split <;> split <;> rfl

theorem acUpdate_nextSlot (c : AddrCache) (a : Nat) :
    (acUpdate c a).nextSlot = if 0 < c.nearSize then (c.nextSlot + 1) % c.nearSize else c.nextSlot := by
  unfold acUpdate acPutSame acPutNear; split <;> split <;> rfl

theorem acUpdate_same (c : AddrCache) (a : Nat) :
    (acUpdate c a).same = if 0 < c.sameSize then c.same.set (sameIndex c a) a else c.same := by
  unfold acUpdate acPutSame acPutNear sameIndex; split <;> split <;> simp_all

theorem acUpdate_ok {c : AddrCache} (h : CacheOk c) {a : Nat} (ha : a < 4294967296) : CacheOk (acUpdate c a) := by
  obtain ⟨h1, h2, h3, h4, h5⟩ := h
  have set : ∀ {l : List Nat} {i : Nat}, (∀ x ∈ l, x < 4294967296) → ∀ x ∈ l.set i a, x < 4294967296 := by
    intro l i hl x hx
    rcases List.mem_or_eq_of_mem_set hx with hx | rfl
    · exact hl x hx
    · exact ha
  refine ⟨?_, ?_, ?_, ?_, ?_⟩
  · rw [acUpdate_near]; split <;> simp [h1]
  · rw [acUpdate_same]; split <;> simp [h2]
  · rw [acUpdate_nextSlot, acUpdate_nearSize]
    by_cases h0 : c.nearSize = 0
    · simp_all
    · have : (c.nextSlot + 1) % c.nearSize < c.nearSize := Nat.mod_lt _ (by omega)
      simp [h0, Nat.pos_of_ne_zero h0, this]
  · rw [acUpdate_near]; split
    · exact set h4
    · exact h4
  · rw [acUpdate_same]; split
    · exact set h5
    · exact h5

theorem acAccept_value {c c' : AddrCache} {here addr cur cur' : Nat} {a : Int}
    (h : acAccept c here a cur = .value addr cur' c') :
    addr < here ∧ addr < 4294967296 ∧ cur' = cur ∧ c' = acUpdate c addr ∧ a = (addr : Int) := by
  unfold acAccept at h
  split at h
  · simp at h
  · simp only [AcOut.value.injEq] at h
    obtain ⟨h1, h2, h3⟩ := h
    subst h1
    exact ⟨by omega, by omega, h2.symm, h3.symm, by omega⟩

/-- A value answered by `AC_DECODE` (R196): in range, 32 bits wide, the cursor moved inside the limit, the cache updated with it. -/
theorem acDecode_value {c c' : AddrCache} {here mode : Nat} {src : Bytes} {cur lim addr cur' : Nat}
    (h : acDecode c here mode src cur lim = .value addr cur' c') :
    addr < here ∧ addr < 4294967296 ∧ cur < cur' ∧ cur' ≤ lim ∧ c' = acUpdate c addr := by
  unfold acDecode at h
  split at h
  · split at h
    · simp at h
    · simp at h
    · rename_i v c1 hv
      split at h
      · simp at h
      · have h1 := viRead_value hv
        have h2 := acAccept_value h
        exact ⟨h2.1, h2.2.1, by omega, by omega, h2.2.2.2.1⟩
  · split at h
    · simp at h
    · simp at h
    · rename_i b c1 hb
      unfold acDecodeSame at h
      split at h
      · simp at h
      · split at h
        · simp at h
        · have h1 := byteRead_value hb
          have h2 := acAccept_value h
          exact ⟨h2.1, h2.2.1, by omega, by omega, h2.2.2.2.1⟩

/-- `AC_DECODE` finds an entry for every mode up to `max_mode` (R196). -/
theorem acDecode_has_entry {c : AddrCache} (hc : CacheOk c) {here mode : Nat} (hm : mode ≤ 1 + c.nearSize + c.sameSize)
    (src : Bytes) (cur lim : Nat) : acDecode c here mode src cur lim ≠ .noEntry := by
  obtain ⟨h1, h2, -⟩ := hc
  unfold acDecode
  split
  · rename_i hlt
    split
    · simp
    · simp
    · rename_i v c1 hv
      have : acVarIntAddress c here mode v ≠ none := by
        unfold acVarIntAddress
        split
        · simp
        · split
          · simp
          · have : mode - 2 < c.near.length := by omega
            simp [List.getElem?_eq_getElem this]
      split
      · contradiction
      · unfold acAccept; split <;> simp
  · rename_i hge
    split
    · simp
    · simp
    · rename_i b c1 hb
      obtain ⟨-, -, x, -, rfl⟩ := byteRead_value hb
      have hx := x.isLt
      have : (mode - 2 - c.nearSize) * 256 + x.toNat < c.same.length := by
        have : mode - 2 - c.nearSize + 1 ≤ c.sameSize := by omega
        have := Nat.mul_le_mul_right 256 this
        omega
      unfold acDecodeSame
      rw [List.getElem?_eq_getElem this]
      dsimp only
      split
      · simp
      · unfold acAccept; split <;> simp

/-! ## CTAB -/

theorem instKind_kindCode (k : InstKind) : instKind (kindCode k) = some k := by cases k <;> rfl

theorem instKind_some_of_le {b : Byte} (h : b.toNat ≤ 3) : ∃ k, instKind b = some k := by
  have : b = 0 ∨ b = 1 ∨ b = 2 ∨ b = 3 := by
    have : b.toNat = 0 ∨ b.toNat = 1 ∨ b.toNat = 2 ∨ b.toNat = 3 := by omega
    rcases this with h | h | h | h
    · exact .inl (BitVec.eq_of_toNat_eq h)
    · exact .inr (.inl (BitVec.eq_of_toNat_eq h))
    · exact .inr (.inr (.inl (BitVec.eq_of_toNat_eq h)))
    · exact .inr (.inr (.inr (BitVec.eq_of_toNat_eq h)))
  rcases this with rfl | rfl | rfl | rfl
  · exact ⟨.noop, rfl⟩
  · exact ⟨.add, rfl⟩
  · exact ⟨.run, rfl⟩
  · exact ⟨.copy, rfl⟩

/-- The row of an opcode in a table of 256 rows is one of its rows. -/
theorem tableRow_mem {t : Table} (h : t.length = 256) (op : Byte) : tableRow t op ∈ t := by
  have hlt : op.toNat < t.length := by have := op.isLt; omega
  unfold tableRow
  rw [List.getD_eq_getElem?_getD, List.getElem?_eq_getElem hlt]
  simp

/-- Every row of a valid table satisfies V1 to V3 (R152). -/
theorem rowValid_of_tabValid {t : Table} {mm : Nat} (hv : tabValid t mm = true) {r : Row} (hr : r ∈ t) :
    rowValid mm r = true := by
  unfold tabValid at hv
  simp only [Bool.and_eq_true, List.all_eq_true] at hv
  exact hv.1.1.1 r hr

/-- A valid half has a type, and a COPY half a mode that the caches have (R152). -/
def HalfOk (mm : Nat) (h : Half) : Prop := ∃ k, instKind h.inst = some k ∧ (k = .copy → h.mode.toNat ≤ mm)

theorem halfOk_of (mm : Nat) (h : Half) (h1 : h.inst.toNat ≤ 3)
    (h2 : (h.inst != kindCode .copy || decide (h.mode.toNat ≤ mm)) = true) : HalfOk mm h := by
  obtain ⟨k, hk⟩ := instKind_some_of_le h1
  refine ⟨k, hk, ?_⟩
  rintro rfl
  have : h.inst = kindCode .copy := by
    unfold instKind at hk
    repeat (split at hk; · simp at hk)
    split at hk
    · assumption
    · simp at hk
  simpa [this] using h2

/-- Both halves of the row of an opcode of a valid table are valid. -/
theorem idec_halfOk {t : Table} {mm : Nat} (hl : t.length = 256) (hv : tabValid t mm = true) (op : Byte) :
    HalfOk mm (idec t op).1 ∧ HalfOk mm (idec t op).2 := by
  have := rowValid_of_tabValid hv (tableRow_mem hl op)
  unfold rowValid at this
  simp only [Bool.and_eq_true, decide_eq_true_eq] at this
  exact ⟨halfOk_of _ _ this.1.1.1.1 this.1.1.2, halfOk_of _ _ this.1.1.1.2 this.1.2⟩

theorem unpackImage_length (img : Bytes) : (unpackImage img).length = 256 := by simp [unpackImage]

theorem defTab_length : defTab.length = 256 := by decide +kernel

theorem defTab_valid : tabValid defTab 8 = true := by decide +kernel

/-- An element of a column of a table. -/
theorem getElem?_column {α : Type} {t : Table} (h : t.length = 256) (f : Row → α) (op : Byte) :
    (t.map f)[op.toNat]? = some (f (tableRow t op)) := by
  have hop := op.isLt
  unfold tableRow
  rw [List.getElem?_map, List.getD_eq_getElem?_getD, List.getElem?_eq_getElem (by omega)]
  rfl

/-- A place in the columns of an image. -/
theorem getD_image {t : Table} (h : t.length = 256) (n : Nat) (hn : n < 256) :
    (packImage t).getD n 0 = (tableRow t (BitVec.ofNat 8 n)).first.inst ∧
    (packImage t).getD (256 + n) 0 = (tableRow t (BitVec.ofNat 8 n)).second.inst ∧
    (packImage t).getD (512 + n) 0 = (tableRow t (BitVec.ofNat 8 n)).first.size ∧
    (packImage t).getD (768 + n) 0 = (tableRow t (BitVec.ofNat 8 n)).second.size ∧
    (packImage t).getD (1024 + n) 0 = (tableRow t (BitVec.ofNat 8 n)).first.mode ∧
    (packImage t).getD (1280 + n) 0 = (tableRow t (BitVec.ofNat 8 n)).second.mode := by
  have hc : ∀ f : Row → Byte, (t.map f)[n]? = some (f (tableRow t (BitVec.ofNat 8 n))) := by
    intro f
    have := getElem?_column h f (BitVec.ofNat 8 n)
    rwa [BitVec.toNat_ofNat, Nat.mod_eq_of_lt (by omega)] at this
  have hl : ∀ f : Row → Byte, (t.map f).length = 256 := fun f => by rw [List.length_map, h]
  have skip : ∀ (f : Row → Byte) (m : Bytes) (k : Nat), (t.map f ++ m)[256 + k]? = m[k]? := by
    intro f m k
    rw [List.getElem?_append_right (by rw [hl]; omega), hl, Nat.add_sub_cancel_left]
  have here : ∀ (f : Row → Byte) (m : Bytes), (t.map f ++ m)[n]? = (t.map f)[n]? := fun f m =>
    List.getElem?_append_left (by rw [hl]; exact hn)
  have e2 : 512 + n = 256 + (256 + n) := by omega
  have e3 : 768 + n = 256 + (256 + (256 + n)) := by omega
  have e4 : 1024 + n = 256 + (256 + (256 + (256 + n))) := by omega
  have e5 : 1280 + n = 256 + (256 + (256 + (256 + (256 + n)))) := by omega
  simp only [List.getD_eq_getElem?_getD, packImage, List.append_assoc, e2, e3, e4, e5]
  simp only [skip, here, hc, Option.getD_some, and_self]

/-- Loading the image of a table gives the table back (R112, R160). -/
theorem unpackImage_packImage {t : Table} (h : t.length = 256) : unpackImage (packImage t) = t := by
  apply List.ext_getElem (by rw [unpackImage_length, h])
  intro i h1 h2
  have hi : i < 256 := by omega
  obtain ⟨a, b, c, d, e, f⟩ := getD_image h i hi
  have er : tableRow t (BitVec.ofNat 8 i) = t[i] := by
    unfold tableRow
    rw [BitVec.toNat_ofNat, Nat.mod_eq_of_lt (by omega), List.getD_eq_getElem?_getD, List.getElem?_eq_getElem h2]
    rfl
  simp only [unpackImage, List.getElem_map, List.getElem_range, imageRow, a, b, c, d, e, f, er]

end Sys2Proof.Machine
end

