-- ==== Sys2Proof/Laws/Replay.lean ====
section
/-! SUPPORT. What the replay of delta instructions can do: the frame of every rule of Machine/Operands.lean and
Machine/Replay.lean (`Replayed`), the window invariant it keeps, and that it stops nowhere. -/

namespace Sys2Proof.Machine

open Sys2Proof.Safety

/-! ## The frame of the replay -/

/-- Everything the replay of instructions can change from `d` to `d'`: the lint flag, and of the active context the cursors
(which only increase), `PREV_INST`, the contents of the cache, and `TW`, which only grows. -/
structure Replayed (d d' : Dec) : Prop where
  eq : d' = setActive (activeCtx d') { d with lintAddAdd := d'.lintAddAdd }
  dtarget : (activeCtx d').dtarget = (activeCtx d).dtarget
  total : (activeCtx d').totalTargetLen = (activeCtx d).totalTargetLen
  win : activeWin d' = { activeWin d with
    ip := (activeWin d').ip, dp := (activeWin d').dp, ap := (activeWin d').ap, prevInst := (activeWin d').prevInst }
  ip_le : (activeWin d).ip ≤ (activeWin d').ip
  dp_le : (activeWin d).dp ≤ (activeWin d').dp
  ap_le : (activeWin d).ap ≤ (activeWin d').ap
  tw : (activeCtx d).tw <+: (activeCtx d').tw
  nearSize : (activeCtx d').cache.nearSize = (activeCtx d).cache.nearSize
  sameSize : (activeCtx d').cache.sameSize = (activeCtx d).cache.sameSize
  indexFn : (activeCtx d').cache.indexFn = (activeCtx d).cache.indexFn

theorem setActive_lint_self (d : Dec) : setActive (activeCtx d) { d with lintAddAdd := d.lintAddAdd } = d := by
  show setActive (activeCtx d) d = d
  simp

theorem setActive_over (x y : Ctx) (d : Dec) (b : Bool) :
    setActive x { setActive y d with lintAddAdd := b } = setActive x { d with lintAddAdd := b } := by
  unfold setActive; cases d.nested <;> rfl

theorem Replayed.refl (d : Dec) : Replayed d d :=
  ⟨(setActive_lint_self d).symm, rfl, rfl, rfl, Nat.le_refl _, Nat.le_refl _, Nat.le_refl _, List.prefix_rfl, rfl, rfl, rfl⟩

theorem Replayed.trans {a b c : Dec} (h : Replayed a b) (k : Replayed b c) : Replayed a c where
  eq := by
    rw [k.eq]
    generalize activeCtx c = x
    generalize c.lintAddAdd = y
    rw [h.eq]
    simpa using setActive_over x (activeCtx b) { a with lintAddAdd := b.lintAddAdd } y
  dtarget := k.dtarget.trans h.dtarget
  total := k.total.trans h.total
  win := by rw [k.win, h.win]
  ip_le := Nat.le_trans h.ip_le k.ip_le
  dp_le := Nat.le_trans h.dp_le k.dp_le
  ap_le := Nat.le_trans h.ap_le k.ap_le
  tw := h.tw.trans k.tw
  nearSize := k.nearSize.trans h.nearSize
  sameSize := k.sameSize.trans h.sameSize
  indexFn := k.indexFn.trans h.indexFn

theorem replayed_of_setActive (c : Ctx) (d : Dec) (b : Bool)
    (h1 : c.dtarget = (activeCtx d).dtarget) (h2 : c.totalTargetLen = (activeCtx d).totalTargetLen)
    (h3 : c.win = { activeWin d with ip := c.win.ip, dp := c.win.dp, ap := c.win.ap, prevInst := c.win.prevInst })
    (h4 : (activeWin d).ip ≤ c.win.ip) (h5 : (activeWin d).dp ≤ c.win.dp) (h6 : (activeWin d).ap ≤ c.win.ap)
    (h7 : (activeCtx d).tw <+: c.tw) (h8 : c.cache.nearSize = (activeCtx d).cache.nearSize)
    (h9 : c.cache.sameSize = (activeCtx d).cache.sameSize) (h10 : c.cache.indexFn = (activeCtx d).cache.indexFn) :
    Replayed d (setActive c { d with lintAddAdd := b }) :=
  ⟨by simp, by simpa using h1, by simpa using h2, by simpa using h3, by simpa using h4, by simpa using h5,
    by simpa using h6, by simpa using h7, by simpa using h8, by simpa using h9, by simpa using h10⟩

theorem replayed_setActive (c : Ctx) (d : Dec)
    (h1 : c.dtarget = (activeCtx d).dtarget) (h2 : c.totalTargetLen = (activeCtx d).totalTargetLen)
    (h3 : c.win = { activeWin d with ip := c.win.ip, dp := c.win.dp, ap := c.win.ap, prevInst := c.win.prevInst })
    (h4 : (activeWin d).ip ≤ c.win.ip) (h5 : (activeWin d).dp ≤ c.win.dp) (h6 : (activeWin d).ap ≤ c.win.ap)
    (h7 : (activeCtx d).tw <+: c.tw) (h8 : c.cache.nearSize = (activeCtx d).cache.nearSize)
    (h9 : c.cache.sameSize = (activeCtx d).cache.sameSize) (h10 : c.cache.indexFn = (activeCtx d).cache.indexFn) :
    Replayed d (setActive c d) :=
  replayed_of_setActive c d d.lintAddAdd h1 h2 h3 h4 h5 h6 h7 h8 h9 h10

theorem replayed_setIp {v : Nat} {d : Dec} (h : (activeWin d).ip ≤ v) : Replayed d (setIp v d) := by
  rw [setIp_eq]
  exact replayed_setActive _ d rfl rfl rfl h (Nat.le_refl _) (Nat.le_refl _) List.prefix_rfl rfl rfl rfl

theorem replayed_setDp {v : Nat} {d : Dec} (h : (activeWin d).dp ≤ v) : Replayed d (setDp v d) := by
  rw [setDp_eq]
  exact replayed_setActive _ d rfl rfl rfl (Nat.le_refl _) h (Nat.le_refl _) List.prefix_rfl rfl rfl rfl

theorem replayed_setAp {v : Nat} {d : Dec} (h : (activeWin d).ap ≤ v) : Replayed d (setAp v d) := by
  rw [setAp_eq]
  exact replayed_setActive _ d rfl rfl rfl (Nat.le_refl _) (Nat.le_refl _) h List.prefix_rfl rfl rfl rfl

theorem replayed_appendTw (b : Bytes) (d : Dec) : Replayed d (appendTw b d) := by
  rw [appendTw_eq]
  exact replayed_setActive _ d rfl rfl rfl (Nat.le_refl _) (Nat.le_refl _) (Nat.le_refl _) (List.prefix_append _ _)
    rfl rfl rfl

theorem replayed_lint (k : InstKind) (d : Dec) : Replayed d (lint k d) := by
  rw [lint_eq]
  exact replayed_of_setActive _ d _ rfl rfl rfl (Nat.le_refl _) (Nat.le_refl _) (Nat.le_refl _) List.prefix_rfl
    rfl rfl rfl

theorem replayed_setCache {c : AddrCache} {d : Dec} (h1 : c.nearSize = (activeCtx d).cache.nearSize)
    (h2 : c.sameSize = (activeCtx d).cache.sameSize) (h3 : c.indexFn = (activeCtx d).cache.indexFn) :
    Replayed d (setCache c d) :=
  replayed_setActive _ d rfl rfl rfl (Nat.le_refl _) (Nat.le_refl _) (Nat.le_refl _) List.prefix_rfl h1 h2 h3

/-- What the replay leaves alone of the whole decoder. -/
theorem Replayed.frame {d d' : Dec} (h : Replayed d d') :
    d'.pending = d.pending ∧ d'.sink = d.sink ∧ d'.state = d.state ∧ d'.interleaved = d.interleaved ∧
    d'.hasChecksum = d.hasChecksum ∧ d'.dtab = d.dtab ∧ d'.maxMode = d.maxMode ∧ d'.dict = d.dict ∧
    d'.dictSize = d.dictSize ∧ d'.freeCount = d.freeCount ∧ d'.replaying = d.replaying ∧
    d'.errKind = d.errKind ∧ d'.errCause = d.errCause := by
  have e := h.eq
  refine ⟨?_, ?_, ?_, ?_, ?_, ?_, ?_, ?_, ?_, ?_, ?_, ?_, ?_⟩ <;> (rw [e]; simp)

/-- What the replay leaves alone of the policy registers. -/
theorem Replayed.caps {d d' : Dec} (h : Replayed d d') :
    d'.allowVcdTarget = d.allowVcdTarget ∧ d'.maxTargetFileSize = d.maxTargetFileSize ∧
    d'.maxTargetWindowSize = d.maxTargetWindowSize ∧ d'.maxSectionSize = d.maxSectionSize := by
  have e := h.eq
  refine ⟨?_, ?_, ?_, ?_⟩ <;> (rw [e]; simp)

theorem Replayed.activeTab_eq {d d' : Dec} (h : Replayed d d') : activeTab d' = activeTab d := by rw [h.eq]; simp

theorem Replayed.activeDict_eq {d d' : Dec} (h : Replayed d d') : activeDict d' = activeDict d := by rw [h.eq]; simp

theorem Replayed.nested_isSome {d d' : Dec} (h : Replayed d d') : d'.nested.isSome = d.nested.isSome := by
  rw [h.eq]; simp

/-- The outer context of a decoder whose nested context is in replay is untouched; otherwise it is the active one. -/
theorem Replayed.outer {d d' : Dec} (h : Replayed d d') :
    d'.ctx.dtarget = d.ctx.dtarget ∧ d'.ctx.totalTargetLen = d.ctx.totalTargetLen ∧
    d'.ctx.cache.nearSize = d.ctx.cache.nearSize ∧ d'.ctx.cache.sameSize = d.ctx.cache.sameSize ∧
    d'.ctx.cache.indexFn = d.ctx.cache.indexFn := by
  cases hn : d.nested with
  | none =>
    have hn' : d'.nested = none := by have := h.nested_isSome; rw [hn] at this; simpa using this
    have h1 := h.dtarget; have h2 := h.total; have h3 := h.nearSize; have h4 := h.sameSize; have h5 := h.indexFn
    rw [activeCtx_of_none _ hn, activeCtx_of_none _ hn'] at h1 h2 h3 h4 h5
    exact ⟨h1, h2, h3, h4, h5⟩
  | some n =>
    have e := h.eq
    rw [setActive_of_some _ { d with lintAddAdd := d'.lintAddAdd } n hn] at e
    rw [e]
    exact ⟨rfl, rfl, rfl, rfl, rfl⟩

/-- The nested context keeps its phase and parameters. -/
theorem Replayed.nested_eq {d d' : Dec} {n : Nested} (h : Replayed d d') (hn : d.nested = some n) :
    d'.nested = some { n with ctx := activeCtx d' } := by
  have e := h.eq
  rw [setActive_of_some _ { d with lintAddAdd := d'.lintAddAdd } n hn] at e
  exact congrArg Dec.nested e

/-! ## Sections and segments do not change -/

theorem Replayed.sections {d d' : Dec} (h : Replayed d d') :
    dataSec d' = dataSec d ∧ instSec d' = instSec d ∧ addrSec d' = addrSec d ∧ windowLen d' = windowLen d := by
  have hp := h.frame.1
  have hw := h.win
  refine ⟨?_, ?_, ?_, ?_⟩ <;> simp only [dataSec, instSec, addrSec, windowLen, hp] <;> rw [hw]

theorem Replayed.segmentOk {d d' : Dec} (h : Replayed d d') (hs : SegmentOk d) : SegmentOk d' := by
  have hw := h.win
  unfold SegmentOk at *
  rw [hw, h.activeDict_eq, h.dtarget]
  exact hs

theorem Replayed.widthsOk {d d' : Dec} (h : Replayed d d') (hs : WidthsOk d) : WidthsOk d' := by
  have hw := h.win
  unfold WidthsOk at *
  rw [hw, h.total]
  exact hs

/-! ## Outcomes -/

/-- A property of the decoder a rule of the replay hands back, whether it goes on or raises. -/
def Run.All (P : Dec → Prop) : Run → Prop
  | .ok d => P d
  | .raise _ d => P d
  | .fault _ => True

theorem Run.All.mono {P Q : Dec → Prop} {r : Run} (h : r.All P) (k : ∀ d, P d → Q d) : r.All Q := by
  cases r with
  | ok d => exact k d h
  | raise c d => exact k d h
  | fault f => trivial

theorem Run.All.andThen {P : Dec → Prop} {r : Run} {k : Dec → Run} (h : r.All P) (hk : ∀ d, P d → (k d).All P) :
    (r.andThen k).All P := by
  cases r with
  | ok d => exact hk d h
  | raise c d => exact h
  | fault f => trivial

theorem readSize_all {P : Dec → Prop} {d : Dec} {k : Nat → Dec → Run} (h0 : P d)
    (hk : ∀ v c, (activeWin d).ip ≤ c → (k v (setIp c d)).All P) : (readSize d k).All P := by
  unfold readSize
  split
  · exact h0
  · exact h0
  · rename_i v c hv
    exact hk v c (Nat.le_of_lt (viRead_value hv).1)

theorem replayed_setDataCur {v : Nat} {d : Dec} (h : (dataStream d).cur ≤ v) : Replayed d (setDataCur v d) := by
  unfold setDataCur
  unfold dataStream at h
  split
  · rename_i hi; rw [if_pos hi] at h; exact replayed_setIp h
  · rename_i hi; rw [if_neg hi] at h; exact replayed_setDp h

theorem replayed_setAddrCur {v : Nat} {d : Dec} (h : (addrStream d).cur ≤ v) : Replayed d (setAddrCur v d) := by
  unfold setAddrCur
  unfold addrStream at h
  split
  · rename_i hi; rw [if_pos hi] at h; exact replayed_setIp h
  · rename_i hi; rw [if_neg hi] at h; exact replayed_setAp h

theorem halfAdd_replayed (n : Nat) (d : Dec) : (halfAdd n d).All (Replayed d) := by
  unfold halfAdd readData
  split
  · exact .refl d
  · split
    · trivial
    · exact (replayed_setDataCur (Nat.le_add_right _ _)).trans (replayed_appendTw _ _)

theorem halfRun_replayed (n : Nat) (d : Dec) : (halfRun n d).All (Replayed d) := by
  unfold halfRun readDataByte
  split
  · exact .refl d
  · exact .refl d
  · rename_i v c hv
    have := byteRead_value hv
    exact (replayed_setDataCur (by omega)).trans (replayed_appendTw _ _)

theorem copyLoop_replayed (n x : Nat) (d : Dec) : (copyLoop n x d).All (Replayed d) := by
  induction n generalizing x d with
  | zero => exact .refl d
  | succ n ih =>
    rw [copyLoop]
    split
    · trivial
    · rename_i b _
      exact (ih (x + 1) (appendTw [b] d)).mono fun _ h => (replayed_appendTw [b] d).trans h

theorem setAddrCur_cache (v : Nat) (d : Dec) : (activeCtx (setAddrCur v d)).cache = (activeCtx d).cache := by
  unfold setAddrCur setIp setAp; split <;> simp

theorem halfCopy_replayed (n m : Nat) (d : Dec) : (halfCopy n m d).All (Replayed d) := by
  unfold halfCopy readAddress
  split
  · exact .refl d
  · exact .refl d
  · trivial
  · rename_i a c cache hv
    have hd := acDecode_value hv
    refine (copyLoop_replayed n a _).mono fun _ h => Replayed.trans ?_ h
    refine (replayed_setAddrCur (Nat.le_of_lt hd.2.2.1)).trans (replayed_setCache ?_ ?_ ?_)
    all_goals rw [setAddrCur_cache, hd.2.2.2.2]; simp

theorem execSized_replayed (k : InstKind) (n m : Nat) (d : Dec) : (execSized k n m d).All (Replayed d) := by
  unfold execSized
  split
  · exact .refl d
  · cases k
    · exact .refl d
    · exact (halfAdd_replayed n _).mono fun _ h => (replayed_lint .add d).trans h
    · exact (halfRun_replayed n _).mono fun _ h => (replayed_lint .run d).trans h
    · exact (halfCopy_replayed n m _).mono fun _ h => (replayed_lint .copy d).trans h

theorem execHalf_replayed (h : Half) (d : Dec) : (execHalf h d).All (Replayed d) := by
  have sized : ∀ k, (if h.size = 0 then readSize d (fun n d => execSized k n h.mode.toNat d)
      else execSized k h.size.toNat h.mode.toNat d).All (Replayed d) := by
    intro k
    split
    · refine readSize_all (.refl d) fun v c hc => ?_
      exact (execSized_replayed k v h.mode.toNat _).mono fun _ h' => (replayed_setIp hc).trans h'
    · exact execSized_replayed k h.size.toNat h.mode.toNat d
  unfold execHalf
  split
  · trivial
  · exact .refl d
  · exact sized .add
  · exact sized .run
  · exact sized .copy

theorem execRow_replayed (r : Half × Half) (d : Dec) : (execRow r d).All (Replayed d) :=
  (execHalf_replayed r.1 d).andThen fun d' h => (execHalf_replayed r.2 d').mono fun _ h' => h.trans h'

theorem execGroup_replayed (op : Byte) (d : Dec) : (execGroup op d).All (Replayed d) := execRow_replayed _ d

theorem replayOne_replayed (d : Dec) : (replayOne d).All (Replayed d) := by
  unfold replayOne
  split
  · trivial
  · exact (execGroup_replayed _ _).mono fun _ h => (replayed_setIp (Nat.le_succ _)).trans h

theorem replayLoop_replayed (fuel : Nat) (d : Dec) : (replayLoop fuel d).All (Replayed d) := by
  induction fuel generalizing d with
  | zero => exact .refl d
  | succ n ih =>
    rw [replayLoop]
    split
    · exact (replayOne_replayed d).andThen fun d' h => (ih d').mono fun _ h' => h.trans h'
    · exact .refl d

theorem replayRest_replayed (d : Dec) : (replayRest d).All (Replayed d) := replayLoop_replayed _ d

/-! ## The window invariant, and no stop -/

/-- A rule of the replay that starts in a good window: if it goes on the window is still good, and it never stops. -/
def Run.Sound : Run → Prop
  | .ok d' => WindowOk d'
  | .raise _ _ => True
  | .fault _ => False

theorem Run.Sound.andThen {r : Run} {k : Dec → Run} (h : r.Sound) (hk : ∀ d, r = .ok d → WindowOk d → (k d).Sound) :
    (r.andThen k).Sound := by
  cases r with
  | ok d => exact hk d rfl h
  | raise c d => trivial
  | fault f => exact h

/-- The instructions section of a good window has the length its register says, and so for the other two. -/
theorem windowOk_lengths {d : Dec} (h : windowLen d ≤ d.pending.length) :
    (dataSec d).length = (activeWin d).dataLen ∧ (instSec d).length = (activeWin d).instLen ∧
    (addrSec d).length = (activeWin d).addrLen := by
  unfold windowLen at h
  simp only [dataSec, instSec, addrSec, List.length_take, List.length_drop]
  omega

/-- Moving the cursors inside their sections, appending to `TW` inside the declared window and replacing the cache by a good
one keep a good window good. -/
theorem windowOk_of_replayed {d d' : Dec} (h : WindowOk d) (r : Replayed d d') (hc : CacheOk (activeCtx d').cache)
    (hi : (activeWin d').ip ≤ (activeWin d).instLen) (hd : (activeWin d').dp ≤ (activeWin d).dataLen)
    (ha : (activeWin d').ap ≤ (activeWin d).addrLen) (ht : (activeCtx d').tw.length ≤ (activeWin d).targetLen) :
    WindowOk d' := by
  obtain ⟨-, h2, h3, -, -, -, -, h8⟩ := h
  have hw := r.win
  have e1 : (activeWin d').instLen = (activeWin d).instLen := by rw [hw]
  have e2 : (activeWin d').dataLen = (activeWin d).dataLen := by rw [hw]
  have e3 : (activeWin d').addrLen = (activeWin d).addrLen := by rw [hw]
  have e4 : (activeWin d').targetLen = (activeWin d).targetLen := by rw [hw]
  refine ⟨hc, r.segmentOk h2, ?_, ?_, ?_, ?_, ?_, ?_⟩
  · rw [r.sections.2.2.2, r.frame.1]; exact h3
  · rw [e1]; exact hi
  · rw [e2]; exact hd
  · rw [e3]; exact ha
  · rw [e4]; exact ht
  · rw [r.frame.2.2.2.1, e2, e3]; exact h8

theorem windowOk_setIp {d : Dec} {v : Nat} (h : WindowOk d) (h1 : (activeWin d).ip ≤ v) (h2 : v ≤ (activeWin d).instLen) :
    WindowOk (setIp v d) := by
  have r := replayed_setIp h1
  rw [setIp_eq] at r ⊢
  obtain ⟨hc, -, -, h4, h5, h6, h7, -⟩ := id h
  exact windowOk_of_replayed h r (by simpa using hc) (by simpa using h2) (by simpa using h5) (by simpa using h6) (by simpa using h7)

theorem windowOk_setDp {d : Dec} {v : Nat} (h : WindowOk d) (h1 : (activeWin d).dp ≤ v) (h2 : v ≤ (activeWin d).dataLen) :
    WindowOk (setDp v d) := by
  have r := replayed_setDp h1
  rw [setDp_eq] at r ⊢
  obtain ⟨hc, -, -, h4, h5, h6, h7, -⟩ := id h
  exact windowOk_of_replayed h r (by simpa using hc) (by simpa using h4) (by simpa using h2) (by simpa using h6) (by simpa using h7)

theorem windowOk_setAp {d : Dec} {v : Nat} (h : WindowOk d) (h1 : (activeWin d).ap ≤ v) (h2 : v ≤ (activeWin d).addrLen) :
    WindowOk (setAp v d) := by
  have r := replayed_setAp h1
  rw [setAp_eq] at r ⊢
  obtain ⟨hc, -, -, h4, h5, h6, h7, -⟩ := id h
  exact windowOk_of_replayed h r (by simpa using hc) (by simpa using h4) (by simpa using h5) (by simpa using h2) (by simpa using h7)

theorem windowOk_setDataCur {d : Dec} {v : Nat} (h : WindowOk d) (h1 : (dataStream d).cur ≤ v)
    (h2 : v ≤ (dataStream d).lim) : WindowOk (setDataCur v d) := by
  unfold setDataCur
  unfold dataStream at h1 h2
  split
  · rename_i hi; rw [if_pos hi] at h1 h2; exact windowOk_setIp h h1 h2
  · rename_i hi; rw [if_neg hi] at h1 h2; exact windowOk_setDp h h1 h2

theorem windowOk_setAddrCur {d : Dec} {v : Nat} (h : WindowOk d) (h1 : (addrStream d).cur ≤ v)
    (h2 : v ≤ (addrStream d).lim) : WindowOk (setAddrCur v d) := by
  unfold setAddrCur
  unfold addrStream at h1 h2
  split
  · rename_i hi; rw [if_pos hi] at h1 h2; exact windowOk_setIp h h1 h2
  · rename_i hi; rw [if_neg hi] at h1 h2; exact windowOk_setAp h h1 h2

theorem windowOk_lint {d : Dec} (k : InstKind) (h : WindowOk d) : WindowOk (lint k d) := by
  have r := replayed_lint k d
  rw [lint_eq] at r ⊢
  obtain ⟨hc, -, -, h4, h5, h6, h7, -⟩ := id h
  exact windowOk_of_replayed h r (by simpa using hc) (by simpa using h4) (by simpa using h5) (by simpa using h6) (by simpa using h7)

theorem windowOk_setCache {d : Dec} {c : AddrCache} (h : WindowOk d) (hc : CacheOk c)
    (h1 : c.nearSize = (activeCtx d).cache.nearSize) (h2 : c.sameSize = (activeCtx d).cache.sameSize)
    (h3 : c.indexFn = (activeCtx d).cache.indexFn) : WindowOk (setCache c d) := by
  have r := replayed_setCache h1 h2 h3
  obtain ⟨-, -, -, h4, h5, h6, h7, -⟩ := id h
  exact windowOk_of_replayed h r (by simpa using hc) (by simpa [activeWin] using h4) (by simpa [activeWin] using h5) (by simpa [activeWin] using h6) (by simpa using h7)

theorem windowOk_appendTw {d : Dec} {b : Bytes} (h : WindowOk d)
    (ht : (activeCtx d).tw.length + b.length ≤ (activeWin d).targetLen) : WindowOk (appendTw b d) := by
  have r := replayed_appendTw b d
  rw [appendTw_eq] at r ⊢
  obtain ⟨hc, -, -, h4, h5, h6, h7, -⟩ := id h
  exact windowOk_of_replayed h r (by simpa using hc) (by simpa [activeWin] using h4) (by simpa [activeWin] using h5) (by simpa [activeWin] using h6) (by simpa using ht)

/-- The data stream of a good window has all the bytes up to its end. -/
theorem dataStream_space {d : Dec} (h : WindowOk d) : (dataStream d).lim ≤ (dataStream d).space.length := by
  have hl := windowOk_lengths h.2.2.1
  unfold dataStream instStream
  split <;> simp only <;> omega

theorem halfAdd_sound {n : Nat} {d : Dec} (h : WindowOk d)
    (ht : (activeCtx d).tw.length + n ≤ (activeWin d).targetLen) : (halfAdd n d).Sound := by
  unfold halfAdd readData
  split
  · trivial
  · rename_i hle
    have hle : (dataStream d).cur + n ≤ (dataStream d).lim := Nat.not_lt.mp hle
    have hs := dataStream_space h
    split
    · rename_i hm
      unfold memRead at hm
      rw [if_pos (by omega)] at hm
      simp at hm
    · rename_i bytes hm
      obtain ⟨-, rfl⟩ := memRead_eq_some.mp hm
      refine windowOk_appendTw (windowOk_setDataCur h (by omega) hle) ?_
      have r : Replayed d (setDataCur ((dataStream d).cur + n) d) := replayed_setDataCur (by omega)
      have e : (activeCtx (setDataCur ((dataStream d).cur + n) d)).tw = (activeCtx d).tw := by
        unfold setDataCur setIp setDp; split <;> simp
      rw [e, r.win]
      simp only [List.length_take, List.length_drop]
      omega

theorem halfRun_sound {n : Nat} {d : Dec} (h : WindowOk d)
    (ht : (activeCtx d).tw.length + n ≤ (activeWin d).targetLen) : (halfRun n d).Sound := by
  unfold halfRun readDataByte
  split
  · trivial
  · trivial
  · rename_i v c hv
    have hb := byteRead_value hv
    refine windowOk_appendTw (windowOk_setDataCur h (by omega) (by omega)) ?_
    have r : Replayed d (setDataCur c d) := replayed_setDataCur (by omega)
    have e : (activeCtx (setDataCur c d)).tw = (activeCtx d).tw := by
      unfold setDataCur setIp setDp; split <;> simp
    rw [e, r.win]
    simpa using ht

/-- Every address below `here` can be read (R65, R266). -/
theorem readU_isSome {d : Dec} (h : SegmentOk d) {x : Nat} (hx : x < hereOf d) : ∃ b, readU d x = some b := by
  unfold readU
  unfold hereOf at hx
  split
  · rename_i hlt
    unfold readSegment
    unfold SegmentOk at h
    split
    · rename_i hs; rw [hs] at h; simp only at h; omega
    · rename_i hs; rw [hs] at h; simp only at h
      exact ⟨_, List.getElem?_eq_getElem (by omega)⟩
    · rename_i hs; rw [hs] at h; simp only at h
      exact ⟨_, List.getElem?_eq_getElem (by omega)⟩
  · exact ⟨_, List.getElem?_eq_getElem (by omega)⟩

theorem hereOf_appendTw (b : Bytes) (d : Dec) : hereOf (appendTw b d) = hereOf d + b.length := by
  simp only [hereOf, appendTw_eq, activeWin_setActive, activeCtx_setActive, List.length_append]
  show (activeWin d).srcSegSize + _ = _
  omega

theorem copyLoop_sound {n x : Nat} {d : Dec} (h : WindowOk d) (hx : x < hereOf d)
    (ht : (activeCtx d).tw.length + n ≤ (activeWin d).targetLen) : (copyLoop n x d).Sound := by
  induction n generalizing x d with
  | zero => exact h
  | succ n ih =>
    rw [copyLoop]
    obtain ⟨b, hb⟩ := readU_isSome h.2.1 hx
    rw [hb]
    refine ih (windowOk_appendTw h (by simp; omega)) ?_ ?_
    · rw [hereOf_appendTw]; simp; omega
    · simp only [appendTw_eq, activeWin_setActive, activeCtx_setActive, List.length_append, List.length_singleton]
      show _ ≤ (activeWin d).targetLen
      omega

theorem halfCopy_sound {n m : Nat} {d : Dec} (h : WindowOk d)
    (hm : m ≤ 1 + (activeCtx d).cache.nearSize + (activeCtx d).cache.sameSize)
    (ht : (activeCtx d).tw.length + n ≤ (activeWin d).targetLen) : (halfCopy n m d).Sound := by
  unfold halfCopy readAddress
  split
  · trivial
  · trivial
  · rename_i hv; exact absurd hv (acDecode_has_entry h.1 hm _ _ _)
  · rename_i a c cache hv
    obtain ⟨h1, h32, h2, h3, h4⟩ := acDecode_value hv
    have hw : WindowOk (setAddrCur c d) := windowOk_setAddrCur h (by omega) h3
    have r : Replayed d (setAddrCur c d) := replayed_setAddrCur (by omega)
    have et : (activeCtx (setAddrCur c d)).tw = (activeCtx d).tw := by
      unfold setAddrCur setIp setAp; split <;> simp
    have hw2 : WindowOk (setCache cache (setAddrCur c d)) := by
      refine windowOk_setCache hw ?_ ?_ ?_ ?_
      · rw [h4]; exact acUpdate_ok h.1 h32
      all_goals rw [setAddrCur_cache, h4]; simp
    refine copyLoop_sound hw2 ?_ ?_
    · have : hereOf (setCache cache (setAddrCur c d)) = hereOf d := by
        unfold hereOf
        have := r.win
        simp only [activeWin_setCache, activeCtx_setCache_tw, et]
        show (activeWin (setAddrCur c d)).srcSegSize + _ = _
        rw [this]
      omega
    · have := r.win
      simp only [activeWin_setCache, activeCtx_setCache_tw, et]
      show _ ≤ (activeWin (setAddrCur c d)).targetLen
      rw [this]
      exact ht

theorem execSized_sound {k : InstKind} {n m : Nat} {d : Dec} (h : WindowOk d)
    (hm : k = .copy → m ≤ 1 + (activeCtx d).cache.nearSize + (activeCtx d).cache.sameSize) :
    (execSized k n m d).Sound := by
  unfold execSized
  split
  · trivial
  · rename_i ht
    have ht : (activeCtx d).tw.length + n ≤ (activeWin d).targetLen := Nat.not_lt.mp ht
    have ht' : ∀ k, (activeCtx (lint k d)).tw.length + n ≤ (activeWin (lint k d)).targetLen := by
      intro k; simpa [lint_eq] using ht
    cases k with
    | noop => exact h
    | add => exact halfAdd_sound (windowOk_lint _ h) (ht' _)
    | run => exact halfRun_sound (windowOk_lint _ h) (ht' _)
    | copy =>
      refine halfCopy_sound (windowOk_lint _ h) ?_ (ht' _)
      simpa [lint_eq] using hm rfl

theorem execHalf_sound {mm : Nat} {hf : Half} {d : Dec} (h : WindowOk d) (hh : HalfOk mm hf)
    (hmm : mm = 1 + (activeCtx d).cache.nearSize + (activeCtx d).cache.sameSize) : (execHalf hf d).Sound := by
  obtain ⟨k, hk, hc⟩ := hh
  subst hmm
  have sized : ∀ k, (k = .copy → hf.mode.toNat ≤ 1 + (activeCtx d).cache.nearSize + (activeCtx d).cache.sameSize) →
      (if hf.size = 0 then readSize d (fun n d => execSized k n hf.mode.toNat d)
        else execSized k hf.size.toNat hf.mode.toNat d).Sound := by
    intro k hc
    split
    · unfold readSize
      split
      · trivial
      · trivial
      · rename_i v c hv
        have := viRead_value hv
        refine execSized_sound (windowOk_setIp h (by omega) (by omega)) ?_
        simpa [setIp_eq] using hc
    · exact execSized_sound h hc
  unfold execHalf
  rw [hk]
  cases k with
  | noop => exact h
  | add => exact sized .add (by simp)
  | run => exact sized .run (by simp)
  | copy => exact sized .copy hc

theorem execRow_sound {mm : Nat} {r : Half × Half} {d : Dec} (h : WindowOk d) (h1 : HalfOk mm r.1) (h2 : HalfOk mm r.2)
    (hmm : mm = 1 + (activeCtx d).cache.nearSize + (activeCtx d).cache.sameSize) : (execRow r d).Sound := by
  refine (execHalf_sound h h1 hmm).andThen fun d' he hw => execHalf_sound hw h2 ?_
  have hr := execHalf_replayed r.1 d
  rw [he] at hr
  rw [hmm, hr.nearSize, hr.sameSize]

/-- The code table in force has 256 valid rows whose modes the active cache has. -/
def ActiveTabOk (d : Dec) : Prop :=
  (activeTab d).length = 256 ∧
  tabValid (activeTab d) (1 + (activeCtx d).cache.nearSize + (activeCtx d).cache.sameSize) = true

theorem Replayed.activeTabOk {d d' : Dec} (h : Replayed d d') (ht : ActiveTabOk d) : ActiveTabOk d' := by
  unfold ActiveTabOk
  rw [h.activeTab_eq, h.nearSize, h.sameSize]
  exact ht

theorem execGroup_sound {op : Byte} {d : Dec} (h : WindowOk d) (ht : ActiveTabOk d) : (execGroup op d).Sound :=
  have hh := idec_halfOk ht.1 ht.2 op
  execRow_sound h hh.1 hh.2 rfl

theorem fetchOpcode_eq {d : Dec} (h : windowLen d ≤ d.pending.length) (hi : (activeWin d).ip < (activeWin d).instLen) :
    fetchOpcode d = (instSec d)[(activeWin d).ip]? := by
  have hl := (windowOk_lengths h).2.1
  unfold fetchOpcode byteRead
  rw [if_neg (by omega), List.getElem?_eq_getElem (by omega)]
  simp

theorem fetchOpcode_isSome {d : Dec} (h : windowLen d ≤ d.pending.length) (hi : (activeWin d).ip < (activeWin d).instLen) :
    ∃ op, fetchOpcode d = some op := by
  have hl := (windowOk_lengths h).2.1
  rw [fetchOpcode_eq h hi]
  exact ⟨_, List.getElem?_eq_getElem (by omega)⟩

theorem replayOne_sound {d : Dec} (h : WindowOk d) (ht : ActiveTabOk d) (hi : (activeWin d).ip < (activeWin d).instLen) :
    (replayOne d).Sound := by
  obtain ⟨op, hop⟩ := fetchOpcode_isSome h.2.2.1 hi
  unfold replayOne
  rw [hop]
  exact execGroup_sound (windowOk_setIp h (by omega) hi) ((replayed_setIp (Nat.le_succ _)).activeTabOk ht)

theorem replayLoop_sound {fuel : Nat} {d : Dec} (h : WindowOk d) (ht : ActiveTabOk d) : (replayLoop fuel d).Sound := by
  induction fuel generalizing d with
  | zero => exact h
  | succ n ih =>
    rw [replayLoop]
    split
    · rename_i hi
      refine (replayOne_sound h ht hi).andThen fun d' he hw => ih hw ?_
      have hr := replayOne_replayed d
      rw [he] at hr
      exact Replayed.activeTabOk hr ht
    · exact h

theorem replayRest_sound {d : Dec} (h : WindowOk d) (ht : ActiveTabOk d) : (replayRest d).Sound :=
  replayLoop_sound h ht

/-! ## The loop ends at the end of the section -/

theorem replayOne_ip {d d' : Dec} (h : replayOne d = .ok d') : (activeWin d).ip < (activeWin d').ip := by
  unfold replayOne at h
  split at h
  · simp at h
  · rename_i op _
    have hr := execGroup_replayed op (setIp ((activeWin d).ip + 1) d)
    rw [h] at hr
    have := hr.ip_le
    simp only [setIp_eq, activeWin_setActive] at this
    omega

/-- With `INST_LEN − ip` turns the loop of R260 reaches the end of the section. -/
theorem replayLoop_end {fuel : Nat} {d d' : Dec} (hf : (activeWin d).instLen ≤ (activeWin d).ip + fuel)
    (h : replayLoop fuel d = .ok d') : (activeWin d').instLen ≤ (activeWin d').ip := by
  induction fuel generalizing d with
  | zero =>
    simp only [replayLoop, Run.ok.injEq] at h
    subst h; omega
  | succ n ih =>
    rw [replayLoop] at h
    split at h
    · cases he : replayOne d with
      | ok d₁ =>
        rw [he] at h
        have hr := replayOne_replayed d
        rw [he] at hr
        have hw := Replayed.win hr
        have hi := replayOne_ip he
        refine ih ?_ h
        have : (activeWin d₁).instLen = (activeWin d).instLen := by rw [hw]
        omega
      | raise c d₁ => rw [he] at h; simp [Run.andThen] at h
      | fault f => rw [he] at h; simp [Run.andThen] at h
    · simp only [Run.ok.injEq] at h
      subst h; omega

theorem replayRest_end {d d' : Dec} (h : replayRest d = .ok d') : (activeWin d').instLen ≤ (activeWin d').ip :=
  replayLoop_end (by omega) h

/-- More turns than needed change nothing. -/
theorem replayLoop_fuel {fuel extra : Nat} {d : Dec} (hf : (activeWin d).instLen ≤ (activeWin d).ip + fuel) :
    replayLoop (fuel + extra) d = replayLoop fuel d := by
  induction fuel generalizing d with
  | zero =>
    cases extra with
    | zero => rfl
    | succ k => rw [Nat.zero_add, replayLoop, replayLoop, if_neg (by omega)]
  | succ n ih =>
    rw [Nat.succ_add, replayLoop, replayLoop]
    split
    · cases he : replayOne d with
      | ok d₁ =>
        have hr := replayOne_replayed d
        rw [he] at hr
        have hw := Replayed.win hr
        have hi := replayOne_ip he
        have : (activeWin d₁).instLen = (activeWin d).instLen := by rw [hw]
        exact ih (by omega)
      | raise c d₁ => rfl
      | fault f => rfl
    · rfl

/-- One turn of the loop: the whole replay is one opcode group and the rest. -/
theorem replayRest_step {d : Dec} (hi : (activeWin d).ip < (activeWin d).instLen) :
    replayRest d = (replayOne d).andThen replayRest := by
  unfold replayRest
  obtain ⟨n, hn⟩ : ∃ n, (activeWin d).instLen - (activeWin d).ip = n + 1 := ⟨_, (Nat.succ_pred (by omega)).symm⟩
  rw [hn, replayLoop, if_pos hi]
  cases he : replayOne d with
  | ok d₁ =>
    have hr := replayOne_replayed d
    rw [he] at hr
    have hw := Replayed.win hr
    have hip := replayOne_ip he
    have e : (activeWin d₁).instLen = (activeWin d).instLen := by rw [hw]
    show replayLoop n d₁ = replayLoop ((activeWin d₁).instLen - (activeWin d₁).ip) d₁
    obtain ⟨x, hx⟩ : ∃ x, n = ((activeWin d₁).instLen - (activeWin d₁).ip) + x := ⟨n - ((activeWin d₁).instLen - (activeWin d₁).ip), by omega⟩
    rw [hx]
    exact replayLoop_fuel (by omega)
  | raise c d₁ => rfl
  | fault f => rfl

theorem replayRest_done {d : Dec} (hi : (activeWin d).instLen ≤ (activeWin d).ip) : replayRest d = .ok d := by
  unfold replayRest
  rw [Nat.sub_eq_zero_of_le hi, replayLoop]

end Sys2Proof.Machine
end

