-- ==== Sys2Proof/Laws/Window.lean ====
section
/-! SUPPORT. What the parse of a window header can answer: the frame of every rule of Machine/Window.lean, what a whole header
leaves in the working registers, and that the parse of more input agrees with the parse of less. -/

namespace Sys2Proof.Machine

open Sys2Proof.Safety

/-! ## The frame of the parse -/

/-- Everything the parse of a window header can change from `d` to `d'`: the working registers of the active context and the two
flags the header sets. -/
def Parsed (d d' : Dec) : Prop :=
  d' = setActive { activeCtx d with win := activeWin d' }
    { d with hasChecksum := d'.hasChecksum, interleaved := d'.interleaved }

theorem Parsed.refl (d : Dec) : Parsed d d := by
  show d = setActive (activeCtx d) d
  simp

theorem setActive_over_flags (x y : Ctx) (d : Dec) (a b : Bool) :
    setActive x { setActive y d with hasChecksum := a, interleaved := b }
      = setActive x { d with hasChecksum := a, interleaved := b } := by
  unfold setActive; cases d.nested <;> rfl

theorem Parsed.trans {a b c : Dec} (h : Parsed a b) (k : Parsed b c) : Parsed a c := by
  unfold Parsed at *
  rw [k]
  generalize activeWin c = w
  generalize c.hasChecksum = x
  generalize c.interleaved = y
  have e : activeCtx b = { activeCtx a with win := activeWin b } := by rw [h]; simp
  rw [e, h]
  simp only [activeWin_setActive, setActive_hasChecksum, setActive_interleaved]
  exact setActive_over_flags _ _ _ _ _

theorem parsed_setWin (w : WindowRegs) (d : Dec) : Parsed d (setWin w d) := by
  unfold Parsed
  simp [setWin]

theorem parsed_setHasChecksum (b : Byte) (d : Dec) : Parsed d (setHasChecksum b d) := by
  unfold Parsed setHasChecksum
  show _ = setActive (activeCtx d) _
  unfold setActive activeCtx
  cases hn : d.nested <;> simp [← hn]

theorem parsed_setInterleaved (d : Dec) : Parsed d (setInterleaved d) := by
  unfold Parsed setInterleaved
  show _ = setActive (activeCtx d) _
  unfold setActive activeCtx
  cases hn : d.nested <;> simp [← hn]

/-- What the parse leaves alone. -/
theorem Parsed.frame {d d' : Dec} (h : Parsed d d') :
    d'.pending = d.pending ∧ d'.sink = d.sink ∧ d'.state = d.state ∧ d'.dtab = d.dtab ∧ d'.maxMode = d.maxMode ∧
    d'.dict = d.dict ∧ d'.dictSize = d.dictSize ∧ d'.freeCount = d.freeCount ∧ d'.replaying = d.replaying ∧
    d'.errKind = d.errKind ∧ d'.errCause = d.errCause ∧ d'.lintAddAdd = d.lintAddAdd := by
  have e : d' = _ := h
  refine ⟨?_, ?_, ?_, ?_, ?_, ?_, ?_, ?_, ?_, ?_, ?_, ?_⟩ <;> (rw [e]; simp)

theorem Parsed.caps {d d' : Dec} (h : Parsed d d') :
    d'.allowVcdTarget = d.allowVcdTarget ∧ d'.maxTargetFileSize = d.maxTargetFileSize ∧
    d'.maxTargetWindowSize = d.maxTargetWindowSize ∧ d'.maxSectionSize = d.maxSectionSize := by
  have e : d' = _ := h
  refine ⟨?_, ?_, ?_, ?_⟩ <;> (rw [e]; simp)

/-- The active context keeps everything but its working registers. -/
theorem Parsed.ctx {d d' : Dec} (h : Parsed d d') : activeCtx d' = { activeCtx d with win := activeWin d' } := by
  have e : d' = _ := h
  rw [e]; simp

theorem Parsed.activeDict_eq {d d' : Dec} (h : Parsed d d') : activeDict d' = activeDict d := by
  have e : d' = _ := h
  rw [e, activeDict_setActive]; rfl

theorem Parsed.activeDictSize_eq {d d' : Dec} (h : Parsed d d') : activeDictSize d' = activeDictSize d := by
  have e : d' = _ := h
  rw [e, activeDictSize_setActive]; rfl

theorem Parsed.activeTab_eq {d d' : Dec} (h : Parsed d d') : activeTab d' = activeTab d := by
  have e : d' = _ := h
  rw [e, activeTab_setActive]; rfl

theorem Parsed.nested_eq {d d' : Dec} (h : Parsed d d') :
    d'.nested = d.nested.map (fun n => { n with ctx := { n.ctx with win := activeWin d' } }) := by
  have e : d' = _ := h
  rw [e]
  simp only [activeWin_setActive]
  generalize activeWin d' = w
  unfold setActive activeCtx
  cases hn : d.nested <;> simp

/-- The outer context keeps everything but its working registers. -/
theorem Parsed.outer {d d' : Dec} (h : Parsed d d') :
    d'.ctx.dtarget = d.ctx.dtarget ∧ d'.ctx.totalTargetLen = d.ctx.totalTargetLen ∧ d'.ctx.cache = d.ctx.cache ∧
    d'.ctx.tw = d.ctx.tw := by
  have e : d' = _ := h
  cases hn : d.nested with
  | none =>
    have e' : d'.ctx = { d.ctx with win := activeWin d' } := by
      have := h.ctx
      have hn' : d'.nested = none := by rw [h.nested_eq, hn]; rfl
      rw [activeCtx_of_none _ hn, activeCtx_of_none _ hn'] at this
      exact this
    rw [e']
    exact ⟨rfl, rfl, rfl, rfl⟩
  | some n =>
    have e' : d'.ctx = d.ctx := by
      rw [e]; unfold setActive; simp [hn]
    rw [e']
    exact ⟨rfl, rfl, rfl, rfl⟩

/-! ## What a parse that goes on has read -/

/-- The outcome of a parse that began at cursor `c`: if it goes on, `P` holds of the decoder and the cursor; if it raises, the
decoder has changed only as `Parsed` says. -/
def Parse.Leads (d : Dec) (P : Dec → Nat → Prop) : Parse → Prop
  | .ok d' c' => Parsed d d' ∧ P d' c'
  | .more => True
  | .raise _ d' => Parsed d d'

theorem Parse.Leads.andThen {d : Dec} {P Q : Dec → Nat → Prop} {r : Parse} {k : Dec → Nat → Parse} (h : r.Leads d P)
    (hk : ∀ d' c', Parsed d d' → P d' c' → (k d' c').Leads d' Q) : (r.andThen k).Leads d Q := by
  cases r with
  | ok d' c' =>
    have := hk d' c' h.1 h.2
    show (k d' c').Leads d Q
    cases hr : k d' c' with
    | ok d'' c'' => rw [hr] at this; exact ⟨h.1.trans this.1, this.2⟩
    | more => trivial
    | raise e d'' => rw [hr] at this; exact Parsed.trans h.1 this
  | more => trivial
  | raise e d' => exact h

theorem headerVarInt_leads {d : Dec} {c : Nat} {P : Dec → Nat → Prop} {k : Nat → Nat → Parse}
    (hk : ∀ v c', c < c' → c' ≤ d.pending.length → v < 2 ^ 32 → (k v c').Leads d P) : (headerVarInt d c k).Leads d P := by
  unfold headerVarInt
  split
  · rename_i v c' hv
    have := viRead_value hv
    exact hk v c' this.1 this.2.1 this.2.2.2.2
  · trivial
  · exact Parsed.refl d

theorem headerByte_leads {d : Dec} {c : Nat} {P : Dec → Nat → Prop} {k : Byte → Nat → Parse}
    (hk : ∀ b, c + 1 ≤ d.pending.length → (k b (c + 1)).Leads d P) : (headerByte d c k).Leads d P := by
  unfold headerByte
  split
  · rename_i v c' hv
    have := byteRead_value hv
    rw [this.2.1]
    exact hk _ (by omega)
  · trivial
  · exact Parsed.refl d

theorem parseWinIndicator_leads (d : Dec) (c : Nat) :
    (parseWinIndicator d c).Leads d (fun d' c' => c < c' ∧ c' ≤ d.pending.length ∧
      ∃ wi : Byte, activeWin d' = { activeWin d with winIndicator := wi } ∧ d'.hasChecksum = (wi &&& 0x04 != 0) ∧
        d'.interleaved = d.interleaved ∧ wi &&& 0xF8 = 0 ∧ wi &&& 0x03 ≠ 0x03) := by
  unfold parseWinIndicator
  refine headerByte_leads fun wi hc => ?_
  split
  · exact Parsed.refl d
  · split
    · exact Parsed.refl d
    · split
      · exact Parsed.refl d
      · rename_i h1 h2 h3
        refine ⟨(parsed_setWin _ d).trans (parsed_setHasChecksum _ _), by omega, hc, wi, ?_, rfl, ?_, ?_, h2⟩
        · show activeWin (setWin _ d) = _
          simp
        · show (setWin _ d).interleaved = _
          simp
        · exact Decidable.not_not.mp h1

/-- The source segment of R313 lies in the space it names. -/
theorem parseSourceSegment_leads (d : Dec) (c : Nat) (hc : c ≤ d.pending.length)
    (h1 : activeDictSize d = (activeDict d).length)
    (h2 : (activeCtx d).totalTargetLen = (activeCtx d).dtarget.length) :
    (parseSourceSegment d c).Leads d (fun d' c' => c ≤ c' ∧ c' ≤ d.pending.length ∧ SegmentOk d' ∧
      d'.hasChecksum = d.hasChecksum ∧ d'.interleaved = d.interleaved) := by
  unfold parseSourceSegment
  simp only
  split
  · refine ⟨parsed_setWin _ d, by omega, hc, ?_, by simp, by simp⟩
    unfold SegmentOk
    simp
  · refine headerVarInt_leads fun size c1 h3 h4 _ => headerVarInt_leads fun pos c2 h5 h6 _ => ?_
    split
    · exact Parsed.refl d
    · rename_i hb
      refine ⟨parsed_setWin _ d, by omega, h6, ?_, by simp, by simp⟩
      unfold segmentBound at hb
      unfold SegmentOk segmentSpace
      simp only [activeWin_setWin, activeDict_setWin, activeCtx_setWin_dtarget]
      split at hb
      · rename_i hs
        rw [if_pos hs]
        simp only
        omega
      · rename_i hs
        rw [if_neg hs]
        simp only
        omega

theorem parseDeltaLen_leads (d : Dec) (c : Nat) :
    (parseDeltaLen d c).Leads d (fun d' c' => c < c' ∧ c' ≤ d.pending.length ∧
      ∃ v, v < 2 ^ 32 ∧ d' = setWin { activeWin d with deltaLen := v } d) := by
  unfold parseDeltaLen
  exact headerVarInt_leads fun v c' h1 h2 h3 => ⟨parsed_setWin _ d, h1, h2, v, h3, rfl⟩

theorem parseTargetLen_leads (d : Dec) (c : Nat) :
    (parseTargetLen d c).Leads d (fun d' c' => c < c' ∧ c' ≤ d.pending.length ∧
      ∃ v, v < 2 ^ 32 ∧ v ≤ d.maxTargetWindowSize.toNat ∧
        (activeCtx d).totalTargetLen + v ≤ d.maxTargetFileSize.toNat ∧
        d' = setWin { activeWin d with targetLen := v } d) := by
  unfold parseTargetLen
  refine headerVarInt_leads fun v c' h1 h2 h3 => ?_
  split
  · exact Parsed.refl d
  · split
    · exact Parsed.refl d
    · exact ⟨parsed_setWin _ d, h1, h2, v, h3, by omega, by omega, rfl⟩

theorem parseDeltaIndicator_leads (d : Dec) (c : Nat) :
    (parseDeltaIndicator d c).Leads d (fun d' c' => c < c' ∧ c' ≤ d.pending.length ∧ d' = d) := by
  unfold parseDeltaIndicator
  refine headerByte_leads fun di h => ?_
  split
  · exact Parsed.refl d
  · exact ⟨Parsed.refl d, by omega, h, rfl⟩

theorem parseSectionLen_leads (put : Nat → WindowRegs → WindowRegs) (d : Dec) (c : Nat) :
    (parseSectionLen put d c).Leads d (fun d' c' => c < c' ∧ c' ≤ d.pending.length ∧
      ∃ v, v < 2 ^ 32 ∧ v ≤ d.maxSectionSize.toNat ∧ d' = setWin (put v (activeWin d)) d) := by
  unfold parseSectionLen
  refine headerVarInt_leads fun v c' h1 h2 h3 => ?_
  split
  · exact Parsed.refl d
  · exact ⟨parsed_setWin _ d, h1, h2, v, h3, by omega, rfl⟩

theorem parseSectionLens_leads (d : Dec) (c : Nat) :
    (parseSectionLens d c).Leads d (fun d' c' => c < c' ∧ c' ≤ d.pending.length ∧
      ∃ x y z, x < 2 ^ 32 ∧ y < 2 ^ 32 ∧ z < 2 ^ 32 ∧
        activeWin d' = { activeWin d with dataLen := x, instLen := y, addrLen := z } ∧
        d'.hasChecksum = d.hasChecksum ∧ d'.interleaved = (x == 0 && z == 0)) := by
  unfold parseSectionLens
  refine Parse.Leads.andThen (parseSectionLen_leads _ d c) ?_
  rintro _ c1 - ⟨h1, h1', x, hx, -, rfl⟩
  refine Parse.Leads.andThen (parseSectionLen_leads _ _ c1) ?_
  rintro _ c2 - ⟨h2, h2', y, hy, -, rfl⟩
  refine Parse.Leads.andThen (parseSectionLen_leads _ _ c2) ?_
  rintro _ c3 - ⟨h3, h3', z, hz, -, rfl⟩
  simp only [setWin_pending, activeWin_setWin] at h2' h3'
  refine ⟨parsed_setInterleaved _, by omega, h3', x, y, z, hx, hy, hz, ?_, ?_, ?_⟩
  · show activeWin (setWin _ _) = _
    simp
  · show (setWin _ _).hasChecksum = _
    simp
  · show ((activeWin _).dataLen == 0 && (activeWin _).addrLen == 0) = _
    simp

theorem parseChecksum_leads (d : Dec) (c : Nat) (hc : c ≤ d.pending.length) :
    (parseChecksum d c).Leads d (fun d' c' => c ≤ c' ∧ c' ≤ d.pending.length ∧
      (∃ k, activeWin d' = { activeWin d with checksum := k }) ∧
      d'.hasChecksum = d.hasChecksum ∧ d'.interleaved = d.interleaved) := by
  unfold parseChecksum
  split
  · exact headerVarInt_leads fun v c' h1 h2 h3 => ⟨parsed_setWin _ d, by omega, h2, ⟨_, by simp; rfl⟩, by simp, by simp⟩
  · exact ⟨Parsed.refl d, by omega, hc, ⟨(activeWin d).checksum, rfl⟩, rfl, rfl⟩

theorem checkDeltaLen_leads (start : Nat) (d : Dec) (c : Nat) :
    (checkDeltaLen start d c).Leads d (fun d' c' => d' = d ∧ c' = c ∧
      c - start + (activeWin d).dataLen + (activeWin d).instLen + (activeWin d).addrLen = (activeWin d).deltaLen) := by
  unfold checkDeltaLen
  split
  · exact Parsed.refl d
  · rename_i h
    exact ⟨Parsed.refl d, rfl, rfl, Decidable.not_not.mp h⟩

/-- A window of source space, size and position does not depend on the other working registers. -/
theorem segmentOk_setWin {d : Dec} {w : WindowRegs} (h : SegmentOk d) (h1 : w.srcSegSpace = (activeWin d).srcSegSpace)
    (h2 : w.srcSegSize = (activeWin d).srcSegSize) (h3 : w.srcSegPos = (activeWin d).srcSegPos) :
    SegmentOk (setWin w d) := by
  unfold SegmentOk at *
  simp only [activeWin_setWin, activeDict_setWin, activeCtx_setWin_dtarget]
  rw [h1, h2, h3]
  exact h

theorem Parsed.segmentOk {d d' : Dec} (r : Parsed d d') (h : SegmentOk d)
    (h1 : (activeWin d').srcSegSpace = (activeWin d).srcSegSpace)
    (h2 : (activeWin d').srcSegSize = (activeWin d).srcSegSize)
    (h3 : (activeWin d').srcSegPos = (activeWin d).srcSegPos) : SegmentOk d' := by
  unfold SegmentOk at *
  rw [h1, h2, h3, r.activeDict_eq, r.ctx]
  exact h

/-- What a whole window header leaves (R312 to R319). -/
structure HeaderOk (d d' : Dec) (c : Nat) : Prop where
  pos : 1 ≤ c
  le : c ≤ d.pending.length
  segment : SegmentOk d'
  interleaved : d'.interleaved = ((activeWin d').dataLen == 0 && (activeWin d').addrLen == 0)
  targetLt : (activeWin d').targetLen < 2 ^ 32
  targetCap : (activeWin d').targetLen ≤ d.maxTargetWindowSize.toNat
  fileCap : (activeCtx d).totalTargetLen + (activeWin d').targetLen ≤ d.maxTargetFileSize.toNat
  dataLt : (activeWin d').dataLen < 2 ^ 32
  instLt : (activeWin d').instLen < 2 ^ 32
  addrLt : (activeWin d').addrLen < 2 ^ 32

theorem parseWindowHeader_leads (d : Dec) (h1 : activeDictSize d = (activeDict d).length)
    (h2 : (activeCtx d).totalTargetLen = (activeCtx d).dtarget.length) :
    (parseWindowHeader d).Leads d (HeaderOk d) := by
  unfold parseWindowHeader
  refine Parse.Leads.andThen (parseWinIndicator_leads d 0) ?_
  rintro a c1 pa ⟨hc1, hl1, -⟩
  have pend_a : a.pending = d.pending := pa.frame.1
  refine Parse.Leads.andThen (parseSourceSegment_leads a c1 (by rw [pend_a]; exact hl1)
    (by rw [pa.activeDictSize_eq, pa.activeDict_eq, h1]) (by rw [pa.ctx]; exact h2)) ?_
  rintro b c2 pb ⟨hc2, hl2, hs, -, -⟩
  have pend_b : b.pending = d.pending := pb.frame.1.trans pend_a
  refine Parse.Leads.andThen (parseDeltaLen_leads b c2) ?_
  rintro _ c3 pc ⟨hc3, hl3, l, hl, rfl⟩
  refine Parse.Leads.andThen (parseTargetLen_leads _ c3) ?_
  rintro _ c4 pd ⟨hc4, hl4, t, ht, htc, htf, rfl⟩
  refine Parse.Leads.andThen (parseDeltaIndicator_leads _ c4) ?_
  rintro _ c5 - ⟨hc5, hl5, rfl⟩
  refine Parse.Leads.andThen (parseSectionLens_leads _ c5) ?_
  rintro e c6 pe ⟨hc6, hl6, x, y, z, hx, hy, hz, hwe, -, hie⟩
  have pend_e : e.pending = d.pending := by rw [pe.frame.1]; simp [pend_b]
  simp only [setWin_pending, pend_b] at hl3 hl4 hl5 hl6
  refine Parse.Leads.andThen (parseChecksum_leads e c6 (by rw [pend_e]; exact hl6)) ?_
  rintro f c7 pf ⟨hc7, hl7, ⟨k, hwf⟩, -, hif⟩
  have pend_f : f.pending = d.pending := pf.frame.1.trans pend_e
  have hk := checkDeltaLen_leads c3 f c7
  cases hr : checkDeltaLen c3 f c7 with
  | more => trivial
  | raise e d' => rw [hr] at hk; exact hk
  | ok d' c' =>
    rw [hr] at hk
    obtain ⟨hp, rfl, rfl, -⟩ := hk
    have hw : activeWin d' = { activeWin b with
        deltaLen := l, targetLen := t, dataLen := x, instLen := y, addrLen := z, checksum := k } := by
      rw [hwf, hwe]; simp
    have hctx : activeCtx b = { activeCtx d with win := activeWin b } := (pa.trans pb).ctx
    have ptot : Parsed b d' := (pc.trans pd).trans (pe.trans pf)
    have capsb := (pa.trans pb).caps
    refine ⟨hp, ⟨by omega, by rw [pend_e] at hl7; exact hl7, ?_, ?_, ?_, ?_, ?_, ?_, ?_, ?_⟩⟩
    · exact ptot.segmentOk hs (by rw [hw]) (by rw [hw]) (by rw [hw])
    · rw [hif, hie, hw]
    · rw [hw]; exact ht
    · rw [hw]; simp only [setWin_maxTargetWindowSize, capsb.2.2.1] at htc; exact htc
    · rw [hw]
      simp only [setWin_maxTargetFileSize, capsb.2.1, activeCtx_setWin_totalTargetLen] at htf
      rw [hctx] at htf
      exact htf
    · rw [hw]; exact hx
    · rw [hw]; exact hy
    · rw [hw]; exact hz

/-- The parse of a file header consumes its five bytes and nothing else changes (R308, R309). -/
theorem parseFileHeader_ok {d d' : Dec} {h : Nat} (hp : parseFileHeader d = .ok d' h) :
    ∃ rest, d.pending.length = rest.length + 5 ∧ d' = { d with pending := rest } ∧ d.pending.drop 5 = rest := by
  unfold parseFileHeader at hp
  split at hp
  · rename_i hd
    repeat (split at hp; · simp at hp)
    simp only [Parse.ok.injEq] at hp
    exact ⟨_, by rw [hd]; rfl, hp.1.symm, by rw [hd]; rfl⟩
  · simp at hp

theorem parseFileHeader_raise {d d' : Dec} {e : Cause} (hp : parseFileHeader d = .raise e d') : d' = d := by
  unfold parseFileHeader at hp
  split at hp
  · repeat (split at hp; · (first | (simp only [Parse.raise.injEq] at hp; exact hp.2.symm) | simp at hp))
    simp at hp
  · simp at hp

end Sys2Proof.Machine
end

