-- ==== Sys2Proof/Laws/Append.lean ====
section
/-! SUPPORT. More input does not change what less input decided (R302, R326): every rule of the decoder, run with bytes appended
to `PENDING`, does what it did without them, unless it wanted more. -/

namespace Sys2Proof.Machine

open Sys2Proof.Safety

/-- The decoder with more input behind what is pending. -/
def addPending (b : Bytes) (d : Dec) : Dec := { d with pending := d.pending ++ b }

/-- The decoder with more input behind what is pending, and with `DEC_STATE` read through `f`: no rule below the driver reads
`DEC_STATE`. -/
def graft (f : DecState → DecState) (b : Bytes) (d : Dec) : Dec :=
  { d with state := f d.state, pending := d.pending ++ b }

/-- A map of `DEC_STATE` that the driver does not see: it keeps `EXPECT_HEADER`, `CUSTOM_TABLE` and `EXPECT_WIN_INDICATOR`, and maps
no other state to the first two. -/
structure Unseen (f : DecState → DecState) : Prop where
  header : f .expectHeader = .expectHeader
  table : f .customTable = .customTable
  between : f .expectWinIndicator = .expectWinIndicator
  window : ∀ st, st ≠ .expectHeader → st ≠ .customTable → f st ≠ .expectHeader ∧ f st ≠ .customTable

theorem unseen_id : Unseen id := ⟨rfl, rfl, rfl, fun _ h k => ⟨h, k⟩⟩

/-- `IN_WINDOW` read as `EXPECT_WIN_INDICATOR`. -/
def settle : DecState → DecState
  | .inWindow => .expectWinIndicator
  | st => st

theorem unseen_settle : Unseen settle := by
  refine ⟨rfl, rfl, rfl, fun st h k => ?_⟩
  cases st <;> simp_all [settle]

@[simp] theorem addPending_nil (d : Dec) : addPending [] d = d := by simp [addPending]
@[simp] theorem addPending_pending (b : Bytes) (d : Dec) : (addPending b d).pending = d.pending ++ b := rfl
@[simp] theorem addPending_nested (b : Bytes) (d : Dec) : (addPending b d).nested = d.nested := rfl
@[simp] theorem addPending_state (b : Bytes) (d : Dec) : (addPending b d).state = d.state := rfl
@[simp] theorem activeCtx_addPending (b : Bytes) (d : Dec) : activeCtx (addPending b d) = activeCtx d := rfl
@[simp] theorem activeWin_addPending (b : Bytes) (d : Dec) : activeWin (addPending b d) = activeWin d := rfl

theorem addPending_addPending (a b : Bytes) (d : Dec) : addPending b (addPending a d) = addPending (a ++ b) d := by
  simp [addPending]

theorem decRaise_addPending (c : Cause) (b : Bytes) (d : Dec) : decRaise c (addPending b d) = decRaise c d := rfl

/-! ## Small lemmas of `graft` -/

@[simp] theorem graft_pending (f : DecState → DecState) (b : Bytes) (d : Dec) : (graft f b d).pending = d.pending ++ b := rfl
@[simp] theorem graft_nested (f : DecState → DecState) (b : Bytes) (d : Dec) : (graft f b d).nested = d.nested := rfl
@[simp] theorem graft_state (f : DecState → DecState) (b : Bytes) (d : Dec) : (graft f b d).state = f d.state := rfl
@[simp] theorem graft_interleaved (f : DecState → DecState) (b : Bytes) (d : Dec) : (graft f b d).interleaved = d.interleaved := rfl
@[simp] theorem graft_hasChecksum (f : DecState → DecState) (b : Bytes) (d : Dec) : (graft f b d).hasChecksum = d.hasChecksum := rfl
@[simp] theorem activeCtx_graft (f : DecState → DecState) (b : Bytes) (d : Dec) : activeCtx (graft f b d) = activeCtx d := rfl
@[simp] theorem activeWin_graft (f : DecState → DecState) (b : Bytes) (d : Dec) : activeWin (graft f b d) = activeWin d := rfl
@[simp] theorem activeTab_graft (f : DecState → DecState) (b : Bytes) (d : Dec) : activeTab (graft f b d) = activeTab d := rfl
@[simp] theorem activeDict_graft (f : DecState → DecState) (b : Bytes) (d : Dec) : activeDict (graft f b d) = activeDict d := rfl
@[simp] theorem activeDictSize_graft (f : DecState → DecState) (b : Bytes) (d : Dec) : activeDictSize (graft f b d) = activeDictSize d := rfl
@[simp] theorem hereOf_graft (f : DecState → DecState) (b : Bytes) (d : Dec) : hereOf (graft f b d) = hereOf d := rfl
@[simp] theorem readU_graft (f : DecState → DecState) (b : Bytes) (d : Dec) (x : Nat) : readU (graft f b d) x = readU d x := rfl
@[simp] theorem windowLen_graft (f : DecState → DecState) (b : Bytes) (d : Dec) : windowLen (graft f b d) = windowLen d := rfl

theorem setActive_graft (c : Ctx) (f : DecState → DecState) (b : Bytes) (d : Dec) :
    setActive c (graft f b d) = graft f b (setActive c d) := by
  unfold setActive graft; cases d.nested <;> rfl

theorem setWin_graft (w : WindowRegs) (f : DecState → DecState) (b : Bytes) (d : Dec) :
    setWin w (graft f b d) = graft f b (setWin w d) := setActive_graft _ f b d

theorem setIp_graft (v : Nat) (f : DecState → DecState) (b : Bytes) (d : Dec) : setIp v (graft f b d) = graft f b (setIp v d) :=
  setWin_graft _ f b d

theorem setDp_graft (v : Nat) (f : DecState → DecState) (b : Bytes) (d : Dec) : setDp v (graft f b d) = graft f b (setDp v d) :=
  setWin_graft _ f b d

theorem setAp_graft (v : Nat) (f : DecState → DecState) (b : Bytes) (d : Dec) : setAp v (graft f b d) = graft f b (setAp v d) :=
  setWin_graft _ f b d

theorem setCache_graft (c : AddrCache) (f : DecState → DecState) (b : Bytes) (d : Dec) :
    setCache c (graft f b d) = graft f b (setCache c d) := setActive_graft _ f b d

theorem appendTw_graft (t : Bytes) (f : DecState → DecState) (b : Bytes) (d : Dec) :
    appendTw t (graft f b d) = graft f b (appendTw t d) := setActive_graft _ f b d

theorem lint_graft (k : InstKind) (f : DecState → DecState) (b : Bytes) (d : Dec) : lint k (graft f b d) = graft f b (lint k d) := by
  unfold lint
  exact setWin_graft _ f b { d with lintAddAdd := d.lintAddAdd || (k == .add && (activeWin d).prevInst == .add) }

theorem setDataCur_graft (v : Nat) (f : DecState → DecState) (b : Bytes) (d : Dec) :
    setDataCur v (graft f b d) = graft f b (setDataCur v d) := by
  unfold setDataCur
  rw [setIp_graft, setDp_graft, graft_interleaved]
  split <;> rfl

theorem setAddrCur_graft (v : Nat) (f : DecState → DecState) (b : Bytes) (d : Dec) :
    setAddrCur v (graft f b d) = graft f b (setAddrCur v d) := by
  unfold setAddrCur
  rw [setIp_graft, setAp_graft, graft_interleaved]
  split <;> rfl

theorem decRaise_graft (c : Cause) (f : DecState → DecState) (b : Bytes) (d : Dec) : decRaise c (graft f b d) = decRaise c d := rfl

/-! ## Replay -/

/-- The outcome of a rule of the replay with more input pending. -/
def Run.graft (f : DecState → DecState) (b : Bytes) : Run → Run
  | .ok d => .ok (Machine.graft f b d)
  | .raise c d => .raise c (Machine.graft f b d)
  | .fault f => .fault f

theorem Run.graft_andThen {f : DecState → DecState} {b : Bytes} {r : Run} {k k' : Dec → Run}
    (h : ∀ d, r = .ok d → k' (Machine.graft f b d) = (k d).graft f b) :
    (r.graft f b).andThen k' = (r.andThen k).graft f b := by
  cases r with
  | ok d => exact h d rfl
  | raise c d => rfl
  | fault f => rfl

theorem sections_graft (f : DecState → DecState) (b : Bytes) {d : Dec} (h : windowLen d ≤ d.pending.length) :
    dataSec (graft f b d) = dataSec d ∧ instSec (graft f b d) = instSec d ∧
    addrSec (graft f b d) = addrSec d := by
  have key : ∀ i n, i + n ≤ d.pending.length → ((d.pending ++ b).drop i).take n = (d.pending.drop i).take n := by
    intro i n hn
    rw [List.drop_append_of_le_length (by omega), List.take_append_of_le_length (by simp; omega)]
  unfold windowLen at h
  unfold dataSec instSec addrSec
  rw [activeWin_graft, graft_pending]
  exact ⟨key _ _ (by omega), key _ _ (by omega), key _ _ (by omega)⟩

theorem streams_graft (f : DecState → DecState) (b : Bytes) {d : Dec} (h : windowLen d ≤ d.pending.length) :
    instStream (graft f b d) = instStream d ∧ dataStream (graft f b d) = dataStream d ∧
    addrStream (graft f b d) = addrStream d := by
  obtain ⟨h1, h2, h3⟩ := sections_graft f b h
  have hi : instStream (graft f b d) = instStream d := by unfold instStream; rw [h2]; rfl
  refine ⟨hi, ?_, ?_⟩
  · unfold dataStream; rw [hi, h1]; rfl
  · unfold addrStream; rw [hi, h3]; rfl

theorem copyLoop_graft (f : DecState → DecState) (b : Bytes) (n x : Nat) (d : Dec) :
    copyLoop n x (graft f b d) = (copyLoop n x d).graft f b := by
  induction n generalizing x d with
  | zero => rfl
  | succ n ih =>
    rw [copyLoop, copyLoop, readU_graft]
    cases readU d x with
    | none => rfl
    | some v => simp only; rw [appendTw_graft, ih]

theorem execSized_graft (f : DecState → DecState) (b : Bytes) (k : InstKind) (n m : Nat) {d : Dec} (h : windowLen d ≤ d.pending.length) :
    execSized k n m (graft f b d) = (execSized k n m d).graft f b := by
  have hl : ∀ k, windowLen (lint k d) ≤ (lint k d).pending.length := by
    intro k
    have r := replayed_lint k d
    rw [r.sections.2.2.2, r.frame.1]; exact h
  unfold execSized
  rw [activeWin_graft, activeCtx_graft]
  split
  · rfl
  · cases k with
    | noop => rfl
    | add =>
      simp only
      rw [lint_graft]
      unfold halfAdd readData
      rw [(streams_graft f b (hl .add)).2.1]
      split
      · rfl
      · cases memRead _ _ n with
        | none => rfl
        | some bytes => simp only; rw [setDataCur_graft, appendTw_graft]; rfl
    | run =>
      simp only
      rw [lint_graft]
      unfold halfRun readDataByte
      rw [(streams_graft f b (hl .run)).2.1]
      cases byteRead _ _ _ with
      | needMore => rfl
      | error e => rfl
      | value v c => simp only; rw [setDataCur_graft, appendTw_graft]; rfl
    | copy =>
      simp only
      rw [lint_graft]
      unfold halfCopy readAddress
      rw [(streams_graft f b (hl .copy)).2.2, activeCtx_graft, hereOf_graft]
      cases acDecode _ _ _ _ _ _ with
      | needMore => rfl
      | error e => rfl
      | noEntry => rfl
      | value a c cache =>
        simp only; rw [setAddrCur_graft, setCache_graft, copyLoop_graft]

theorem execHalf_graft (f : DecState → DecState) (b : Bytes) (hf : Half) {d : Dec} (h : windowLen d ≤ d.pending.length) :
    execHalf hf (graft f b d) = (execHalf hf d).graft f b := by
  have sized : ∀ k, (if hf.size = 0 then readSize (graft f b d) (fun n d => execSized k n hf.mode.toNat d)
        else execSized k hf.size.toNat hf.mode.toNat (graft f b d))
      = Run.graft f b (if hf.size = 0 then readSize d (fun n d => execSized k n hf.mode.toNat d)
        else execSized k hf.size.toNat hf.mode.toNat d) := by
    intro k
    split
    · unfold readSize
      rw [(sections_graft f b h).2.1, activeWin_graft]
      cases viRead 32 (instSec d) (activeWin d).ip (activeWin d).instLen with
      | needMore => rfl
      | error e => rfl
      | value v c =>
        simp only
        rw [setIp_graft]
        refine execSized_graft f b k v _ ?_
        rw [setIp_eq]
        simpa [windowLen] using h
    · exact execSized_graft f b k _ _ h
  unfold execHalf
  cases instKind hf.inst with
  | none => rfl
  | some k =>
    cases k with
    | noop => rfl
    | add => exact sized .add
    | run => exact sized .run
    | copy => exact sized .copy

theorem windowLen_le_of_replayed {d d' : Dec} (r : Replayed d d') (h : windowLen d ≤ d.pending.length) :
    windowLen d' ≤ d'.pending.length := by
  rw [r.sections.2.2.2, r.frame.1]; exact h

theorem execGroup_graft (f : DecState → DecState) (b : Bytes) (op : Byte) {d : Dec} (h : windowLen d ≤ d.pending.length) :
    execGroup op (graft f b d) = (execGroup op d).graft f b := by
  unfold execGroup execRow
  rw [activeTab_graft, execHalf_graft f b _ h]
  refine Run.graft_andThen fun d' he => execHalf_graft f b _ ?_
  have r := execHalf_replayed (idec (activeTab d) op).1 d
  rw [he] at r
  exact windowLen_le_of_replayed r h

theorem replayOne_graft (f : DecState → DecState) (b : Bytes) {d : Dec} (h : windowLen d ≤ d.pending.length) :
    replayOne (graft f b d) = (replayOne d).graft f b := by
  unfold replayOne fetchOpcode
  rw [(sections_graft f b h).2.1, activeWin_graft]
  cases byteRead (instSec d) (activeWin d).ip (activeWin d).instLen with
  | needMore => rfl
  | error e => rfl
  | value v c =>
    simp only
    rw [setIp_graft]
    refine execGroup_graft f b _ ?_
    rw [setIp_eq]
    simpa [windowLen] using h

theorem replayLoop_graft (f : DecState → DecState) (b : Bytes) (fuel : Nat) {d : Dec} (h : windowLen d ≤ d.pending.length) :
    replayLoop fuel (graft f b d) = (replayLoop fuel d).graft f b := by
  induction fuel generalizing d with
  | zero => rfl
  | succ n ih =>
    rw [replayLoop, replayLoop, activeWin_graft]
    split
    · rw [replayOne_graft f b h]
      refine Run.graft_andThen fun d' he => ih ?_
      have r := replayOne_replayed d
      rw [he] at r
      exact windowLen_le_of_replayed r h
    · rfl

theorem replayRest_graft (f : DecState → DecState) (b : Bytes) {d : Dec} (h : windowLen d ≤ d.pending.length) :
    replayRest (graft f b d) = (replayRest d).graft f b := replayLoop_graft f b _ h

/-! ## Header fields -/

theorem viReadLoop_append {width : Nat} {src b : Bytes} {left cur acc : Nat} :
    viReadLoop width src src.length left cur acc = .needMore ∨
    viReadLoop width (src ++ b) (src ++ b).length left cur acc = viReadLoop width src src.length left cur acc := by
  induction left generalizing cur acc with
  | zero => right; rfl
  | succ n ih =>
    rw [viReadLoop, viReadLoop]
    by_cases hc : src.length ≤ cur
    · left; rw [if_pos hc]
    · rw [if_neg hc, if_neg (by simp; omega), List.getElem?_append_left (by omega),
        List.getElem?_eq_getElem (by omega)]
      simp only
      split
      · right; rfl
      · exact ih

/-- A VarInt read from more bytes is the VarInt read from fewer, unless those did not hold it whole (R133, R134). -/
theorem viRead_append {width : Nat} {src b : Bytes} {cur : Nat} (h : viRead width src cur src.length ≠ .needMore) :
    viRead width (src ++ b) cur (src ++ b).length = viRead width src cur src.length := by
  rcases viReadLoop_append (width := width) (src := src) (b := b) (left := viMaxBytes width) (cur := cur) (acc := 0) with h' | h'
  · exact absurd h' h
  · exact h'

theorem byteRead_append {src b : Bytes} {cur : Nat} (h : byteRead src cur src.length ≠ .needMore) :
    byteRead (src ++ b) cur (src ++ b).length = byteRead src cur src.length := by
  unfold byteRead at *
  by_cases hc : src.length ≤ cur
  · rw [if_pos hc] at h; exact absurd rfl h
  · rw [if_neg hc, if_neg (by simp; omega), List.getElem?_append_left (by omega)]

/-- The outcome of a parse with more input: the same, unless it wanted more. -/
def Parse.Extends (f : DecState → DecState) (b : Bytes) : Parse → Parse → Prop
  | .ok d c, r => r = .ok (graft f b d) c
  | .more, _ => True
  | .raise e d, r => r = .raise e (graft f b d)

theorem Parse.Extends.andThen {f : DecState → DecState} {b : Bytes} {r r' : Parse} {k : Dec → Nat → Parse} (h : r.Extends f b r')
    (hk : ∀ d c, (k d c).Extends f b (k (graft f b d) c)) : (r.andThen k).Extends f b (r'.andThen k) := by
  cases r with
  | ok d c => rw [show r' = _ from h]; exact hk d c
  | more => trivial
  | raise e d => rw [show r' = _ from h]; rfl

theorem headerVarInt_extends {f : DecState → DecState} {b : Bytes} {d : Dec} {c : Nat} {k k' : Nat → Nat → Parse}
    (hk : ∀ v c', (k v c').Extends f b (k' v c')) : (headerVarInt d c k).Extends f b (headerVarInt (graft f b d) c k') := by
  unfold headerVarInt
  rw [graft_pending]
  cases hr : viRead 32 d.pending c d.pending.length with
  | needMore => trivial
  | error e => rw [viRead_append (by rw [hr]; simp), hr]; rfl
  | value v c' => rw [viRead_append (by rw [hr]; simp), hr]; exact hk v c'

theorem headerByte_extends {f : DecState → DecState} {b : Bytes} {d : Dec} {c : Nat} {k k' : Byte → Nat → Parse}
    (hk : ∀ v c', (k v c').Extends f b (k' v c')) : (headerByte d c k).Extends f b (headerByte (graft f b d) c k') := by
  unfold headerByte
  rw [graft_pending]
  cases hr : byteRead d.pending c d.pending.length with
  | needMore => trivial
  | error e => exact absurd hr byteRead_not_error
  | value v c' => rw [byteRead_append (by rw [hr]; simp), hr]; exact hk _ c'

theorem parseWinIndicator_extends (f : DecState → DecState) (b : Bytes) (d : Dec) (c : Nat) :
    (parseWinIndicator d c).Extends f b (parseWinIndicator (graft f b d) c) := by
  unfold parseWinIndicator
  refine headerByte_extends fun wi c' => ?_
  split
  · rfl
  · split
    · rfl
    · show Parse.Extends f b (if wi &&& 0x02 ≠ 0 ∧ d.allowVcdTarget = false then _ else _)
        (if wi &&& 0x02 ≠ 0 ∧ d.allowVcdTarget = false then _ else _)
      split
      · rfl
      · show Parse.ok (setHasChecksum wi (setWin _ (graft f b d))) c' = _
        rw [activeWin_graft, setWin_graft]
        rfl

theorem parseSourceSegment_extends (f : DecState → DecState) (b : Bytes) (d : Dec) (c : Nat) :
    (parseSourceSegment d c).Extends f b (parseSourceSegment (graft f b d) c) := by
  unfold parseSourceSegment
  show Parse.Extends f b (if (activeWin d).winIndicator &&& 0x03 = 0 then _ else _)
    (if (activeWin d).winIndicator &&& 0x03 = 0 then _ else _)
  by_cases hs : (activeWin d).winIndicator &&& 0x03 = 0
  · rw [if_pos hs, if_pos hs]
    show Parse.ok (setWin _ (graft f b d)) c = _
    rw [setWin_graft]
    rfl
  · rw [if_neg hs, if_neg hs]
    refine headerVarInt_extends fun size c1 => headerVarInt_extends fun pos c2 => ?_
    show Parse.Extends f b (if segmentBound (activeWin d).winIndicator d < pos + size then _ else _)
      (if segmentBound (activeWin d).winIndicator d < pos + size then _ else _)
    by_cases hb : segmentBound (activeWin d).winIndicator d < pos + size
    · rw [if_pos hb, if_pos hb]; rfl
    · rw [if_neg hb, if_neg hb]
      show Parse.ok (setWin _ (graft f b d)) c2 = _
      rw [setWin_graft]
      rfl

theorem parseDeltaLen_extends (f : DecState → DecState) (b : Bytes) (d : Dec) (c : Nat) :
    (parseDeltaLen d c).Extends f b (parseDeltaLen (graft f b d) c) := by
  unfold parseDeltaLen
  refine headerVarInt_extends fun v c' => ?_
  show Parse.ok (setWin _ (graft f b d)) c' = _
  rw [activeWin_graft, setWin_graft]

theorem parseTargetLen_extends (f : DecState → DecState) (b : Bytes) (d : Dec) (c : Nat) :
    (parseTargetLen d c).Extends f b (parseTargetLen (graft f b d) c) := by
  unfold parseTargetLen
  refine headerVarInt_extends fun v c' => ?_
  show Parse.Extends f b (if d.maxTargetWindowSize.toNat < v then _ else if d.maxTargetFileSize.toNat < (activeCtx d).totalTargetLen + v then _ else _)
    (if d.maxTargetWindowSize.toNat < v then _ else if d.maxTargetFileSize.toNat < (activeCtx d).totalTargetLen + v then _ else _)
  split
  · rfl
  · split
    · rfl
    · show Parse.ok (setWin _ (graft f b d)) c' = _
      rw [activeWin_graft, setWin_graft]

theorem parseDeltaIndicator_extends (f : DecState → DecState) (b : Bytes) (d : Dec) (c : Nat) :
    (parseDeltaIndicator d c).Extends f b (parseDeltaIndicator (graft f b d) c) := by
  unfold parseDeltaIndicator
  refine headerByte_extends fun di c' => ?_
  split
  · rfl
  · rfl

theorem parseSectionLen_extends (put : Nat → WindowRegs → WindowRegs) (f : DecState → DecState) (b : Bytes) (d : Dec) (c : Nat) :
    (parseSectionLen put d c).Extends f b (parseSectionLen put (graft f b d) c) := by
  unfold parseSectionLen
  refine headerVarInt_extends fun v c' => ?_
  show Parse.Extends f b (if d.maxSectionSize.toNat < v then _ else _) (if d.maxSectionSize.toNat < v then _ else _)
  split
  · rfl
  · show Parse.ok (setWin _ (graft f b d)) c' = _
    rw [activeWin_graft, setWin_graft]

theorem parseSectionLens_extends (f : DecState → DecState) (b : Bytes) (d : Dec) (c : Nat) :
    (parseSectionLens d c).Extends f b (parseSectionLens (graft f b d) c) := by
  unfold parseSectionLens
  refine (parseSectionLen_extends _ f b d c).andThen fun d c => ?_
  refine (parseSectionLen_extends _ f b d c).andThen fun d c => ?_
  refine (parseSectionLen_extends _ f b d c).andThen fun d c => ?_
  rfl

theorem parseChecksum_extends (f : DecState → DecState) (b : Bytes) (d : Dec) (c : Nat) :
    (parseChecksum d c).Extends f b (parseChecksum (graft f b d) c) := by
  unfold parseChecksum
  rw [graft_hasChecksum]
  split
  · refine headerVarInt_extends fun v c' => ?_
    show Parse.ok (setWin _ (graft f b d)) c' = _
    rw [activeWin_graft, setWin_graft]
  · rfl

theorem checkDeltaLen_extends (start : Nat) (f : DecState → DecState) (b : Bytes) (d : Dec) (c : Nat) :
    (checkDeltaLen start d c).Extends f b (checkDeltaLen start (graft f b d) c) := by
  unfold checkDeltaLen
  rw [activeWin_graft]
  split <;> rfl

theorem parseWindowHeader_extends (f : DecState → DecState) (b : Bytes) (d : Dec) :
    (parseWindowHeader d).Extends f b (parseWindowHeader (graft f b d)) := by
  unfold parseWindowHeader
  refine (parseWinIndicator_extends f b d 0).andThen fun d c => ?_
  refine (parseSourceSegment_extends f b d c).andThen fun d c => ?_
  refine (parseDeltaLen_extends f b d c).andThen fun d start => ?_
  refine (parseTargetLen_extends f b d start).andThen fun d c => ?_
  refine (parseDeltaIndicator_extends f b d c).andThen fun d c => ?_
  refine (parseSectionLens_extends f b d c).andThen fun d c => ?_
  refine (parseChecksum_extends f b d c).andThen fun d c => checkDeltaLen_extends start f b d c

theorem parseFileHeader_extends (f : DecState → DecState) (b : Bytes) (d : Dec) :
    (parseFileHeader d).Extends f b (parseFileHeader (graft f b d)) := by
  unfold parseFileHeader
  rw [graft_pending]
  cases d.pending with
  | nil => trivial
  | cons h0 t =>
    cases t with
    | nil => trivial
    | cons h1 t =>
      cases t with
      | nil => trivial
      | cons h2 t =>
        cases t with
        | nil => trivial
        | cons h3 t =>
          cases t with
          | nil => trivial
          | cons h4 rest =>
            simp only [List.cons_append]
            repeat (split; · rfl)
            rfl

/-! ## Items of the driver -/

/-- The outcome of a procedure of the driver with more input: the same, unless it wanted more. -/
def Item.Extends (f : DecState → DecState) (b : Bytes) : Item → Item → Prop
  | .done d, r => r = .done (graft f b d)
  | .more, _ => True
  | .raise c d, r => r = .raise c (graft f b d)
  | .fault f, r => r = .fault f

theorem outerHeader_extends {f : DecState → DecState} (hf : Unseen f) (b : Bytes) (d : Dec) : (outerHeader d).Extends f b (outerHeader (graft f b d)) := by
  unfold outerHeader
  have h := parseFileHeader_extends f b d
  cases hr : parseFileHeader d with
  | more => trivial
  | raise e d' => rw [hr] at h; rw [show parseFileHeader (graft f b d) = _ from h]; rfl
  | ok d' c =>
    rw [hr] at h
    rw [show parseFileHeader (graft f b d) = _ from h]
    simp only
    split
    · show Item.done _ = Item.done _; unfold enterCustomTable graft; simp only [hf.table]; rfl
    · show Item.done _ = Item.done _; unfold graft; simp only [hf.between]

theorem innerHeaderStep_extends (n : Nested) (f : DecState → DecState) (b : Bytes) (d : Dec) :
    (innerHeaderStep n d).Extends f b (innerHeaderStep n (graft f b d)) := by
  unfold innerHeaderStep
  have h := parseFileHeader_extends f b d
  cases hr : parseFileHeader d with
  | more => trivial
  | raise e d' => rw [hr] at h; rw [show parseFileHeader (graft f b d) = _ from h]; rfl
  | ok d' c =>
    rw [hr] at h
    rw [show parseFileHeader (graft f b d) = _ from h]
    simp only
    split <;> rfl

theorem paramsStep_extends (n : Nested) (f : DecState → DecState) (b : Bytes) (d : Dec) :
    (paramsStep n d).Extends f b (paramsStep n (graft f b d)) := by
  unfold paramsStep
  rw [graft_pending]
  cases h1 : viRead 32 d.pending 0 d.pending.length with
  | needMore => trivial
  | error e => rw [viRead_append (by rw [h1]; simp), h1]; rfl
  | value near c1 =>
    rw [viRead_append (by rw [h1]; simp), h1]
    simp only
    cases h2 : viRead 32 d.pending c1 d.pending.length with
    | needMore => trivial
    | error e => rw [viRead_append (by rw [h2]; simp), h2]; rfl
    | value same c2 =>
      rw [viRead_append (by rw [h2]; simp), h2]
      simp only
      cases h3 : byteRead d.pending c2 d.pending.length with
      | needMore => trivial
      | error e => exact absurd h3 byteRead_not_error
      | value mm c3 =>
        rw [byteRead_append (by rw [h3]; simp), h3]
        simp only
        split
        · rfl
        · split
          · rfl
          · have := byteRead_value h3
            show Item.done _ = Item.done _
            rw [List.drop_append_of_le_length (by omega)]
            rfl

theorem windowDone_extends {f : DecState → DecState} (hf : Unseen f) (b : Bytes) (d : Dec) : (windowDone d).Extends f b (windowDone (graft f b d)) := by
  unfold windowDone
  rw [graft_nested]
  cases d.nested with
  | none => show Item.done _ = Item.done _; unfold graft; simp only [hf.between]
  | some n =>
    simp only
    split
    · rfl
    · split
      · rfl
      · unfold loadTable
        simp only
        rw [show (graft f b d).ctx = d.ctx from rfl]
        split
        · show Item.done _ = Item.done _; unfold graft; simp only [hf.between]
        · rfl

theorem commit_graft (f : DecState → DecState) (b : Bytes) {d : Dec} (h : windowLen d ≤ d.pending.length) :
    commit (graft f b d) = graft f b (commit d) := by
  unfold commit
  rw [windowLen_graft, activeCtx_graft, graft_pending, List.drop_append_of_le_length h]
  unfold setActive graft
  cases d.nested <;> rfl

theorem closeWindow_extends {f : DecState → DecState} (hf : Unseen f) (b : Bytes) {d : Dec} (h : windowLen d ≤ d.pending.length) :
    (closeWindow d).Extends f b (closeWindow (graft f b d)) := by
  unfold closeWindow
  have e : (terminate (graft f b d)).andThen checkChecksum = ((terminate d).andThen checkChecksum).graft f b := by
    unfold terminate
    rw [activeCtx_graft, activeWin_graft]
    split
    · rfl
    · split
      · rfl
      · show checkChecksum (graft f b d) = (checkChecksum d).graft f b
        unfold checkChecksum
        rw [activeCtx_graft, activeWin_graft, graft_hasChecksum]
        split <;> rfl
  rw [e]
  have hd : ∀ d', (terminate d).andThen checkChecksum = .ok d' → d' = d := by
    intro d' hd
    unfold terminate at hd
    split at hd
    · simp [Run.andThen] at hd
    · split at hd
      · simp [Run.andThen] at hd
      · simp only [Run.andThen, checkChecksum] at hd
        split at hd
        · simp at hd
        · simpa using hd.symm
  cases hr : (terminate d).andThen checkChecksum with
  | ok d' =>
    have := hd d' hr
    subst this
    show (windowDone (commit d')).Extends f b (windowDone (commit (graft f b d')))
    rw [commit_graft f b h]
    exact windowDone_extends hf b _
  | raise c d' => rfl
  | fault f => rfl

theorem finishWindow_extends {f : DecState → DecState} (hf : Unseen f) (b : Bytes) {d : Dec} (h : windowLen d ≤ d.pending.length) :
    (finishWindow d).Extends f b (finishWindow (graft f b d)) := by
  unfold finishWindow
  rw [replayRest_graft f b h]
  have hr := replayRest_replayed d
  cases he : replayRest d with
  | ok d' => rw [he] at hr; exact closeWindow_extends hf b (windowLen_le_of_replayed hr h)
  | raise c d' => rfl
  | fault f => rfl

theorem startReplay_graft (c : Nat) (f : DecState → DecState) (b : Bytes) (d : Dec) :
    startReplay c (graft f b d) = graft f b (startReplay c d) := by
  unfold startReplay
  rw [activeCtx_graft, activeWin_graft, setActive_graft]
  rfl

theorem windowLen_startReplay (c : Nat) (d : Dec) : windowLen (startReplay c d)
    = c + (activeWin d).dataLen + (activeWin d).instLen + (activeWin d).addrLen := by
  unfold windowLen startReplay
  show (activeWin (setActive _ d)).bodyPos + (activeWin (setActive _ d)).dataLen + (activeWin (setActive _ d)).instLen
    + (activeWin (setActive _ d)).addrLen = _
  simp

theorem decodeWindow_extends {f : DecState → DecState} (hf : Unseen f) (b : Bytes) (d : Dec) : (decodeWindow d).Extends f b (decodeWindow (graft f b d)) := by
  unfold decodeWindow
  have h := parseWindowHeader_extends f b d
  cases hr : parseWindowHeader d with
  | more => trivial
  | raise e d' => rw [hr] at h; rw [show parseWindowHeader (graft f b d) = _ from h]; rfl
  | ok d' c =>
    rw [hr] at h
    rw [show parseWindowHeader (graft f b d) = _ from h]
    simp only
    split
    · trivial
    · rename_i hlen
      have hno : ¬ (graft f b d').pending.length < c + (activeWin (graft f b d')).dataLen
          + (activeWin (graft f b d')).instLen + (activeWin (graft f b d')).addrLen := by
        rw [activeWin_graft, graft_pending, List.length_append]; omega
      rw [if_neg hno, startReplay_graft]
      refine finishWindow_extends hf b ?_
      rw [windowLen_startReplay, startReplay_pending]
      omega

/-- What the driver does next depends on more input only where it wanted more (R302). -/
theorem driveItem_extends {f : DecState → DecState} (hf : Unseen f) (b : Bytes) (d : Dec) :
    (driveItem d).Extends f b (driveItem (graft f b d)) := by
  by_cases h1 : d.state = .expectHeader
  · unfold driveItem
    rw [graft_state, h1, hf.header]
    exact outerHeader_extends hf b d
  · by_cases h2 : d.state = .customTable
    · unfold driveItem
      rw [graft_state, h2, hf.table]
      show (customTableStep d).Extends f b (customTableStep (graft f b d))
      unfold customTableStep
      rw [graft_nested]
      cases d.nested with
      | none => trivial
      | some n =>
        simp only
        cases n.phase with
        | params => exact paramsStep_extends n f b d
        | innerHeader => exact innerHeaderStep_extends n f b d
        | innerWindows =>
          simp only
          split
          · trivial
          · rw [if_neg (by simp only [graft_pending, List.length_append]; omega)]
            exact decodeWindow_extends hf b d
    · have hw : ∀ d : Dec, d.state ≠ .expectHeader → d.state ≠ .customTable → driveItem d = decodeWindow d := by
        intro d h k
        unfold driveItem
        split <;> first | rfl | contradiction
      rw [hw d h1 h2, hw _ (hf.window _ h1 h2).1 (hf.window _ h1 h2).2]
      exact decodeWindow_extends hf b d

end Sys2Proof.Machine
end

