-- ==== Sys2Proof/Laws/Encoder.lean ====
section
/-! SUPPORT. What the encoder's operations can answer: what `EncodeInstruction` changes, that it always finds an opcode in a valid
table, and that the parts of the encoder's invariant are kept. -/

namespace Sys2Proof.Machine

open Sys2Proof.Safety

/-! ## The instruction map -/

theorem findIdx?_some_lt {α : Type} {p : α → Bool} {l : List α} {i : Nat} (h : l.findIdx? p = some i) : i < l.length := by
  have := List.findIdx?_eq_some_iff_getElem.mp h
  exact this.1

/-- The lowest row that meets a condition, as an opcode (R153, R154). -/
theorem findIdx_map_iff {p : Row → Bool} {t : Table} (hl : t.length = 256) (op : Byte) :
    (t.findIdx? p).map (BitVec.ofNat 8) = some op ↔
      p (tableRow t op) = true ∧ ∀ lower : Byte, lower.toNat < op.toNat → ¬ p (tableRow t lower) = true := by
  have hrow : ∀ b : Byte, ∀ (h : b.toNat < t.length), t[b.toNat] = tableRow t b := by
    intro b h; unfold tableRow; rw [List.getD_eq_getElem?_getD, List.getElem?_eq_getElem h]; rfl
  constructor
  · intro h
    simp only [Option.map_eq_some_iff] at h
    obtain ⟨i, hi, rfl⟩ := h
    obtain ⟨h1, h2, h3⟩ := List.findIdx?_eq_some_iff_getElem.mp hi
    have hi' : (BitVec.ofNat 8 i).toNat = i := by simp; omega
    refine ⟨?_, ?_⟩
    · rw [← hrow _ (by omega)]; simpa [hi'] using h2
    · intro lower hlt hp
      rw [hi'] at hlt
      have := h3 lower.toNat hlt
      rw [hrow _ (by omega)] at this
      simp [hp] at this
  · rintro ⟨h1, h2⟩
    have hop := op.isLt
    have : t.findIdx? p = some op.toNat := by
      rw [List.findIdx?_eq_some_iff_getElem]
      refine ⟨by omega, by rw [hrow]; exact h1, ?_⟩
      intro j hj
      have hj' : (BitVec.ofNat 8 j).toNat = j := by simp; omega
      have := h2 (BitVec.ofNat 8 j) (by rw [hj']; exact hj)
      rw [← hrow _ (by omega)] at this
      simpa [hj'] using this
    rw [this]; simp

theorem firstOf_eq_some {t : Table} (hl : t.length = 256) {inst size mode op : Byte}
    (h : firstOf t inst size mode = some op) :
    (tableRow t op).first = { inst := inst, size := size, mode := mode } ∧ inst ≠ kindCode .noop ∧
    (tableRow t op).second.inst = kindCode .noop := by
  unfold firstOf at h
  simp only [Option.map_eq_some_iff] at h
  obtain ⟨i, hi, rfl⟩ := h
  obtain ⟨hlt, hp, -⟩ := List.findIdx?_eq_some_iff_getElem.mp hi
  have hto : (BitVec.ofNat 8 i).toNat = i := by simp; omega
  have hrow : tableRow t (BitVec.ofNat 8 i) = t[i] := by
    unfold tableRow
    rw [hto, List.getD_eq_getElem?_getD, List.getElem?_eq_getElem hlt]
    rfl
  rw [hrow]
  simp only [Bool.and_eq_true, beq_iff_eq, bne_iff_ne, ne_eq] at hp
  obtain ⟨⟨⟨⟨h1, h2⟩, h3⟩, h4⟩, h5⟩ := hp
  refine ⟨?_, ?_, h5⟩
  · cases hf : t[i].first with
    | mk a b c => rw [hf] at h1 h2 h3; simp only at h1 h2 h3; rw [h1, h2, h3]
  · rw [← h1]; exact h4

/-- `IMAP_FIRST` answers a single opcode whose first entry is the one asked for (R153, R155). -/
theorem imapFirst_eq_some {t : Table} (hl : t.length = 256) {k : InstKind} {size mode : Nat} {op : Byte}
    (h : imapFirst t k size mode = some op) :
    (tableRow t op).first = half k size mode ∧ k ≠ .noop ∧ (tableRow t op).second.inst = kindCode .noop := by
  have := firstOf_eq_some hl h
  refine ⟨this.1, ?_, this.2.2⟩
  rintro rfl
  exact this.2.1 rfl

/-- `IMAP_SECOND` answers a compound opcode whose second entry is the one asked for, and whose first entry is the one the single
opcode was answered for (R154, R156). -/
theorem imapSecond_eq_some {t : Table} (hl : t.length = 256) {k : InstKind} {size mode : Nat} {op₁ op : Byte}
    (h : imapSecond t op₁ k size mode = some op) :
    (tableRow t op).second = half k size mode ∧
    firstOf t (tableRow t op).first.inst (tableRow t op).first.size (tableRow t op).first.mode = some op₁ := by
  unfold imapSecond at h
  simp only [Option.map_eq_some_iff] at h
  obtain ⟨i, hi, rfl⟩ := h
  obtain ⟨hlt, hp, -⟩ := List.findIdx?_eq_some_iff_getElem.mp hi
  have hto : (BitVec.ofNat 8 i).toNat = i := by simp; omega
  have hrow : tableRow t (BitVec.ofNat 8 i) = t[i] := by
    unfold tableRow
    rw [hto, List.getD_eq_getElem?_getD, List.getElem?_eq_getElem hlt]
    rfl
  rw [hrow]
  simp only [Bool.and_eq_true, beq_iff_eq, bne_iff_ne, ne_eq] at hp
  obtain ⟨⟨⟨⟨⟨h1, h2⟩, h3⟩, -⟩, -⟩, h6⟩ := hp
  refine ⟨?_, h6⟩
  cases hf : t[i].second with
  | mk a b c => rw [hf] at h1 h2 h3; simp only at h1 h2 h3; rw [h1, h2, h3]; rfl

/-- The compound opcode has the single opcode's first entry, and a valid table gives that entry an implicit size (R152, R154). -/
theorem imapSecond_first {t : Table} {mm : Nat} (hl : t.length = 256) (hv : tabValid t mm = true) {k : InstKind}
    {size mode : Nat} {op₁ op : Byte} (hk : k ≠ .noop) (h : imapSecond t op₁ k size mode = some op) :
    (tableRow t op).first = (tableRow t op₁).first ∧ (tableRow t op).first.size ≠ 0 := by
  obtain ⟨h1, h2⟩ := imapSecond_eq_some hl h
  have h3 := firstOf_eq_some hl h2
  refine ⟨h3.1.symm, ?_⟩
  have hr := rowValid_of_tabValid hv (tableRow_mem hl op)
  unfold rowValid at hr
  simp only [Bool.and_eq_true, Bool.or_eq_true, beq_iff_eq, bne_iff_ne, ne_eq] at hr
  rcases hr.2 with hn | hn
  · rw [h1] at hn
    exact absurd (show kindCode k = kindCode .noop from hn) (by cases k <;> simp_all [kindCode])
  · exact hn.2

theorem findIdx?_isSome_of_any {α : Type} {p q : α → Bool} {l : List α} (h : l.any p = true)
    (hpq : ∀ a ∈ l, p a = true → q a = true) : ∃ i, l.findIdx? q = some i := by
  rw [List.any_eq_true] at h
  obtain ⟨a, ha, hp⟩ := h
  have : (l.findIdx? q).isSome = true := by
    rw [List.findIdx?_isSome]
    exact List.any_eq_true.mpr ⟨a, ha, hpq a ha hp⟩
  exact Option.isSome_iff_exists.mp this

/-- An explicit single row of the table is found (R152 V4, R155). -/
theorem imapFirst_of_any {t : Table} {k : InstKind} {m : Nat} (hk : k ≠ .noop) (h : t.any (explicitSingle k m) = true) :
    ∃ op, imapFirst t k 0 m = some op := by
  obtain ⟨i, hi⟩ := findIdx?_isSome_of_any (q := fun r : Row =>
    r.first.inst == kindCode k && r.first.size == BitVec.ofNat 8 0 && r.first.mode == BitVec.ofNat 8 m
    && r.first.inst != kindCode .noop && r.second.inst == kindCode .noop) h (by
      intro r _ hr
      unfold explicitSingle at hr
      simp only [Bool.and_eq_true, beq_iff_eq] at hr
      obtain ⟨⟨⟨h1, h2⟩, h3⟩, h4⟩ := hr
      have hmode : r.first.mode = BitVec.ofNat 8 m := by rw [← h4]; simp
      have hne : kindCode k ≠ kindCode .noop := by cases k <;> simp_all [kindCode]
      simp [h1, h2, h3, hmode, hne])
  exact ⟨_, by unfold imapFirst firstOf; rw [hi]; rfl⟩

/-- A valid table has a single opcode with explicit size for ADD, for RUN and for every COPY mode (R152 V4), so that
`EncodeInstruction` finds one. -/
theorem imapFirst_isSome {t : Table} {mm : Nat} (hv : tabValid t mm = true) :
    (∃ op, imapFirst t .add 0 0 = some op) ∧ (∃ op, imapFirst t .run 0 0 = some op) ∧
    ∀ m, m ≤ mm → ∃ op, imapFirst t .copy 0 m = some op := by
  unfold tabValid at hv
  simp only [Bool.and_eq_true, List.all_eq_true, List.mem_range] at hv
  exact ⟨imapFirst_of_any (by simp) hv.1.1.2, imapFirst_of_any (by simp) hv.1.2,
    fun m hm => imapFirst_of_any (by simp) (hv.2 m (by omega))⟩

/-! ## `EncodeInstruction` -/

/-- What `EncodeInstruction` can change: `INSTS` and `LAST_OPCODE_INDEX` (R222). -/
theorem encodeInstruction_frame {k : InstKind} {size mode : Nat} {e e' : Enc}
    (h : encodeInstruction k size mode e = some e') :
    e' = { e with insts := e'.insts, lastOpcodeIndex := e'.lastOpcodeIndex } := by
  unfold encodeInstruction at h
  split at h
  · simp only [Option.some.injEq] at h; rw [← h]; rfl
  · split at h
    · simp only [Option.some.injEq] at h; rw [← h]; rfl
    · unfold encodeSingle at h
      split at h
      · simp only [Option.some.injEq] at h; rw [← h]; rfl
      · split at h
        · simp only [Option.some.injEq] at h; rw [← h]; rfl
        · simp at h

theorem pendingOpcode_some {e : Enc} {i : Nat} {b : Byte} (h : pendingOpcode e = some (i, b)) :
    e.lastOpcodeIndex = some i ∧ e.insts[i]? = some b := by
  unfold pendingOpcode at h
  split at h
  · simp at h
  · rename_i j hj
    simp only [Option.map_eq_some_iff, Prod.mk.injEq] at h
    obtain ⟨a, h1, rfl, rfl⟩ := h
    exact ⟨hj, h1⟩

theorem compoundFor_some {e : Enc} {k : InstKind} {size mode i : Nat} {op : Byte}
    (h : compoundFor e k size mode = some (i, op)) :
    ∃ b, e.lastOpcodeIndex = some i ∧ e.insts[i]? = some b ∧ imapSecond e.etab b k size mode = some op := by
  unfold compoundFor at h
  split at h
  · simp at h
  · rename_i j b hp
    simp only [Option.map_eq_some_iff, Prod.mk.injEq] at h
    obtain ⟨a, h1, rfl, rfl⟩ := h
    have := pendingOpcode_some hp
    exact ⟨b, this.1, this.2, h1⟩

/-- The four ways `EncodeInstruction` ends (R222). -/
theorem encodeInstruction_cases {k : InstKind} {size mode : Nat} {e e' : Enc}
    (h : encodeInstruction k size mode e = some e') :
    (∃ i op, 1 ≤ size ∧ size ≤ 255 ∧ compoundFor e k size mode = some (i, op) ∧ e' = upgradeOpcode i op e) ∨
    (∃ i op, compoundFor e k 0 mode = some (i, op) ∧ e' = appendSize size (upgradeOpcode i op e)) ∨
    (∃ op, 1 ≤ size ∧ size ≤ 255 ∧ imapFirst e.etab k size mode = some op ∧ e' = appendOpcode op e) ∨
    (∃ op, imapFirst e.etab k 0 mode = some op ∧ e' = appendSize size (appendOpcode op e)) := by
  unfold encodeInstruction at h
  split at h
  · rename_i i op hc
    split at hc
    · rename_i hs
      simp only [Option.some.injEq] at h
      exact .inl ⟨i, op, hs.1, hs.2, hc, h.symm⟩
    · simp at hc
  · split at h
    · rename_i i op hc
      simp only [Option.some.injEq] at h
      exact .inr (.inl ⟨i, op, hc, h.symm⟩)
    · unfold encodeSingle at h
      split at h
      · rename_i op hc
        split at hc
        · rename_i hs
          simp only [Option.some.injEq] at h
          exact .inr (.inr (.inl ⟨op, hs.1, hs.2, hc, h.symm⟩))
        · simp at hc
      · split at h
        · rename_i op hc
          simp only [Option.some.injEq] at h
          exact .inr (.inr (.inr ⟨op, hc, h.symm⟩))
        · simp at h

theorem encodeInstruction_isSome {k : InstKind} {size mode : Nat} {e : Enc}
    (h : ∃ op, imapFirst e.etab k 0 mode = some op) : ∃ e', encodeInstruction k size mode e = some e' := by
  obtain ⟨op, hop⟩ := h
  unfold encodeInstruction
  split
  · exact ⟨_, rfl⟩
  · split
    · exact ⟨_, rfl⟩
    · unfold encodeSingle
      split
      · exact ⟨_, rfl⟩
      · rw [hop]; exact ⟨_, rfl⟩

/-- Bytes appended behind the pending opcode leave it pending. -/
theorem lastOpcodeOk_append {e : Enc} (b : Bytes) (h : LastOpcodeOk e) : LastOpcodeOk { e with insts := e.insts ++ b } := by
  unfold LastOpcodeOk at *
  simp only
  split
  · trivial
  · rename_i i hi
    rw [hi] at h
    obtain ⟨op, h1, h2, h3⟩ := h
    have hlt : i < e.insts.length := (List.getElem?_eq_some_iff.mp h1).1
    exact ⟨op, by rw [List.getElem?_append_left hlt]; exact h1, h2, h3⟩

theorem lastOpcodeOk_appendOpcode {e : Enc} {op : Byte} {k : InstKind} {size mode : Nat} (hl : e.etab.length = 256)
    (h : imapFirst e.etab k size mode = some op) : LastOpcodeOk (appendOpcode op e) := by
  have hi := imapFirst_eq_some hl h
  unfold LastOpcodeOk appendOpcode memAppend
  simp only
  refine ⟨op, by simp, ?_, hi.2.2⟩
  rw [hi.1]
  intro he
  apply hi.2.1
  revert he
  cases k <;> simp [half, kindCode]

/-- After `EncodeInstruction` the pending opcode, if any, is a single opcode in its place (R33). -/
theorem encodeInstruction_lastOpcodeOk {k : InstKind} {size mode : Nat} {e e' : Enc} (hl : e.etab.length = 256)
    (h : encodeInstruction k size mode e = some e') : LastOpcodeOk e' := by
  rcases encodeInstruction_cases h with ⟨i, op, -, -, -, rfl⟩ | ⟨i, op, -, rfl⟩ | ⟨op, -, -, ho, rfl⟩ | ⟨op, ho, rfl⟩
  · trivial
  · trivial
  · exact lastOpcodeOk_appendOpcode hl ho
  · exact lastOpcodeOk_append _ (lastOpcodeOk_appendOpcode hl ho)

theorem lastOpcodeOk_appendData {e : Enc} (b : Bytes) (h : LastOpcodeOk e) : LastOpcodeOk (appendData b e) := by
  unfold appendData
  split
  · exact lastOpcodeOk_append b h
  · exact h

theorem lastOpcodeOk_appendAddress {e : Enc} (b : Bytes) (h : LastOpcodeOk e) : LastOpcodeOk (appendAddress b e) := by
  unfold appendAddress
  split
  · exact lastOpcodeOk_append b h
  · exact h

/-! ## `AC_ENCODE` -/

theorem nearCandidates_mem {addr i : Nat} {l : List Nat} {c : Candidate} (h : c ∈ nearCandidates addr i l) :
    i + 2 ≤ c.mode ∧ c.mode < i + 2 + l.length := by
  induction l generalizing i with
  | nil => simp [nearCandidates] at h
  | cons x rest ih =>
    rw [nearCandidates] at h
    split at h
    · simp only [List.mem_cons] at h
      rcases h with rfl | h
      · simp; omega
      · have := ih h; simp only [List.length_cons]; omega
    · have := ih h; simp only [List.length_cons]; omega

theorem shortest_mem (best : Candidate) (l : List Candidate) : shortest best l = best ∨ shortest best l ∈ l := by
  induction l generalizing best with
  | nil => exact .inl rfl
  | cons x rest ih =>
    rw [shortest]
    split
    · rcases ih x with h | h
      · right; rw [h]; exact List.mem_cons_self
      · right; exact List.mem_cons_of_mem _ h
    · rcases ih best with h | h
      · left; exact h
      · right; exact List.mem_cons_of_mem _ h

theorem sameIndex_lt {c : AddrCache} (h : 0 < c.sameSize) (addr : Nat) : sameIndex c addr < c.sameSize * 256 := by
  unfold sameIndex
  split
  · have h1 : addr % c.sameSize < c.sameSize := Nat.mod_lt _ h
    have h2 : addr % 256 < 256 := Nat.mod_lt _ (by omega)
    have := Nat.mul_le_mul_right 256 (show addr % c.sameSize + 1 ≤ c.sameSize by omega)
    omega
  · exact Nat.mod_lt _ (by omega)

/-- The mode `AC_ENCODE` chooses exists (R190, R194). -/
theorem acEncode_mode {c : AddrCache} (hc : CacheOk c) (addr here : Nat) :
    (acEncode c addr here).1 ≤ 1 + c.nearSize + c.sameSize := by
  have key : ∀ x : Candidate, x ∈ otherCandidates c addr here → x.mode ≤ 1 + c.nearSize + c.sameSize := by
    intro x hx
    unfold otherCandidates at hx
    simp only [List.mem_cons, List.mem_append] at hx
    rcases hx with rfl | hx | hx
    · simp
      omega
    · have := nearCandidates_mem hx
      rw [hc.1] at this
      omega
    · unfold sameCandidates at hx
      split at hx
      · rename_i hs
        simp only [List.mem_singleton] at hx
        subst hx
        have := sameIndex_lt hs.1 addr
        simp only
        have : sameIndex c addr / 256 < c.sameSize := Nat.div_lt_of_lt_mul (by omega)
        omega
      · simp at hx
  unfold acEncode
  simp only
  rcases shortest_mem { mode := 0, value := addr, len := viLen addr } (otherCandidates c addr here) with h | h
  · rw [h]; simp
  · exact key _ h

@[simp] theorem acEncode_cache (c : AddrCache) (addr here : Nat) : (acEncode c addr here).2.2 = acUpdate c addr := rfl

/-! ## The window written -/

/-- `|B| = L`: what `ENC_OUTPUT` writes is as long as it says (R228, R233). -/
theorem deltaEncoding_length (e : Enc) : (deltaEncoding e).length = deltaWindowSize e := by
  unfold deltaEncoding deltaWindowSize
  simp only [List.length_append, viWrite_length, List.length_singleton]
  cases e.hasChecksum <;> simp <;> omega

/-! ## The encoder's invariant -/

/-- Clearing the window keeps the invariant (R221, R227). -/
theorem encInv_clear {e : Enc} (h : EncInv e) : EncInv (encClearWindow e) := by
  obtain ⟨h1, h2, h3, h4, -, -, -, h8⟩ := h
  refine ⟨acInit_ok _, h2, h3, ?_, fun _ => ⟨rfl, rfl⟩, trivial, fun _ => ⟨rfl, rfl, rfl⟩, h8⟩
  show e.dictSize.toNat + 0 ≤ _
  unfold encHere at h4
  omega

/-- Failing keeps the invariant (R387). -/
theorem encInv_raise {e : Enc} (c : Cause) (hc : causeKind c ≠ 0) (h : EncInv e) : EncInv (encRaise c e) := by
  obtain ⟨h1, h2, h3, h4, h5, h6, h7, h8⟩ := h
  exact ⟨h1, h2, h3, h4, h5, h6, fun hs => absurd hs (by simp), fun _ => hc, fun _ => rfl⟩

/-- One instruction emitted in a ready encoder, its bytes appended where the layout routes them and the target grown, keeps the
invariant (R223 to R225). -/
theorem encInv_emit {e e₁ e₂ : Enc} {k : InstKind} {size mode n : Nat} (h : EncInv e) (hs : e.state = .ready)
    (hi : encodeInstruction k size mode e = some e₁)
    (hr : (∃ b, e₂ = appendData b e₁) ∨ ∃ b, e₂ = appendAddress b e₁)
    (hn : encHere e + n ≤ 4294967295) : EncInv (growTarget n e₂) := by
  obtain ⟨h1, h2, h3, h4, h5, h6, h7, h8⟩ := h
  have hl := encodeInstruction_lastOpcodeOk h2.1 hi
  have hf := encodeInstruction_frame hi
  have f1 : e₁.cache = e.cache := by rw [hf]
  have f2 : e₁.etab = e.etab := by rw [hf]
  have f3 : e₁.maxMode = e.maxMode := by rw [hf]
  have f4 : e₁.customTable = e.customTable := by rw [hf]
  have f5 : e₁.dictSize = e.dictSize := by rw [hf]
  have f6 : e₁.targetLen = e.targetLen := by rw [hf]
  have f7 : e₁.interleaved = e.interleaved := by rw [hf]
  have f8 : e₁.data = e.data := by rw [hf]
  have f9 : e₁.addrs = e.addrs := by rw [hf]
  have f10 : e₁.state = e.state := by rw [hf]
  have f11 : e₁.errKind = e.errKind := by rw [hf]
  rcases hr with ⟨b, rfl⟩ | ⟨b, rfl⟩
  all_goals
    refine ⟨?_, ?_, ?_, ?_, ?_, ?_, ?_, ?_⟩
    · simp only [growTarget_cache, appendData_cache, appendAddress_cache, f1]; exact h1
    · simp only [growTarget_cache, appendData_cache, appendAddress_cache, growTarget_etab, appendData_etab,
        appendAddress_etab, growTarget_maxMode, appendData_maxMode, appendAddress_maxMode, f1, f2, f3]; exact h2
    · simp only [growTarget_cache, appendData_cache, appendAddress_cache, growTarget_etab, appendData_etab,
        appendAddress_etab, growTarget_customTable, appendData_customTable, appendAddress_customTable, f1, f2, f4]
      exact h3
    · unfold encHere at hn ⊢
      simp only [growTarget_dictSize, appendData_dictSize, appendAddress_dictSize, growTarget_targetLen,
        appendData_targetLen, appendAddress_targetLen, f5, f6]
      omega
    · simp only [growTarget_interleaved, appendData_interleaved, appendAddress_interleaved, growTarget_data,
        growTarget_addrs, appendData_data, appendData_addrs, appendAddress_data, appendAddress_addrs, f7, f8, f9]
      intro hil
      have := h5 hil
      rw [if_pos hil]
      exact this
    · first
        | exact lastOpcodeOk_appendData b hl
        | exact lastOpcodeOk_appendAddress b hl
    · simp only [growTarget_state, appendData_state, appendAddress_state, f10]
      intro hc
      rw [hs] at hc
      exact absurd hc (by simp)
    · simp only [growTarget_state, appendData_state, appendAddress_state, growTarget_errKind, appendData_errKind,
        appendAddress_errKind, f10, f11]
      exact h8

/-- The invariant looks at the address cache's contents only for their width. -/
theorem encInv_cache {e : Enc} (h : EncInv e) {addr : Nat} (ha : addr < 4294967296) : EncInv { e with cache := acUpdate e.cache addr } := by
  obtain ⟨h1, h2, h3, h4, h5, h6, h7, h8⟩ := h
  refine ⟨acUpdate_ok h1 ha, ?_, ?_, h4, h5, h6, h7, h8⟩
  · unfold TableOk at *
    simpa using h2
  · simpa using h3

end Sys2Proof.Machine
end

