-- ==== Sys2Proof/Laws/VarInt.lean ====
section
/-! SUPPORT. The VarInt unit, and Adler32. The VarInt unit reads what it writes (R138): the length of a VarInt, the bytes of one, and the read at any place of
a longer byte string. -/

namespace Sys2Proof.Machine

theorem viLenLoop_bounds {fuel v : Nat} (h : v < 128 ^ (fuel + 1)) :
    1 ≤ viLenLoop fuel v ∧ viLenLoop fuel v ≤ fuel + 1 ∧ v < 128 ^ viLenLoop fuel v ∧
    (1 < viLenLoop fuel v → 128 ^ (viLenLoop fuel v - 1) ≤ v) := by
  induction fuel generalizing v with
  | zero => simp only [viLenLoop]; refine ⟨by omega, by omega, by simpa using h, by omega⟩
  | succ n ih =>
    rw [viLenLoop]
    split
    · rename_i hv
      have hd : v / 128 < 128 ^ (n + 1) := by
        rw [Nat.div_lt_iff_lt_mul (by omega)]
        rw [Nat.pow_succ] at h; exact h
      obtain ⟨i1, i2, i3, i4⟩ := ih hd
      refine ⟨by omega, by omega, ?_, fun _ => ?_⟩
      · rw [Nat.pow_succ]
        rw [Nat.div_lt_iff_lt_mul (by omega)] at i3
        exact i3
      · rw [Nat.add_sub_cancel]
        by_cases h1 : 1 < viLenLoop n (v / 128)
        · have := i4 h1
          have e : viLenLoop n (v / 128) = viLenLoop n (v / 128) - 1 + 1 := by omega
          rw [e, Nat.pow_succ]
          rw [Nat.le_div_iff_mul_le (by omega)] at this
          exact this
        · have e : viLenLoop n (v / 128) = 1 := by omega
          rw [e]; omega
    · refine ⟨by omega, by omega, by rw [Nat.pow_one]; omega, by omega⟩

theorem viLen_bounds {v : Nat} (h : v < 2 ^ 64) :
    1 ≤ viLen v ∧ viLen v ≤ 10 ∧ v < 128 ^ viLen v ∧ (1 < viLen v → 128 ^ (viLen v - 1) ≤ v) :=
  viLenLoop_bounds (Nat.lt_of_lt_of_le h (by decide))

/-- A VarInt is at most as long as any count of groups that holds its value. -/
theorem viLen_le {v n : Nat} (h : v < 2 ^ 64) (hn : 1 ≤ n) (hv : v < 128 ^ n) : viLen v ≤ n := by
  obtain ⟨h1, -, -, h4⟩ := viLen_bounds h
  by_cases hk : viLen v ≤ n
  · exact hk
  · have := h4 (by omega)
    have hp : 128 ^ n ≤ 128 ^ (viLen v - 1) := Nat.pow_le_pow_right (by omega) (by omega)
    omega

/-- The byte cap of a width (R6): 5 bytes for 32 bits, 10 for 64. -/
theorem viLen_le_cap {width v : Nat} (hw : width = 32 ∨ width = 64) (h : v < 2 ^ width) :
    v < 2 ^ 64 ∧ viLen v ≤ viMaxBytes width := by
  rcases hw with rfl | rfl
  · have h64 : v < 2 ^ 64 := Nat.lt_of_lt_of_le h (by decide)
    exact ⟨h64, viLen_le h64 (by decide) (Nat.lt_of_lt_of_le h (by decide))⟩
  · exact ⟨h, (viLen_bounds h).2.1⟩

theorem viByte_toNat {v n i : Nat} : (viByte v n i).toNat = v / 128 ^ (n - 1 - i) % 128 + (if i + 1 < n then 128 else 0) := by
  unfold viByte
  rw [BitVec.toNat_ofNat, Nat.mod_eq_of_lt]
  split <;> omega

theorem viWrite_getElem? {v i : Nat} (h : i < viLen v) : (viWrite v)[i]? = some (viByte v (viLen v) i) := by
  unfold viWrite
  simp [h]

/-- One more group (R133): the accumulator after a byte is the value shifted by one group less. -/
theorem viGroup_step {v n i : Nat} (h : i < n) :
    v / 128 ^ (n - i) * 128 + v / 128 ^ (n - 1 - i) % 128 = v / 128 ^ (n - 1 - i) := by
  have e : n - i = n - 1 - i + 1 := by omega
  rw [e, Nat.pow_succ, ← Nat.div_div_eq_div_mul]
  omega

/-- The loop of `VI_READ` over bytes that are those of a VarInt, from byte `i` on. -/
theorem viReadLoop_bytes {width v n : Nat} {src : Bytes} {start lim left i : Nat} (hv : v < 2 ^ width) (hn : n ≤ i + left)
    (hi : i < n) (hb : ∀ k, k < n → start + k < lim → src[start + k]? = some (viByte v n k)) :
    viReadLoop width src lim left (start + i) (v / 128 ^ (n - i)) =
      if start + n ≤ lim then .value v (start + n) else .needMore := by
  induction left generalizing i with
  | zero => omega
  | succ m ih =>
    rw [viReadLoop]
    by_cases hl : lim ≤ start + i
    · rw [if_pos hl, if_neg (by omega)]
    · rw [if_neg hl, hb i hi (by omega)]
      simp only
      have hg := viGroup_step (v := v) hi
      rw [viByte_toNat]
      by_cases hlast : i + 1 < n
      · rw [if_pos hlast, if_neg (by omega)]
        have hmod : (v / 128 ^ (n - 1 - i) % 128 + 128) % 128 = v / 128 ^ (n - 1 - i) % 128 := by omega
        rw [hmod, hg, show n - 1 - i = n - (i + 1) by omega, Nat.add_assoc]
        exact ih (by omega) hlast
      · have e : n = i + 1 := by omega
        subst e
        rw [if_neg hlast, Nat.add_zero, if_pos (Nat.mod_lt _ (by omega)), Nat.mod_mod, hg]
        have h0 : v / 128 ^ (i + 1 - 1 - i) = v := by
          rw [show i + 1 - 1 - i = 0 by omega, Nat.pow_zero, Nat.div_one]
        rw [h0, if_neg (Nat.not_le.mpr hv), if_pos (by omega), Nat.add_assoc]

theorem viRead_bytes {width v : Nat} {src : Bytes} {start lim : Nat} (hw : width = 32 ∨ width = 64) (hv : v < 2 ^ width)
    (hb : ∀ k, k < viLen v → start + k < lim → src[start + k]? = some (viByte v (viLen v) k)) :
    viRead width src start lim = if start + viLen v ≤ lim then .value v (start + viLen v) else .needMore := by
  obtain ⟨h64, hc⟩ := viLen_le_cap hw hv
  have hbd := viLen_bounds h64
  have h0 : v / 128 ^ (viLen v - 0) = 0 := by rw [Nat.sub_zero]; exact Nat.div_eq_of_lt hbd.2.2.1
  have := viReadLoop_bytes (width := width) (src := src) (start := start) (lim := lim) (left := viMaxBytes width) (i := 0)
    hv (by omega) (by omega) hb
  rw [h0, Nat.add_zero] at this
  exact this

/-- A VarInt in the middle of a byte string reads back (R138). -/
theorem viRead_middle {width v lim : Nat} (hw : width = 32 ∨ width = 64) (hv : v < 2 ^ width) (before after : Bytes)
    (hl : before.length + viLen v ≤ lim) :
    viRead width (before ++ (viWrite v ++ after)) before.length lim = .value v (before.length + viLen v) := by
  rw [viRead_bytes hw hv, if_pos hl]
  intro k hk _
  rw [List.getElem?_append_right (by omega), Nat.add_sub_cancel_left,
    List.getElem?_append_left (by rw [viWrite_length]; exact hk), viWrite_getElem? hk]

/-- A VarInt that is cut off wants more (R138). -/
theorem viRead_cut {width v : Nat} (hw : width = 32 ∨ width = 64) (hv : v < 2 ^ width) {p q : Bytes}
    (h : viWrite v = p ++ q) (hq : q ≠ []) : viRead width p 0 p.length = .needMore := by
  have hlen : p.length < viLen v := by
    have := congrArg List.length h
    rw [viWrite_length, List.length_append] at this
    have := List.length_pos_iff.mpr hq
    omega
  rw [viRead_bytes hw hv, if_neg (by omega)]
  intro k hk hkp
  rw [Nat.zero_add] at *
  rw [← viWrite_getElem? hk, h, List.getElem?_append_left hkp]

/-- A raw byte in the middle of a byte string reads back (R137). -/
theorem byteRead_middle {lim : Nat} (before after : Bytes) (b : Byte) (hl : before.length < lim) :
    byteRead (before ++ (b :: after)) before.length lim = .value b.toNat (before.length + 1) := by
  unfold byteRead
  rw [if_neg (by omega), List.getElem?_append_right (Nat.le_refl _), Nat.sub_self]
  rfl

/-! ## The outcomes -/

/-- Bytes that all continue, fewer than the cap, want more (R134). -/
theorem viReadLoop_needMore {width : Nat} {src : Bytes} {lim left cur acc : Nat} (hs : lim ≤ src.length) (hcl : cur ≤ lim)
   (h : lim < cur + left) (hb : ∀ k b, cur ≤ k → k < lim → src[k]? = some b → 128 ≤ b.toNat) :
   viReadLoop width src lim left cur acc = .needMore := by
  induction left generalizing cur acc with
  | zero => omega
  | succ n ih =>
    rw [viReadLoop]
    split
    · rfl
    · rename_i hc
      obtain ⟨b, hb'⟩ : ∃ b, src[cur]? = some b := ⟨_, List.getElem?_eq_getElem (by omega)⟩
      rw [hb']
      have := hb cur b (by omega) (by omega) hb'
      simp only
      rw [if_neg (by omega)]
      exact ih (by omega) (by omega) (fun k b h1 h2 => hb k b (by omega) h2)

/-- As many bytes as the cap never want more (R134). -/
theorem viReadLoop_enough {width : Nat} {src : Bytes} {lim left cur acc : Nat} (hs : lim ≤ src.length)
   (h : cur + left ≤ lim) : viReadLoop width src lim left cur acc ≠ .needMore := by
  induction left generalizing cur acc with
  | zero => simp [viReadLoop]
  | succ n ih =>
    rw [viReadLoop, if_neg (by omega)]
    obtain ⟨b, hb'⟩ : ∃ b, src[cur]? = some b := ⟨_, List.getElem?_eq_getElem (by omega)⟩
    rw [hb']
    simp only
    split
    · split <;> simp
    · exact ih (by omega)

/-- An overflow is decided on the last byte of the cap (R134). -/
theorem viReadLoop_overflow {width : Nat} {src : Bytes} {lim left cur acc : Nat} {e : UnitError} {done : Nat}
   (hacc : acc < 128 ^ done) (hcap : 128 ^ (done + left - 1) ≤ 2 ^ width)
   (h : viReadLoop width src lim left cur acc = .error e) : (0 < left → cur + left ≤ lim) ∧ ∀ k b, cur ≤ k → k + 1 < cur + left → src[k]? = some b → 128 ≤ b.toNat := by
  induction left generalizing cur acc done with
  | zero => refine ⟨by omega, fun k b h1 h2 => by omega⟩
  | succ n ih =>
    rw [viReadLoop] at h
    split at h
    · simp at h
    rename_i hc
    split at h
    · simp at h
    rename_i b hb
    have hacc' : acc * 128 + b.toNat % 128 < 128 ^ (done + 1) := by
      rw [Nat.pow_succ]; omega
    split at h
    · split at h
      · rename_i h1 h2
        have : n = 0 := by
          apply Decidable.byContradiction; intro hn
          have : 128 ^ (done + 1) ≤ 128 ^ (done + (n + 1) - 1) := Nat.pow_le_pow_right (by omega) (by omega)
          omega
        subst this
        refine ⟨fun _ => by omega, fun k b h1 h2 => by omega⟩
      · simp at h
    · rename_i hbig
      obtain ⟨i1, i2⟩ := ih (done := done + 1) hacc' (by rw [show done + 1 + n - 1 = done + (n+1) - 1 by omega]; exact hcap) h
      refine ⟨fun _ => ?_, ?_⟩
      · by_cases hn : 0 < n
        · have := i1 hn; omega
        · omega
      · intro k b' h1 h2 h3
        by_cases hk : k = cur
        · subst hk; rw [hb] at h3; simp at h3; subst h3; omega
        · exact i2 k b' (by omega) (by omega) h3

/-- A value that took `n` bytes fits in `n` groups. -/
theorem viReadLoop_bound {width : Nat} {src : Bytes} {lim left cur acc v c done : Nat} (hacc : acc < 128 ^ done)
   (h : viReadLoop width src lim left cur acc = .value v c) : v < 128 ^ (done + (c - cur)) := by
  induction left generalizing cur acc done with
  | zero => simp [viReadLoop] at h
  | succ n ih =>
    have hm := viReadLoop_value h
    rw [viReadLoop] at h
    split at h
    · simp at h
    split at h
    · simp at h
    rename_i b hb
    have hacc' : acc * 128 + b.toNat % 128 < 128 ^ (done + 1) := by
      rw [Nat.pow_succ]; omega
    split at h
    · split at h
      · simp at h
      · simp at h; obtain ⟨rfl, rfl⟩ := h
        rw [show cur + 1 - cur = 1 by omega]; exact hacc'
    · have := ih hacc' h
      have h2 := viReadLoop_value h
      rw [show done + (c - cur) = done + 1 + (c - (cur + 1)) by omega]; exact this

/-! ## Adler32 -/

/-- Both sums stay below the modulus (R360). -/
theorem adlerPair_lt (p : Nat × Nat) (hp : p.1 < 65521 ∧ p.2 < 65521) (s : Bytes) : (adlerPair p s).1 < 65521 ∧ (adlerPair p s).2 < 65521 := by
  induction s generalizing p with
  | nil => exact hp
  | cons x r ih => exact ih _ ⟨Nat.mod_lt _ (by omega), Nat.mod_lt _ (by omega)⟩

/-- The first sum is one plus the bytes (R360). -/
theorem adlerPair_fst (p : Nat × Nat) (hp : p.1 < 65521) (s : Bytes) : (adlerPair p s).1 = (p.1 + (s.map BitVec.toNat).sum) % 65521 := by
  induction s generalizing p with
  | nil => simp [adlerPair, Nat.mod_eq_of_lt hp]
  | cons x r ih =>
    have := ih (adlerStep p x) (Nat.mod_lt _ (by omega))
    simp only [adlerPair, List.foldl_cons] at *
    rw [this]; simp [adlerStep]; omega

/-- A VarInt of any length up to the cap, minimal or not, and what it reads as (R133, R135). -/
theorem viReadLoop_groups {width left acc v lim : Nat} (before head rest : Bytes) (last : Byte) (hl : head.length < left)
    (hlim : before.length + head.length < lim)
    (hh : ∀ b ∈ head, 128 ≤ b.toNat) (hlast : last.toNat < 128)
    (hv : (head ++ [last]).foldl (fun n b => n * 128 + b.toNat % 128) acc = v) :
    viReadLoop width (before ++ head ++ last :: rest) lim left before.length acc =
      if v < 2 ^ width then .value v (before.length + head.length + 1) else .error .varIntOverflow := by
  induction head generalizing before acc left with
  | nil =>
    obtain ⟨m, rfl⟩ : ∃ m, left = m + 1 := ⟨left - 1, by simp at hl; omega⟩
    have hv : acc * 128 + last.toNat % 128 = v := hv
    rw [viReadLoop, if_neg (by simp at hlim; omega), List.append_nil, List.getElem?_append_right (Nat.le_refl _)]
    simp only [Nat.sub_self, List.getElem?_cons_zero, if_pos hlast, hv]
    by_cases h : v < 2 ^ width
    · rw [if_neg (by omega), if_pos h]; rfl
    · rw [if_pos (by omega), if_neg h]
  | cons x t ih =>
    obtain ⟨m, rfl⟩ : ∃ m, left = m + 1 := ⟨left - 1, by simp at hl; omega⟩
    have hx := hh x (by simp)
    rw [viReadLoop, if_neg (by omega), show before ++ x :: t ++ last :: rest = before ++ (x :: (t ++ last :: rest)) by simp,
      List.getElem?_append_right (Nat.le_refl _)]
    simp only [Nat.sub_self, List.getElem?_cons_zero]
    rw [if_neg (by omega)]
    have := ih (left := m) (acc := acc * 128 + x.toNat % 128) (before ++ [x]) (by simp at hl; omega) (by simp at hlim ⊢; omega)
      (fun b hb => hh b (by simp [hb])) hv
    simp only [List.append_assoc, List.cons_append, List.nil_append, List.length_append, List.length_cons, List.length_nil,
      Nat.zero_add] at this ⊢
    rw [this, show before.length + 1 + t.length + 1 = before.length + (t.length + 1) + 1 by omega]

/-- A cap's worth of bytes that all continue overflows (R133). -/
theorem viReadLoop_allContinue {width left acc lim : Nat} (before head rest : Bytes) (hl : head.length = left)
    (hlim : before.length + head.length ≤ lim)
    (hh : ∀ b ∈ head, 128 ≤ b.toNat) :
    viReadLoop width (before ++ head ++ rest) lim left before.length acc = .error .varIntOverflow := by
  induction head generalizing before acc left with
  | nil => subst hl; rfl
  | cons x t ih =>
    subst hl
    have hx := hh x (by simp)
    rw [List.length_cons, viReadLoop, if_neg (by simp at hlim; omega), show before ++ x :: t ++ rest = before ++ (x :: (t ++ rest)) by simp,
      List.getElem?_append_right (Nat.le_refl _)]
    simp only [Nat.sub_self, List.getElem?_cons_zero]
    rw [if_neg (by omega)]
    have := ih (acc := acc * 128 + x.toNat % 128) (before ++ [x]) rfl (by simp at hlim ⊢; omega) (fun b hb => hh b (by simp [hb]))
    simp only [List.append_assoc, List.cons_append, List.nil_append, List.length_append, List.length_cons, List.length_nil, Nat.zero_add] at this ⊢
    exact this

/-- The second sum weights each byte by how many bytes are left (R360). -/
theorem adlerPair_snd (p : Nat × Nat) (hp : p.2 < 65521) (s : Bytes) :
    (adlerPair p s).2 = (p.2 + s.length * p.1 + Safety.adlerWeighted s) % 65521 := by
  induction s generalizing p with
  | nil => simp [adlerPair, Safety.adlerWeighted, Nat.mod_eq_of_lt hp]
  | cons x r ih =>
    have := ih (adlerStep p x) (Nat.mod_lt _ (by omega))
    simp only [adlerPair, List.foldl_cons] at *
    rw [this]
    simp only [adlerStep, Safety.adlerWeighted, List.length_cons]
    generalize r.length = n
    generalize Safety.adlerWeighted r = w
    generalize p.1 = a
    generalize p.2 = b
    generalize x.toNat = y
    have e : (b + (n + 1) * a + ((n + 1) * y + w)) = (b + (a + y)) + n * (a + y) + w := by
      simp only [Nat.add_mul, Nat.mul_add, Nat.one_mul]
      generalize n * a = u
      generalize n * y = v
      omega
    rw [e]
    have e2 : n * ((a + y) % 65521) % 65521 = n * (a + y) % 65521 := by
      rw [Nat.mul_mod, Nat.mod_mod, ← Nat.mul_mod]
    generalize hu : n * ((a + y) % 65521) = u at e2 ⊢
    generalize hv : n * (a + y) = v at e2 ⊢
    omega

end Sys2Proof.Machine
end

