-- ==== Sys2Proof/Laws/Cache.lean ====
section
/-! SUPPORT. The address cache on both sides: what `AC_ENCODE` chooses, and that every way of writing an address it could choose
decodes to that address (R194 to R199). -/

namespace Sys2Proof.Machine

open Sys2Proof.Safety

/-- What `AC_ENCODE` answers: the shortest candidate, and the updated cache (R194). -/
theorem acEncode_cases {c : AddrCache} {addr here m v : Nat} {c' : AddrCache} (h : acEncode c addr here = (m, v, c')) :
   c' = acUpdate c addr ∧ ∃ len, (shortest { mode := 0, value := addr, len := viLen addr } (otherCandidates c addr here)) = ⟨m, v, len⟩ := by
  unfold acEncode at h
  simp only [Prod.mk.injEq] at h
  obtain ⟨rfl, rfl, rfl⟩ := h
  exact ⟨rfl, _, rfl⟩

/-- The chosen candidate is no longer than any other (R195). -/
theorem shortest_le (best : Candidate) (l : List Candidate) : (shortest best l).len ≤ best.len ∧ ∀ x ∈ l, (shortest best l).len ≤ x.len := by
  induction l generalizing best with
  | nil => simp [shortest]
  | cons x r ih =>
    rw [shortest]
    split
    · obtain ⟨a, b⟩ := ih x
      refine ⟨by omega, ?_⟩
      intro y hy; rcases List.mem_cons.mp hy with rfl | hy
      · exact a
      · exact b y hy
    · obtain ⟨a, b⟩ := ih best
      refine ⟨a, ?_⟩
      intro y hy; rcases List.mem_cons.mp hy with rfl | hy
      · omega
      · exact b y hy

/-- Among candidates in rising mode, the chosen one has the lowest mode of its length (R195). -/
theorem shortest_first (best : Candidate) (l : List Candidate) (hs : (best :: l).Pairwise (fun a b => a.mode < b.mode)) :
   ∀ x ∈ best :: l, x.len = (shortest best l).len → (shortest best l).mode ≤ x.mode := by
  induction l generalizing best with
  | nil => intro x hx _; simp at hx; subst hx; simp [shortest]
  | cons y r ih =>
    intro x hx hl
    rw [shortest] at hl ⊢
    have hyr : (y :: r).Pairwise (fun a b => a.mode < b.mode) := (List.pairwise_cons.mp hs).2
    have hbr : (best :: r).Pairwise (fun a b => a.mode < b.mode) := by
      rw [List.pairwise_cons] at hs ⊢
      exact ⟨fun a ha => hs.1 a (List.mem_cons_of_mem _ ha), (List.pairwise_cons.mp hs.2).2⟩
    split at hl
    · rename_i hlt
      rw [if_pos hlt]
      rcases List.mem_cons.mp hx with rfl | hx
      · have := (shortest_le y r).1; omega
      · exact ih y hyr x hx hl
    · rename_i hlt
      rw [if_neg hlt]
      rcases List.mem_cons.mp hx with rfl | hx
      · exact ih x hbr x (List.mem_cons_self ..) hl
      · rcases List.mem_cons.mp hx with rfl | hx
        · have hm := (List.pairwise_cons.mp hs).1 x (List.mem_cons_self ..)
          have hle := (shortest_le best r).1
          have := ih best hbr best (List.mem_cons_self ..) (by omega)
          omega
        · exact ih best hbr x (List.mem_cons_of_mem _ hx) hl

/-- The NEAR candidates, one for each slot that holds an address at or below (R194). -/
theorem nearCandidates_spec {addr i : Nat} {l : List Nat} {c : Candidate} : c ∈ nearCandidates addr i l ↔
   ∃ k base, l[k]? = some base ∧ base ≤ addr ∧ c = { mode := 2 + (i + k), value := addr - base, len := viLen (addr - base) } := by
  induction l generalizing i with
  | nil => simp [nearCandidates]
  | cons b r ih =>
    rw [nearCandidates]
    have key : (∃ k base, (b :: r)[k]? = some base ∧ base ≤ addr ∧ c = { mode := 2 + (i + k), value := addr - base, len := viLen (addr - base) }) ↔
       (b ≤ addr ∧ c = { mode := 2 + i, value := addr - b, len := viLen (addr - b) }) ∨
       ∃ k base, r[k]? = some base ∧ base ≤ addr ∧ c = { mode := 2 + (i + 1 + k), value := addr - base, len := viLen (addr - base) } := by
      constructor
      · rintro ⟨k, base, h1, h2, h3⟩
        cases k with
        | zero => simp at h1; subst h1; exact .inl ⟨h2, by simpa using h3⟩
        | succ k => simp at h1; exact .inr ⟨k, base, h1, h2, by rw [h3, show i + (k+1) = i + 1 + k by omega]⟩
      · rintro (⟨h1, h2⟩ | ⟨k, base, h1, h2, h3⟩)
        · exact ⟨0, b, rfl, h1, by simpa using h2⟩
        · exact ⟨k + 1, base, by simpa using h1, h2, by rw [h3, show i + (k+1) = i + 1 + k by omega]⟩
    rw [key]
    split
    · rename_i h; rw [List.mem_cons, ih]; simp [h]
    · rename_i h; rw [ih]; simp [h]

/-- The NEAR candidates stand in rising mode. -/
theorem nearCandidates_pairwise (addr i : Nat) (l : List Nat) : (nearCandidates addr i l).Pairwise (fun a b => a.mode < b.mode) := by
  induction l generalizing i with
  | nil => simp [nearCandidates]
  | cons b r ih =>
    rw [nearCandidates]
    split
    · refine List.pairwise_cons.mpr ⟨?_, ih _⟩
      intro x hx; have := nearCandidates_mem hx; simp; omega
    · exact ih _

/-- All candidates stand in rising mode. -/
theorem candidates_pairwise {c : AddrCache} (hc : CacheOk c) (addr here : Nat) :
   (({ mode := 0, value := addr, len := viLen addr } : Candidate) :: otherCandidates c addr here).Pairwise (fun a b => a.mode < b.mode) := by
  have hn : ∀ x ∈ nearCandidates addr 0 c.near, 2 ≤ x.mode ∧ x.mode < 2 + c.nearSize := by
    intro x hx; have := nearCandidates_mem hx; rw [hc.1] at this; omega
  have hs : ∀ x ∈ sameCandidates c addr, 2 + c.nearSize ≤ x.mode := by
    intro x hx; unfold sameCandidates at hx; split at hx <;> simp at hx; subst hx; simp
  unfold otherCandidates
  refine List.pairwise_cons.mpr ⟨?_, List.pairwise_cons.mpr ⟨?_, List.pairwise_append.mpr ⟨nearCandidates_pairwise _ _ _, ?_, ?_⟩⟩⟩
  · intro x hx
    rcases List.mem_cons.mp hx with rfl | hx
    · simp
    · rcases List.mem_append.mp hx with hx | hx
      · have := hn x hx; simp; omega
      · have := hs x hx; simp; omega
  · intro x hx
    rcases List.mem_append.mp hx with hx | hx
    · have := hn x hx; simp; omega
    · have := hs x hx; simp; omega
  · unfold sameCandidates; split <;> simp
  · intro a ha b hb; have := hn a ha; have := hs b hb; omega

/-- Every candidate decodes to the address it was made for (R199). -/
theorem candidate_decodes {c : AddrCache} (hc : CacheOk c) {addr here : Nat} (h1 : addr < here) (h2 : here ≤ 4294967295) {x : Candidate}
   (hx : x ∈ (({ mode := 0, value := addr, len := viLen addr } : Candidate) :: otherCandidates c addr here)) :
   x.len = (addressBytes c x.mode x.value).length ∧ acDecode c here x.mode (addressBytes c x.mode x.value) 0 x.len = .value addr x.len (acUpdate c addr) := by
  have vi : ∀ v, v < 4294967296 → viRead 32 (viWrite v) 0 (viLen v) = .value v (viLen v) := by
    intro v hv
    have := viRead_middle (width := 32) (.inl rfl) hv [] [] (lim := viLen v) (by simp)
    simpa using this
  have small : ∀ x : Candidate, x.mode < 2 + c.nearSize → x.len = viLen x.value → x.value < 4294967296 →
      acVarIntAddress c here x.mode x.value = some (addr : Int) →
      x.len = (addressBytes c x.mode x.value).length ∧ acDecode c here x.mode (addressBytes c x.mode x.value) 0 x.len = .value addr x.len (acUpdate c addr) := by
    intro x hm hl hv ha
    unfold addressBytes
    rw [if_neg (by omega)]
    refine ⟨by simpa using hl, ?_⟩
    unfold acDecode
    rw [if_pos hm, hl, vi _ hv]
    simp only
    rw [ha]
    simp only [acAccept]
    rw [if_neg (by omega)]
    simp
  unfold otherCandidates at hx
  rcases List.mem_cons.mp hx with rfl | hx
  · exact small _ (by simp <;> omega) rfl (by simp <;> omega) (by simp [acVarIntAddress])
  rcases List.mem_cons.mp hx with rfl | hx
  · exact small _ (by simp; omega) rfl (by simp; omega) (by unfold acVarIntAddress; rw [if_neg (by simp), if_pos rfl]; congr 1; simp only; omega)
  rcases List.mem_append.mp hx with hx | hx
  · have hm := nearCandidates_mem hx
    rw [hc.1] at hm
    obtain ⟨k, base, hk, hb, rfl⟩ := nearCandidates_spec.mp hx
    refine small _ (by omega) rfl (by simp; omega) ?_
    simp only [Nat.zero_add]
    unfold acVarIntAddress
    rw [if_neg (by omega), if_neg (by omega), Nat.add_sub_cancel_left, hk]
    simp; omega
  · unfold sameCandidates at hx
    split at hx
    · rename_i hs
      simp at hx
      subst hx
      unfold addressBytes
      simp only
      rw [if_pos (by omega)]
      refine ⟨rfl, ?_⟩
      unfold acDecode
      rw [if_neg (by omega)]
      simp only [byteRead]
      rw [if_neg (by omega)]
      simp only [List.getElem?_cons_zero]
      unfold acDecodeSame
      have e : (2 + c.nearSize + sameIndex c addr / 256 - 2 - c.nearSize) * 256 + (BitVec.ofNat 8 (sameIndex c addr % 256)).toNat = sameIndex c addr := by
        simp; omega
      rw [e, hs.2]
      simp only
      rw [if_neg (by simp)]
      simp only [acAccept]
      rw [if_neg (by omega)]
      simp
    · simp at hx

end Sys2Proof.Machine
end

