-- ==== Sys2Proof/Laws/Driver.lean ====
section
/-! SUPPORT. What the driver can answer (R302): every item it finishes consumes input and keeps the invariant of the decoder,
every error it raises leaves a decoder that poisons well, and it stops nowhere. -/

namespace Sys2Proof.Machine

open Sys2Proof.Safety

/-! ## The parts of the invariant the driver carries -/

/-- The facts of a session that hold in every state of it. -/
structure BaseOk (d : Dec) : Prop where
  dictSize : d.dictSize = d.dict.length
  dictLe : d.dict.length ≤ 4294967295
  total : d.ctx.totalTargetLen = d.ctx.dtarget.length
  totalLt : d.ctx.totalTargetLen < 2 ^ 64
  sink : d.ctx.dtarget <:+ d.sink

/-- The states in which a session takes chunks (R301). -/
def Live (st : DecState) : Prop :=
  st = .expectHeader ∨ st = .customTable ∨ st = .expectWinIndicator ∨ st = .inWindow

/-- A session that takes chunks. -/
structure LiveOk (d : Dec) : Prop where
  base : BaseOk d
  nested : NestedOk d
  table : TableOk d.dtab d.maxMode d.ctx.cache
  noError : d.errKind = 0
  live : Live d.state

theorem live_not_poisoned {st : DecState} (h : Live st) : st ≠ .poisoned := by
  rcases h with rfl | rfl | rfl | rfl <;> simp

theorem causeKind_ne_zero (c : Cause) : causeKind c ≠ 0 := by cases c <;> decide

/-- Poisoning a decoder that keeps the facts of its session leaves a good decoder (R385). -/
theorem decInv_decRaise {d : Dec} (c : Cause) (h : BaseOk d) : DecInv (decRaise c d) := by
  refine ⟨h.dictSize, h.dictLe, h.total, h.totalLt, h.sink, ?_, ?_, ?_, ?_, ?_⟩
  · show (decRaise c d).state ≠ .customTable
    simp
  · intro hp; exact absurd rfl hp
  · exact ⟨fun _ => causeKind_ne_zero c, fun _ => rfl⟩
  · intro _; show (decRaise c d).pending = []; rfl
  · intro hr; exact absurd hr (by simp)

theorem liveOk_of_decInv {d : Dec} (h : DecInv d) (hl : Live d.state) : LiveOk d := by
  obtain ⟨h1, h2, h3, h4, h5, h6, h7, h8, -, -⟩ := h
  refine ⟨⟨h1, h2, h3, h4, h5⟩, h6, h7 (live_not_poisoned hl), ?_, hl⟩
  exact Decidable.byContradiction fun hn => live_not_poisoned hl (h8.mpr hn)

theorem decInv_of_liveOk {d : Dec} (h : LiveOk d) (hr : d.replaying = false) (hrest : RestOk d) : DecInv d := by
  refine ⟨h.base.dictSize, h.base.dictLe, h.base.total, h.base.totalLt, h.base.sink, h.nested, fun _ => h.table, ?_,
    fun _ => hrest, ?_⟩
  · constructor
    · intro hp; exact absurd hp (live_not_poisoned h.live)
    · intro hn; exact absurd h.noError hn
  · intro ht; rw [hr] at ht; exact absurd ht (by simp)

theorem baseOk_addPending {d : Dec} (b : Bytes) (h : BaseOk d) : BaseOk (addPending b d) :=
  ⟨h.dictSize, h.dictLe, h.total, h.totalLt, h.sink⟩

theorem liveOk_addPending {d : Dec} (b : Bytes) (h : LiveOk d) : LiveOk (addPending b d) :=
  ⟨baseOk_addPending b h.base, h.nested, h.table, h.noError, h.live⟩

theorem baseOk_parsed {d d' : Dec} (r : Parsed d d') (h : BaseOk d) : BaseOk d' := by
  have f := r.frame
  have o := r.outer
  refine ⟨?_, ?_, ?_, ?_, ?_⟩
  · rw [f.2.2.2.2.2.2.1, f.2.2.2.2.2.1]; exact h.dictSize
  · rw [f.2.2.2.2.2.1]; exact h.dictLe
  · rw [o.2.1, o.1]; exact h.total
  · rw [o.2.1]; exact h.totalLt
  · rw [o.1, f.2.1]; exact h.sink

theorem baseOk_replayed {d d' : Dec} (r : Replayed d d') (h : BaseOk d) : BaseOk d' := by
  have f := r.frame
  have o := r.outer
  refine ⟨?_, ?_, ?_, ?_, ?_⟩
  · rw [f.2.2.2.2.2.2.2.2.1, f.2.2.2.2.2.2.2.1]; exact h.dictSize
  · rw [f.2.2.2.2.2.2.2.1]; exact h.dictLe
  · rw [o.2.1, o.1]; exact h.total
  · rw [o.2.1]; exact h.totalLt
  · rw [o.1, f.2.1]; exact h.sink

theorem nestedOk_of_none {d : Dec} (h : d.nested = none) (hs : d.state ≠ .customTable) : NestedOk d := by
  unfold NestedOk; rw [h]; exact hs

theorem nestedOk_none {d : Dec} (h : NestedOk d) (hn : d.nested = none) : d.state ≠ .customTable := by
  unfold NestedOk at h; rw [hn] at h; exact h

/-- In a live session the active context is consistent: its total counts its target, its dictionary has its size, its table is
valid for its cache. -/
theorem liveOk_active {d : Dec} (h : LiveOk d) :
    activeDictSize d = (activeDict d).length ∧ (activeCtx d).totalTargetLen = (activeCtx d).dtarget.length ∧
    ActiveTabOk d := by
  cases hn : d.nested with
  | none =>
    unfold activeDictSize activeDict ActiveTabOk activeTab
    rw [activeCtx_of_none _ hn, hn]
    obtain ⟨t1, t2, t3, -⟩ := h.table
    refine ⟨h.base.dictSize, h.base.total, t1, ?_⟩
    rw [← t3]; exact t2
  | some n =>
    have hk := h.nested
    unfold NestedOk at hk
    rw [hn] at hk
    unfold activeDictSize activeDict ActiveTabOk activeTab
    rw [activeCtx_of_some _ n hn, hn]
    obtain ⟨-, k1, k2, k3, -⟩ := hk
    refine ⟨rfl, k3, defTab_length, ?_⟩
    rw [k1, k2]; exact defTab_valid

/-! ## The end of a window -/

/-- A window in replay in a live session. -/
structure WindowLive (d : Dec) : Prop where
  session : LiveOk d
  window : WindowOk d
  widths : WidthsOk d
  inner : ∀ n, d.nested = some n → n.phase = .innerWindows

theorem windowLive_replayed {d d' : Dec} (r : Replayed d d') (h : WindowLive d) (hw : WindowOk d') : WindowLive d' := by
  have f := r.frame
  have hn : NestedOk d' := by
    cases hd : d.nested with
    | none =>
      have : d'.nested = none := by have := r.nested_isSome; rw [hd] at this; simpa using this
      exact nestedOk_of_none this (by rw [f.2.2.1]; exact nestedOk_none h.session.nested hd)
    | some n =>
      have e := r.nested_eq hd
      have hk := h.session.nested
      unfold NestedOk at hk ⊢
      rw [hd] at hk
      rw [e]
      simp only at hk ⊢
      rw [r.nearSize, r.sameSize, r.total, r.dtarget, f.2.2.1, activeCtx_of_some _ n hd]
      exact ⟨hk.1, hk.2.1, hk.2.2.1, hk.2.2.2.1, hk.2.2.2.2.1, hk.2.2.2.2.2.1, fun _ => h.inner n hd⟩
  refine ⟨⟨baseOk_replayed r h.session.base, hn, ?_, ?_, ?_⟩, hw, r.widthsOk h.widths, ?_⟩
  · have o := r.outer
    have ht := h.session.table
    unfold TableOk at ht ⊢
    rw [f.2.2.2.2.2.1, f.2.2.2.2.2.2.1, o.2.2.1, o.2.2.2.1]
    exact ht
  · rw [f.2.2.2.2.2.2.2.2.2.2.2.1]; exact h.session.noError
  · rw [f.2.2.1]; exact h.session.live
  · intro n' hn'
    cases hd : d.nested with
    | none =>
      have := r.nested_isSome
      rw [hd, hn'] at this
      simp at this
    | some n =>
      have e := r.nested_eq hd
      rw [e] at hn'
      simp only [Option.some.injEq] at hn'
      rw [← hn']
      exact h.inner n hd

/-- How a procedure of the driver may end on a decoder of `n` pending bytes. -/
def Item.Sound (n : Nat) : Item → Prop
  | .done d' => LiveOk d' ∧ d'.replaying = false ∧ d'.pending.length < n
  | .more => True
  | .raise _ d' => BaseOk d'
  | .fault _ => False

theorem commit_of_none {d : Dec} (h : d.nested = none) : commit d = { d with
    ctx := { d.ctx with
      dtarget := d.ctx.dtarget ++ d.ctx.tw, totalTargetLen := d.ctx.totalTargetLen + d.ctx.tw.length,
      win := Config.freeWindow d.freeCount, cache := freedCache d.freeCount d.ctx.cache },
    sink := d.sink ++ d.ctx.tw, pending := d.pending.drop (windowLen d), replaying := false,
    freeCount := d.freeCount + 1 } := by
  unfold commit memAppend
  rw [activeCtx_of_none _ h, setActive_of_none _ _ h, h]
  simp

theorem commit_of_some {d : Dec} {n : Nested} (h : d.nested = some n) : commit d = { d with
    nested := some { n with ctx := { n.ctx with
      dtarget := n.ctx.dtarget ++ n.ctx.tw, totalTargetLen := n.ctx.totalTargetLen + n.ctx.tw.length,
      win := Config.freeWindow d.freeCount, cache := freedCache d.freeCount n.ctx.cache } },
    pending := d.pending.drop (windowLen d), replaying := false,
    freeCount := d.freeCount + 1 } := by
  unfold commit memAppend
  rw [activeCtx_of_some _ n h, setActive_of_some _ _ n h, h]
  simp

theorem terminate_ok {d d' : Dec} (h : terminate d = .ok d') :
    d' = d ∧ (activeCtx d).tw.length = (activeWin d).targetLen ∧ (activeWin d).dp = (activeWin d).dataLen ∧
    (activeWin d).ap = (activeWin d).addrLen := by
  unfold terminate at h
  split at h
  · simp at h
  · rename_i h1
    split at h
    · simp at h
    · rename_i h2
      simp only [Run.ok.injEq] at h
      exact ⟨h.symm, Decidable.not_not.mp h1, by omega, by omega⟩

theorem terminate_raise {d d' : Dec} {c : Cause} (h : terminate d = .raise c d') : d' = d := by
  unfold terminate at h
  split at h
  · simp only [Run.raise.injEq] at h; exact h.2.symm
  · split at h
    · simp only [Run.raise.injEq] at h; exact h.2.symm
    · simp at h

theorem checkChecksum_cases (d : Dec) : checkChecksum d = .ok d ∨ checkChecksum d = .raise .checksumMismatch d := by
  unfold checkChecksum
  split
  · exact .inr rfl
  · exact .inl rfl

/-- The tests at the end of a window change nothing: they pass, with `TW` at its declared length, or they raise. -/
theorem endTests_cases (d : Dec) :
    ((terminate d).andThen checkChecksum = .ok d ∧ (activeCtx d).tw.length = (activeWin d).targetLen) ∨
    ∃ c, (terminate d).andThen checkChecksum = .raise c d := by
  cases ht : terminate d with
  | ok d' =>
    obtain ⟨rfl, h, -⟩ := terminate_ok ht
    show (checkChecksum d' = _ ∧ _) ∨ ∃ c, checkChecksum d' = _
    rcases checkChecksum_cases d' with hc | hc
    · exact .inl ⟨hc, h⟩
    · exact .inr ⟨_, hc⟩
  | raise c d' =>
    have := terminate_raise ht
    subst this
    exact .inr ⟨c, rfl⟩
  | fault f =>
    unfold terminate at ht
    split at ht
    · simp at ht
    · split at ht <;> simp at ht

theorem tableOk_cache {t : Table} {mm : Nat} {c c' : AddrCache} (h : TableOk t mm c) (h1 : c'.nearSize = c.nearSize)
    (h2 : c'.sameSize = c.sameSize) : TableOk t mm c' := by
  unfold TableOk at *
  rw [h1, h2]; exact h

/-- The end of a window (R269, R322, R323, R310). -/
theorem closeWindow_sound {d : Dec} {k : Nat} (h : WindowLive d) (hp : d.pending.length - windowLen d < k) :
    (closeWindow d).Sound k := by
  unfold closeWindow
  rcases endTests_cases d with ⟨he, htw⟩ | ⟨c, he⟩
  · rw [he]
    show (windowDone (commit d)).Sound k
    have hb := h.session.base
    cases hn : d.nested with
    | none =>
      have hw := h.widths.2.2.2.2
      rw [activeCtx_of_none _ hn] at htw hw
      unfold windowDone
      rw [commit_of_none hn]
      simp only [hn]
      have hst := nestedOk_none h.session.nested hn
      refine ⟨⟨⟨hb.dictSize, hb.dictLe, ?_, ?_, ?_⟩, ?_, ?_, h.session.noError, .inr (.inr (.inl rfl))⟩, rfl, ?_⟩
      · simp [hb.total]
      · show d.ctx.totalTargetLen + d.ctx.tw.length < 2 ^ 64
        omega
      · obtain ⟨p, hp⟩ := hb.sink
        exact ⟨p, by simp only [← hp, List.append_assoc]⟩
      · exact nestedOk_of_none rfl (by simp)
      · exact h.session.table
      · simpa only [List.length_drop] using hp
    | some n =>
      have hk := h.session.nested
      unfold NestedOk at hk
      rw [hn] at hk
      obtain ⟨k1, k2, k3, k4, -, k6, -⟩ := hk
      have hph := h.inner n hn
      unfold windowDone
      rw [commit_of_some hn]
      simp only
      split
      · rename_i hlt
        refine ⟨⟨⟨hb.dictSize, hb.dictLe, hb.total, hb.totalLt, hb.sink⟩, ?_, h.session.table, h.session.noError,
          h.session.live⟩, rfl, ?_⟩
        · unfold NestedOk
          simp only
          refine ⟨k1, k2, k3, by simp [k4], hlt, k6, ?_⟩
          intro hf; exact absurd hf (by simp)
        · simpa only [List.length_drop] using hp
      · split
        · exact ⟨hb.dictSize, hb.dictLe, hb.total, hb.totalLt, hb.sink⟩
        · unfold loadTable
          simp only
          obtain ⟨k7, k8⟩ := k6 (by rw [hph]; simp)
          split
          · rename_i hv
            refine ⟨⟨⟨hb.dictSize, hb.dictLe, hb.total, hb.totalLt, hb.sink⟩, nestedOk_of_none rfl (by simp),
              ⟨unpackImage_length _, hv, k8, k7⟩, h.session.noError, .inr (.inr (.inl rfl))⟩, rfl, ?_⟩
            simpa only [List.length_drop] using hp
          · exact ⟨hb.dictSize, hb.dictLe, hb.total, hb.totalLt, hb.sink⟩
  · rw [he]
    exact h.session.base

theorem finishWindow_sound {d : Dec} (h : WindowLive d) (hp : 1 ≤ windowLen d) :
    (finishWindow d).Sound d.pending.length := by
  unfold finishWindow
  have hs := replayRest_sound h.window (liveOk_active h.session).2.2
  have hr := replayRest_replayed d
  cases he : replayRest d with
  | ok d' =>
    rw [he] at hs hr
    refine closeWindow_sound (windowLive_replayed hr h hs) ?_
    have := h.window.2.2.1
    rw [Replayed.sections hr |>.2.2.2, Replayed.frame hr |>.1]
    omega
  | raise c d' => rw [he] at hr; exact baseOk_replayed hr h.session.base
  | fault f => rw [he] at hs; exact absurd hs (by simp [Run.Sound])

/-! ## One window -/

/-- A window whose header and body are there starts its replay in a good window (R320, R321). -/
theorem startReplay_live {d d' : Dec} {c : Nat} (h : LiveOk d)
    (hin : ∀ n, d.nested = some n → n.phase = .innerWindows) (r : Parsed d d') (hh : HeaderOk d d' c)
    (hlen : c + (activeWin d').dataLen + (activeWin d').instLen + (activeWin d').addrLen ≤ d'.pending.length) :
    WindowLive (startReplay c d') := by
  have f := r.frame
  have o := r.outer
  have hnest : (startReplay c d').nested = d'.nested.map (fun n => { n with ctx := activeCtx (startReplay c d') }) := by
    rw [activeCtx_startReplay]
    unfold startReplay setActive activeCtx activeWin activeCtx
    cases hn : d'.nested <;> simp
  have hout : (startReplay c d').ctx.dtarget = d'.ctx.dtarget ∧
      (startReplay c d').ctx.totalTargetLen = d'.ctx.totalTargetLen ∧
      (startReplay c d').ctx.cache.nearSize = d'.ctx.cache.nearSize ∧
      (startReplay c d').ctx.cache.sameSize = d'.ctx.cache.sameSize := by
    unfold startReplay setActive activeCtx
    cases hn : d'.nested <;> simp
  have hctx := r.ctx
  refine ⟨⟨⟨?_, ?_, ?_, ?_, ?_⟩, ?_, ?_, ?_, ?_⟩, ?_, ?_, ?_⟩
  · simp only [startReplay_dictSize, startReplay_dict]
    rw [f.2.2.2.2.2.2.1, f.2.2.2.2.2.1]; exact h.base.dictSize
  · simp only [startReplay_dict]
    rw [f.2.2.2.2.2.1]; exact h.base.dictLe
  · rw [hout.2.1, hout.1, o.2.1, o.1]; exact h.base.total
  · rw [hout.2.1, o.2.1]; exact h.base.totalLt
  · rw [hout.1, o.1, startReplay_sink, f.2.1]; exact h.base.sink
  · cases hn : d.nested with
    | none =>
      refine nestedOk_of_none ?_ ?_
      · rw [hnest, r.nested_eq, hn]; rfl
      · rw [startReplay_state, f.2.2.1]; exact nestedOk_none h.nested hn
    | some n =>
      have hk := h.nested
      unfold NestedOk at hk ⊢
      rw [hn] at hk
      rw [hnest, r.nested_eq, hn]
      simp only [Option.map_some, activeCtx_startReplay, acInit_nearSize, acInit_sameSize, startReplay_state, f.2.2.1]
      rw [hctx, activeCtx_of_some _ n hn]
      exact ⟨hk.1, hk.2.1, hk.2.2.1, hk.2.2.2.1, hk.2.2.2.2.1, hk.2.2.2.2.2.1, fun _ => hin n hn⟩
  · refine tableOk_cache (c := d.ctx.cache) ?_ ?_ ?_
    · rw [startReplay_dtab, startReplay_maxMode, f.2.2.2.1, f.2.2.2.2.1]; exact h.table
    · rw [hout.2.2.1, o.2.2.1]
    · rw [hout.2.2.2, o.2.2.1]
  · rw [startReplay_errKind, f.2.2.2.2.2.2.2.2.2.1]; exact h.noError
  · rw [startReplay_state, f.2.2.1]; exact h.live
  · refine ⟨?_, ?_, ?_, ?_, ?_, ?_, ?_, ?_⟩
    · rw [activeCtx_startReplay]; exact acInit_ok _
    · have := hh.segment
      unfold SegmentOk at this ⊢
      rw [activeDict_startReplay, activeCtx_startReplay]
      simp only [activeWin, activeCtx_startReplay] at this ⊢
      exact this
    · rw [windowLen_startReplay, startReplay_pending]; exact hlen
    · simp [activeWin]
    · simp [activeWin]
    · simp [activeWin]
    · simp [activeWin]
    · rw [startReplay_interleaved, hh.interleaved]; simp [activeWin]
  · unfold WidthsOk
    have hcap := d.maxTargetFileSize.isLt
    have hf := hh.fileCap
    simp only [activeWin, activeCtx_startReplay]
    refine ⟨hh.targetLt, hh.dataLt, hh.instLt, hh.addrLt, ?_⟩
    rw [hctx]
    show (activeCtx d).totalTargetLen + (activeWin d').targetLen < 2 ^ 64
    omega
  · intro n' hn'
    rw [hnest, r.nested_eq] at hn'
    cases hn : d.nested with
    | none => rw [hn] at hn'; simp at hn'
    | some n =>
      rw [hn] at hn'
      simp only [Option.map_some, Option.some.injEq] at hn'
      rw [← hn']
      exact hin n hn

theorem decodeWindow_sound {d : Dec} (h : LiveOk d)
    (hin : ∀ n, d.nested = some n → n.phase = .innerWindows) : (decodeWindow d).Sound d.pending.length := by
  have ha := liveOk_active h
  have hp := parseWindowHeader_leads d ha.1 ha.2.1
  unfold decodeWindow
  cases he : parseWindowHeader d with
  | more => trivial
  | raise e d' => rw [he] at hp; exact baseOk_parsed hp h.base
  | ok d' c =>
    rw [he] at hp
    obtain ⟨r, hh⟩ := hp
    simp only
    split
    · trivial
    · rename_i hlen
      have hw := startReplay_live h hin r hh (by omega)
      have := finishWindow_sound hw (by rw [windowLen_startReplay]; have := hh.pos; omega)
      rw [startReplay_pending, r.frame.1] at this
      exact this

/-! ## The other items -/

theorem tableOk_self {d : Dec} (h : LiveOk d) : TableOk d.dtab d.maxMode d.ctx.cache := h.table

theorem outerHeader_sound {d : Dec} (h : LiveOk d) (hr : d.replaying = false) (hs : d.state = .expectHeader) :
    (outerHeader d).Sound d.pending.length := by
  have hn : d.nested = none := by
    have hk := h.nested
    unfold NestedOk at hk
    split at hk
    · assumption
    · rw [hs] at hk; exact absurd hk.1 (by simp)
  unfold outerHeader
  cases he : parseFileHeader d with
  | more => trivial
  | raise e d' => rw [parseFileHeader_raise he]; exact h.base
  | ok d' hdr =>
    obtain ⟨rest, hl, rfl, -⟩ := parseFileHeader_ok he
    have hb := h.base
    simp only
    split
    · refine ⟨⟨⟨hb.dictSize, hb.dictLe, hb.total, hb.totalLt, hb.sink⟩, ?_, h.table, h.noError, .inr (.inl rfl)⟩, hr, ?_⟩
      · unfold NestedOk enterCustomTable freshNested freshInner
        simp only
        refine ⟨trivial, rfl, rfl, rfl, by simp, ?_, ?_⟩
        · intro hf; exact absurd rfl hf
        · intro hf; rw [hr] at hf; exact absurd hf (by simp)
      · show rest.length < _
        omega
    · refine ⟨⟨⟨hb.dictSize, hb.dictLe, hb.total, hb.totalLt, hb.sink⟩, nestedOk_of_none hn (by simp), h.table, h.noError,
        .inr (.inr (.inl rfl))⟩, hr, ?_⟩
      show rest.length < _
      omega

theorem paramsStep_sound {d : Dec} {n : Nested} (h : LiveOk d) (hr : d.replaying = false) (hn : d.nested = some n) :
    (paramsStep n d).Sound d.pending.length := by
  have hb := h.base
  have hk := h.nested
  unfold NestedOk at hk
  rw [hn] at hk
  obtain ⟨k1, k2, k3, k4, k5, -, -⟩ := hk
  unfold paramsStep
  cases h1 : viRead 32 d.pending 0 d.pending.length with
  | needMore => trivial
  | error e => exact hb
  | value near c1 =>
    simp only
    cases h2 : viRead 32 d.pending c1 d.pending.length with
    | needMore => trivial
    | error e => exact hb
    | value same c2 =>
      simp only
      cases h3 : byteRead d.pending c2 d.pending.length with
      | needMore => trivial
      | error e => exact absurd h3 byteRead_not_error
      | value mm c3 =>
        simp only
        split
        · exact hb
        · rename_i hok
          split
          · exact hb
          · rename_i hmm
            have hc := byteRead_value h3
            refine ⟨⟨⟨hb.dictSize, hb.dictLe, hb.total, hb.totalLt, hb.sink⟩, ?_, h.table, h.noError, h.live⟩, hr, ?_⟩
            · unfold NestedOk
              simp only
              refine ⟨k1, k2, k3, k4, k5, ?_, ?_⟩
              · intro _
                exact ⟨by simpa using hok, Decidable.not_not.mp hmm⟩
              · intro hf; rw [hr] at hf; exact absurd hf (by simp)
            · simp only [List.length_drop]; omega

theorem innerHeaderStep_sound {d : Dec} {n : Nested} (h : LiveOk d) (hr : d.replaying = false) (hn : d.nested = some n)
    (hph : n.phase = .innerHeader) : (innerHeaderStep n d).Sound d.pending.length := by
  have hb := h.base
  have hk := h.nested
  unfold NestedOk at hk
  rw [hn] at hk
  obtain ⟨k1, k2, k3, k4, k5, k6, -⟩ := hk
  unfold innerHeaderStep
  cases he : parseFileHeader d with
  | more => trivial
  | raise e d' => rw [parseFileHeader_raise he]; exact hb
  | ok d' hdr =>
    obtain ⟨rest, hl, rfl, -⟩ := parseFileHeader_ok he
    simp only
    split
    · exact ⟨hb.dictSize, hb.dictLe, hb.total, hb.totalLt, hb.sink⟩
    · refine ⟨⟨⟨hb.dictSize, hb.dictLe, hb.total, hb.totalLt, hb.sink⟩, ?_, h.table, h.noError, h.live⟩, hr, ?_⟩
      · unfold NestedOk
        simp only
        exact ⟨k1, k2, k3, k4, k5, fun _ => k6 (by rw [hph]; simp), fun _ => trivial⟩
      · show rest.length < _
        omega

/-- One item of the driver (R302): it consumes input and the session stays live, or it wants more, or it raises. -/
theorem driveItem_sound {d : Dec} (h : LiveOk d) (hr : d.replaying = false) :
    (driveItem d).Sound d.pending.length := by
  have outer : d.state ≠ .customTable → ∀ n, d.nested = some n → n.phase = .innerWindows := by
    intro hs n hn
    have hk := h.nested
    unfold NestedOk at hk
    rw [hn] at hk
    exact absurd hk.1 hs
  unfold driveItem
  rcases h.live with hs | hs | hs | hs
  · rw [hs]; exact outerHeader_sound h hr hs
  · rw [hs]
    show (customTableStep d).Sound _
    unfold customTableStep
    cases hn : d.nested with
    | none => trivial
    | some n =>
      simp only
      cases hph : n.phase with
      | params => exact paramsStep_sound h hr hn
      | innerHeader => exact innerHeaderStep_sound h hr hn hph
      | innerWindows =>
        simp only
        split
        · trivial
        · refine decodeWindow_sound h ?_
          intro n' hn'
          rw [hn] at hn'
          simp only [Option.some.injEq] at hn'
          rw [← hn']; exact hph
  · rw [hs]; exact decodeWindow_sound h (outer (by rw [hs]; simp))
  · rw [hs]; exact decodeWindow_sound h (outer (by rw [hs]; simp))

/-! ## The loop -/

/-- How `DRIVE` may end. -/
def Run.Drives : Run → Prop
  | .ok d' => DecInv d' ∧ d'.replaying = false ∧ Live d'.state
  | .raise _ d' => BaseOk d'
  | .fault _ => False

theorem outerHeader_more {d : Dec} (h : outerHeader d = .more) : d.pending.length < 5 := by
  unfold outerHeader at h
  cases he : parseFileHeader d with
  | more =>
    unfold parseFileHeader at he
    split at he
    · repeat (split at he; · simp at he)
      simp at he
    · rename_i hne
      rcases hp : d.pending with _ | ⟨a, _ | ⟨b, _ | ⟨c, _ | ⟨e, _ | ⟨f, rest⟩⟩⟩⟩⟩
      · simp
      · simp
      · simp
      · simp
      · simp
      · exact absurd hp (hne a b c e f rest)
  | raise e d' => rw [he] at h; simp at h
  | ok d' hdr => rw [he] at h; simp only at h; split at h <;> simp at h

theorem driveLoop_sound {fuel : Nat} {d : Dec} (h : LiveOk d) (hr : d.replaying = false)
    (hf : d.pending.length < fuel) : (driveLoop fuel d).Drives := by
  induction fuel generalizing d with
  | zero => omega
  | succ k ih =>
    have hlive := h.live
    have notest : ∀ {st : DecState}, d.state = st → st ≠ .customTable → d.nested = none := by
      intro st hs hne
      have hk := h.nested
      unfold NestedOk at hk
      split at hk
      · assumption
      · exact absurd (hs.symm.trans hk.1) hne
    rw [driveLoop]
    split
    · rename_i hrest
      have hs : d.state ≠ .customTable ∧ d.pending.length = 0 := by
        unfold atRest at hrest
        rcases hlive with hs | hs | hs | hs <;> rw [hs] at hrest <;> simp at hrest <;> simp [hs, hrest]
      have hn := notest rfl hs.1
      have hl : LiveOk { d with state := .expectWinIndicator } :=
        ⟨⟨h.base.dictSize, h.base.dictLe, h.base.total, h.base.totalLt, h.base.sink⟩, nestedOk_of_none hn (by simp),
          h.table, h.noError, .inr (.inr (.inl rfl))⟩
      exact ⟨decInv_of_liveOk hl hr (List.eq_nil_of_length_eq_zero hs.2), hr, hl.live⟩
    · rename_i hnr
      have hs := driveItem_sound h hr
      cases he : driveItem d with
      | done d' => rw [he] at hs; exact ih hs.1 hs.2.1 (by have := hs.2.2; omega)
      | raise c d' => rw [he] at hs; exact hs
      | fault f => rw [he] at hs; exact hs
      | more =>
        simp only
        rcases hlive with hst | hst | hst | hst
        · have hl := outerHeader_more (by unfold driveItem at he; rw [hst] at he; exact he)
          unfold wantMore
          rw [hst]
          refine ⟨decInv_of_liveOk h hr ?_, hr, .inl hst⟩
          unfold RestOk; rw [hst]; exact hl
        · unfold wantMore
          rw [hst]
          refine ⟨decInv_of_liveOk h hr ?_, hr, .inr (.inl hst)⟩
          unfold RestOk; rw [hst]; trivial
        all_goals
          unfold wantMore
          rw [hst]
          have hn := notest hst (by simp)
          have hl : LiveOk { d with state := .inWindow } :=
            ⟨⟨h.base.dictSize, h.base.dictLe, h.base.total, h.base.totalLt, h.base.sink⟩, nestedOk_of_none hn (by simp),
              h.table, h.noError, .inr (.inr (.inr rfl))⟩
          refine ⟨decInv_of_liveOk hl hr ?_, hr, .inr (.inr (.inr rfl))⟩
          unfold RestOk
          simp only
          intro hnil
          apply hnr
          unfold atRest
          rw [hst]
          simp [hnil]

/-- `DRIVE` in a live session (R302): it ends in a good decoder at rest, or raises; it never stops. -/
theorem drive_sound {d : Dec} (h : LiveOk d) (hr : d.replaying = false) : (drive d).Drives :=
  driveLoop_sound h hr (Nat.lt_succ_self _)

/-- The rest of a command whose window has ended. -/
theorem resumeDrive_sound {d : Dec} (h : WindowLive d) : (resumeDrive d).Drives := by
  have hs := closeWindow_sound h (Nat.lt_succ_of_le (Nat.sub_le d.pending.length (windowLen d)))
  unfold resumeDrive
  cases he : closeWindow d with
  | done d' => rw [he] at hs; exact drive_sound hs.1 hs.2.1
  | raise c d' => rw [he] at hs; exact hs
  | fault f => rw [he] at hs; exact hs
  | more =>
    unfold closeWindow at he
    split at he
    · unfold windowDone at he
      split at he
      · simp at he
      · split at he
        · simp at he
        · split at he
          · simp at he
          · unfold loadTable at he
            simp only at he
            split at he <;> simp at he
    · simp at he
    · simp at he

/-! ## More turns, more input -/

/-- More turns than `|PENDING| + 1` change nothing. -/
theorem driveLoop_fuel {fuel extra : Nat} {d : Dec} (h : LiveOk d) (hr : d.replaying = false)
    (hf : d.pending.length < fuel) : driveLoop (fuel + extra) d = driveLoop fuel d := by
  induction fuel generalizing d with
  | zero => omega
  | succ k ih =>
    rw [Nat.succ_add, driveLoop, driveLoop]
    split
    · rfl
    · have hs := driveItem_sound h hr
      cases he : driveItem d with
      | done d' => rw [he] at hs; exact ih hs.1 hs.2.1 (by have := hs.2.2; omega)
      | raise c d' => rfl
      | fault f => rfl
      | more => rfl

theorem driveLoop_eq_drive {fuel : Nat} {d : Dec} (h : LiveOk d) (hr : d.replaying = false)
    (hf : d.pending.length < fuel) : driveLoop fuel d = drive d := by
  obtain ⟨x, rfl⟩ : ∃ x, fuel = d.pending.length + 1 + x := ⟨fuel - (d.pending.length + 1), by omega⟩
  exact driveLoop_fuel h hr (Nat.lt_succ_self _)

end Sys2Proof.Machine
end

