-- ==== Sys2Proof/Laws/Fetch.lean ====
section
/-! SUPPORT. What the fetch can find: a command it decodes is well-formed and is no opcode, and what each fetch takes from the
state. -/

namespace Sys2Proof.Machine

theorem acceptIf_ok {c : Byte} {f : Bool} {i j : Instr} (h : acceptIf c f i = .ok j) : i = j ∧ j.wf = true ∧ f = true := by
  unfold acceptIf at h
  split at h
  · rename_i hf
    simp only [Bool.and_eq_true] at hf
    simp only [Except.ok.injEq] at h
    subst h
    exact ⟨rfl, hf.2, hf.1⟩
  · simp at h

theorem opcodeOf_encNew (b : Bool) (c : Option CustomTable) : opcodeOf (.encNew b c) = none := by cases c <;> rfl

/-- A decoded command is well-formed and is not an opcode of the stream (R117). -/
theorem decodeCommand_ok {t : HostCmd} {i : Instr} (h : decodeCommand t = .ok i) : i.wf = true ∧ opcodeOf i = none := by
  unfold decodeCommand at h
  dsimp only at h
  by_cases c : t.code = 0x01
  · rw [if_pos c] at h; have := acceptIf_ok h; exact ⟨this.2.1, this.1 ▸ rfl⟩
  rw [if_neg c] at h; clear c
  by_cases c : t.code = 0x02
  · rw [if_pos c] at h; have := acceptIf_ok h; exact ⟨this.2.1, this.1 ▸ rfl⟩
  rw [if_neg c] at h; clear c
  by_cases c : t.code = 0x03
  · rw [if_pos c] at h; have := acceptIf_ok h; exact ⟨this.2.1, this.1 ▸ rfl⟩
  rw [if_neg c] at h; clear c
  by_cases c : t.code = 0x04
  · rw [if_pos c] at h; have := acceptIf_ok h; exact ⟨this.2.1, this.1 ▸ rfl⟩
  rw [if_neg c] at h; clear c
  by_cases c : t.code = 0x05
  · rw [if_pos c] at h; have := acceptIf_ok h; exact ⟨this.2.1, this.1 ▸ rfl⟩
  rw [if_neg c] at h; clear c
  by_cases c : t.code = 0x06
  · rw [if_pos c] at h; have := acceptIf_ok h; exact ⟨this.2.1, this.1 ▸ rfl⟩
  rw [if_neg c] at h; clear c
  by_cases c : t.code = 0x07
  · rw [if_pos c] at h; have := acceptIf_ok h; exact ⟨this.2.1, this.1 ▸ rfl⟩
  rw [if_neg c] at h; clear c
  by_cases c : t.code = 0x10
  · rw [if_pos c] at h; have := acceptIf_ok h; exact ⟨this.2.1, this.1 ▸ opcodeOf_encNew _ _⟩
  rw [if_neg c] at h; clear c
  by_cases c : t.code = 0x11
  · rw [if_pos c] at h; have := acceptIf_ok h; exact ⟨this.2.1, this.1 ▸ rfl⟩
  rw [if_neg c] at h; clear c
  by_cases c : t.code = 0x12
  · rw [if_pos c] at h; have := acceptIf_ok h; exact ⟨this.2.1, this.1 ▸ rfl⟩
  rw [if_neg c] at h; clear c
  by_cases c : t.code = 0x13
  · rw [if_pos c] at h; have := acceptIf_ok h; exact ⟨this.2.1, this.1 ▸ rfl⟩
  rw [if_neg c] at h; clear c
  by_cases c : t.code = 0x14
  · rw [if_pos c] at h; have := acceptIf_ok h; exact ⟨this.2.1, this.1 ▸ rfl⟩
  rw [if_neg c] at h; clear c
  by_cases c : t.code = 0x15
  · rw [if_pos c] at h; have := acceptIf_ok h; exact ⟨this.2.1, this.1 ▸ rfl⟩
  rw [if_neg c] at h; clear c
  by_cases c : t.code = 0x16
  · rw [if_pos c] at h; have := acceptIf_ok h; exact ⟨this.2.1, this.1 ▸ rfl⟩
  rw [if_neg c] at h; clear c
  by_cases c : t.code = 0x17
  · rw [if_pos c] at h; have := acceptIf_ok h; exact ⟨this.2.1, this.1 ▸ rfl⟩
  rw [if_neg c] at h; clear c
  by_cases c : t.code = 0x18
  · rw [if_pos c] at h; have := acceptIf_ok h; exact ⟨this.2.1, this.1 ▸ rfl⟩
  rw [if_neg c] at h; clear c
  by_cases c : t.code = 0x19
  · rw [if_pos c] at h; have := acceptIf_ok h; exact ⟨this.2.1, this.1 ▸ rfl⟩
  rw [if_neg c] at h
  simp at h

/-- What the fetch from `CMD` can find (R117). -/
theorem fetchCommand_cases (s : State) :
    (s.cmds = [] ∧ fetchCommand s = .idle) ∨
    ∃ t rest, s.cmds = t :: rest ∧
      ((∃ i, decodeCommand t = .ok i ∧ fetchCommand s = .instr i { s with cmds := rest }) ∨
       fetchCommand s = .unknownCommand { s with cmds := rest } ∨ ∃ c, fetchCommand s = .illFormed c) := by
  unfold fetchCommand
  cases hc : s.cmds with
  | nil => exact .inl ⟨rfl, rfl⟩
  | cons t rest =>
    refine .inr ⟨t, rest, rfl, ?_⟩
    simp only
    cases hd : decodeCommand t with
    | ok i => exact .inl ⟨i, rfl, rfl⟩
    | error e =>
      cases e with
      | empty => exact .inr (.inr ⟨_, rfl⟩)
      | unknownCommand c => exact .inr (.inl rfl)
      | illFormed c => exact .inr (.inr ⟨_, rfl⟩)

end Sys2Proof.Machine
end

