-- ==== Sys2Proof/Laws/Header.lean ====
section
/-! SUPPORT. The parse of a window header as it stands in a stream (R311 to R320): one lemma per field, then the whole header. -/

namespace Sys2Proof.Machine

open Sys2Proof.Safety

/-- The outcome of a read with its cursor moved by `n`. -/
def ReadOut.shift (n : Nat) : ReadOut → ReadOut
  | .value v c => .value v (n + c)
  | .needMore => .needMore
  | .error e => .error e

theorem viReadLoop_shift (width : Nat) (p src : Bytes) (lim left cur acc : Nat) :
    viReadLoop width (p ++ src) (p.length + lim) left (p.length + cur) acc
      = (viReadLoop width src lim left cur acc).shift p.length := by
  induction left generalizing cur acc with
  | zero => rfl
  | succ n ih =>
    rw [viReadLoop, viReadLoop]
    by_cases h : lim ≤ cur
    · rw [if_pos (by omega), if_pos h]; rfl
    · rw [if_neg (by omega), if_neg h, List.getElem?_append_right (by omega), Nat.add_sub_cancel_left]
      cases src[cur]? with
      | none => rfl
      | some b =>
        simp only
        split
        · split
          · rfl
          · rfl
        · exact ih (cur + 1) _

theorem viRead_shift (width : Nat) (p src : Bytes) :
    viRead width (p ++ src) p.length (p ++ src).length = (viRead width src 0 src.length).shift p.length := by
  rw [List.length_append]; exact viReadLoop_shift width p src src.length _ 0 0

/-- A VarInt in the middle of a byte string is read, and the cursor is behind it. -/
theorem viRead_varInt {v : Nat} {b : Bytes} (h : IsVarInt v b) (before after : Bytes) :
    viRead 32 (before ++ (b ++ after)) before.length (before ++ (b ++ after)).length
      = .value v (before.length + b.length) := by
  rw [viRead_shift, viRead_append (by rw [h]; simp), h]; rfl

theorem viRead_overflows {b : Bytes} (h : Overflows b) (before : Bytes) :
    viRead 32 (before ++ b) before.length (before ++ b).length = .error .varIntOverflow := by
  rw [viRead_shift, h]; rfl

theorem isVarInt_lt {v : Nat} {b : Bytes} (h : IsVarInt v b) : v < 2 ^ 32 ∧ b ≠ [] := by
  have := viRead_value h
  refine ⟨this.2.2.2.2, ?_⟩
  rintro rfl
  simp at this


theorem headerVarInt_ok {d : Dec} {A R b : Bytes} {v : Nat} {k : Nat → Nat → Parse} (hp : d.pending = A ++ (b ++ R))
    (h : IsVarInt v b) : headerVarInt d A.length k = k v (A ++ b).length := by
  unfold headerVarInt
  rw [hp, viRead_varInt h, List.length_append]

theorem headerVarInt_overflow {d : Dec} {A R : Bytes} {k : Nat → Nat → Parse} (hp : d.pending = A ++ R)
    (h : Overflows R) : headerVarInt d A.length k = .raise .headerVarIntOverflow d := by
  unfold headerVarInt
  rw [hp, viRead_overflows h]

theorem headerByte_ok {d : Dec} {A R : Bytes} {b : Byte} {k : Byte → Nat → Parse} (hp : d.pending = A ++ (b :: R)) :
    headerByte d A.length k = k b (A ++ [b]).length := by
  unfold headerByte
  rw [hp, byteRead_middle A R b (by simp)]
  simp

/-- A decoder in the middle of the parse of a window header: registers `r`, flags `h` and `i`. -/
def parsing (d : Dec) (r : WindowRegs) (h i : Bool) : Dec :=
  setActive { activeCtx d with win := r } { d with hasChecksum := h, interleaved := i }

@[simp] theorem parsing_pending (d : Dec) (r : WindowRegs) (h i : Bool) : (parsing d r h i).pending = d.pending := by
  simp [parsing]
@[simp] theorem parsing_win (d : Dec) (r : WindowRegs) (h i : Bool) : activeWin (parsing d r h i) = r := by
  simp [parsing]
@[simp] theorem parsing_total (d : Dec) (r : WindowRegs) (h i : Bool) :
    (activeCtx (parsing d r h i)).totalTargetLen = (activeCtx d).totalTargetLen := by simp [parsing]
@[simp] theorem parsing_dictSize (d : Dec) (r : WindowRegs) (h i : Bool) :
    activeDictSize (parsing d r h i) = activeDictSize d := by simp [parsing, activeDictSize_setActive]; rfl
@[simp] theorem parsing_hasChecksum (d : Dec) (r : WindowRegs) (h i : Bool) : (parsing d r h i).hasChecksum = h := by
  simp [parsing]
@[simp] theorem parsing_maxTargetWindowSize (d : Dec) (r : WindowRegs) (h i : Bool) :
    (parsing d r h i).maxTargetWindowSize = d.maxTargetWindowSize := by simp [parsing]
@[simp] theorem parsing_maxTargetFileSize (d : Dec) (r : WindowRegs) (h i : Bool) :
    (parsing d r h i).maxTargetFileSize = d.maxTargetFileSize := by simp [parsing]
@[simp] theorem parsing_maxSectionSize (d : Dec) (r : WindowRegs) (h i : Bool) :
    (parsing d r h i).maxSectionSize = d.maxSectionSize := by simp [parsing]
@[simp] theorem setWin_parsing (d : Dec) (r r' : WindowRegs) (h i : Bool) :
    setWin r' (parsing d r h i) = parsing d r' h i := by
  unfold setWin parsing setActive activeCtx
  cases hn : d.nested <;> simp
theorem setInterleaved_parsing (d : Dec) (r : WindowRegs) (h i : Bool) :
    setInterleaved (parsing d r h i) = parsing d r h (r.dataLen == 0 && r.addrLen == 0) := by
  unfold setInterleaved
  rw [parsing_win]
  unfold parsing setActive
  cases hn : d.nested <;> simp
theorem parsing_parsed (d : Dec) (r : WindowRegs) (h i : Bool) : Parsed d (parsing d r h i) := by
  unfold Parsed
  simp [parsing]

/-! The parse of a window header from each field on. -/

def fromEnd (start : Nat) (d : Dec) (c : Nat) : Parse := checkDeltaLen start d c
def fromChecksum (start : Nat) (d : Dec) (c : Nat) : Parse := (parseChecksum d c).andThen (fromEnd start)
def fromFlag (start : Nat) (d : Dec) (c : Nat) : Parse := fromChecksum start (setInterleaved d) c
def fromAddrLen (start : Nat) (d : Dec) (c : Nat) : Parse :=
  (parseSectionLen (fun v w => { w with addrLen := v }) d c).andThen (fromFlag start)
def fromInstLen (start : Nat) (d : Dec) (c : Nat) : Parse :=
  (parseSectionLen (fun v w => { w with instLen := v }) d c).andThen (fromAddrLen start)
def fromDataLen (start : Nat) (d : Dec) (c : Nat) : Parse :=
  (parseSectionLen (fun v w => { w with dataLen := v }) d c).andThen (fromInstLen start)
def fromIndicator (start : Nat) (d : Dec) (c : Nat) : Parse := (parseDeltaIndicator d c).andThen (fromDataLen start)
def fromTargetLen (d : Dec) (start : Nat) : Parse := (parseTargetLen d start).andThen (fromIndicator start)
def fromDeltaLen (d : Dec) (c : Nat) : Parse := (parseDeltaLen d c).andThen fromTargetLen
def fromSegment (d : Dec) (c : Nat) : Parse := (parseSourceSegment d c).andThen fromDeltaLen

theorem Parse.andThen_assoc (r : Parse) (f g : Dec → Nat → Parse) :
    (r.andThen f).andThen g = r.andThen fun d c => (f d c).andThen g := by cases r <;> rfl

theorem parseWindowHeader_eq (d : Dec) : parseWindowHeader d = (parseWinIndicator d 0).andThen fromSegment := by
  have e : ∀ start d c, fromDataLen start d c = (parseSectionLens d c).andThen (fromChecksum start) := by
    intro start d c
    unfold fromDataLen parseSectionLens
    rw [Parse.andThen_assoc]
    congr 1; funext d c
    unfold fromInstLen
    rw [Parse.andThen_assoc]
    congr 1; funext d c
    unfold fromAddrLen
    rw [Parse.andThen_assoc]
    congr 1
  unfold parseWindowHeader
  congr 1; funext d c
  unfold fromSegment; congr 1; funext d c
  unfold fromDeltaLen; congr 1; funext d c
  unfold fromTargetLen; congr 1; funext d' c'
  unfold fromIndicator; congr 1; funext d' c'
  rw [e]; rfl

/-! The working registers as the fields are read. -/

namespace Hdr
variable (w : StreamHeader) (r : WindowRegs)
def r1 : WindowRegs := { r with winIndicator := w.indicator }
def r3 : WindowRegs := { r1 w r with srcSegSpace := w.space, srcSegSize := w.size, srcSegPos := w.pos }
def r4 : WindowRegs := { r3 w r with deltaLen := w.deltaLen }
def r5 : WindowRegs := { r4 w r with targetLen := w.targetLen }
def r7 : WindowRegs := { r5 w r with dataLen := w.dataLen }
def r8 : WindowRegs := { r7 w r with instLen := w.instLen }
def r9 : WindowRegs := { r8 w r with addrLen := w.addrLen }
def r10 : WindowRegs := if w.hasChecksum then { r9 w r with checksum := BitVec.ofNat 32 w.checksum } else r9 w r
end Hdr
open Hdr

theorem indicator_bits (w : StreamHeader) : w.indicator &&& 0xF8 = 0 ∧ w.indicator &&& 0x03 ≠ 0x03 ∧
    (w.indicator &&& 0x02 ≠ 0 ↔ w.space = .dtarget) ∧ (w.indicator &&& 0x03 = 0 ↔ w.space = .none) ∧
    (w.indicator &&& 0x04 != 0) = w.hasChecksum ∧ (w.indicator &&& 0x01 ≠ 0 ↔ w.space = .dict) := by
  unfold StreamHeader.indicator
  cases w.space <;> cases w.hasChecksum <;> decide

/-- Win_Indicator accepted. -/
theorem stage1 {d : Dec} {w : StreamHeader} {R : Bytes} (hp : d.pending = w.upTo 1 ++ R) (ha : w.Accepted 1 d) :
    parseWindowHeader d = fromSegment (parsing d (r1 w (activeWin d)) w.hasChecksum d.interleaved) (w.upTo 1).length := by
  obtain ⟨b1, b2, b3, b4, b5, b6⟩ := indicator_bits w
  rw [parseWindowHeader_eq]
  unfold parseWinIndicator
  have hp' : d.pending = [] ++ (w.indicator :: R) := by rw [hp]; simp [StreamHeader.upTo, StreamHeader.fields]
  have := headerByte_ok (d := d) (A := []) (b := w.indicator) (R := R) (k := fun wi c =>
    if wi &&& 0xF8 ≠ 0 then Parse.raise .winIndicatorReserved d
    else if wi &&& 0x03 = 0x03 then .raise .winSourceAndTarget d
    else if wi &&& 0x02 ≠ 0 ∧ d.allowVcdTarget = false then .raise .vcdTargetDisallowed d
    else .ok (setHasChecksum wi (setWin { activeWin d with winIndicator := wi } d)) c) hp'
  rw [List.length_nil] at this
  rw [this]
  simp only
  rw [if_neg (fun h => h b1), if_neg b2, if_neg]
  · show fromSegment _ _ = _
    congr 1
    · unfold setHasChecksum setWin parsing r1
      rw [b5]
      unfold setActive
      cases hn : d.nested <;> simp
  · rintro ⟨h1, h2⟩
    have := ha.1 (by omega) (b3.mp h1)
    rw [this] at h2; simp at h2

theorem stage3 {d : Dec} {w : StreamHeader} {R : Bytes} (hp : d.pending = w.upTo 3 ++ R) (ha : w.Accepted 3 d)
    (he : w.Encoded) :
    parseWindowHeader d = fromDeltaLen (parsing d (r3 w (activeWin d)) w.hasChecksum d.interleaved) (w.upTo 3).length := by
  obtain ⟨b1, b2, b3, b4, b5, b6⟩ := indicator_bits w
  obtain ⟨e1, e2, -⟩ := he
  rw [stage1 (R := (if w.space = .none then [] else w.sizeBytes ++ w.posBytes) ++ R)
    (by rw [hp]; simp [StreamHeader.upTo, StreamHeader.fields]; split <;> simp) ⟨fun _ => ha.1 (by omega), by omega, by omega, by omega, by omega, by omega⟩]
  unfold fromSegment parseSourceSegment
  simp only [parsing_win]
  rw [show (r1 w (activeWin d)).winIndicator = w.indicator from rfl]
  by_cases hn : w.space = .none
  · rw [if_pos (b4.mpr hn)]
    have hu : (w.upTo 1).length = (w.upTo 3).length := by simp [StreamHeader.upTo, StreamHeader.fields, hn]
    obtain ⟨z1, z2⟩ := e1 hn
    rw [hu, setWin_parsing]
    show fromDeltaLen _ _ = _
    unfold r3
    rw [hn, z1, z2]
    rfl
  · rw [if_neg (fun h => hn (b4.mp h))]
    obtain ⟨z1, z2⟩ := e2 hn
    have h1 : d.pending = w.upTo 1 ++ (w.sizeBytes ++ (w.posBytes ++ R)) := by
      rw [hp]; simp [StreamHeader.upTo, StreamHeader.fields, hn]
    have h2 : d.pending = (w.upTo 1 ++ w.sizeBytes) ++ (w.posBytes ++ R) := by rw [h1]; simp
    rw [headerVarInt_ok (by rw [parsing_pending]; exact h1) z1]
    rw [headerVarInt_ok (by rw [parsing_pending]; exact h2) z2]
    have hb := ha.2.1 (by omega)
    have hbound : segmentBound w.indicator (parsing d (r1 w (activeWin d)) w.hasChecksum d.interleaved) = w.bound d := by
      unfold segmentBound StreamHeader.bound
      rw [parsing_dictSize, parsing_total]
      cases hs : w.space with
      | none => exact absurd hs hn
      | dict => rw [if_pos (b6.mpr hs)]
      | dtarget => rw [if_neg (fun h => by have := b6.mp h; rw [hs] at this; simp at this)]
    rw [hbound, if_neg (Nat.not_lt.mpr hb), setWin_parsing]
    have hspace : segmentSpace w.indicator = w.space := by
      unfold segmentSpace
      cases hs : w.space with
      | none => exact absurd hs hn
      | dict => rw [if_pos (b6.mpr hs)]
      | dtarget => rw [if_neg (fun h => by have := b6.mp h; rw [hs] at this; simp at this)]
    rw [hspace]
    show fromDeltaLen _ _ = _
    congr 1
    simp [StreamHeader.upTo, StreamHeader.fields, hn]

theorem accepted_mono {w : StreamHeader} {d : Dec} {j k : Nat} (h : w.Accepted k d) (hj : j ≤ k) : w.Accepted j d :=
  ⟨fun a => h.1 (by omega), fun a => h.2.1 (by omega), fun a => h.2.2.1 (by omega), fun a => h.2.2.2.1 (by omega),
   fun a => h.2.2.2.2.1 (by omega), fun a => h.2.2.2.2.2 (by omega)⟩

theorem upTo_succ {w : StreamHeader} {k : Nat} {f : Bytes} (h : w.fields[k]? = some f) : w.upTo (k + 1) = w.upTo k ++ f := by
  unfold StreamHeader.upTo
  rw [List.take_add_one, h]; simp

theorem stage4 {d : Dec} {w : StreamHeader} {R : Bytes} (hp : d.pending = w.upTo 4 ++ R) (ha : w.Accepted 4 d)
    (he : w.Encoded) :
    parseWindowHeader d = fromTargetLen (parsing d (r4 w (activeWin d)) w.hasChecksum d.interleaved) (w.upTo 4).length := by
  rw [upTo_succ (k := 3) (f := w.deltaLenBytes) rfl] at hp ⊢
  rw [List.append_assoc] at hp
  rw [stage3 hp (accepted_mono ha (by omega)) he]
  unfold fromDeltaLen parseDeltaLen
  rw [headerVarInt_ok (by rw [parsing_pending]; exact hp) he.2.2.1, setWin_parsing, parsing_win]
  rfl

theorem stage5 {d : Dec} {w : StreamHeader} {R : Bytes} (hp : d.pending = w.upTo 5 ++ R) (ha : w.Accepted 5 d)
    (he : w.Encoded) :
    parseWindowHeader d = fromIndicator (w.upTo 4).length (parsing d (r5 w (activeWin d)) w.hasChecksum d.interleaved)
      (w.upTo 5).length := by
  rw [upTo_succ (k := 4) (f := w.targetLenBytes) rfl] at hp ⊢
  rw [List.append_assoc] at hp
  rw [stage4 hp (accepted_mono ha (by omega)) he]
  unfold fromTargetLen parseTargetLen
  rw [headerVarInt_ok (by rw [parsing_pending]; exact hp) he.2.2.2.1]
  have := ha.2.2.1 (by omega)
  rw [parsing_maxTargetWindowSize, parsing_maxTargetFileSize, parsing_total, if_neg (by omega), if_neg (by omega), setWin_parsing, parsing_win]
  rfl

theorem stage6 {d : Dec} {w : StreamHeader} {R : Bytes} (hp : d.pending = w.upTo 6 ++ R) (ha : w.Accepted 6 d)
    (he : w.Encoded) :
    parseWindowHeader d = fromDataLen (w.upTo 4).length (parsing d (r5 w (activeWin d)) w.hasChecksum d.interleaved)
      (w.upTo 6).length := by
  rw [upTo_succ (k := 5) (f := [0]) rfl] at hp ⊢
  rw [List.append_assoc] at hp
  rw [stage5 hp (accepted_mono ha (by omega)) he]
  unfold fromIndicator parseDeltaIndicator
  rw [headerByte_ok (by rw [parsing_pending]; exact hp)]
  rfl

theorem stage7 {d : Dec} {w : StreamHeader} {R : Bytes} (hp : d.pending = w.upTo 7 ++ R) (ha : w.Accepted 7 d)
    (he : w.Encoded) :
    parseWindowHeader d = fromInstLen (w.upTo 4).length (parsing d (r7 w (activeWin d)) w.hasChecksum d.interleaved)
      (w.upTo 7).length := by
  rw [upTo_succ (k := 6) (f := w.dataLenBytes) rfl] at hp ⊢
  rw [List.append_assoc] at hp
  rw [stage6 hp (accepted_mono ha (by omega)) he]
  unfold fromDataLen parseSectionLen
  rw [headerVarInt_ok (by rw [parsing_pending]; exact hp) he.2.2.2.2.1]
  have := ha.2.2.2.1 (by omega)
  rw [parsing_maxSectionSize, if_neg (by omega), setWin_parsing, parsing_win]
  rfl

theorem stage8 {d : Dec} {w : StreamHeader} {R : Bytes} (hp : d.pending = w.upTo 8 ++ R) (ha : w.Accepted 8 d)
    (he : w.Encoded) :
    parseWindowHeader d = fromAddrLen (w.upTo 4).length (parsing d (r8 w (activeWin d)) w.hasChecksum d.interleaved)
      (w.upTo 8).length := by
  rw [upTo_succ (k := 7) (f := w.instLenBytes) rfl] at hp ⊢
  rw [List.append_assoc] at hp
  rw [stage7 hp (accepted_mono ha (by omega)) he]
  unfold fromInstLen parseSectionLen
  rw [headerVarInt_ok (by rw [parsing_pending]; exact hp) he.2.2.2.2.2.1]
  have := ha.2.2.2.2.1 (by omega)
  rw [parsing_maxSectionSize, if_neg (by omega), setWin_parsing, parsing_win]
  rfl

theorem stage9 {d : Dec} {w : StreamHeader} {R : Bytes} (hp : d.pending = w.upTo 9 ++ R) (ha : w.Accepted 9 d)
    (he : w.Encoded) :
    parseWindowHeader d = fromChecksum (w.upTo 4).length
      (parsing d (r9 w (activeWin d)) w.hasChecksum (w.dataLen == 0 && w.addrLen == 0)) (w.upTo 9).length := by
  rw [upTo_succ (k := 8) (f := w.addrLenBytes) rfl] at hp ⊢
  rw [List.append_assoc] at hp
  rw [stage8 hp (accepted_mono ha (by omega)) he]
  unfold fromAddrLen parseSectionLen
  rw [headerVarInt_ok (by rw [parsing_pending]; exact hp) he.2.2.2.2.2.2.1]
  have := ha.2.2.2.2.2 (by omega)
  rw [parsing_maxSectionSize, if_neg (by omega), setWin_parsing, parsing_win]
  show fromFlag _ _ _ = _
  unfold fromFlag
  rw [setInterleaved_parsing]
  rfl

theorem stage10 {d : Dec} {w : StreamHeader} {R : Bytes} (hp : d.pending = w.upTo 10 ++ R) (ha : w.Accepted 10 d)
    (he : w.Encoded) :
    parseWindowHeader d = fromEnd (w.upTo 4).length
      (parsing d (r10 w (activeWin d)) w.hasChecksum (w.dataLen == 0 && w.addrLen == 0)) (w.upTo 10).length := by
  rw [upTo_succ (k := 9) (f := if w.hasChecksum then w.checksumBytes else []) rfl] at hp ⊢
  rw [List.append_assoc] at hp
  rw [stage9 hp (accepted_mono ha (by omega)) he]
  unfold fromChecksum parseChecksum
  rw [parsing_hasChecksum]
  by_cases hc : w.hasChecksum = true
  · rw [if_pos hc] at hp ⊢
    rw [headerVarInt_ok (by rw [parsing_pending]; exact hp) (he.2.2.2.2.2.2.2 hc), setWin_parsing, parsing_win]
    unfold r10
    rw [if_pos hc, if_pos hc]
    rfl
  · rw [if_neg hc] at hp ⊢
    unfold r10
    rw [if_neg hc, if_neg hc]
    simp
    rfl

/-- A whole window header. -/
theorem parseWindowHeader_stream {d : Dec} {w : StreamHeader} {R : Bytes} (hp : d.pending = w.upTo 10 ++ R)
    (ha : w.Accepted 10 d) (he : w.Encoded) :
    let d' := parsing d (r10 w (activeWin d)) w.hasChecksum (w.dataLen == 0 && w.addrLen == 0)
    (w.Consistent → parseWindowHeader d = .ok d' (w.upTo 10).length) ∧
    (¬ w.Consistent → parseWindowHeader d = .raise .deltaLengthMismatch d') := by
  intro d'
  rw [stage10 hp ha he]
  unfold fromEnd checkDeltaLen
  rw [parsing_win]
  have e1 : (w.upTo 10).length - (w.upTo 4).length = (w.fields.drop 4).flatten.length := by
    have : w.upTo 10 = w.upTo 4 ++ (w.fields.drop 4).flatten := by
      simp [StreamHeader.upTo, StreamHeader.fields]
    rw [this]; simp
  have e2 : (r10 w (activeWin d)).dataLen = w.dataLen ∧ (r10 w (activeWin d)).instLen = w.instLen ∧
      (r10 w (activeWin d)).addrLen = w.addrLen ∧ (r10 w (activeWin d)).deltaLen = w.deltaLen := by
    unfold r10; split <;> exact ⟨rfl, rfl, rfl, rfl⟩
  rw [e1, e2.1, e2.2.1, e2.2.2.1, e2.2.2.2]
  exact ⟨fun h => if_neg (by simpa [StreamHeader.Consistent] using h), fun h => if_pos h⟩

theorem decInv_of_windowLive {d : Dec} (hw : WindowLive d) (hr : d.replaying = true) (hst : ReplayState d) : DecInv d := by
  refine ⟨hw.session.base.dictSize, hw.session.base.dictLe, hw.session.base.total, hw.session.base.totalLt,
      hw.session.base.sink, hw.session.nested, fun _ => hw.session.table, ?_, ?_, fun _ => ⟨hst, hw.window, hw.widths⟩⟩
  · constructor
    · intro hp; exact absurd hp (live_not_poisoned hw.session.live)
    · intro hn; exact absurd hw.session.noError hn
  · intro hf; rw [hr] at hf; exact absurd hf (by simp)

theorem closeWindow_not_more (d : Dec) : closeWindow d ≠ .more := by
  unfold closeWindow
  split
  · unfold windowDone
    split
    · simp
    · split
      · simp
      · split
        · simp
        · unfold loadTable
          simp only
          split <;> simp
  · simp
  · simp

theorem startReplay_parsing (d : Dec) (w : StreamHeader) :
    startReplay (w.upTo 10).length (parsing d (Hdr.r10 w (activeWin d)) w.hasChecksum (w.dataLen == 0 && w.addrLen == 0))
      = w.started d.pending d := by
  unfold startReplay StreamHeader.started
  have e : activeCtx (parsing d (Hdr.r10 w (activeWin d)) w.hasChecksum (w.dataLen == 0 && w.addrLen == 0)) = { activeCtx d with win := Hdr.r10 w (activeWin d) } := by
    unfold parsing; rw [activeCtx_setActive]
  rw [parsing_win, e]
  unfold parsing
  have hw : { Hdr.r10 w (activeWin d) with ip := 0, dp := 0, ap := 0, prevInst := .noop, bodyPos := (w.upTo 10).length }
    = { winIndicator := w.indicator, srcSegSize := w.size, srcSegPos := w.pos, srcSegSpace := w.space,
        deltaLen := w.deltaLen, targetLen := w.targetLen, dataLen := w.dataLen, instLen := w.instLen,
        addrLen := w.addrLen, prevInst := .noop, ip := 0, dp := 0, ap := 0, bodyPos := (w.upTo 10).length,
        checksum := if w.hasChecksum then BitVec.ofNat 32 w.checksum else (activeWin d).checksum } := by
    unfold Hdr.r10
    cases w.hasChecksum <;> rfl
  rw [hw]
  unfold setActive
  cases hn : d.nested <;> rfl

theorem parse_accept_len {d : Dec} {w : StreamHeader} {body missing : Bytes} (hs : d.pending ++ missing = w.upTo 10 ++ body) (ha : w.Accepted 10 d)
    (he : w.Encoded) (hc : w.Consistent) (hm : missing ≠ []) (hb : body.length = w.dataLen + w.instLen + w.addrLen) :
    decodeWindow d = .more := by
  have hx : (parseWindowHeader d).Extends id missing (parseWindowHeader (addPending missing d)) :=
    parseWindowHeader_extends id missing d
  have hp := (parseWindowHeader_stream (d := addPending missing d) (R := body) hs ha he).1 hc
  have hl : missing.length ≠ 0 := by simpa using hm
  have hlen := congrArg List.length hs
  simp at hlen
  unfold decodeWindow
  cases hr : parseWindowHeader d with
  | more => rfl
  | raise c d' => rw [hr] at hx; unfold Parse.Extends at hx; rw [hp] at hx; simp at hx
  | ok d' c =>
    rw [hr] at hx
    have hx : parseWindowHeader (addPending missing d) = _ := hx
    rw [hp] at hx
    simp only [Parse.ok.injEq] at hx
    obtain ⟨h1, h2⟩ := hx
    have e2 : activeWin d' = Hdr.r10 w (activeWin (addPending missing d)) := by
      have := congrArg activeWin h1
      rw [parsing_win, activeWin_addPending] at this; exact this.symm
    have e3 : (Hdr.r10 w (activeWin (addPending missing d))).dataLen = w.dataLen ∧ (Hdr.r10 w (activeWin (addPending missing d))).instLen = w.instLen ∧
      (Hdr.r10 w (activeWin (addPending missing d))).addrLen = w.addrLen := by
      unfold Hdr.r10; split <;> exact ⟨rfl, rfl, rfl⟩
    have e4 : d'.pending = d.pending := by
      have := congrArg Dec.pending h1
      rw [parsing_pending] at this
      exact (List.append_cancel_right this).symm
    simp only
    rw [if_pos]
    rw [e2, e3.1, e3.2.1, e3.2.2, e4, ← h2]
    omega

end Sys2Proof.Machine
end

