-- ==== Sys2Proof/Laws/Effects.lean ====
section
/-! SUPPORT. What the four instruction types do when their operands are there: the operations of Machine/Replay.lean end in the
effects of Safety.lean. -/

namespace Sys2Proof.Machine

open Sys2Proof.Safety

/-- Two writes of the lint flag and the active context, the later context in force. -/
theorem setActive_after_lint (c c' : Ctx) (d : Dec) (b : Bool) :
    setActive c (setActive c' { d with lintAddAdd := b }) = setActive c { d with lintAddAdd := b } := by simp

/-- What a data read leaves: only the cursor of the data stream has moved. -/
theorem setDataCur_eq (v : Nat) (d : Dec) :
    setDataCur v d = setActive { activeCtx d with
      win := if d.interleaved then { activeWin d with ip := v } else { activeWin d with dp := v } } d := by
  unfold setDataCur
  split <;> simp_all [setIp_eq, setDp_eq]

/-- What an address read leaves: only the cursor of the address stream has moved. -/
theorem setAddrCur_eq (v : Nat) (d : Dec) :
    setAddrCur v d = setActive { activeCtx d with
      win := if d.interleaved then { activeWin d with ip := v } else { activeWin d with ap := v } } d := by
  unfold setAddrCur
  split <;> simp_all [setIp_eq, setAp_eq]

theorem dataSec_lint (k : InstKind) (d : Dec) : dataSec (lint k d) = dataSec d := (replayed_lint k d).sections.1
theorem instSec_lint (k : InstKind) (d : Dec) : instSec (lint k d) = instSec d := (replayed_lint k d).sections.2.1
theorem addrSec_lint (k : InstKind) (d : Dec) : addrSec (lint k d) = addrSec d := (replayed_lint k d).sections.2.2.1

@[simp] theorem interleaved_lint (k : InstKind) (d : Dec) : (lint k d).interleaved = d.interleaved :=
  (replayed_lint k d).frame.2.2.2.1

theorem activeWin_lint_call (k : InstKind) (d : Dec) : activeWin (lint k d) = { activeWin d with prevInst := k } := by
  simp [lint_eq]

theorem activeCtx_lint_call (k : InstKind) (d : Dec) :
    activeCtx (lint k d) = { activeCtx d with win := { activeWin d with prevInst := k } } := by
  simp [lint_eq]

theorem dataStream_lint (k : InstKind) (d : Dec) : dataStream (lint k d) = dataStream d := by
  unfold dataStream instStream
  rw [interleaved_lint, dataSec_lint, instSec_lint, activeWin_lint_call]

theorem addrStream_lint (k : InstKind) (d : Dec) : addrStream (lint k d) = addrStream d := by
  unfold addrStream instStream
  rw [interleaved_lint, addrSec_lint, instSec_lint, activeWin_lint_call]

theorem hereOf_lint (k : InstKind) (d : Dec) : hereOf (lint k d) = hereOf d := by
  unfold hereOf
  rw [activeWin_lint_call, activeCtx_lint_call]

/-- The data bytes still to come are the data stream's space from its cursor on. -/
theorem dataBytes_eq (d : Dec) : dataBytes d = (dataStream d).space.drop (dataStream d).cur := by
  unfold dataBytes dataStream instStream
  split <;> rfl

/-- With the sections whole, a count of data bytes that exist fits before the end of the stream. -/
theorem dataReady_bounds {size n : Nat} {d : Dec} (h : DataReady size n d) :
    (dataStream d).cur + n ≤ (dataStream d).lim ∧ (dataStream d).lim = (dataStream d).space.length := by
  obtain ⟨-, hw, hn, hi, hd⟩ := h
  have hl := windowOk_lengths hw
  rw [dataBytes_eq] at hn
  unfold dataStream instStream at *
  split <;> rename_i hint <;> simp only [hint, if_true, if_false, Bool.false_eq_true] at hn ⊢ <;>
    simp only [List.length_drop] at hn <;> omega

/-- ADD (R264) with room and data. -/
theorem execSized_add {n m : Nat} {d : Dec} (h : DataReady n n d) : execSized .add n m d = .ok (afterAdd n d) := by
  have hb := dataReady_bounds h
  unfold execSized
  rw [if_neg (Nat.not_lt.mpr h.1)]
  simp only
  unfold halfAdd readData
  rw [dataStream_lint, if_neg (Nat.not_lt.mpr hb.1)]
  have hm : memRead (dataStream d).space (dataStream d).cur n
      = some (((dataStream d).space.drop (dataStream d).cur).take n) := memRead_eq_some.mpr ⟨by omega, rfl⟩
  rw [hm]
  simp only
  rw [setDataCur_eq, appendTw_eq, interleaved_lint, activeWin_lint_call, activeCtx_lint_call, ← dataBytes_eq]
  unfold afterAdd consumedData lintAfter dataStream instStream
  rw [lint_eq]
  congr 1
  simp only [setActive_setActive, activeCtx_setActive]
  cases d.interleaved <;> rfl

/-- RUN (R265) with room and its byte. -/
theorem execSized_run {n m : Nat} {d : Dec} {b : Byte} (h : DataReady n 1 d) (hb0 : (dataBytes d)[0]? = some b) :
    execSized .run n m d = .ok (afterRun n b d) := by
  have hb := dataReady_bounds h
  have hbyte : (dataStream d).space[(dataStream d).cur]? = some b := by
    rw [dataBytes_eq, List.getElem?_drop] at hb0; simpa using hb0
  unfold execSized
  rw [if_neg (Nat.not_lt.mpr h.1)]
  simp only
  unfold halfRun readDataByte
  rw [dataStream_lint]
  have hr : byteRead (dataStream d).space (dataStream d).cur (dataStream d).lim
      = .value b.toNat ((dataStream d).cur + 1) := by
    unfold byteRead
    rw [if_neg (by omega), hbyte]
  rw [hr]
  simp only [BitVec.ofNat_toNat, BitVec.setWidth_eq]
  rw [setDataCur_eq, appendTw_eq, interleaved_lint, activeWin_lint_call, activeCtx_lint_call]
  unfold afterRun consumedData dataStream instStream
  rw [lint_eq]
  congr 1
  simp only [setActive_setActive, activeCtx_setActive]
  have hl : (d.lintAddAdd || (InstKind.run == InstKind.add && (activeWin d).prevInst == .add)) = d.lintAddAdd := by
    simp
  rw [hl]
  show setActive _ d = setActive _ d
  cases d.interleaved <;> rfl

/-! ## COPY -/

/-- A read of `U` is a read of the source segment followed by `TW` (R65). -/
theorem readU_eq {d : Dec} (h : SegmentOk d) (x : Nat) : readU d x = (segmentBytes d ++ (activeCtx d).tw)[x]? := by
  have hl : (segmentBytes d).length = (activeWin d).srcSegSize := by
    unfold SegmentOk at h
    unfold segmentBytes
    split <;> rename_i hs <;> rw [hs] at h <;> simp only at h
    · simp [h]
    · simp; omega
    · simp; omega
  unfold readU
  split
  · rename_i hx
    rw [List.getElem?_append_left (by omega)]
    unfold readSegment segmentBytes
    split
    · rename_i hs; (try rw [hs]); rfl
    · rename_i hs; (try rw [hs]); simp only [memByte]
      rw [List.getElem?_take_of_lt hx, List.getElem?_drop]
    · rename_i hs; (try rw [hs]); simp only [memByte]
      rw [List.getElem?_take_of_lt hx, List.getElem?_drop]
  · rename_i hx
    rw [List.getElem?_append_right (by omega), hl]
    rfl

theorem segmentBytes_appendTw (b : Bytes) (d : Dec) : segmentBytes (appendTw b d) = segmentBytes d := by
  unfold segmentBytes
  simp only [appendTw_eq, activeWin_setActive, activeCtx_setActive, activeDict_setActive]
  rfl

theorem segmentBytes_length {d : Dec} (h : SegmentOk d) : (segmentBytes d).length = (activeWin d).srcSegSize := by
  unfold SegmentOk at h
  unfold segmentBytes
  split <;> rename_i hs <;> rw [hs] at h <;> simp only at h
  · simp [h]
  · simp; omega
  · simp; omega

theorem segmentBytes_append_length {d : Dec} (h : SegmentOk d) :
    (segmentBytes d ++ (activeCtx d).tw).length = hereOf d := by
  rw [List.length_append, segmentBytes_length h]; rfl

theorem appendTw_appendTw (a b : Bytes) (d : Dec) : appendTw b (appendTw a d) = appendTw (a ++ b) d := by
  simp only [appendTw_eq, activeCtx_setActive, setActive_setActive, List.append_assoc]

/-- The loop of R266 appends what `IsCopyOf` says, byte by byte. -/
theorem copyLoop_eq {n x : Nat} {d : Dec} (h : SegmentOk d) (hx : x < hereOf d) :
    ∃ out, IsCopyOf n x d out ∧ copyLoop n x d = .ok (appendTw out d) := by
  induction n generalizing x d with
  | zero =>
    refine ⟨[], ⟨rfl, by omega⟩, ?_⟩
    rw [copyLoop, appendTw_eq, List.append_nil]
    show Run.ok d = .ok (setActive (activeCtx d) d)
    rw [setActive_activeCtx]
  | succ n ih =>
    obtain ⟨b, hb⟩ := readU_isSome h hx
    have h' : SegmentOk (appendTw [b] d) := (replayed_appendTw [b] d).segmentOk h
    obtain ⟨out, ⟨hl, hk⟩, he⟩ := ih (x := x + 1) h' (by rw [hereOf_appendTw]; simp; omega)
    refine ⟨b :: out, ⟨by simp [hl], ?_⟩, ?_⟩
    · intro k hkn
      cases k with
      | zero =>
        rw [readU_eq h] at hb
        rw [Nat.add_zero, List.getElem?_append_left (by rw [segmentBytes_append_length h]; exact hx), hb]
        rfl
      | succ k =>
        have := hk k (by omega)
        rw [segmentBytes_appendTw] at this
        have et : (activeCtx (appendTw [b] d)).tw = (activeCtx d).tw ++ [b] := by simp [appendTw_eq]
        rw [et] at this
        simp only [List.append_assoc, List.singleton_append] at this ⊢
        rw [List.getElem?_cons_succ, this]
        congr 1
        omega
    · rw [copyLoop, hb]
      simp only
      rw [he, appendTw_appendTw]
      rfl

/-- A COPY from an address in range appends exactly one byte string. -/
theorem isCopyOf_unique {n x : Nat} {d : Dec} {a b : Bytes} (h : SegmentOk d) (hx : x < hereOf d)
    (ha : IsCopyOf n x d a) (hb : IsCopyOf n x d b) : a = b := by
  have key : ∀ k, k < n → a[k]? = b[k]? := by
    intro k
    induction k using Nat.strongRecOn with
    | _ k ih =>
      intro hk
      rw [ha.2 k hk, hb.2 k hk]
      have hlen := segmentBytes_append_length h
      by_cases hlt : x + k < hereOf d
      · rw [List.getElem?_append_left (l₁ := segmentBytes d ++ (activeCtx d).tw) (by omega),
          List.getElem?_append_left (l₁ := segmentBytes d ++ (activeCtx d).tw) (by omega)]
      · rw [List.getElem?_append_right (l₁ := segmentBytes d ++ (activeCtx d).tw) (by omega),
          List.getElem?_append_right (l₁ := segmentBytes d ++ (activeCtx d).tw) (by omega)]
        exact ih _ (by omega) (by omega)
  apply List.ext_getElem?
  intro i
  by_cases hi : i < n
  · exact key i hi
  · rw [List.getElem?_eq_none (by rw [ha.1]; omega), List.getElem?_eq_none (by rw [hb.1]; omega)]

/-- The address of a COPY is decoded from the address stream. -/
theorem decodedAddress_eq (mode : Nat) (d : Dec) :
    decodedAddress mode d
      = acDecode (activeCtx d).cache (hereOf d) mode (addrStream d).space (addrStream d).cur (addrStream d).lim := by
  unfold decodedAddress addrStream instStream
  split <;> rfl

/-- COPY (R266) with room, a readable source segment and an address in range. -/
theorem execSized_copy {n m addr cur : Nat} {cache : AddrCache} {d : Dec} (h : CopyReady n m addr cur cache d) :
    ∃ out, IsCopyOf n addr d out ∧ execSized .copy n m d = .ok (afterCopy out cur cache d) := by
  obtain ⟨ht, hs, ha⟩ := h
  rw [decodedAddress_eq] at ha
  have hv := acDecode_value ha
  unfold execSized
  rw [if_neg (Nat.not_lt.mpr ht)]
  simp only
  unfold halfCopy readAddress
  rw [addrStream_lint, hereOf_lint, show (activeCtx (lint .copy d)).cache = (activeCtx d).cache by
    rw [activeCtx_lint_call], ha]
  simp only
  have e : setCache cache (setAddrCur cur (lint .copy d)) = setActive { activeCtx d with
      cache := cache,
      win := if d.interleaved then { activeWin d with ip := cur, prevInst := .copy }
             else { activeWin d with ap := cur, prevInst := .copy } } d := by
    rw [setAddrCur_eq, interleaved_lint, activeWin_lint_call, activeCtx_lint_call]
    unfold setCache
    rw [lint_eq]
    simp only [setActive_setActive, activeCtx_setActive]
    have hl : (d.lintAddAdd || (InstKind.copy == InstKind.add && (activeWin d).prevInst == .add)) = d.lintAddAdd := by
      simp
    rw [hl]
  rw [e]
  generalize hd' : setActive _ d = d'
  have r : Replayed d d' := by
    rw [← hd', ← e]
    refine (replayed_lint .copy d).trans ((replayed_setAddrCur ?_).trans (replayed_setCache ?_ ?_ ?_))
    · rw [addrStream_lint]; exact Nat.le_of_lt hv.2.2.1
    all_goals
      rw [setAddrCur_cache, hv.2.2.2.2, show (activeCtx (lint .copy d)).cache = (activeCtx d).cache by
        rw [activeCtx_lint_call]]
      simp
  have hs' := r.segmentOk hs
  have etw : (activeCtx d').tw = (activeCtx d).tw := by rw [← hd']; simp
  have ehere : hereOf d' = hereOf d := by
    unfold hereOf
    rw [etw, r.win]
  have eseg : segmentBytes d' = segmentBytes d := by
    unfold segmentBytes
    rw [r.activeDict_eq, r.dtarget, r.win]
  obtain ⟨out, ho, hc⟩ := copyLoop_eq (n := n) hs' (x := addr) (by omega)
  refine ⟨out, ?_, ?_⟩
  · unfold IsCopyOf at ho ⊢
    rw [eseg, etw] at ho
    exact ho
  · rw [hc, appendTw_eq, etw, ← hd']
    unfold afterCopy
    simp only [setActive_setActive, activeCtx_setActive]

/-! ## Halves and rows -/

/-- The explicit size operand (R262). -/
theorem readSize_eq {n cur : Nat} {d : Dec} (h : ExplicitSize n cur d) (k : Nat → Dec → Run) :
    readSize d k = k n (setIp cur d) := by
  unfold readSize
  unfold ExplicitSize at h
  rw [h]

theorem execHalf_noHalf (d : Dec) : execHalf noHalf d = .ok d := rfl

theorem Run.andThen_ok (d : Dec) (k : Dec → Run) : (Run.ok d).andThen k = k d := rfl

theorem execRow_single (h : Half) (d : Dec) : execRow (h, noHalf) d = execHalf h d := by
  unfold execRow
  cases execHalf h d <;> rfl

theorem half_size_toNat {k : InstKind} {n m : Nat} (h : n < 256) : (half k n m).size.toNat = n := by
  simp [half, Nat.mod_eq_of_lt h]

theorem half_mode_toNat {k : InstKind} {n m : Nat} (h : m < 256) : (half k n m).mode.toNat = m := by
  simp [half, Nat.mod_eq_of_lt h]

theorem half_size_ne {k : InstKind} {n m : Nat} (h1 : 1 ≤ n) (h2 : n < 256) : (half k n m).size ≠ 0 := by
  intro h
  have := congrArg BitVec.toNat h
  rw [half_size_toNat h2] at this
  simp at this
  omega

/-- A half with an implicit size. -/
theorem execHalf_implicit {k : InstKind} {n m : Nat} (hk : k ≠ .noop) (h1 : 1 ≤ n) (h2 : n < 256) (hm : m < 256) (d : Dec) :
    execHalf (half k n m) d = execSized k n m d := by
  unfold execHalf
  have : instKind (half k n m).inst = some k := instKind_kindCode k
  rw [this]
  cases k
  · exact absurd rfl hk
  all_goals
    simp only
    rw [if_neg (half_size_ne h1 h2), half_size_toNat h2, half_mode_toNat hm]

/-- A half with an explicit size. -/
theorem execHalf_explicit {k : InstKind} {m : Nat} (hk : k ≠ .noop) (hm : m < 256) (d : Dec) :
    execHalf (half k 0 m) d = readSize d (fun n d => execSized k n m d) := by
  unfold execHalf
  have : instKind (half k 0 m).inst = some k := instKind_kindCode k
  rw [this]
  cases k
  · exact absurd rfl hk
  all_goals
    simp only
    rw [if_pos (by simp [half]), half_mode_toNat hm]

end Sys2Proof.Machine
end

