-- ==== Sys2Proof/Laws/Opcodes.lean ====
section
/-! SUPPORT. The opcodes as instructions: every opcode byte decodes, the meaning of every opcode is the shared one, and the row the
default table gives it is the row of its group (R113). -/

namespace Sys2Proof.Machine

open Sys2Proof.Safety

set_option maxRecDepth 4000 in
/-- The meaning of an instruction of the stream is its opcode under the current code table (R260). -/
theorem exec_of_opcodeOf {i : Instr} {op : Byte} (h : opcodeOf i = some op) (s : State) : exec i s = execOpcode op s := by
  cases i
  case encNew il cu => cases cu <;> exact absurd (show (none : Option Byte) = some op from h) (fun x => nomatch x)
  all_goals first
    | (cases Option.some.inj h; rfl)
    | exact absurd (show (none : Option Byte) = some op from h) (fun x => nomatch x)

/-- Every opcode byte decodes to the instruction whose opcode it is. -/
theorem opcodeOf_decodeOpcode (op : Byte) : opcodeOf (decodeOpcode op) = some op := by
  have h : ∀ n : Fin 256, opcodeOf (decodeOpcode (BitVec.ofNat 8 n.val)) = some (BitVec.ofNat 8 n.val) := by
    decide +kernel
  have := h ⟨op.toNat, op.isLt⟩
  simpa using this

theorem exec_decodeOpcode (op : Byte) (s : State) : exec (decodeOpcode op) s = execOpcode op s :=
  exec_of_opcodeOf (opcodeOf_decodeOpcode op) s

/-! ## The rows of the default table -/

theorem defTab_add {n : Nat} (h1 : 1 ≤ n) (h2 : n ≤ 17) :
    tableRow defTab (BitVec.ofNat 8 (n + 1)) = single .add n 0 := by
  have h : ∀ k : Fin 17, tableRow defTab (BitVec.ofNat 8 (k.val + 2)) = single .add (k.val + 1) 0 := by decide +kernel
  have := h ⟨n - 1, by omega⟩
  simp only at this
  rw [show n - 1 + 2 = n + 1 by omega, show n - 1 + 1 = n by omega] at this
  exact this

theorem defTab_copy {m : Nat} (hm : m ≤ 8) : tableRow defTab (BitVec.ofNat 8 (19 + 16 * m)) = single .copy 0 m := by
  have h : ∀ k : Fin 9, tableRow defTab (BitVec.ofNat 8 (19 + 16 * k.val)) = single .copy 0 k.val := by decide +kernel
  exact h ⟨m, by omega⟩

theorem defTab_copySized {m n : Nat} (hm : m ≤ 8) (h1 : 4 ≤ n) (h2 : n ≤ 18) :
    tableRow defTab (BitVec.ofNat 8 (19 + 16 * m + (n - 3))) = single .copy n m := by
  have h : ∀ k : Fin 9, ∀ j : Fin 15,
      tableRow defTab (BitVec.ofNat 8 (19 + 16 * k.val + (j.val + 4 - 3))) = single .copy (j.val + 4) k.val := by
    decide +kernel
  have := h ⟨m, by omega⟩ ⟨n - 4, by omega⟩
  simp only at this
  rw [show n - 4 + 4 = n by omega] at this
  exact this

theorem defTab_addCopy {m a c : Nat} (hm : m ≤ 5) (ha : 1 ≤ a) (ha' : a ≤ 4) (hc : 4 ≤ c) (hc' : c ≤ 6) :
    tableRow defTab (BitVec.ofNat 8 (163 + 12 * m + 3 * (a - 1) + (c - 4))) = pair .add a 0 .copy c m := by
  have h : ∀ k : Fin 6, ∀ x : Fin 4, ∀ y : Fin 3,
      tableRow defTab (BitVec.ofNat 8 (163 + 12 * k.val + 3 * (x.val + 1 - 1) + (y.val + 4 - 4)))
        = pair .add (x.val + 1) 0 .copy (y.val + 4) k.val := by
    decide +kernel
  have := h ⟨m, by omega⟩ ⟨a - 1, by omega⟩ ⟨c - 4, by omega⟩
  simp only at this
  rw [show a - 1 + 1 = a by omega, show c - 4 + 4 = c by omega] at this
  exact this

theorem defTab_addCopySame {m a : Nat} (hm : 6 ≤ m) (hm' : m ≤ 8) (ha : 1 ≤ a) (ha' : a ≤ 4) :
    tableRow defTab (BitVec.ofNat 8 (235 + 4 * (m - 6) + (a - 1))) = pair .add a 0 .copy 4 m := by
  have h : ∀ k : Fin 3, ∀ x : Fin 4,
      tableRow defTab (BitVec.ofNat 8 (235 + 4 * (k.val + 6 - 6) + (x.val + 1 - 1)))
        = pair .add (x.val + 1) 0 .copy 4 (k.val + 6) := by
    decide +kernel
  have := h ⟨m - 6, by omega⟩ ⟨a - 1, by omega⟩
  simp only at this
  rw [show a - 1 + 1 = a by omega, show m - 6 + 6 = m by omega] at this
  exact this

theorem defTab_copyAdd {m : Nat} (hm : m ≤ 8) :
    tableRow defTab (BitVec.ofNat 8 (247 + m)) = pair .copy 4 m .add 1 0 := by
  have h : ∀ k : Fin 9, tableRow defTab (BitVec.ofNat 8 (247 + k.val)) = pair .copy 4 k.val .add 1 0 := by
    decide +kernel
  exact h ⟨m, by omega⟩

theorem defTab_run : tableRow defTab 0x00 = single .run 0 0 := by decide +kernel

theorem defTab_addExplicit : tableRow defTab 0x01 = single .add 0 0 := by decide +kernel

/-! ## A group, given its row -/

/-- An opcode whose row has one instruction. -/
theorem execOpcode_single {op : Byte} {s : State} {t : Table} {k : InstKind} {n m : Nat} {d : Dec}
    (ht : activeTab s.dec = t) (hr : tableRow t op = single k n m) (he : execHalf (half k n m) s.dec = .ok d) :
    execOpcode op s = .next { s with dec := d } := by
  unfold execOpcode execGroup idec
  rw [ht, hr]
  show (match execRow (half k n m, noHalf) s.dec with
    | .ok d => Host.Outcome.next { s with dec := d }
    | .raise c d => .next { s with dec := decRaise c d, result := some (errOf c) }
    | .fault f => .fault f) = _
  rw [execRow_single, he]

/-- An opcode whose row has two instructions. -/
theorem execOpcode_pair {op : Byte} {s : State} {t : Table} {r : Row} {d d' : Dec}
    (ht : activeTab s.dec = t) (hr : tableRow t op = r) (h1 : execHalf r.first s.dec = .ok d)
    (h2 : execHalf r.second d = .ok d') : execOpcode op s = .next { s with dec := d' } := by
  unfold execOpcode execGroup idec
  rw [ht, hr]
  unfold execRow
  rw [h1]
  show (match execHalf r.second d with
    | .ok d => Host.Outcome.next { s with dec := d }
    | .raise c d => .next { s with dec := decRaise c d, result := some (errOf c) }
    | .fault f => .fault f) = _
  rw [h2]

/-- An opcode whose group raises. -/
theorem execOpcode_raise {op : Byte} {s : State} {c : Cause} {d : Dec} (h : execGroup op s.dec = .raise c d) :
    execOpcode op s = .next { s with dec := decRaise c d, result := some (errOf c) } := by
  unfold execOpcode
  rw [h]

/-- What an opcode leaves alone, whether it completes or raises: the encoder, the queue, the policy registers, the dictionary, the
table, what is committed and what is delivered. -/
theorem execOpcode_frame {op : Byte} {s t : State} (h : execOpcode op s = .next t) :
    (∃ d, t = { s with dec := d } ∧ Replayed s.dec d) ∨
    (∃ c d, t = { s with dec := decRaise c d, result := some (errOf c) } ∧ Replayed s.dec d) := by
  have hr := execGroup_replayed op s.dec
  unfold execOpcode at h
  cases hg : execGroup op s.dec with
  | ok d => rw [hg] at h hr; simp only [Host.Outcome.next.injEq] at h; exact .inl ⟨d, h.symm, hr⟩
  | raise c d => rw [hg] at h hr; simp only [Host.Outcome.next.injEq] at h; exact .inr ⟨c, d, h.symm, hr⟩
  | fault f => rw [hg] at h; simp at h

end Sys2Proof.Machine
end

