-- ==== Sys2Proof/Laws/Commands.lean ====
section
/-! SUPPORT. The host commands: what a chunk does item by item (R301, R302), how encoder commands end (R387), what a decoder command delivers (R323), and that commands keep the invariant. -/

namespace Sys2Proof.Machine

open Sys2Proof.Safety

/-- The outcome is no fault, and a next state has `P`. -/
def NextSat (P : State → Prop) : Host.Outcome State Fault Refusal → Prop
  | .next t => P t
  | .fault _ => False
  | .refused _ => True

theorem endCommand_good {s : State} {r : Run} (he : EncInv s.enc) (h : r.Drives) : NextSat Inv (endCommand s r) := by
  cases r with
  | ok d => exact ⟨h.1, he⟩
  | raise c d => exact ⟨decInv_decRaise c h, he⟩
  | fault f => exact h

theorem windowLive_of_inv {d : Dec} (h : DecInv d) (hr : d.replaying = true) : WindowLive d := by
  obtain ⟨h1, h2, h3⟩ := h.2.2.2.2.2.2.2.2.2 hr
  have hl : Live d.state := by rcases h1 with h | h | h <;> simp [Live, h]
  refine ⟨liveOk_of_decInv h hl, h2, h3, ?_⟩
  intro n hn
  have := h.2.2.2.2.2.1
  unfold NestedOk at this
  rw [hn] at this
  exact this.2.2.2.2.2.2 hr

theorem execOpcode_good {s : State} {op : Byte} (he : EncInv s.enc) (h : WindowLive s.dec) (hr : s.dec.replaying = true)
    (hst : ReplayState s.dec) :
    NextSat Inv (execOpcode op s) := by
  have hs := execGroup_sound (op := op) h.window (liveOk_active h.session).2.2
  have hp := execGroup_replayed op s.dec
  unfold execOpcode
  cases hg : execGroup op s.dec with
  | ok d =>
    rw [hg] at hs hp
    have hw := windowLive_replayed hp h hs
    refine ⟨⟨hw.session.base.dictSize, hw.session.base.dictLe, hw.session.base.total, hw.session.base.totalLt,
      hw.session.base.sink, hw.session.nested, fun _ => hw.session.table, ?_, ?_, fun _ => ⟨?_, hw.window, hw.widths⟩⟩, he⟩
    · constructor
      · intro hp; exact absurd hp (live_not_poisoned hw.session.live)
      · intro hn; exact absurd hw.session.noError hn
    · intro hf; rw [Replayed.frame hp |>.2.2.2.2.2.2.2.2.2.2.1, hr] at hf; exact absurd hf (by simp)
    · unfold ReplayState; rw [Replayed.frame hp |>.2.2.1]; exact hst
  | raise c d => rw [hg] at hp; exact ⟨decInv_decRaise c (baseOk_replayed hp h.session.base), he⟩
  | fault f => rw [hg] at hs; exact hs


theorem endCommand_congr {s s' : State} (he : s'.enc = s.enc) (hc : s'.cmds = s.cmds) (r : Run) : endCommand s' r = endCommand s r := by
  unfold endCommand
  cases r <;> simp [he, hc]

theorem endCommand_next {s : State} {r : Run} (h : r.Drives) : ∃ t, endCommand s r = .next t ∧ t.dec.replaying = false := by
  cases r with
  | ok d => exact ⟨_, rfl, h.2.1⟩
  | raise c d => exact ⟨_, rfl, rfl⟩
  | fault f => exact absurd h id

theorem exec_decChunk (b : Bytes) (s : State) : exec (.decChunk b) s = execDecChunk b s := rfl

theorem chunk_eq {s : State} {d : Dec} {b : Bytes} (hl : Live d.state) :
    exec (.decChunk b) { s with dec := d } = endCommand s (drive (addPending b d)) := by
  rw [exec_decChunk]
  unfold execDecChunk
  split <;> rename_i hs
  · simp [Live, show d.state = _ from hs] at hl
  · simp [Live, show d.state = _ from hs] at hl
  · simp [Live, show d.state = _ from hs] at hl
  all_goals exact endCommand_congr rfl rfl _

theorem failsWith_of_raise {s : State} {c : Cause} {d : Dec} (h1 : d.sink = s.dec.sink) (h2 : d.ctx.dtarget = s.dec.ctx.dtarget)
   (h3 : d.ctx.totalTargetLen = s.dec.ctx.totalTargetLen) (h4 : d.dict = s.dec.dict) (h5 : d.dictSize = s.dec.dictSize)
   (h6 : d.allowVcdTarget = s.dec.allowVcdTarget) (h7 : d.maxTargetFileSize = s.dec.maxTargetFileSize)
   (h8 : d.maxTargetWindowSize = s.dec.maxTargetWindowSize) (h9 : d.maxSectionSize = s.dec.maxSectionSize) :
   FailsWith c s (endCommand s (.raise c d)) := by
  exact ⟨_, rfl, rfl, rfl, rfl, rfl, rfl, rfl, rfl, rfl, h1, h2, h3, h4, h5, h6, h7, h8, h9, rfl, rfl⟩


theorem chunk_self {s : State} {b : Bytes} (hl : Live s.dec.state) :
    exec (.decChunk b) s = endCommand s (drive (addPending b s.dec)) := chunk_eq hl

theorem failsWith_parsed {s : State} {b : Bytes} {c : Cause} {d : Dec} (h : Parsed (addPending b s.dec) d) :
    FailsWith c s (endCommand s (.raise c d)) := by
  obtain ⟨f1, f2, f3, f4, f5, f6, f7, -⟩ := h.frame
  obtain ⟨c1, c2, c3, c4⟩ := h.caps
  obtain ⟨o1, o2, -⟩ := h.outer
  exact failsWith_of_raise f2 o1 o2 f6 f7 c1 c2 c3 c4

theorem atWindow_live {d : Dec} (h : AtWindow d) : Live d.state := by
  rcases h with h | h | ⟨h, -⟩ <;> simp [Live, h]

theorem driveItem_atWindow {d : Dec} (h : AtWindow d) (hp : d.pending ≠ []) :
    driveItem d = decodeWindow d ∧ atRest d = false := by
  have hl : d.pending.length ≠ 0 := by simpa using hp
  unfold driveItem atRest
  rcases h with h | h | ⟨h, n, hn, hph⟩
  · rw [h]; simp [hp]
  · rw [h]; simp [hp]
  · rw [h]; simp only
    unfold customTableStep
    rw [hn]; simp [hph, hp]

theorem drive_item {d : Dec} (h : atRest d = false) : drive d = match driveItem d with
      | .done d' => driveLoop d.pending.length d'
      | .more => .ok (wantMore d)
      | .raise c d' => .raise c d'
      | .fault f => .fault f := by
  unfold drive
  rw [driveLoop, h]
  simp only [Bool.false_eq_true, if_false]
  all_goals (cases driveItem d <;> rfl)

/-- A window header that raises ends the command. -/
theorem chunk_header_raise {s : State} {b : Bytes} {c : Cause} {d : Dec} (h : AtWindow s.dec)
    (hp : s.dec.pending ++ b ≠ []) (hr : parseWindowHeader (addPending b s.dec) = .raise c d) (hd : Parsed (addPending b s.dec) d) :
    FailsWith c s (exec (.decChunk b) s) := by
  rw [chunk_self (atWindow_live h)]
  have hw : AtWindow (addPending b s.dec) := h
  have := driveItem_atWindow hw hp
  rw [drive_item this.2, this.1]
  unfold decodeWindow
  rw [hr]
  exact failsWith_parsed hd

theorem exec_decStart (b : Bytes) (s : State) : exec (.decStart b) s = execDecStart b s := rfl
theorem exec_decFinish (s : State) : exec .decFinish s = execDecFinish s := rfl
theorem exec_encNew (il : Bool) (c : Option CustomTable) (s : State) : exec (.encNew il c) s = execEncNew il c s := rfl
theorem exec_encInit (z : Word) (s : State) : exec (.encInit z) s = execEncInit z s := rfl
theorem exec_encAdd (n o l : Nat) (b : Bytes) (s : State) : exec (.encAdd n o l b) s = execEncAdd n o l b s := rfl
theorem exec_encRun (z : Word) (b : Byte) (s : State) : exec (.encRun z b) s = execEncRun z b s := rfl
theorem exec_encCopy (o z : Word) (s : State) : exec (.encCopy o z) s = execEncCopy o z s := rfl
theorem exec_encAddChecksum (c : Word) (s : State) : exec (.encAddChecksum c) s = execEncAddChecksum c s := rfl
theorem exec_encOutput (s : State) : exec .encOutput s = execEncOutput s := rfl
theorem exec_encWriteHeader (b : Bool) (s : State) : exec (.encWriteHeader b) s = execEncWriteHeader b s := rfl
theorem exec_encTargetLength (s : State) : exec .encTargetLength s = execEncTargetLength s := rfl
theorem exec_encGetDeltaWindowSize (s : State) : exec .encGetDeltaWindowSize s = execEncGetDeltaWindowSize s := rfl

theorem whenReady_ready {e : Enc} {b : EncEnd} (h : e.state = .ready) : whenReady e b = b := if_pos h

theorem encCommand_ok {s : State} {body : Enc → EncEnd} {e : Enc} {r : Result} (h : s.enc.state ≠ .failed)
    (hb : body s.enc = .ok e r) : encCommand s body = .next { s with enc := e, result := some r } := by
  unfold encCommand; rw [if_neg h, hb]

theorem encCommand_raise {s : State} {body : Enc → EncEnd} {c : Cause} (h : s.enc.state ≠ .failed)
    (hb : body s.enc = .raise c) : encCommand s body = .next (encFailed c s) := by
  unfold encCommand; rw [if_neg h, hb]; rfl

theorem encCommand_created {s : State} {body : Enc → EncEnd} (h : s.enc.state = .created) :
    encCommand s (fun e => whenReady e (body e)) = .next (encFailed .notInitialised s) :=
  encCommand_raise (by rw [h]; simp) (if_neg (by rw [h]; simp))

theorem encCommand_ready_ok {s : State} {body : Enc → EncEnd} {e : Enc} {r : Result} (h : s.enc.state = .ready)
    (hb : body s.enc = .ok e r) : encCommand s (fun e => whenReady e (body e)) = .next { s with enc := e, result := some r } :=
  encCommand_ok (by rw [h]; simp) ((whenReady_ready h).trans hb)

theorem encCommand_ready_raise {s : State} {body : Enc → EncEnd} {c : Cause} (h : s.enc.state = .ready)
    (hb : body s.enc = .raise c) : encCommand s (fun e => whenReady e (body e)) = .next (encFailed c s) :=
  encCommand_raise (by rw [h]; simp) ((whenReady_ready h).trans hb)

theorem encCommand_failed {s : State} {body : Enc → EncEnd} (h : s.enc.state = .failed) :
    encCommand s body = .next { s with result := some (errOf .commandAfterFailure) } := by
  unfold encCommand; rw [if_pos h]

/-- What any part of a decoder command keeps: `SINK` and the outer `DTARGET` grow by the same bytes; the dictionary and the
control registers stay (R301, R323, R395). -/
structure Delivers (d d' : Dec) : Prop where
  out : ∃ out : Bytes, d'.sink = d.sink ++ out ∧ d'.ctx.dtarget = d.ctx.dtarget ++ out ∧
    d'.ctx.totalTargetLen = d.ctx.totalTargetLen + out.length
  dict : d'.dict = d.dict ∧ d'.dictSize = d.dictSize
  caps : d'.allowVcdTarget = d.allowVcdTarget ∧ d'.maxTargetFileSize = d.maxTargetFileSize ∧
    d'.maxTargetWindowSize = d.maxTargetWindowSize ∧ d'.maxSectionSize = d.maxSectionSize

theorem Delivers.same {d d' : Dec} (h1 : d'.sink = d.sink) (h2 : d'.ctx.dtarget = d.ctx.dtarget)
    (h3 : d'.ctx.totalTargetLen = d.ctx.totalTargetLen) (h4 : d'.dict = d.dict ∧ d'.dictSize = d.dictSize)
    (h5 : d'.allowVcdTarget = d.allowVcdTarget ∧ d'.maxTargetFileSize = d.maxTargetFileSize ∧
    d'.maxTargetWindowSize = d.maxTargetWindowSize ∧ d'.maxSectionSize = d.maxSectionSize) : Delivers d d' :=
  ⟨⟨[], by simp [h1], by simp [h2], by simp [h3]⟩, h4, h5⟩

theorem Delivers.refl (d : Dec) : Delivers d d := .same rfl rfl rfl ⟨rfl, rfl⟩ ⟨rfl, rfl, rfl, rfl⟩

theorem Delivers.trans {a b c : Dec} (h : Delivers a b) (k : Delivers b c) : Delivers a c := by
  obtain ⟨o, h1, h2, h3⟩ := h.out
  obtain ⟨p, k1, k2, k3⟩ := k.out
  refine ⟨⟨o ++ p, ?_, ?_, ?_⟩, ⟨k.dict.1.trans h.dict.1, k.dict.2.trans h.dict.2⟩, ⟨k.caps.1.trans h.caps.1,
    k.caps.2.1.trans h.caps.2.1, k.caps.2.2.1.trans h.caps.2.2.1, k.caps.2.2.2.trans h.caps.2.2.2⟩⟩
  · rw [k1, h1, List.append_assoc]
  · rw [k2, h2, List.append_assoc]
  · rw [k3, h3, List.length_append]; omega

theorem Delivers.of_parsed {d d' : Dec} (h : Parsed d d') : Delivers d d' := by
  obtain ⟨f1, f2, f3, f4, f5, f6, f7, -⟩ := h.frame
  obtain ⟨o1, o2, -⟩ := h.outer
  exact .same f2 o1 o2 ⟨f6, f7⟩ h.caps

theorem Delivers.of_replayed {d d' : Dec} (h : Replayed d d') : Delivers d d' := by
  obtain ⟨f1, f2, f3, f4, f5, f6, f7, f8, f9, -⟩ := h.frame
  obtain ⟨o1, o2, -⟩ := h.outer
  exact .same f2 o1 o2 ⟨f8, f9⟩ h.caps

theorem delivers_decRaise (c : Cause) (d : Dec) : Delivers d (decRaise c d) :=
  .same rfl rfl rfl ⟨rfl, rfl⟩ ⟨rfl, rfl, rfl, rfl⟩

theorem delivers_startReplay (c : Nat) (d : Dec) : Delivers d (startReplay c d) := by
  cases hn : d.nested with
  | none =>
    unfold startReplay
    rw [activeCtx_of_none _ hn, setActive_of_none _ _ hn]
    exact .same rfl rfl rfl ⟨rfl, rfl⟩ ⟨rfl, rfl, rfl, rfl⟩
  | some n =>
    unfold startReplay
    rw [setActive_of_some _ _ n hn]
    exact .same rfl rfl rfl ⟨rfl, rfl⟩ ⟨rfl, rfl, rfl, rfl⟩

theorem delivers_commit (d : Dec) : Delivers d (commit d) := by
  cases hn : d.nested with
  | none => rw [commit_of_none hn]; exact ⟨⟨d.ctx.tw, rfl, rfl, rfl⟩, ⟨rfl, rfl⟩, ⟨rfl, rfl, rfl, rfl⟩⟩
  | some n => rw [commit_of_some hn]; exact .same rfl rfl rfl ⟨rfl, rfl⟩ ⟨rfl, rfl, rfl, rfl⟩

/-- Every decoder an item can leave. -/
def Item.All (P : Dec → Prop) : Item → Prop
  | .done d => P d
  | .more => True
  | .raise _ d => P d
  | .fault _ => True

theorem Item.All.mono {P Q : Dec → Prop} {i : Item} (h : Item.All P i) (k : ∀ d, P d → Q d) : Item.All Q i := by
  cases i with
  | done d => exact k d h
  | more => trivial
  | raise c d => exact k d h
  | fault f => trivial

theorem windowDone_delivers (d : Dec) : Item.All (Delivers d) (windowDone d) := by
  unfold windowDone
  split
  · exact .same rfl rfl rfl ⟨rfl, rfl⟩ ⟨rfl, rfl, rfl, rfl⟩
  · split
    · exact .refl d
    · split
      · exact .refl d
      · unfold loadTable
        simp only
        split <;> exact .same rfl rfl rfl ⟨rfl, rfl⟩ ⟨rfl, rfl, rfl, rfl⟩

theorem closeWindow_delivers (d : Dec) : Item.All (Delivers d) (closeWindow d) := by
  unfold closeWindow
  rcases endTests_cases d with ⟨h, -⟩ | ⟨c, h⟩
  · rw [h]; exact (windowDone_delivers _).mono fun _ k => (delivers_commit d).trans k
  · rw [h]; exact .refl d

theorem finishWindow_delivers (d : Dec) : Item.All (Delivers d) (finishWindow d) := by
  unfold finishWindow
  have hr := replayRest_replayed d
  cases h : replayRest d with
  | ok d' => rw [h] at hr; exact (closeWindow_delivers d').mono fun _ k => (Delivers.of_replayed hr).trans k
  | raise c d' => rw [h] at hr; exact .of_replayed hr
  | fault f => trivial

theorem decodeWindow_delivers {d : Dec} (h1 : activeDictSize d = (activeDict d).length)
    (h2 : (activeCtx d).totalTargetLen = (activeCtx d).dtarget.length) : Item.All (Delivers d) (decodeWindow d) := by
  unfold decodeWindow
  have hp := parseWindowHeader_leads d h1 h2
  cases h : parseWindowHeader d with
  | more => trivial
  | raise c d' => rw [h] at hp; exact .of_parsed hp
  | ok d' c =>
    rw [h] at hp
    simp only
    split
    · trivial
    · exact (finishWindow_delivers _).mono fun _ k =>
        ((Delivers.of_parsed hp.1).trans (delivers_startReplay c d')).trans k

theorem delivers_header {d : Dec} : ∀ {d' : Dec} {h : Nat}, parseFileHeader d = .ok d' h → Delivers d d' := by
  intro d' h he
  obtain ⟨rest, -, rfl, -⟩ := parseFileHeader_ok he
  exact .same rfl rfl rfl ⟨rfl, rfl⟩ ⟨rfl, rfl, rfl, rfl⟩

theorem outerHeader_delivers (d : Dec) : Item.All (Delivers d) (outerHeader d) := by
  unfold outerHeader
  cases h : parseFileHeader d with
  | more => trivial
  | raise c d' => rw [parseFileHeader_raise h]; exact .refl d
  | ok d' c =>
    simp only
    split <;> exact (delivers_header h).trans (.same rfl rfl rfl ⟨rfl, rfl⟩ ⟨rfl, rfl, rfl, rfl⟩)

theorem innerHeaderStep_delivers (n : Nested) (d : Dec) : Item.All (Delivers d) (innerHeaderStep n d) := by
  unfold innerHeaderStep
  cases h : parseFileHeader d with
  | more => trivial
  | raise c d' => rw [parseFileHeader_raise h]; exact .refl d
  | ok d' c =>
    simp only
    split <;> exact (delivers_header h).trans (.same rfl rfl rfl ⟨rfl, rfl⟩ ⟨rfl, rfl, rfl, rfl⟩)

theorem paramsStep_delivers (n : Nested) (d : Dec) : Item.All (Delivers d) (paramsStep n d) := by
  unfold paramsStep
  split
  · trivial
  · exact .refl d
  · split
    · trivial
    · exact .refl d
    · split
      · trivial
      · exact .refl d
      · split
        · exact .refl d
        · split
          · exact .refl d
          · exact .same rfl rfl rfl ⟨rfl, rfl⟩ ⟨rfl, rfl, rfl, rfl⟩

theorem driveItem_delivers {d : Dec} (h : LiveOk d) : Item.All (Delivers d) (driveItem d) := by
  have ha := liveOk_active h
  have hw := decodeWindow_delivers ha.1 ha.2.1
  unfold driveItem
  cases d.state with
  | expectHeader => exact outerHeader_delivers d
  | customTable =>
    simp only
    unfold customTableStep
    split
    · trivial
    · rename_i n _
      split
      · exact paramsStep_delivers n d
      · exact innerHeaderStep_delivers n d
      · split
        · trivial
        · exact hw
  | expectWinIndicator => exact hw
  | inWindow => exact hw
  | idle => exact hw
  | finished => exact hw
  | poisoned => exact hw

theorem wantMore_delivers (d : Dec) : Delivers d (wantMore d) := by
  unfold wantMore
  split <;> exact .same rfl rfl rfl ⟨rfl, rfl⟩ ⟨rfl, rfl, rfl, rfl⟩

theorem driveLoop_delivers {fuel : Nat} {d : Dec} (h : LiveOk d) (hr : d.replaying = false) :
    (driveLoop fuel d).All (Delivers d) := by
  induction fuel generalizing d with
  | zero => exact .refl d
  | succ k ih =>
    rw [driveLoop]
    split
    · exact .same rfl rfl rfl ⟨rfl, rfl⟩ ⟨rfl, rfl, rfl, rfl⟩
    · have hd := driveItem_delivers h
      have hs := driveItem_sound h hr
      cases he : driveItem d with
      | done d' =>
        rw [he] at hd hs
        exact (ih hs.1 hs.2.1).mono fun _ k => Delivers.trans hd k
      | more => exact wantMore_delivers d
      | raise c d' => rw [he] at hd; exact hd
      | fault f => trivial

theorem drive_delivers {d : Dec} (h : LiveOk d) (hr : d.replaying = false) : (drive d).All (Delivers d) :=
  driveLoop_delivers h hr

theorem resumeDrive_delivers {d : Dec} (h : WindowLive d) : (resumeDrive d).All (Delivers d) := by
  have hs := closeWindow_sound h (Nat.lt_succ_of_le (Nat.sub_le d.pending.length (windowLen d)))
  have hd := closeWindow_delivers d
  unfold resumeDrive
  cases he : closeWindow d with
  | done d' => rw [he] at hs hd; exact (drive_delivers hs.1 hs.2.1).mono fun _ k => Delivers.trans hd k
  | more => exact .refl d
  | raise c d' => rw [he] at hd; exact hd
  | fault f => trivial

theorem nested_state {s : State} {n : Nested} (hi : Safety.Inv s) (hn : s.dec.nested = some n) : s.dec.state = .customTable := by
  have hk := hi.1.2.2.2.2.2.1
  unfold NestedOk at hk; rw [hn] at hk; exact hk.1

theorem failsWith_self {s : State} {b : Bytes} {c : Cause} : FailsWith c s (endCommand s (.raise c (addPending b s.dec))) :=
  failsWith_of_raise rfl rfl rfl rfl rfl rfl rfl rfl rfl

theorem failsWith_rest {s : State} {b r : Bytes} {c : Cause} : FailsWith c s (endCommand s (.raise c { addPending b s.dec with pending := r })) :=
  failsWith_of_raise rfl rfl rfl rfl rfl rfl rfl rfl rfl

/-- A chunk whose first item is done goes on as a chunk of what is left. -/
theorem chunk_done {s : State} {b rest : Bytes} {d : Dec} (hi : Safety.Inv s) (hr : s.dec.replaying = false) (hl : Live s.dec.state)
    (ha : atRest (addPending b s.dec) = false) (hd : driveItem (addPending b s.dec) = .done (addPending rest d)) :
    exec (.decChunk b) s = exec (.decChunk rest) { s with dec := d } := by
  have live := liveOk_addPending b (liveOk_of_decInv hi.1 hl)
  have hs := driveItem_sound live (show (addPending b s.dec).replaying = false from hr)
  rw [hd] at hs
  rw [chunk_self hl, drive_item ha, hd]
  simp only
  rw [driveLoop_eq_drive hs.1 hs.2.1 hs.2.2]
  exact (chunk_eq (s := s) (d := d) (b := rest) hs.1.live).symm

theorem chunk_more {s : State} {b : Bytes} (hl : Live s.dec.state)
    (ha : atRest (addPending b s.dec) = false) (hd : driveItem (addPending b s.dec) = .more) :
    exec (.decChunk b) s = .next { s with result := some .ok, dec := wantMore (addPending b s.dec) } := by
  rw [chunk_self hl, drive_item ha, hd]; rfl

theorem chunk_raise {s : State} {b : Bytes} {c : Cause} {d : Dec} (hl : Live s.dec.state)
    (ha : atRest (addPending b s.dec) = false) (hd : driveItem (addPending b s.dec) = .raise c d) (hdel : d = addPending b s.dec ∨ ∃ r, d = { addPending b s.dec with pending := r }) :
    FailsWith c s (exec (.decChunk b) s) := by
  rw [chunk_self hl, drive_item ha, hd]
  rcases hdel with rfl | ⟨r, rfl⟩
  · exact failsWith_self
  · exact failsWith_rest


theorem execDecChunk_good {s : State} (b : Bytes) (h : Inv s) (hr : s.dec.replaying = false) :
    NextSat Inv (execDecChunk b s) := by
  have key : Live s.dec.state → NextSat Inv (endCommand s (drive { s.dec with pending := memAppend s.dec.pending b })) := by
    intro hl
    exact endCommand_good h.2 (drive_sound (liveOk_addPending b (liveOk_of_decInv h.1 hl)) hr)
  unfold execDecChunk
  split <;> rename_i hs
  · exact h
  · exact h
  · exact h
  all_goals exact key (by simp [Live, hs])

/-- An encoder command that ends well leaves a good encoder. -/
def EncEndOk : EncEnd → Prop
  | .ok e _ => EncInv e
  | .raise _ => True

theorem encCommand_good {s : State} {body : Enc → EncEnd} (h : Inv s)
    (hb : s.enc.state ≠ .failed → EncEndOk (body s.enc)) :
    NextSat Inv (encCommand s body) := by
  unfold encCommand
  split
  · exact h
  · rename_i hs
    have := hb hs
    split
    · rename_i e r he; rw [he] at this; exact ⟨h.1, this⟩
    · exact ⟨h.1, encInv_raise _ (causeKind_ne_zero _) h.2⟩

theorem whenReady_good {e : Enc} {body : EncEnd} (hb : e.state = .ready → EncEndOk body) :
   EncEndOk (whenReady e body) := by
  unfold whenReady
  by_cases h : e.state = .ready
  · rw [if_pos h]; exact hb h
  · rw [if_neg h]; trivial

theorem exec_host_good {s : State} (i : Instr) (h : Inv s) (hr : s.dec.replaying = false) (hw : i.wf = true)
   (hi : opcodeOf i = none) : NextSat Inv (exec i s) := by
  cases i
  case decStart d =>
    simp only [Instr.wf, decide_eq_true_eq] at hw
    refine ⟨⟨rfl, hw, rfl, by simp [decNewSession], by simp [decNewSession], by simp [NestedOk, decNewSession], ?_, ?_, ?_, ?_⟩, h.2⟩
    · intro _; exact ⟨defTab_length, defTab_valid, rfl, rfl⟩
    · simp [decNewSession]
    · intro _; simp [RestOk, decNewSession]
    · intro hf; simp [decNewSession] at hf
  case decChunk b => exact execDecChunk_good b h hr
  case decFinish =>
    show NextSat Inv (execDecFinish s)
    unfold execDecFinish
    split <;> rename_i hs
    · exact h
    · exact h
    · exact h
    all_goals
      split
      · rename_i hx
        obtain ⟨⟨h1,h2,h3,h4,h5,h6,h7,h8,h9,h10⟩, he⟩ := h
        refine ⟨⟨h1,h2,h3,h4,h5,?_, fun _ => h7 (by rw [hs]; simp), ?_, ?_, ?_⟩, he⟩
        · unfold NestedOk at h6 ⊢
          split at h6
          · rename_i hn; simp [hn]
          · rename_i n hn; rw [hs] at h6; have := hx.1; rw [hs] at this; simp_all
        · have := not_congr h8 |>.mp (by rw [hs]; simp)
          simp at this; simp [this]
        · intro _; exact List.eq_nil_of_length_eq_zero hx.2
        · intro hf; rw [show s.dec.replaying = true from hf] at hr; simp at hr
      · exact ⟨decInv_decRaise _ (liveOk_of_decInv h.1 (by simp [Live, hs])).base, h.2⟩
  case encNew il cu =>
    show NextSat Inv (execEncNew il cu s)
    unfold execEncNew
    cases hc : encConfigure cu s.enc with
    | none => exact ⟨h.1, encInv_raise _ (causeKind_ne_zero _) h.2⟩
    | some e =>
      refine ⟨h.1, ?_⟩
      unfold encConfigure at hc
      split at hc
      · simp only [Option.some.injEq] at hc
        subst hc
        refine ⟨freshCache_ok _ _ _, ⟨defTab_length, defTab_valid, rfl, rfl⟩, fun _ => ⟨rfl, rfl, rfl⟩, by simp [encHere], fun _ => ⟨rfl, rfl⟩, trivial, fun _ => ⟨rfl, rfl, rfl⟩, by simp⟩
      · split at hc
        · rename_i hg
          simp only [Option.some.injEq] at hc
          subst hc
          refine ⟨freshCache_ok _ _ _, ⟨unpackImage_length _, hg.2.2, hg.2.1, hg.1⟩, by simp, by simp [encHere], fun _ => ⟨rfl, rfl⟩, trivial, fun _ => ⟨rfl, rfl, rfl⟩, by simp⟩
        · simp at hc
  case encInit d =>
    show NextSat Inv (execEncInit d s)
    unfold execEncInit
    refine encCommand_good h fun hs => ?_
    have := encInv_clear h.2
    obtain ⟨a1,a2,a3,a4,a5,a6,a7,a8⟩ := this
    refine ⟨a1,a2,a3,?_,a5,a6,by simp, ?_⟩
    · have := d.isLt; show d.toNat + 0 ≤ _; omega
    · have := (not_congr a8).mp hs; simp at this; simp [this]
  case encAdd n o l b =>
    show NextSat Inv (execEncAdd n o l b s)
    unfold execEncAdd
    refine encCommand_good h fun hs => whenReady_good fun hrdy => ?_
    split
    · trivial
    · split
      · trivial
      · rename_i hov
        simp only [wouldOverflow, decide_eq_true_eq] at hov
        split
        · trivial
        · rename_i e1 he1
          exact encInv_emit h.2 hrdy he1 (.inl ⟨b, rfl⟩) (by omega)
  case encRun n b =>
    show NextSat Inv (execEncRun n b s)
    unfold execEncRun
    refine encCommand_good h fun hs => whenReady_good fun hrdy => ?_
    split
    · trivial
    · rename_i hov
      simp only [wouldOverflow, decide_eq_true_eq] at hov
      split
      · trivial
      · rename_i e1 he1
        exact encInv_emit h.2 hrdy he1 (.inl ⟨_, rfl⟩) (by omega)
  case encCopy o n =>
    show NextSat Inv (execEncCopy o n s)
    unfold execEncCopy
    refine encCommand_good h fun hs => whenReady_good fun hrdy => ?_
    split
    · trivial
    · split
      · trivial
      · rename_i hov
        simp only [wouldOverflow, decide_eq_true_eq] at hov
        simp only
        split
        · trivial
        · rename_i e1 he1
          exact encInv_emit (encInv_cache h.2 o.isLt) hrdy he1 (.inr ⟨_, rfl⟩) (by unfold encHere at *; simp; omega)
  case encAddChecksum c =>
    show NextSat Inv (execEncAddChecksum c s)
    unfold execEncAddChecksum
    refine encCommand_good h fun hs => whenReady_good fun hrdy => ?_
    exact h.2
  case encOutput =>
    show NextSat Inv (execEncOutput s)
    unfold execEncOutput
    refine encCommand_good h fun hs => whenReady_good fun hrdy => ?_
    have := encInv_clear h.2
    split
    · exact this
    · split
      · trivial
      · exact this
  case encWriteHeader x =>
    show NextSat Inv (execEncWriteHeader x s)
    unfold execEncWriteHeader
    exact encCommand_good h fun hs => h.2
  case encTargetLength =>
    show NextSat Inv (execEncTargetLength s)
    unfold execEncTargetLength
    exact encCommand_good h fun hs => h.2
  case encGetDeltaWindowSize =>
    show NextSat Inv (execEncGetDeltaWindowSize s)
    unfold execEncGetDeltaWindowSize
    exact encCommand_good h fun hs => whenReady_good fun hrdy => h.2
  case decSetAllowVcdTarget => exact h
  case decSetMaxTargetFileSize => exact h
  case decSetMaxTargetWindowSize => exact h
  case decSetMaxSectionSize => exact h
  all_goals (exact absurd hi (by simp [opcodeOf, encode]))




end Sys2Proof.Machine
end

