-- ==== Sys2Proof/Laws/Chunks.lean ====
section
/-! SUPPORT. Cutting a byte string into chunks (R302, R326): a chunk and then another do what the two do as one chunk. -/

namespace Sys2Proof.Machine

open Sys2Proof.Safety

/-- Two runs of the driver that no command tells apart: the same decoder, or the same poisoned one (R385). -/
def Run.Same : Run → Run → Prop
  | .ok d, .ok d' => d = d'
  | .raise c d, .raise c' d' => errOf c = errOf c' ∧ decRaise c d = decRaise c' d'
  | .fault f, .fault f' => f = f'
  | _, _ => False

theorem Run.Same.refl (r : Run) : r.Same r := by cases r <;> simp [Run.Same]

theorem Run.Same.symm {r r' : Run} (h : r.Same r') : r'.Same r := by
  cases r <;> cases r' <;> first | exact h.elim | exact Eq.symm h | exact ⟨h.1.symm, h.2.symm⟩

theorem Run.Same.trans {a b c : Run} (h : a.Same b) (k : b.Same c) : a.Same c := by
  cases a <;> cases b <;> first
    | exact h.elim
    | cases c <;> first | exact k.elim | exact Eq.trans h k | exact ⟨h.1.trans k.1, h.2.trans k.2⟩

theorem endCommand_same {s : State} {r r' : Run} (h : r.Same r') : endCommand s r = endCommand s r' := by
  cases r <;> cases r' <;> first
    | exact h.elim
    | simp only [endCommand, h.1, h.2]
    | (cases (show _ = _ from h); rfl)

theorem atRest_settle (d : Dec) : atRest (graft settle [] d) = atRest d := by
  unfold atRest
  rw [graft_state]
  cases h : d.state <;> simp [settle]

theorem graft_settled {d : Dec} (h : d.state ≠ .inWindow) : graft settle [] d = d := by
  have : settle d.state = d.state := by cases hs : d.state <;> simp_all [settle]
  unfold graft
  rw [this, List.append_nil]

theorem liveOk_settle {d : Dec} (h : LiveOk d) : LiveOk (graft settle [] d) := by
  refine ⟨⟨h.base.dictSize, h.base.dictLe, h.base.total, h.base.totalLt, h.base.sink⟩, ?_, h.table, h.noError, ?_⟩
  · have hn := h.nested
    unfold NestedOk at hn ⊢
    rw [graft_nested, graft_state]
    cases hd : d.nested with
    | none =>
      rw [hd] at hn
      exact fun hs => (unseen_settle.window d.state (fun e => by rw [e] at hs; simp [settle] at hs) hn).2 hs
    | some n =>
      rw [hd] at hn
      exact ⟨by rw [hn.1]; rfl, hn.2⟩
  · rcases h.live with h | h | h | h <;> simp [Live, graft_state, h, settle]

theorem finishWindow_not_more (d : Dec) : finishWindow d ≠ .more := by
  unfold finishWindow
  cases replayRest d with
  | ok d' => exact closeWindow_not_more d'
  | raise c d' => simp
  | fault f => simp

/-- Whether a window is complete does not depend on `DEC_STATE`. -/
theorem decodeWindow_more_graft {f : DecState → DecState} {d : Dec} (h : decodeWindow d = .more) :
    decodeWindow (graft f [] d) = .more := by
  have hx : (parseWindowHeader (graft f [] d)).Extends (fun _ => d.state) [] (parseWindowHeader d) := by
    have := parseWindowHeader_extends (fun _ => d.state) [] (graft f [] d)
    have e : graft (fun _ => d.state) [] (graft f [] d) = d := by simp [graft]
    rwa [e] at this
  unfold decodeWindow at h ⊢
  cases hp : parseWindowHeader (graft f [] d) with
  | more => rfl
  | raise c d' => rw [hp] at hx; rw [show parseWindowHeader d = _ from hx] at h; simp at h
  | ok d' c =>
    rw [hp] at hx
    rw [show parseWindowHeader d = _ from hx] at h
    simp only [graft_pending, activeWin_graft, List.append_nil] at h ⊢
    split at h
    · rw [if_pos (by assumption)]
    · exact absurd h (finishWindow_not_more _)

/-- The driver does not tell `IN_WINDOW` from `EXPECT_WIN_INDICATOR` (R302). -/
theorem driveLoop_settle {fuel : Nat} {d : Dec} (h : LiveOk d) (hr : d.replaying = false) (hf : d.pending.length < fuel) :
    (driveLoop fuel (graft settle [] d)).Same (driveLoop fuel d) := by
  induction fuel generalizing d with
  | zero => omega
  | succ k ih =>
    rw [driveLoop, driveLoop, atRest_settle]
    split
    · show _ = _
      unfold graft
      rw [List.append_nil]
    · have hx := driveItem_extends unseen_settle [] d
      have hs := driveItem_sound h hr
      cases he : driveItem d with
      | done d' =>
        rw [he] at hx hs
        rw [show driveItem (graft settle [] d) = _ from hx]
        exact ih hs.1 hs.2.1 (by have := hs.2.2; omega)
      | raise c d' =>
        rw [he] at hx
        rw [show driveItem (graft settle [] d) = _ from hx]
        exact ⟨rfl, rfl⟩
      | fault f => rw [he] at hs; exact absurd hs id
      | more =>
        have hm : driveItem (graft settle [] d) = .more := by
          rcases h.live with hl | hl | hl | hl
          · rw [graft_settled (by simp [hl])]; exact he
          · rw [graft_settled (by simp [hl])]; exact he
          · rw [graft_settled (by simp [hl])]; exact he
          · unfold driveItem at he ⊢
            rw [graft_state, hl]
            rw [hl] at he
            exact decodeWindow_more_graft he
        rw [hm]
        show wantMore (graft settle [] d) = wantMore d
        unfold wantMore
        rcases h.live with hl | hl | hl | hl
        · rw [graft_settled (by simp [hl])]
        · rw [graft_settled (by simp [hl])]
        · rw [graft_settled (by simp [hl])]
        · simp [graft, hl, settle]

theorem drive_settle {d : Dec} (h : LiveOk d) (hr : d.replaying = false) : (drive (graft settle [] d)).Same (drive d) := by
  have := driveLoop_settle h hr (Nat.lt_succ_self d.pending.length)
  unfold drive
  simpa using this

theorem drive_settled {d d' : Dec} (h : LiveOk d) (h' : LiveOk d') (hr : d.replaying = false) (hr' : d'.replaying = false)
    (e : graft settle [] d = graft settle [] d') : (drive d).Same (drive d') :=
  (drive_settle h hr).symm.trans (e ▸ drive_settle h' hr')

/-- How the driver ends with more input, from how it ends without. -/
def Run.Goes (b : Bytes) : Run → Run → Prop
  | .ok d, r => r.Same (drive (addPending b d))
  | .raise c d, r => r.Same (.raise c d)
  | .fault _, _ => False

theorem driveItem_addPending (b : Bytes) (d : Dec) : (driveItem d).Extends id b (driveItem (addPending b d)) :=
  driveItem_extends unseen_id b d

theorem driveLoop_goes {fuel more : Nat} {d : Dec} (b : Bytes) (h : LiveOk d) (hr : d.replaying = false) (hf : d.pending.length < fuel)
    (hm : d.pending.length + b.length < more) :
    (driveLoop fuel d).Goes b (driveLoop more (addPending b d)) := by
  induction fuel generalizing d more with
  | zero => omega
  | succ k ih =>
    obtain ⟨m, rfl⟩ : ∃ m, more = m + 1 := ⟨more - 1, by omega⟩
    have stop : ∀ {d' : Dec}, LiveOk d' → d'.replaying = false → graft settle [] (addPending b d) = graft settle [] (addPending b d') →
        (driveLoop (m + 1) (addPending b d)).Same (drive (addPending b d')) := by
      intro d' h' hr' e
      rw [driveLoop_eq_drive (liveOk_addPending b h) hr (by simpa using hm)]
      exact drive_settled (liveOk_addPending b h) (liveOk_addPending b h') hr hr' e
    have live : ∀ {st : DecState}, graft settle [] d = { d with state := st } → LiveOk { d with state := st } :=
      fun e => e ▸ liveOk_settle h
    rw [driveLoop]
    split
    · rename_i ha
      have hst : settle d.state = .expectWinIndicator := by
        unfold atRest at ha
        rcases h.live with hl | hl | hl | hl <;> rw [hl] at ha ⊢ <;> first | rfl | simp at ha
      have e : graft settle [] d = { d with state := .expectWinIndicator } := by unfold graft; rw [hst, List.append_nil]
      exact stop (live e) hr (by unfold graft addPending; simp only [hst]; rfl)
    · rename_i ha
      have ha' : atRest (addPending b d) = false := by
        unfold atRest at ha ⊢
        rw [addPending_state]
        rcases h.live with hl | hl | hl | hl <;> rw [hl] at ha ⊢ <;> simp_all
      have hx := driveItem_addPending b d
      have hs := driveItem_sound h hr
      cases he : driveItem d with
      | done d' =>
        rw [he] at hx hs
        rw [driveLoop, ha', show driveItem (addPending b d) = .done (addPending b d') from hx]
        exact ih hs.1 hs.2.1 (by have := hs.2.2; omega) (by have := hs.2.2; omega)
      | raise c d' =>
        rw [he] at hx
        rw [driveLoop, ha', show driveItem (addPending b d) = .raise c (addPending b d') from hx]
        exact ⟨rfl, rfl⟩
      | fault f => rw [he] at hs; exact absurd hs id
      | more =>
        rcases h.live with hl | hl | hl | hl
        · have : wantMore d = d := by unfold wantMore; rw [hl]
          show Run.Same _ (drive (addPending b (wantMore d)))
          rw [this]; exact stop h hr rfl
        · have : wantMore d = d := by unfold wantMore; rw [hl]
          show Run.Same _ (drive (addPending b (wantMore d)))
          rw [this]; exact stop h hr rfl
        · have e : wantMore d = { d with state := .inWindow } := by unfold wantMore; rw [hl]
          show Run.Same _ (drive (addPending b (wantMore d)))
          rw [e]
          refine stop ⟨⟨h.base.dictSize, h.base.dictLe, h.base.total, h.base.totalLt, h.base.sink⟩, ?_, h.table, h.noError, by simp [Live]⟩ hr ?_
          · have hn := h.nested
            unfold NestedOk at hn ⊢
            cases hd : d.nested with
            | none => simp
            | some n => rw [hd] at hn; rw [hl] at hn; exact absurd hn.1 (by simp)
          · unfold graft addPending; simp [hl, settle]
        · have : wantMore d = d := by unfold wantMore; rw [hl]; simp only; rw [← hl]
          show Run.Same _ (drive (addPending b (wantMore d)))
          rw [this]; exact stop h hr rfl

theorem drive_goes {d : Dec} (b : Bytes) (h : LiveOk d) (hr : d.replaying = false) :
    (drive d).Goes b (drive (addPending b d)) :=
  driveLoop_goes b h hr (Nat.lt_succ_self _) (by simp)

/-- Two chunks in a row are one chunk (R326). -/
theorem chunk_chunk {s : State} (a b : Bytes) (h : Live s.dec.state → LiveOk s.dec ∧ s.dec.replaying = false) :
    ∃ t, exec (.decChunk a) s = .next t ∧ exec (.decChunk b) t = exec (.decChunk (a ++ b)) s := by
  by_cases hl : Live s.dec.state
  · obtain ⟨hk, hr⟩ := h hl
    have hg := drive_goes b (liveOk_addPending a hk) hr
    have hs := drive_sound (liveOk_addPending a hk) hr
    rw [addPending_addPending] at hg
    rw [chunk_self hl, chunk_self hl]
    cases he : drive (addPending a s.dec) with
    | fault f => rw [he] at hs; exact absurd hs id
    | ok d =>
      rw [he] at hg hs
      refine ⟨_, rfl, ?_⟩
      rw [chunk_self (s := { s with dec := d, result := some .ok }) hs.2.2]
      exact (endCommand_congr (s := s) rfl rfl _).trans (endCommand_same hg).symm
    | raise c d =>
      rw [he] at hg
      refine ⟨_, rfl, ?_⟩
      exact (show _ = endCommand s (.raise c d) from rfl).trans (endCommand_same hg).symm
  · have stuck : ∀ (b : Bytes) (r : Option Result), exec (.decChunk b) { s with result := r }
        = .next { s with result := some (if s.dec.state = .poisoned then storedError s.dec else errOf .decoderNotStarted) } := by
      intro b r
      rw [exec_decChunk]
      unfold execDecChunk
      split <;> rename_i hs
      · rw [if_neg (by rw [show s.dec.state = _ from hs]; simp)]
      · rw [if_neg (by rw [show s.dec.state = _ from hs]; simp)]
      · rw [if_pos (show s.dec.state = _ from hs)]
      all_goals exact absurd (by simp [Live, show s.dec.state = _ from hs]) hl
    exact ⟨_, stuck a s.result, (stuck b _).trans (stuck (a ++ b) s.result).symm⟩

/-- A new session is live (R300). -/
theorem newSession_live (dict : Bytes) (d : Dec) (h : dict.length ≤ 4294967295) : LiveOk (decNewSession dict d) := by
  refine ⟨⟨rfl, h, rfl, by simp [decNewSession], by simp [decNewSession]⟩, by simp [NestedOk, decNewSession], ⟨defTab_length, defTab_valid, rfl, rfl⟩, rfl, .inl rfl⟩

theorem runInstrs_next {i : Instr} {l : List Instr} {s t : State} (h : exec i s = .next t) : runInstrs (i :: l) s = runInstrs l t := by
  rw [runInstrs, h]

theorem viRead_end {src : Bytes} {cur : Nat} (h : src.length ≤ cur) : viRead 32 src cur src.length = .needMore := by
  unfold viRead viMaxBytes
  show viReadLoop 32 src src.length 5 cur 0 = _
  rw [viReadLoop, if_pos h]

theorem headerVarInt_end {d : Dec} {c : Nat} {k : Nat → Nat → Parse} (h : d.pending.length ≤ c) : headerVarInt d c k = .more := by
  unfold headerVarInt; rw [viRead_end h]

/-- One byte is never a whole window. -/
theorem decodeWindow_one {d : Dec} {x : Byte} (h : d.pending = [x]) : decodeWindow d = .more ∨ ∃ c d', decodeWindow d = .raise c d' := by
  have key : parseWindowHeader d = .more ∨ ∃ c d', parseWindowHeader d = .raise c d' := by
    have e := headerByte_ok (d := d) (A := []) (R := []) (b := x) (k := fun wi c =>
      if wi &&& 0xF8 ≠ 0 then Parse.raise .winIndicatorReserved d
      else if wi &&& 0x03 = 0x03 then .raise .winSourceAndTarget d
      else if wi &&& 0x02 ≠ 0 ∧ d.allowVcdTarget = false then .raise .vcdTargetDisallowed d
      else .ok (setHasChecksum wi (setWin { activeWin d with winIndicator := wi } d)) c) (by rw [h]; rfl)
    rw [List.length_nil] at e
    unfold parseWindowHeader parseWinIndicator
    rw [e]
    split
    · exact .inr ⟨_, _, rfl⟩
    · split
      · exact .inr ⟨_, _, rfl⟩
      · split
        · exact .inr ⟨_, _, rfl⟩
        · refine .inl ?_
          generalize hd1 : setHasChecksum x (setWin { activeWin d with winIndicator := x } d) = d1
          have hp : d1.pending.length ≤ ([] ++ [x]).length := by
            subst hd1; unfold setHasChecksum setWin setActive; cases d.nested <;> simp [h]
          show ((parseSourceSegment d1 _).andThen _) = _
          have seg : parseSourceSegment d1 ([] ++ [x]).length = .more ∨ ∃ d2, parseSourceSegment d1 ([] ++ [x]).length = .ok d2 ([] ++ [x]).length ∧ d2.pending = d1.pending := by
            unfold parseSourceSegment
            simp only
            split
            · refine .inr ⟨_, rfl, ?_⟩
              unfold setWin setActive; cases d1.nested <;> rfl
            · rw [headerVarInt_end hp]; exact .inl rfl
          rcases seg with e | ⟨d2, e, h2⟩
          · rw [e]; rfl
          · rw [e]
            show (parseDeltaLen d2 _).andThen _ = _
            unfold parseDeltaLen
            rw [headerVarInt_end (by rw [h2]; exact hp)]
            rfl
  unfold decodeWindow
  rcases key with e | ⟨c, d', e⟩ <;> rw [e]
  · exact .inl rfl
  · exact .inr ⟨c, d', rfl⟩

theorem finish_live {u : State} (hl : Live u.dec.state) :
   (u.dec.state = .expectWinIndicator ∧ u.dec.pending = [] ∧ exec .decFinish u = .next { u with dec := { u.dec with state := .finished }, result := some .ok }) ∨
   (¬ (u.dec.state = .expectWinIndicator ∧ u.dec.pending = []) ∧ exec .decFinish u = .next { u with dec := decRaise .truncated u.dec, result := some (errOf .truncated) }) := by
  rw [exec_decFinish]
  unfold execDecFinish
  by_cases h : u.dec.state = .expectWinIndicator ∧ u.dec.pending = []
  · left; rw [h.1]; simp [h.2]
  · right
    refine ⟨h, ?_⟩
    rcases hl with hl | hl | hl | hl <;> rw [hl] at h ⊢ <;> simp_all

theorem finish_poisoned {u : State} (h : u.dec.state = .poisoned) : exec .decFinish u = .next { u with result := some (storedError u.dec) } := by
  rw [exec_decFinish]
  unfold execDecFinish
  rw [h]

/-- A chunk in a live session ends well or poisons. -/
theorem chunk_ends {s : State} (b : Bytes) (h : LiveOk s.dec) (hr : s.dec.replaying = false) :
    (∃ d, exec (.decChunk b) s = .next { s with dec := d, result := some .ok } ∧ DecInv d ∧ d.replaying = false ∧ Live d.state) ∨
    ∃ c d, exec (.decChunk b) s = .next { s with dec := decRaise c d, result := some (errOf c) } := by
  have hs := drive_sound (liveOk_addPending b h) hr
  rw [chunk_self h.live]
  cases he : drive (addPending b s.dec) with
  | ok d => rw [he] at hs; exact .inl ⟨d, rfl, hs⟩
  | raise c d => exact .inr ⟨c, d, rfl⟩
  | fault f => rw [he] at hs; exact absurd hs id

end Sys2Proof.Machine
end

