-- ==== Sys2Proof/Laws/Cut.lean ====
section
/-! SUPPORT. Less input is enough (R302, R311, R385): a procedure of the driver that is done with an item does the same when nothing
stands behind the item, so a chunk that fails is a front part of it that ends well, every item of it whole, and then the item that
fails. -/

namespace Sys2Proof.Machine

open Sys2Proof.Safety

/-! ## The parse of a window header -/

/-- A parse that goes on leaves the cursor at `c` or behind it and `p` in `PENDING`. -/
def Parse.From (p : Bytes) (c : Nat) (r : Parse) : Prop := ∀ e c', r = .ok e c' → c ≤ c' ∧ e.pending = p

/-- Where the parse of `n` bytes wanted more, the parse of more bytes, if it goes on, ends behind those `n`. -/
def Parse.Late (n : Nat) (r r' : Parse) : Prop := r = .more → ∀ e c, r' = .ok e c → n < c

theorem Parse.From.andThen {p : Bytes} {c : Nat} {r : Parse} {k : Dec → Nat → Parse} (h : r.From p c)
    (hk : ∀ d c, (k d c).From d.pending c) : (r.andThen k).From p c := by
  intro e c' he
  cases r with
  | ok d c₁ =>
    obtain ⟨h1, h2⟩ := h d c₁ rfl
    obtain ⟨k1, k2⟩ := hk d c₁ e c' he
    exact ⟨Nat.le_trans h1 k1, k2.trans h2⟩
  | more => simp [Parse.andThen] at he
  | raise x d => simp [Parse.andThen] at he

theorem Parse.Late.andThen {p b : Bytes} {c : Nat} {r r' : Parse} {k : Dec → Nat → Parse} (h : r.Late p.length r') (hx : r.Extends id b r')
    (hp : r.From p c) (hf : ∀ d c, (k d c).From d.pending c)
    (hk : ∀ d c, (k d c).Late d.pending.length (k (graft id b d) c)) : (r.andThen k).Late p.length (r'.andThen k) := by
  intro hm e c' he
  cases r with
  | ok d c₁ =>
    rw [show r' = _ from hx] at he
    rw [← (hp d c₁ rfl).2]
    exact hk d c₁ hm e c' he
  | more =>
    cases r' with
    | ok d c₁ => exact Nat.lt_of_lt_of_le (h rfl d c₁ rfl) (hf d c₁ e c' he).1
    | more => simp [Parse.andThen] at he
    | raise x d => simp [Parse.andThen] at he
  | raise x d => simp [Parse.andThen] at hm

theorem viReadLoop_late {width : Nat} {src b : Bytes} {left cur acc v c : Nat}
    (h : viReadLoop width src src.length left cur acc = .needMore)
    (hv : viReadLoop width (src ++ b) (src ++ b).length left cur acc = .value v c) : src.length < c := by
  induction left generalizing cur acc with
  | zero => simp [viReadLoop] at h
  | succ n ih =>
    by_cases hc : src.length ≤ cur
    · have := (viReadLoop_value hv).1; omega
    · rw [viReadLoop, if_neg hc, List.getElem?_eq_getElem (by omega)] at h
      rw [viReadLoop, if_neg (by simp; omega), List.getElem?_append_left (by omega), List.getElem?_eq_getElem (by omega)] at hv
      simp only at h hv
      split at h
      · split at h <;> simp at h
      · rename_i hb
        rw [if_neg hb] at hv
        exact ih h hv

theorem headerVarInt_from {d : Dec} {p : Bytes} {c : Nat} {k : Nat → Nat → Parse} (hk : ∀ v c', (k v c').From p c') :
    (headerVarInt d c k).From p c := by
  intro e c' he
  unfold headerVarInt at he
  split at he
  · rename_i v c₁ hv
    have h1 := (viRead_value hv).1
    have h2 := hk v c₁ e c' he
    exact ⟨by omega, h2.2⟩
  · simp at he
  · simp at he

theorem headerByte_from {d : Dec} {p : Bytes} {c : Nat} {k : Byte → Nat → Parse} (hk : ∀ v c', (k v c').From p c') :
    (headerByte d c k).From p c := by
  intro e c' he
  unfold headerByte at he
  split at he
  · rename_i v c₁ hv
    have h1 := (byteRead_value hv).2.1
    have h2 := hk _ c₁ e c' he
    exact ⟨by omega, h2.2⟩
  · simp at he
  · simp at he

theorem headerVarInt_late {b : Bytes} {d : Dec} {c : Nat} {k k' : Nat → Nat → Parse}
    (hk : ∀ v c', (k v c').Late d.pending.length (k' v c')) (hf : ∀ v c', (k' v c').From (graft id b d).pending c') :
    (headerVarInt d c k).Late d.pending.length (headerVarInt (graft id b d) c k') := by
  intro hm e c' he
  unfold headerVarInt at hm he
  rw [graft_pending] at he
  cases hr : viRead 32 d.pending c d.pending.length with
  | needMore =>
    split at he
    · rename_i v c₁ hv
      have h1 := viReadLoop_late hr hv
      have h2 := (hf v c₁ e c' he).1
      omega
    · simp at he
    · simp at he
  | error x => rw [hr] at hm; simp at hm
  | value v c₁ =>
    rw [hr] at hm
    rw [viRead_append (by rw [hr]; simp), hr] at he
    exact hk v c₁ hm e c' he

theorem headerByte_late {b : Bytes} {d : Dec} {c : Nat} {k k' : Byte → Nat → Parse}
    (hk : ∀ v c', (k v c').Late d.pending.length (k' v c')) (hf : ∀ v c', (k' v c').From (graft id b d).pending c') :
    (headerByte d c k).Late d.pending.length (headerByte (graft id b d) c k') := by
  intro hm e c' he
  unfold headerByte at hm he
  rw [graft_pending] at he
  cases hr : byteRead d.pending c d.pending.length with
  | needMore =>
    have hc : d.pending.length ≤ c := by
      unfold byteRead at hr
      split at hr
      · assumption
      · rw [List.getElem?_eq_getElem (by omega)] at hr; simp at hr
    split at he
    · rename_i v c₁ hv
      have h1 := (byteRead_value hv).2.1
      have h2 := (hf _ c₁ e c' he).1
      omega
    · simp at he
    · simp at he
  | error x => rw [hr] at hm; simp at hm
  | value v c₁ =>
    rw [hr] at hm
    rw [byteRead_append (by rw [hr]; simp), hr] at he
    exact hk _ c₁ hm e c' he

/-- A rule that goes on at once or raises. -/
theorem from_ok {p : Bytes} {c : Nat} {d : Dec} (h : d.pending = p) : (Parse.ok d c).From p c := by
  intro e c' he; cases he; exact ⟨Nat.le_refl c, h⟩

theorem from_raise {p : Bytes} {c : Nat} {x : Cause} {d : Dec} : (Parse.raise x d).From p c := by
  intro e c' he; simp at he

theorem late_of_ne {n : Nat} {r r' : Parse} (h : r ≠ .more) : r.Late n r' := fun hm => absurd hm h

theorem parseWinIndicator_from (d : Dec) (c : Nat) : (parseWinIndicator d c).From d.pending c :=
  headerByte_from fun wi c => by
    split
    · exact from_raise
    · split
      · exact from_raise
      · split
        · exact from_raise
        · exact from_ok (by simp [setHasChecksum])

theorem parseSourceSegment_from (d : Dec) (c : Nat) : (parseSourceSegment d c).From d.pending c := by
  unfold parseSourceSegment
  simp only
  split
  · exact from_ok (by simp)
  · refine headerVarInt_from fun size c => headerVarInt_from fun pos c => ?_
    split
    · exact from_raise
    · exact from_ok (by simp)

theorem parseDeltaLen_from (d : Dec) (c : Nat) : (parseDeltaLen d c).From d.pending c :=
  headerVarInt_from fun v c => from_ok (by simp)

theorem parseTargetLen_from (d : Dec) (c : Nat) : (parseTargetLen d c).From d.pending c :=
  headerVarInt_from fun v c => by
    split
    · exact from_raise
    · split
      · exact from_raise
      · exact from_ok (by simp)

theorem parseDeltaIndicator_from (d : Dec) (c : Nat) : (parseDeltaIndicator d c).From d.pending c :=
  headerByte_from fun di c => by
    split
    · exact from_raise
    · exact from_ok rfl

theorem parseSectionLen_from (put : Nat → WindowRegs → WindowRegs) (d : Dec) (c : Nat) :
    (parseSectionLen put d c).From d.pending c :=
  headerVarInt_from fun v c => by
    split
    · exact from_raise
    · exact from_ok (by simp)

theorem parseSectionLens_from (d : Dec) (c : Nat) : (parseSectionLens d c).From d.pending c := by
  unfold parseSectionLens
  refine (parseSectionLen_from _ d c).andThen fun d c => ?_
  refine (parseSectionLen_from _ d c).andThen fun d c => ?_
  exact (parseSectionLen_from _ d c).andThen fun d c => from_ok rfl

theorem parseChecksum_from (d : Dec) (c : Nat) : (parseChecksum d c).From d.pending c := by
  unfold parseChecksum
  split
  · exact headerVarInt_from fun v c => from_ok (by simp)
  · exact from_ok rfl

theorem checkDeltaLen_from (start : Nat) (d : Dec) (c : Nat) : (checkDeltaLen start d c).From d.pending c := by
  unfold checkDeltaLen
  split
  · exact from_raise
  · exact from_ok rfl

/-- A rule of the parse: it only advances, more input does not change what it decided, and less input than it read is not
enough. -/
structure Steady (k : Dec → Nat → Parse) : Prop where
  advances : ∀ d c, (k d c).From d.pending c
  extends_ : ∀ b d c, (k d c).Extends id b (k (graft id b d) c)
  late : ∀ b d c, (k d c).Late d.pending.length (k (graft id b d) c)

theorem Steady.andThen {k : Dec → Nat → Parse} {k' : Dec → Nat → Parse} (h : Steady k) (h' : Steady k') :
    Steady fun d c => (k d c).andThen k' :=
  ⟨fun d c => (h.advances d c).andThen h'.advances,
   fun b d c => (h.extends_ b d c).andThen (h'.extends_ b),
   fun b d c => (h.late b d c).andThen (h.extends_ b d c) (h.advances d c) h'.advances (h'.late b)⟩

/-- A rule that also knows the cursor it began at. -/
theorem Steady.from_start {k : Nat → Dec → Nat → Parse} (h : ∀ start, Steady (k start)) : Steady fun d c => k c d c :=
  ⟨fun d c => (h c).advances d c, fun b d c => (h c).extends_ b d c, fun b d c => (h c).late b d c⟩

theorem steady_parseWinIndicator : Steady parseWinIndicator :=
  ⟨parseWinIndicator_from, parseWinIndicator_extends id, fun b d c => headerByte_late
    (fun wi c' => late_of_ne (by
      split
      · simp
      · split
        · simp
        · split <;> simp))
    (fun wi c' => by
      split
      · exact from_raise
      · split
        · exact from_raise
        · split
          · exact from_raise
          · exact from_ok (by simp [setHasChecksum]))⟩

theorem steady_parseSourceSegment : Steady parseSourceSegment := by
  refine ⟨parseSourceSegment_from, parseSourceSegment_extends id, fun b d c => ?_⟩
  unfold parseSourceSegment
  show Parse.Late _ _ (if (activeWin d).winIndicator &&& 0x03 = 0 then _ else _)
  by_cases hs : (activeWin d).winIndicator &&& 0x03 = 0
  · rw [if_pos hs]; exact late_of_ne (by simp)
  · rw [if_neg hs, if_neg hs]
    refine headerVarInt_late (fun size c => headerVarInt_late (fun pos c => late_of_ne (by split <;> simp)) fun pos c => ?_)
      fun size c => headerVarInt_from fun pos c => ?_
    all_goals
      split
      · exact from_raise
      · exact from_ok (by simp)

theorem steady_parseDeltaLen : Steady parseDeltaLen :=
  ⟨parseDeltaLen_from, parseDeltaLen_extends id, fun b d c => headerVarInt_late (fun v c' => late_of_ne (by simp))
    (fun v c' => from_ok (by simp))⟩

theorem steady_parseTargetLen : Steady parseTargetLen :=
  ⟨parseTargetLen_from, parseTargetLen_extends id, fun b d c => headerVarInt_late
    (fun v c' => late_of_ne (by
      split
      · simp
      · split <;> simp))
    (fun v c' => by
      split
      · exact from_raise
      · split
        · exact from_raise
        · exact from_ok (by simp))⟩

theorem steady_parseDeltaIndicator : Steady parseDeltaIndicator :=
  ⟨parseDeltaIndicator_from, parseDeltaIndicator_extends id, fun b d c => headerByte_late
    (fun v c' => late_of_ne (by split <;> simp))
    (fun v c' => by
      split
      · exact from_raise
      · exact from_ok rfl)⟩

theorem steady_parseSectionLen (put : Nat → WindowRegs → WindowRegs) : Steady (parseSectionLen put) :=
  ⟨parseSectionLen_from put, parseSectionLen_extends put id, fun b d c => headerVarInt_late
    (fun v c' => late_of_ne (by split <;> simp))
    (fun v c' => by
      split
      · exact from_raise
      · exact from_ok (by simp))⟩

theorem steady_setInterleaved : Steady fun d c => .ok (setInterleaved d) c :=
  ⟨fun d c => from_ok rfl, fun b d c => rfl, fun b d c => late_of_ne (by simp)⟩

theorem steady_parseChecksum : Steady parseChecksum := by
  refine ⟨parseChecksum_from, parseChecksum_extends id, fun b d c => ?_⟩
  unfold parseChecksum
  rw [graft_hasChecksum]
  split
  · exact headerVarInt_late (fun v c' => late_of_ne (by simp)) (fun v c' => from_ok (by simp))
  · exact late_of_ne (by simp)

theorem steady_checkDeltaLen (start : Nat) : Steady (checkDeltaLen start) :=
  ⟨checkDeltaLen_from start, checkDeltaLen_extends start id, fun b d c => late_of_ne (by
    unfold checkDeltaLen
    split <;> simp)⟩

theorem steady_parseSectionLens : Steady parseSectionLens :=
  (steady_parseSectionLen fun v w => { w with dataLen := v }).andThen
    ((steady_parseSectionLen fun v w => { w with instLen := v }).andThen
      ((steady_parseSectionLen fun v w => { w with addrLen := v }).andThen steady_setInterleaved))

theorem parseWindowHeader_steady : ∃ k, Steady k ∧ ∀ d, parseWindowHeader d = k d 0 :=
  ⟨_, steady_parseWinIndicator.andThen (steady_parseSourceSegment.andThen (steady_parseDeltaLen.andThen
    (Steady.from_start fun start => steady_parseTargetLen.andThen (steady_parseDeltaIndicator.andThen
      (steady_parseSectionLens.andThen (steady_parseChecksum.andThen (steady_checkDeltaLen start))))))), fun _ => rfl⟩

/-! ## Items -/

theorem windowDone_pending {d e : Dec} (h : windowDone d = .done e) : e.pending = d.pending := by
  unfold windowDone at h
  split at h
  · cases h; rfl
  · split at h
    · cases h; rfl
    · split at h
      · simp at h
      · unfold loadTable at h
        simp only at h
        split at h
        · cases h; rfl
        · simp at h

/-- A window that is done has taken its own bytes from `PENDING` (R323). -/
theorem closeWindow_pending {d e : Dec} (h : closeWindow d = .done e) : e.pending = d.pending.drop (windowLen d) := by
  unfold closeWindow at h
  rcases endTests_cases d with ⟨ht, -⟩ | ⟨c, ht⟩ <;> rw [ht] at h
  · rw [windowDone_pending h]
    cases hn : d.nested with
    | none => rw [commit_of_none hn]
    | some n => rw [commit_of_some hn]
  · simp at h

theorem finishWindow_pending {d e : Dec} (h : finishWindow d = .done e) : e.pending = d.pending.drop (windowLen d) := by
  unfold finishWindow at h
  have hr := replayRest_replayed d
  cases hd : replayRest d with
  | ok d' =>
    rw [hd] at h hr
    have hr : Replayed d d' := hr
    rw [closeWindow_pending h, hr.frame.1, hr.sections.2.2.2]
  | raise c d' => rw [hd] at h; simp at h
  | fault f => rw [hd] at h; simp at h

/-- Where a procedure of the driver wanted more, the same procedure with `b` behind, if it is done, took some of `b`. -/
def Item.Late (b : Bytes) (r r' : Item) : Prop := r = .more → ∀ e, r' = .done e → e.pending.length < b.length

theorem decodeWindow_late (b : Bytes) (d : Dec) : (decodeWindow d).Late b (decodeWindow (graft id b d)) := by
  intro hm e he
  unfold decodeWindow at hm he
  obtain ⟨k, hk, hd⟩ := parseWindowHeader_steady
  rw [hd] at hm he
  have hl := hk.late b d 0
  have hx := hk.extends_ b d 0
  have enough : ∀ {c d'}, k (graft id b d) 0 = .ok d' c →
      d.pending.length < c + (activeWin d').dataLen + (activeWin d').instLen + (activeWin d').addrLen →
      d'.pending.length = d.pending.length + b.length → e.pending.length < b.length := by
    intro c d' hp hw hlen
    rw [hp] at he
    simp only at he
    split at he
    · simp at he
    · rw [finishWindow_pending he, List.length_drop, windowLen_startReplay, startReplay_pending]
      omega
  cases hp : k d 0 with
  | more =>
    cases hq : k (graft id b d) 0 with
    | ok d' c =>
      have hb : d'.pending.length = d.pending.length + b.length := by
        rw [(hk.advances (graft id b d) 0 d' c hq).2, graft_pending, List.length_append]
      exact enough hq (by have := hl hp d' c hq; omega) hb
    | more => rw [hq] at he; simp at he
    | raise x d' => rw [hq] at he; simp at he
  | ok d' c =>
    rw [hp] at hx hm
    simp only at hm
    split at hm
    · rename_i hlt
      have hlen := (hk.advances d 0 d' c hp).2
      exact enough hx (by rw [activeWin_graft, ← hlen]; exact hlt) (by rw [graft_pending, List.length_append, hlen])
    · exact absurd hm (finishWindow_not_more _)
  | raise x d' => rw [hp] at hm; simp at hm

theorem parseFileHeader_late {b : Bytes} {d e : Dec} {h : Nat} (hm : parseFileHeader d = .more)
    (he : parseFileHeader (graft id b d) = .ok e h) : e.pending.length < b.length := by
  obtain ⟨rest, hl, rfl, -⟩ := parseFileHeader_ok he
  have : d.pending.length < 5 := by
    by_cases hc : d.pending.length < 5
    · exact hc
    · exfalso
      unfold parseFileHeader at hm
      split at hm
      · repeat (split at hm; · simp at hm)
        simp at hm
      · rename_i hne
        match hp : d.pending, hc with
        | h0 :: h1 :: h2 :: h3 :: h4 :: rest, _ => exact hne _ _ _ _ _ _ hp
        | [], hc | [_], hc | [_, _], hc | [_, _, _], hc | [_, _, _, _], hc => simp at hc
  rw [graft_pending, List.length_append] at hl
  simp only
  omega

theorem outerHeader_late (b : Bytes) (d : Dec) : (outerHeader d).Late b (outerHeader (graft id b d)) := by
  intro hm e he
  unfold outerHeader at hm he
  cases hp : parseFileHeader d with
  | more =>
    cases hq : parseFileHeader (graft id b d) with
    | ok d' h =>
      have := parseFileHeader_late hp hq
      rw [hq] at he
      simp only at he
      split at he <;> (cases he; exact this)
    | more => rw [hq] at he; simp at he
    | raise c d' => rw [hq] at he; simp at he
  | ok d' h => rw [hp] at hm; simp only at hm; split at hm <;> simp at hm
  | raise c d' => rw [hp] at hm; simp at hm

theorem innerHeaderStep_late (n : Nested) (b : Bytes) (d : Dec) :
    (innerHeaderStep n d).Late b (innerHeaderStep n (graft id b d)) := by
  intro hm e he
  unfold innerHeaderStep at hm he
  cases hp : parseFileHeader d with
  | more =>
    cases hq : parseFileHeader (graft id b d) with
    | ok d' h =>
      have := parseFileHeader_late hp hq
      rw [hq] at he
      simp only at he
      split at he
      · simp at he
      · cases he; exact this
    | more => rw [hq] at he; simp at he
    | raise c d' => rw [hq] at he; simp at he
  | ok d' h => rw [hp] at hm; simp only at hm; split at hm <;> simp at hm
  | raise c d' => rw [hp] at hm; simp at hm

theorem byteRead_late {src : Bytes} {cur : Nat} (h : byteRead src cur src.length = .needMore) : src.length ≤ cur := by
  unfold byteRead at h
  split at h
  · assumption
  · rw [List.getElem?_eq_getElem (by omega)] at h; simp at h

theorem paramsStep_late (n : Nested) (b : Bytes) (d : Dec) : (paramsStep n d).Late b (paramsStep n (graft id b d)) := by
  intro hm e he
  have step : ∀ {near c₁ same c₂ mm c₃},
      viRead 32 (d.pending ++ b) 0 (d.pending ++ b).length = .value near c₁ →
      viRead 32 (d.pending ++ b) c₁ (d.pending ++ b).length = .value same c₂ →
      byteRead (d.pending ++ b) c₂ (d.pending ++ b).length = .value mm c₃ →
      c₃ = c₂ + 1 ∧ c₁ < c₂ ∧ e.pending.length = d.pending.length + b.length - c₃ ∧ c₃ ≤ d.pending.length + b.length := by
    intro near c₁ same c₂ mm c₃ h1 h2 h3
    unfold paramsStep at he
    rw [graft_pending, h1] at he
    simp only [h2, h3] at he
    split at he
    · simp at he
    · split at he
      · simp at he
      · cases he
        have := byteRead_value h3
        refine ⟨this.2.1, (viRead_value h2).1, by simp, ?_⟩
        have := this.1
        simp at this
        omega
  unfold paramsStep at hm he
  rw [graft_pending] at he
  cases h1 : viRead 32 (d.pending ++ b) 0 (d.pending ++ b).length with
  | needMore => rw [h1] at he; simp at he
  | error x => rw [h1] at he; simp at he
  | value near c₁ =>
    rw [h1] at he
    simp only at he
    cases h2 : viRead 32 (d.pending ++ b) c₁ (d.pending ++ b).length with
    | needMore => rw [h2] at he; simp at he
    | error x => rw [h2] at he; simp at he
    | value same c₂ =>
      rw [h2] at he
      simp only at he
      cases h3 : byteRead (d.pending ++ b) c₂ (d.pending ++ b).length with
      | needMore => rw [h3] at he; simp at he
      | error x => rw [h3] at he; simp at he
      | value mm c₃ =>
        obtain ⟨e1, e2, e3, e4⟩ := step h1 h2 h3
        suffices d.pending.length < c₃ by omega
        cases g1 : viRead 32 d.pending 0 d.pending.length with
        | needMore => have := viReadLoop_late g1 h1; omega
        | error x => rw [g1] at hm; simp at hm
        | value near' c₁' =>
          have q1 := viRead_append (b := b) (by rw [g1]; simp : viRead 32 d.pending 0 d.pending.length ≠ .needMore)
          rw [h1, g1] at q1
          cases q1
          rw [g1] at hm
          simp only at hm
          cases g2 : viRead 32 d.pending c₁ d.pending.length with
          | needMore => have := viReadLoop_late g2 h2; omega
          | error x => rw [g2] at hm; simp at hm
          | value same' c₂' =>
            have q2 := viRead_append (b := b) (by rw [g2]; simp : viRead 32 d.pending c₁ d.pending.length ≠ .needMore)
            rw [h2, g2] at q2
            cases q2
            rw [g2] at hm
            simp only at hm
            cases g3 : byteRead d.pending c₂ d.pending.length with
            | needMore => have := byteRead_late g3; omega
            | error x => rw [g3] at hm; simp at hm
            | value mm' c₃' =>
              rw [g3] at hm
              simp only at hm
              split at hm
              · simp at hm
              · split at hm <;> simp at hm

/-- With nothing pending a window waits (R311). -/
theorem decodeWindow_nothing {d : Dec} (h : d.pending = []) : decodeWindow d = .more := by
  unfold decodeWindow parseWindowHeader parseWinIndicator headerByte
  rw [h]
  rfl

theorem driveItem_late (b : Bytes) (d : Dec) : (driveItem d).Late b (driveItem (addPending b d)) := by
  have hw := decodeWindow_late b d
  unfold driveItem
  rw [addPending_state]
  cases d.state with
  | expectHeader => exact outerHeader_late b d
  | customTable =>
    show (customTableStep d).Late b (customTableStep (graft id b d))
    unfold customTableStep
    rw [graft_nested]
    cases d.nested with
    | none => intro _ e he; simp at he
    | some n =>
      simp only
      cases n.phase with
      | params => exact paramsStep_late n b d
      | innerHeader => exact innerHeaderStep_late n b d
      | innerWindows =>
        simp only
        by_cases h0 : d.pending.length = 0
        · intro _ e he
          split at he
          · simp at he
          · exact hw (decodeWindow_nothing (List.length_eq_zero_iff.mp h0)) e he
        · rw [if_neg h0, if_neg (by simp only [graft_pending, List.length_append]; omega)]
          exact hw
  | expectWinIndicator => exact hw
  | inWindow => exact hw
  | idle => exact hw
  | finished => exact hw
  | poisoned => exact hw

/-- An item that is done needs no byte behind its own. -/
theorem driveItem_cut {b : Bytes} {d e : Dec} (h : driveItem (addPending b d) = .done e) (hb : e.pending = b) :
    ∃ e', driveItem d = .done e' ∧ e = addPending b e' ∧ e'.pending = [] := by
  have hx := driveItem_addPending b d
  cases hd : driveItem d with
  | done e' =>
    rw [hd, h] at hx
    have hx : Item.done e = .done (addPending b e') := hx
    cases hx
    exact ⟨e', rfl, rfl, List.self_eq_append_left.mp hb.symm⟩
  | more => have := driveItem_late b d hd e h; rw [hb] at this; omega
  | raise c e' => rw [hd, h] at hx; exact absurd hx (by simp [Item.Extends])
  | fault f => rw [hd, h] at hx; exact absurd hx (by simp [Item.Extends])

/-! ## A chunk that fails -/

/-- What a failing item leaves alone (R323, R385): `SINK`, `DTARGET` and the total are as they were. -/
def Quiet (d d' : Dec) : Prop :=
  d'.sink = d.sink ∧ d'.ctx.dtarget = d.ctx.dtarget ∧ d'.ctx.totalTargetLen = d.ctx.totalTargetLen

theorem Quiet.trans {a b c : Dec} (h : Quiet a b) (k : Quiet b c) : Quiet a c :=
  ⟨k.1.trans h.1, k.2.1.trans h.2.1, k.2.2.trans h.2.2⟩

theorem quiet_parsed {d d' : Dec} (h : Parsed d d') : Quiet d d' := ⟨h.frame.2.1, h.outer.1, h.outer.2.1⟩

theorem quiet_replayed {d d' : Dec} (h : Replayed d d') : Quiet d d' := ⟨h.frame.2.1, h.outer.1, h.outer.2.1⟩

theorem quiet_startReplay (c : Nat) (d : Dec) : Quiet d (startReplay c d) := by
  unfold startReplay setActive
  cases hn : d.nested with
  | none => rw [activeCtx_of_none _ hn]; exact ⟨rfl, rfl, rfl⟩
  | some n => exact ⟨rfl, rfl, rfl⟩

theorem closeWindow_quiet {d e : Dec} {c : Cause} (h : closeWindow d = .raise c e) : Quiet d e := by
  unfold closeWindow at h
  rcases endTests_cases d with ⟨ht, -⟩ | ⟨c, ht⟩ <;> rw [ht] at h
  · simp only at h
    cases hn : d.nested with
    | none => rw [commit_of_none hn] at h; unfold windowDone at h; simp [hn] at h
    | some n =>
      rw [commit_of_some hn] at h
      unfold windowDone at h
      simp only at h
      split at h
      · simp at h
      · split at h
        · cases h; exact ⟨rfl, rfl, rfl⟩
        · unfold loadTable at h
          simp only at h
          split at h
          · simp at h
          · cases h; exact ⟨rfl, rfl, rfl⟩
  · cases h; exact ⟨rfl, rfl, rfl⟩

theorem decodeWindow_quiet {d e : Dec} {c : Cause} (h1 : activeDictSize d = (activeDict d).length)
    (h2 : (activeCtx d).totalTargetLen = (activeCtx d).dtarget.length) (h : decodeWindow d = .raise c e) : Quiet d e := by
  unfold decodeWindow at h
  have hp := parseWindowHeader_leads d h1 h2
  cases hd : parseWindowHeader d with
  | more => rw [hd] at h; simp at h
  | raise x d' => rw [hd] at h hp; cases h; exact quiet_parsed hp
  | ok d' n =>
    rw [hd] at h hp
    simp only at h
    split at h
    · simp at h
    · refine (quiet_parsed hp.1).trans ((quiet_startReplay n d').trans ?_)
      unfold finishWindow at h
      have hr := replayRest_replayed (startReplay n d')
      cases he : replayRest (startReplay n d') with
      | ok d'' => rw [he] at h hr; exact (quiet_replayed hr).trans (closeWindow_quiet h)
      | raise x d'' => rw [he] at h hr; cases h; exact quiet_replayed hr
      | fault f => rw [he] at h; simp at h

theorem driveItem_quiet {d e : Dec} {c : Cause} (h : LiveOk d) (hd : driveItem d = .raise c e) : Quiet d e := by
  have ha := liveOk_active h
  have hw := decodeWindow_quiet ha.1 ha.2.1 (c := c) (e := e)
  have hh : ∀ {c e}, parseFileHeader d = .raise c e → Quiet d e :=
    fun hp => by rw [parseFileHeader_raise hp]; exact ⟨rfl, rfl, rfl⟩
  unfold driveItem at hd
  cases hs : d.state <;> rw [hs] at hd
  case expectHeader =>
    simp only at hd
    unfold outerHeader at hd
    split at hd
    · simp at hd
    · rename_i hp; cases hd; exact hh hp
    · split at hd <;> simp at hd
  case customTable =>
    simp only at hd
    unfold customTableStep at hd
    split at hd
    · simp at hd
    · split at hd
      · unfold paramsStep at hd
        repeat' split at hd
        all_goals first
          | (cases hd; exact ⟨rfl, rfl, rfl⟩)
          | simp at hd
      · unfold innerHeaderStep at hd
        split at hd
        · simp at hd
        · rename_i hp; cases hd; exact hh hp
        · rename_i hp
          obtain ⟨rest, -, rfl, -⟩ := parseFileHeader_ok hp
          split at hd
          · cases hd; exact ⟨rfl, rfl, rfl⟩
          · simp at hd
      · split at hd
        · simp at hd
        · exact hw hd
  all_goals exact hw hd

theorem driveItem_nothing {d : Dec} (h : Live d.state) (hp : d.pending = []) (ha : atRest d = false) : driveItem d = .more := by
  unfold atRest at ha
  unfold driveItem
  rcases h with hs | hs | hs | hs <;> rw [hs] at ha ⊢ <;> simp only at ha ⊢
  · unfold outerHeader parseFileHeader; rw [hp]
  · unfold customTableStep
    split
    · rfl
    · split
      · unfold paramsStep; rw [hp]; rfl
      · unfold innerHeaderStep parseFileHeader; rw [hp]
      · rw [hp]; rfl
  · simp [hp] at ha
  · simp [hp] at ha

/-- With nothing pending the driver returns (R302). -/
theorem drive_nothing {d : Dec} (h : Live d.state) (hp : d.pending = []) : drive d = .ok (graft settle [] d) := by
  unfold drive
  rw [driveLoop]
  by_cases ha : atRest d = true
  · rw [if_pos ha]
    have : settle d.state = .expectWinIndicator := by
      unfold atRest at ha
      rcases h with hs | hs | hs | hs <;> rw [hs] at ha ⊢ <;> first | rfl | simp at ha
    unfold graft
    rw [this, List.append_nil]
  · have ha : atRest d = false := by simpa using ha
    rw [if_neg (by simp [ha]), driveItem_nothing h hp ha]
    show Run.ok (wantMore d) = _
    unfold atRest at ha
    unfold wantMore
    rcases h with hs | hs | hs | hs <;> rw [hs] at ha ⊢ <;> simp only at ha ⊢
    · rw [graft_settled (by simp [hs])]
    · rw [graft_settled (by simp [hs])]
    · simp [hp] at ha
    · simp [hp] at ha

theorem decodeWindow_suffix {d e : Dec} (h : decodeWindow d = .done e) : ∃ n, e.pending = d.pending.drop n := by
  unfold decodeWindow at h
  cases hp : parseWindowHeader d with
  | more => rw [hp] at h; simp at h
  | raise c d' => rw [hp] at h; simp at h
  | ok d' c =>
    rw [hp] at h
    simp only at h
    split at h
    · simp at h
    · obtain ⟨k, hk, hd⟩ := parseWindowHeader_steady
      rw [finishWindow_pending h, startReplay_pending, (hk.advances d 0 d' c (hd d ▸ hp)).2]
      exact ⟨_, rfl⟩

theorem driveItem_suffix {d e : Dec} (h : driveItem d = .done e) : ∃ front, d.pending = front ++ e.pending := by
  suffices ∃ n, e.pending = d.pending.drop n by
    obtain ⟨n, hn⟩ := this
    exact ⟨d.pending.take n, by rw [hn, List.take_append_drop]⟩
  unfold driveItem at h
  cases hs : d.state <;> rw [hs] at h
  case expectHeader =>
    simp only at h
    unfold outerHeader at h
    split at h
    · simp at h
    · simp at h
    · rename_i hp
      obtain ⟨rest, -, rfl, hr⟩ := parseFileHeader_ok hp
      split at h <;> (cases h; exact ⟨5, hr.symm⟩)
  case customTable =>
    simp only at h
    unfold customTableStep at h
    split at h
    · simp at h
    · split at h
      · unfold paramsStep at h
        repeat' split at h
        all_goals first
          | (cases h; exact ⟨_, rfl⟩)
          | simp at h
      · unfold innerHeaderStep at h
        split at h
        · simp at h
        · simp at h
        · rename_i hp
          obtain ⟨rest, -, rfl, hr⟩ := parseFileHeader_ok hp
          split at h
          · simp at h
          · cases h; exact ⟨5, hr.symm⟩
      · split at h
        · simp at h
        · exact decodeWindow_suffix h
  all_goals exact decodeWindow_suffix h

/-- A chunk that raises in two parts: `front`, every item of it done and nothing pending at its end, and then `rest`, whose first item
is the one that raises (R302, R385). -/
theorem driveLoop_cut {fuel : Nat} {d e : Dec} {c : Cause} (h : LiveOk d) (hr : d.replaying = false) (hf : d.pending.length < fuel)
    (hd : driveLoop fuel d = .raise c e) :
    ∃ (front rest : Bytes) (u e' : Dec), d.pending = front ++ rest ∧ rest ≠ [] ∧ drive { d with pending := front } = .ok u ∧
      u.pending = [] ∧ driveItem (addPending rest u) = .raise c e' := by
  have live : ∀ (p : Bytes) {d : Dec}, LiveOk d → LiveOk { d with pending := p } := fun p d h =>
    ⟨⟨h.base.dictSize, h.base.dictLe, h.base.total, h.base.totalLt, h.base.sink⟩, h.nested, h.table, h.noError, h.live⟩
  induction fuel generalizing d with
  | zero => omega
  | succ k ih =>
    rw [driveLoop] at hd
    split at hd
    · simp at hd
    · rename_i ha
      have ha : atRest d = false := by simpa using ha
      have hs := driveItem_sound h hr
      cases he : driveItem d with
      | done d' =>
        rw [he] at hd hs
        obtain ⟨h', hr', hlt⟩ := hs
        obtain ⟨front, rest, u, e', hp, hne, hrun, hu, hraise⟩ := ih h' hr' (by omega) hd
        obtain ⟨pre, hpre⟩ := driveItem_suffix he
        have hnil : pre ≠ [] := by rintro rfl; rw [hpre, List.nil_append] at hlt; exact absurd hlt (Nat.lt_irrefl _)
        refine ⟨pre ++ front, rest, u, e', by rw [hpre, hp, List.append_assoc], hne, ?_, hu, hraise⟩
        have e1 : addPending d'.pending { d with pending := pre } = d := by simp only [addPending, ← hpre]
        obtain ⟨d₁, hd₁, hd', hnil₁⟩ := driveItem_cut (b := d'.pending) (d := { d with pending := pre }) (by rw [e1]; exact he) rfl
        have hx := driveItem_addPending front { d with pending := pre }
        rw [hd₁] at hx
        have hx : driveItem { d with pending := pre ++ front } = .done (addPending front d₁) := hx
        have e2 : addPending front d₁ = { d' with pending := front } := by rw [hd']; simp [addPending, hnil₁]
        have ha' : atRest { d with pending := pre ++ front } = false := by
          unfold atRest at ha ⊢
          simp only
          split
          · rfl
          · rfl
          all_goals simp [hnil]
        rw [drive_item ha', hx, e2]
        simp only
        have := List.length_pos_iff.mpr hnil
        rw [driveLoop_eq_drive (live front h') hr' (by simp only [List.length_append]; omega)]
        exact hrun
      | raise x d' =>
        rw [he] at hd
        cases hd
        refine ⟨[], d.pending, graft settle [] { d with pending := [] }, graft settle [] e, rfl, ?_, drive_nothing h.live rfl, rfl, ?_⟩
        · intro hp
          rw [driveItem_nothing h.live hp ha] at he
          simp at he
        · have hx := driveItem_extends unseen_settle [] d
          rw [he] at hx
          have e1 : addPending d.pending (graft settle [] { d with pending := [] }) = graft settle [] d := by
            simp [graft, addPending]
          rw [e1]
          exact hx
      | more => rw [he] at hd; simp at hd
      | fault f => rw [he] at hd; simp at hd

end Sys2Proof.Machine
end

