-- ==== Sys2Proof/Laws/Moves.lean ====
section
/-! SUPPORT. What one step may do to the two contexts, whoever issued it (R22, R68, R69, R385, R387). -/

namespace Sys2Proof.Machine

open Sys2Proof.Safety

/-- The code a command travels under (R117). -/
def codeOf (i : Instr) : Option Byte :=
  match encode i with
  | .stream _ => none
  | .command u => some u.code

theorem codeOf_encNew (b : Bool) (c : Option CustomTable) : codeOf (.encNew b c) = some 0x10 := by cases c <;> rfl

theorem decodeCommand_code {t : HostCmd} {i : Instr} (h : decodeCommand t = .ok i) : codeOf i = some t.code := by
  unfold decodeCommand at h
  dsimp only at h
  by_cases c : t.code = 0x01
  · rw [if_pos c] at h; rw [c, ← (acceptIf_ok h).1]; rfl
  rw [if_neg c] at h; clear c
  by_cases c : t.code = 0x02
  · rw [if_pos c] at h; rw [c, ← (acceptIf_ok h).1]; rfl
  rw [if_neg c] at h; clear c
  by_cases c : t.code = 0x03
  · rw [if_pos c] at h; rw [c, ← (acceptIf_ok h).1]; rfl
  rw [if_neg c] at h; clear c
  by_cases c : t.code = 0x04
  · rw [if_pos c] at h; rw [c, ← (acceptIf_ok h).1]; rfl
  rw [if_neg c] at h; clear c
  by_cases c : t.code = 0x05
  · rw [if_pos c] at h; rw [c, ← (acceptIf_ok h).1]; rfl
  rw [if_neg c] at h; clear c
  by_cases c : t.code = 0x06
  · rw [if_pos c] at h; rw [c, ← (acceptIf_ok h).1]; rfl
  rw [if_neg c] at h; clear c
  by_cases c : t.code = 0x07
  · rw [if_pos c] at h; rw [c, ← (acceptIf_ok h).1]; rfl
  rw [if_neg c] at h; clear c
  by_cases c : t.code = 0x10
  · rw [if_pos c] at h; rw [c, ← (acceptIf_ok h).1]; exact codeOf_encNew _ _
  rw [if_neg c] at h; clear c
  by_cases c : t.code = 0x11
  · rw [if_pos c] at h; rw [c, ← (acceptIf_ok h).1]; rfl
  rw [if_neg c] at h; clear c
  by_cases c : t.code = 0x12
  · rw [if_pos c] at h; rw [c, ← (acceptIf_ok h).1]; rfl
  rw [if_neg c] at h; clear c
  by_cases c : t.code = 0x13
  · rw [if_pos c] at h; rw [c, ← (acceptIf_ok h).1]; rfl
  rw [if_neg c] at h; clear c
  by_cases c : t.code = 0x14
  · rw [if_pos c] at h; rw [c, ← (acceptIf_ok h).1]; rfl
  rw [if_neg c] at h; clear c
  by_cases c : t.code = 0x15
  · rw [if_pos c] at h; rw [c, ← (acceptIf_ok h).1]; rfl
  rw [if_neg c] at h; clear c
  by_cases c : t.code = 0x16
  · rw [if_pos c] at h; rw [c, ← (acceptIf_ok h).1]; rfl
  rw [if_neg c] at h; clear c
  by_cases c : t.code = 0x17
  · rw [if_pos c] at h; rw [c, ← (acceptIf_ok h).1]; rfl
  rw [if_neg c] at h; clear c
  by_cases c : t.code = 0x18
  · rw [if_pos c] at h; rw [c, ← (acceptIf_ok h).1]; rfl
  rw [if_neg c] at h; clear c
  by_cases c : t.code = 0x19
  · rw [if_pos c] at h; rw [c, ← (acceptIf_ok h).1]; rfl
  rw [if_neg c] at h
  simp at h

/-- How the decoder may have moved in one step, the encoder and the rest as the step says. -/
inductive DecMove (s t : State) : Prop where
  | same (h : t.dec = s.dec)
  | session (h : Issues 0x01 s) (d : Bytes) (h' : t.dec = decNewSession d s.dec)
  | vcd (h : Issues 0x04 s) (b : Bool) (h' : t.dec = { s.dec with allowVcdTarget := b })
  | file (h : Issues 0x05 s) (b : DWord) (h' : t.dec = { s.dec with maxTargetFileSize := b })
  | win (h : Issues 0x06 s) (b : Word) (h' : t.dec = { s.dec with maxTargetWindowSize := b })
  | sec (h : Issues 0x07 s) (b : Word) (h' : t.dec = { s.dec with maxSectionSize := b })
  | ran (h : Delivers s.dec t.dec) (h1 : s.dec.state ≠ .poisoned) (h2 : t.dec.state ≠ .poisoned)
  | raised (c : Cause) (d : Dec) (h : Delivers s.dec d) (h1 : s.dec.state ≠ .poisoned) (h2 : t.dec = decRaise c d) (h3 : t.result = some (errOf c)) (h4 : t.enc = s.enc)

/-- How the encoder may have moved in one step. -/
inductive EncMove (s t : State) : Prop where
  | same (h : t.enc = s.enc)
  | new (h : Issues 0x10 s) (h' : ∃ e', t.enc = e' ∧ e'.sink = s.enc.sink)
  | failed (c : Cause) (h0 : s.enc.state ≠ .failed) (h : t.enc = encRaise c s.enc)
  | ran (h0 : s.enc.state ≠ .failed) (h : t.enc.interleaved = s.enc.interleaved ∧ t.enc.customTable = s.enc.customTable ∧ t.enc.maxMode = s.enc.maxMode ∧
     t.enc.cache.nearSize = s.enc.cache.nearSize ∧ t.enc.cache.sameSize = s.enc.cache.sameSize ∧ t.enc.etab = s.enc.etab)
     (h' : ∃ out, t.enc.sink = s.enc.sink ++ out ∧ (out ≠ [] → Issues 0x16 s ∨ Issues 0x17 s))

/-- The configuration only `ENC_NEW` writes (R22). -/
def EncKeeps (e e' : Enc) : Prop := e'.interleaved = e.interleaved ∧ e'.customTable = e.customTable ∧ e'.maxMode = e.maxMode ∧
     e'.cache.nearSize = e.cache.nearSize ∧ e'.cache.sameSize = e.cache.sameSize ∧ e'.etab = e.etab

theorem encMove_of {s t : State} {body : Enc → EncEnd} {rest : List HostCmd} (hb : encCommand { s with cmds := rest } body = .next t)
    (hk : ∀ e r, body s.enc = .ok e r → EncKeeps s.enc e ∧ ∃ out, e.sink = s.enc.sink ++ out ∧ (out ≠ [] → Issues 0x16 s ∨ Issues 0x17 s)) :
    EncMove s t ∧ t.dec = s.dec := by
  by_cases hf : s.enc.state = .failed
  · rw [encCommand_failed (s := { s with cmds := rest }) hf] at hb
    simp only [Host.Outcome.next.injEq] at hb; subst hb; exact ⟨.same rfl, rfl⟩
  · cases hx : body s.enc with
    | ok e r =>
      rw [encCommand_ok (s := { s with cmds := rest }) hf hx] at hb
      simp only [Host.Outcome.next.injEq] at hb; subst hb
      have := hk e r hx
      exact ⟨.ran hf this.1 this.2, rfl⟩
    | raise c =>
      rw [encCommand_raise (s := { s with cmds := rest }) hf hx] at hb
      simp only [Host.Outcome.next.injEq] at hb; subst hb
      exact ⟨.failed c hf rfl, rfl⟩

theorem whenReady_ok {b : EncEnd} {s : State} {e : Enc} {r : Result} (h : whenReady s.enc b = .ok e r) : b = .ok e r := by
  unfold whenReady at h; split at h
  · exact h
  · simp at h

theorem keeps_emit {e e' : Enc} {k : InstKind} {size mode : Nat} (h : encodeInstruction k size mode e = some e') :
   EncKeeps e e' ∧ e'.sink = e.sink ∧ e'.dictSize = e.dictSize := by
  have := encodeInstruction_frame h
  rw [this]; exact ⟨⟨rfl, rfl, rfl, rfl, rfl, rfl⟩, rfl, rfl⟩

theorem keeps_data {e e' : Enc} (n : Nat) (b : Bytes) (h : EncKeeps e e' ∧ e'.sink = e.sink) : EncKeeps e (growTarget n (appendData b e')) ∧ ∃ out, (growTarget n (appendData b e')).sink = e.sink ++ out ∧ out = [] := by
  unfold growTarget appendData
  split <;> exact ⟨h.1, [], by simp [h.2], rfl⟩

theorem keeps_addr {e e' : Enc} (n : Nat) (b : Bytes) (h : EncKeeps e e' ∧ e'.sink = e.sink) : EncKeeps e (growTarget n (appendAddress b e')) ∧ ∃ out, (growTarget n (appendAddress b e')).sink = e.sink ++ out ∧ out = [] := by
  unfold growTarget appendAddress
  split <;> exact ⟨h.1, [], by simp [h.2], rfl⟩

theorem endCommand_move {s s' t : State} {r : Run} {d0 : Dec} (h0 : s.dec.state ≠ .poisoned) (hd0 : Delivers s.dec d0) (h : r.All (Delivers d0)) (hdr : r.Drives)
    (hen : s'.enc = s.enc) (he : endCommand s' r = .next t) : DecMove s t ∧ t.enc = s'.enc := by
  cases r with
  | ok d =>
    simp [endCommand] at he; subst he
    have hd : Delivers _ _ := h
    exact ⟨.ran (hd0.trans hd) h0 (live_not_poisoned hdr.2.2), rfl⟩
  | raise c d =>
    simp [endCommand] at he; subst he
    have hd : Delivers _ _ := h
    exact ⟨.raised c d (hd0.trans hd) h0 rfl rfl hen, rfl⟩
  | fault f => simp [endCommand] at he

theorem delivers_addPending (b : Bytes) (d : Dec) : Delivers d (addPending b d) := .same rfl rfl rfl ⟨rfl, rfl⟩ ⟨rfl, rfl, rfl, rfl⟩

theorem command_move {s t : State} {c : HostCmd} {rest : List HostCmd} {i : Instr} (hi : Safety.Inv s) (hr : s.dec.replaying = false)
   (hc : s.cmds = c :: rest) (hd : decodeCommand c = .ok i) (he : exec i { s with cmds := rest } = .next t) : DecMove s t ∧ EncMove s t := by
  have hcode := decodeCommand_code hd
  have iss : ∀ {k : Byte}, codeOf i = some k → Issues k s := by
    intro k hk; rw [hcode] at hk; simp at hk; exact ⟨hr, c, rest, hc, hk⟩
  have enc : ∀ {body : Enc → EncEnd}, encCommand { s with cmds := rest } body = .next t → (∀ e r, body s.enc = .ok e r → EncKeeps s.enc e ∧ ∃ out, e.sink = s.enc.sink ++ out ∧ (out ≠ [] → Issues 0x16 s ∨ Issues 0x17 s)) →
      DecMove s t ∧ EncMove s t := fun h k => by
    have := encMove_of h k; exact ⟨.same this.2, this.1⟩
  have emp : ∀ {e : Enc} {P : Prop}, (EncKeeps s.enc e ∧ ∃ out, e.sink = s.enc.sink ++ out ∧ out = []) → EncKeeps s.enc e ∧ ∃ out, e.sink = s.enc.sink ++ out ∧ (out ≠ [] → P) := by
    rintro e P ⟨a, out, b, rfl⟩; exact ⟨a, [], b, fun h => absurd rfl h⟩
  have nowok := decodeCommand_ok hd
  cases i
  case decStart d =>
    rw [exec_decStart] at he; simp [execDecStart] at he; subst he
    exact ⟨.session (iss rfl) d rfl, .same rfl⟩
  case decChunk b =>
    by_cases hl : Live s.dec.state
    · have live := liveOk_addPending b (liveOk_of_decInv hi.1 hl)
      have he := (chunk_eq (s := { s with cmds := rest }) (d := s.dec) (b := b) hl).symm.trans he
      have := endCommand_move (live_not_poisoned hl) (delivers_addPending b s.dec) (drive_delivers live hr) (drive_sound live hr) (show ({ s with cmds := rest } : State).enc = s.enc from rfl) he
      exact ⟨this.1, .same this.2⟩
    · rw [exec_decChunk] at he
      unfold execDecChunk at he
      split at he <;> rename_i hs
      · simp at he; subst he; exact ⟨.same rfl, .same rfl⟩
      · simp at he; subst he; exact ⟨.same rfl, .same rfl⟩
      · simp at he; subst he; exact ⟨.same rfl, .same rfl⟩
      all_goals exact absurd (by simp [Live, show s.dec.state = _ from hs]) hl
  case decFinish =>
    rw [exec_decFinish] at he
    unfold execDecFinish at he
    split at he <;> rename_i hs
    · simp at he; subst he; exact ⟨.same rfl, .same rfl⟩
    · simp at he; subst he; exact ⟨.same rfl, .same rfl⟩
    · simp at he; subst he; exact ⟨.same rfl, .same rfl⟩
    all_goals
      have hs' : s.dec.state ≠ .poisoned := by rw [show s.dec.state = _ from hs]; simp
      split at he
      · simp at he; subst he
        exact ⟨.ran (.same rfl rfl rfl ⟨rfl, rfl⟩ ⟨rfl, rfl, rfl, rfl⟩) hs' (by simp), .same rfl⟩
      · simp at he; subst he
        exact ⟨.raised _ s.dec (.refl _) hs' rfl rfl rfl, .same rfl⟩
  case decSetAllowVcdTarget b => 
    have he : Host.Outcome.next _ = Host.Outcome.next t := he
    simp at he; subst he; exact ⟨.vcd (iss rfl) b rfl, .same rfl⟩
  case decSetMaxTargetFileSize b =>
    have he : Host.Outcome.next _ = Host.Outcome.next t := he
    simp at he; subst he; exact ⟨.file (iss rfl) b rfl, .same rfl⟩
  case decSetMaxTargetWindowSize b =>
    have he : Host.Outcome.next _ = Host.Outcome.next t := he
    simp at he; subst he; exact ⟨.win (iss rfl) b rfl, .same rfl⟩
  case decSetMaxSectionSize b =>
    have he : Host.Outcome.next _ = Host.Outcome.next t := he
    simp at he; subst he; exact ⟨.sec (iss rfl) b rfl, .same rfl⟩
  case encNew b cu =>
    rw [exec_encNew] at he; unfold execEncNew at he
    cases hq : encConfigure cu s.enc with
    | none =>
      simp only [hq] at he; simp at he; subst he
      exact ⟨.same rfl, .new (iss (codeOf_encNew _ _)) ⟨_, rfl, rfl⟩⟩
    | some e =>
      simp only [hq] at he; simp at he; subst he
      refine ⟨.same rfl, .new (iss (codeOf_encNew _ _)) ⟨_, rfl, ?_⟩⟩
      unfold encConfigure at hq
      split at hq
      · simp at hq; rw [← hq]
      · split at hq
        · simp at hq; rw [← hq]
        · simp at hq
  case encInit z =>
    rw [exec_encInit] at he
    refine enc he fun e r h => ?_
    simp at h; rw [← h.1]
    exact ⟨⟨rfl, rfl, rfl, rfl, rfl, rfl⟩, [], by simp, fun h => absurd rfl h⟩
  case encAdd n o l b =>
    rw [exec_encAdd] at he
    refine enc he fun e r h => ?_
    have h := whenReady_ok h
    repeat (split at h; · simp at h)
    rename_i e1 he1
    simp at h; rw [← h.1]
    have hk := keeps_emit he1
    exact emp (keeps_data l b ⟨hk.1, hk.2.1⟩)
  case encRun z b =>
    rw [exec_encRun] at he
    refine enc he fun e r h => ?_
    have h := whenReady_ok h
    repeat (split at h; · simp at h)
    rename_i e1 he1
    simp at h; rw [← h.1]
    have hk := keeps_emit he1
    exact emp (keeps_data _ _ ⟨hk.1, hk.2.1⟩)
  case encCopy o z =>
    rw [exec_encCopy] at he
    refine enc he fun e r h => ?_
    have h := whenReady_ok h
    repeat (split at h; · simp at h)
    dsimp only at h
    split at h
    · simp at h
    · rename_i e1 he1
      simp at h; rw [← h.1]
      have hk := keeps_emit he1
      obtain ⟨⟨a1, a2, a3, a4, a5, a6⟩, b1, -⟩ := hk
      refine emp (keeps_addr _ _ ⟨⟨a1, a2, a3, by rw [a4]; simp, by rw [a5]; simp, a6⟩, b1⟩)
  case encAddChecksum z =>
    rw [exec_encAddChecksum] at he
    refine enc he fun e r h => ?_
    have h := whenReady_ok h
    simp at h; rw [← h.1]
    exact ⟨⟨rfl, rfl, rfl, rfl, rfl, rfl⟩, [], by simp, fun h => absurd rfl h⟩
  case encOutput =>
    rw [exec_encOutput] at he
    refine enc he fun e r h => ?_
    have h := whenReady_ok h
    split at h
    · simp at h; rw [← h.1]
      exact ⟨⟨rfl, rfl, rfl, rfl, rfl, rfl⟩, [], by simp [encClearWindow], fun h => absurd rfl h⟩
    · split at h
      · simp at h
      · simp at h; rw [← h.1]
        exact ⟨⟨rfl, rfl, rfl, rfl, rfl, rfl⟩, _, rfl, fun _ => .inl (iss rfl)⟩
  case encWriteHeader b =>
    rw [exec_encWriteHeader] at he
    refine enc he fun e r h => ?_
    simp at h; rw [← h.1]
    exact ⟨⟨rfl, rfl, rfl, rfl, rfl, rfl⟩, _, rfl, fun _ => .inr (iss rfl)⟩
  case encTargetLength =>
    rw [exec_encTargetLength] at he
    refine enc he fun e r h => ?_
    simp at h; rw [← h.1]
    exact ⟨⟨rfl, rfl, rfl, rfl, rfl, rfl⟩, [], by simp, fun h => absurd rfl h⟩
  case encGetDeltaWindowSize =>
    rw [exec_encGetDeltaWindowSize] at he
    refine enc he fun e r h => ?_
    have h := whenReady_ok h
    simp at h; rw [← h.1]
    exact ⟨⟨rfl, rfl, rfl, rfl, rfl, rfl⟩, [], by simp, fun h => absurd rfl h⟩
  all_goals (exact absurd nowok.2 (by simp [opcodeOf, encode]))

theorem step_move {s t : State} (hi : Safety.Inv s) (he : step s = .next t) : DecMove s t ∧ EncMove s t := by
  unfold step fetch at he
  cases hr : s.dec.replaying with
  | false =>
    simp only [hr, Bool.false_eq_true, if_false] at he
    rcases fetchCommand_cases s with ⟨-, hf⟩ | ⟨c, rest, hc, ⟨i, hd, hf⟩ | hf | ⟨k, hf⟩⟩ <;> rw [hf] at he
    · simp at he; subst he; exact ⟨.same rfl, .same rfl⟩
    · exact command_move hi hr hc hd he
    · simp at he; subst he; exact ⟨.same rfl, .same rfl⟩
    · simp at he
  | true =>
    simp only [hr, if_true] at he
    have hw := windowLive_of_inv hi.1 hr
    have hnp := live_not_poisoned hw.session.live
    unfold fetchStream at he
    by_cases hlt : (activeWin s.dec).ip < (activeWin s.dec).instLen
    · rw [if_pos hlt] at he
      obtain ⟨op, hop⟩ := fetchOpcode_isSome hw.window.2.2.1 hlt
      rw [hop] at he
      simp only [exec_decodeOpcode] at he
      have r0 : Replayed s.dec (setIp ((activeWin s.dec).ip + 1) s.dec) := replayed_setIp (Nat.le_succ _)
      have hg := execGroup_replayed op (setIp ((activeWin s.dec).ip + 1) s.dec)
      unfold execOpcode at he
      cases hx : execGroup op (setIp ((activeWin s.dec).ip + 1) s.dec) with
      | ok d =>
        rw [hx] at hg; simp only [hx] at he; simp at he; subst he
        have r := r0.trans hg
        exact ⟨.ran (.of_replayed r) hnp (by show d.state ≠ _; rw [r.frame.2.2.1]; exact hnp), .same rfl⟩
      | raise c d =>
        rw [hx] at hg; simp only [hx] at he; simp at he; subst he
        exact ⟨.raised c d (.of_replayed (r0.trans hg)) hnp rfl rfl rfl, .same rfl⟩
      | fault f => simp only [hx] at he; simp at he
    · rw [if_neg hlt] at he
      simp only at he
      have := endCommand_move hnp (.refl _) (resumeDrive_delivers hw) (resumeDrive_sound hw) rfl he
      exact ⟨this.1, .same this.2⟩

end Sys2Proof.Machine
end

