-- ==== Sys2Proof/Laws/PerInstr.lean ====
section
/-! SUPPORT. One lemma per instruction: what its encoding is. -/

namespace Sys2Proof.Laws

/-- The format of an instruction: one opcode byte on the stream, which is always well-formed (R101, R113), or a transaction
with a code of R117. -/
def Format.Statement (i : Instr) : Prop :=
  match encode i with
  | .stream bytes => bytes.length = 1 ∧ i.wf = true
  | .command t => isCommandCode t.code = true

end Sys2Proof.Laws

namespace Sys2Proof.Laws.Format

theorem run : Statement .run := ⟨rfl, rfl⟩
theorem add : Statement .add := ⟨rfl, rfl⟩
theorem addS1 : Statement .addS1 := ⟨rfl, rfl⟩
theorem addS2 : Statement .addS2 := ⟨rfl, rfl⟩
theorem addS3 : Statement .addS3 := ⟨rfl, rfl⟩
theorem addS4 : Statement .addS4 := ⟨rfl, rfl⟩
theorem addS5 : Statement .addS5 := ⟨rfl, rfl⟩
theorem addS6 : Statement .addS6 := ⟨rfl, rfl⟩
theorem addS7 : Statement .addS7 := ⟨rfl, rfl⟩
theorem addS8 : Statement .addS8 := ⟨rfl, rfl⟩
theorem addS9 : Statement .addS9 := ⟨rfl, rfl⟩
theorem addS10 : Statement .addS10 := ⟨rfl, rfl⟩
theorem addS11 : Statement .addS11 := ⟨rfl, rfl⟩
theorem addS12 : Statement .addS12 := ⟨rfl, rfl⟩
theorem addS13 : Statement .addS13 := ⟨rfl, rfl⟩
theorem addS14 : Statement .addS14 := ⟨rfl, rfl⟩
theorem addS15 : Statement .addS15 := ⟨rfl, rfl⟩
theorem addS16 : Statement .addS16 := ⟨rfl, rfl⟩
theorem addS17 : Statement .addS17 := ⟨rfl, rfl⟩
theorem copyM0 : Statement .copyM0 := ⟨rfl, rfl⟩
theorem copyM0S4 : Statement .copyM0S4 := ⟨rfl, rfl⟩
theorem copyM0S5 : Statement .copyM0S5 := ⟨rfl, rfl⟩
theorem copyM0S6 : Statement .copyM0S6 := ⟨rfl, rfl⟩
theorem copyM0S7 : Statement .copyM0S7 := ⟨rfl, rfl⟩
theorem copyM0S8 : Statement .copyM0S8 := ⟨rfl, rfl⟩
theorem copyM0S9 : Statement .copyM0S9 := ⟨rfl, rfl⟩
theorem copyM0S10 : Statement .copyM0S10 := ⟨rfl, rfl⟩
theorem copyM0S11 : Statement .copyM0S11 := ⟨rfl, rfl⟩
theorem copyM0S12 : Statement .copyM0S12 := ⟨rfl, rfl⟩
theorem copyM0S13 : Statement .copyM0S13 := ⟨rfl, rfl⟩
theorem copyM0S14 : Statement .copyM0S14 := ⟨rfl, rfl⟩
theorem copyM0S15 : Statement .copyM0S15 := ⟨rfl, rfl⟩
theorem copyM0S16 : Statement .copyM0S16 := ⟨rfl, rfl⟩
theorem copyM0S17 : Statement .copyM0S17 := ⟨rfl, rfl⟩
theorem copyM0S18 : Statement .copyM0S18 := ⟨rfl, rfl⟩
theorem copyM1 : Statement .copyM1 := ⟨rfl, rfl⟩
theorem copyM1S4 : Statement .copyM1S4 := ⟨rfl, rfl⟩
theorem copyM1S5 : Statement .copyM1S5 := ⟨rfl, rfl⟩
theorem copyM1S6 : Statement .copyM1S6 := ⟨rfl, rfl⟩
theorem copyM1S7 : Statement .copyM1S7 := ⟨rfl, rfl⟩
theorem copyM1S8 : Statement .copyM1S8 := ⟨rfl, rfl⟩
theorem copyM1S9 : Statement .copyM1S9 := ⟨rfl, rfl⟩
theorem copyM1S10 : Statement .copyM1S10 := ⟨rfl, rfl⟩
theorem copyM1S11 : Statement .copyM1S11 := ⟨rfl, rfl⟩
theorem copyM1S12 : Statement .copyM1S12 := ⟨rfl, rfl⟩
theorem copyM1S13 : Statement .copyM1S13 := ⟨rfl, rfl⟩
theorem copyM1S14 : Statement .copyM1S14 := ⟨rfl, rfl⟩
theorem copyM1S15 : Statement .copyM1S15 := ⟨rfl, rfl⟩
theorem copyM1S16 : Statement .copyM1S16 := ⟨rfl, rfl⟩
theorem copyM1S17 : Statement .copyM1S17 := ⟨rfl, rfl⟩
theorem copyM1S18 : Statement .copyM1S18 := ⟨rfl, rfl⟩
theorem copyM2 : Statement .copyM2 := ⟨rfl, rfl⟩
theorem copyM2S4 : Statement .copyM2S4 := ⟨rfl, rfl⟩
theorem copyM2S5 : Statement .copyM2S5 := ⟨rfl, rfl⟩
theorem copyM2S6 : Statement .copyM2S6 := ⟨rfl, rfl⟩
theorem copyM2S7 : Statement .copyM2S7 := ⟨rfl, rfl⟩
theorem copyM2S8 : Statement .copyM2S8 := ⟨rfl, rfl⟩
theorem copyM2S9 : Statement .copyM2S9 := ⟨rfl, rfl⟩
theorem copyM2S10 : Statement .copyM2S10 := ⟨rfl, rfl⟩
theorem copyM2S11 : Statement .copyM2S11 := ⟨rfl, rfl⟩
theorem copyM2S12 : Statement .copyM2S12 := ⟨rfl, rfl⟩
theorem copyM2S13 : Statement .copyM2S13 := ⟨rfl, rfl⟩
theorem copyM2S14 : Statement .copyM2S14 := ⟨rfl, rfl⟩
theorem copyM2S15 : Statement .copyM2S15 := ⟨rfl, rfl⟩
theorem copyM2S16 : Statement .copyM2S16 := ⟨rfl, rfl⟩
theorem copyM2S17 : Statement .copyM2S17 := ⟨rfl, rfl⟩
theorem copyM2S18 : Statement .copyM2S18 := ⟨rfl, rfl⟩
theorem copyM3 : Statement .copyM3 := ⟨rfl, rfl⟩
theorem copyM3S4 : Statement .copyM3S4 := ⟨rfl, rfl⟩
theorem copyM3S5 : Statement .copyM3S5 := ⟨rfl, rfl⟩
theorem copyM3S6 : Statement .copyM3S6 := ⟨rfl, rfl⟩
theorem copyM3S7 : Statement .copyM3S7 := ⟨rfl, rfl⟩
theorem copyM3S8 : Statement .copyM3S8 := ⟨rfl, rfl⟩
theorem copyM3S9 : Statement .copyM3S9 := ⟨rfl, rfl⟩
theorem copyM3S10 : Statement .copyM3S10 := ⟨rfl, rfl⟩
theorem copyM3S11 : Statement .copyM3S11 := ⟨rfl, rfl⟩
theorem copyM3S12 : Statement .copyM3S12 := ⟨rfl, rfl⟩
theorem copyM3S13 : Statement .copyM3S13 := ⟨rfl, rfl⟩
theorem copyM3S14 : Statement .copyM3S14 := ⟨rfl, rfl⟩
theorem copyM3S15 : Statement .copyM3S15 := ⟨rfl, rfl⟩
theorem copyM3S16 : Statement .copyM3S16 := ⟨rfl, rfl⟩
theorem copyM3S17 : Statement .copyM3S17 := ⟨rfl, rfl⟩
theorem copyM3S18 : Statement .copyM3S18 := ⟨rfl, rfl⟩
theorem copyM4 : Statement .copyM4 := ⟨rfl, rfl⟩
theorem copyM4S4 : Statement .copyM4S4 := ⟨rfl, rfl⟩
theorem copyM4S5 : Statement .copyM4S5 := ⟨rfl, rfl⟩
theorem copyM4S6 : Statement .copyM4S6 := ⟨rfl, rfl⟩
theorem copyM4S7 : Statement .copyM4S7 := ⟨rfl, rfl⟩
theorem copyM4S8 : Statement .copyM4S8 := ⟨rfl, rfl⟩
theorem copyM4S9 : Statement .copyM4S9 := ⟨rfl, rfl⟩
theorem copyM4S10 : Statement .copyM4S10 := ⟨rfl, rfl⟩
theorem copyM4S11 : Statement .copyM4S11 := ⟨rfl, rfl⟩
theorem copyM4S12 : Statement .copyM4S12 := ⟨rfl, rfl⟩
theorem copyM4S13 : Statement .copyM4S13 := ⟨rfl, rfl⟩
theorem copyM4S14 : Statement .copyM4S14 := ⟨rfl, rfl⟩
theorem copyM4S15 : Statement .copyM4S15 := ⟨rfl, rfl⟩
theorem copyM4S16 : Statement .copyM4S16 := ⟨rfl, rfl⟩
theorem copyM4S17 : Statement .copyM4S17 := ⟨rfl, rfl⟩
theorem copyM4S18 : Statement .copyM4S18 := ⟨rfl, rfl⟩
theorem copyM5 : Statement .copyM5 := ⟨rfl, rfl⟩
theorem copyM5S4 : Statement .copyM5S4 := ⟨rfl, rfl⟩
theorem copyM5S5 : Statement .copyM5S5 := ⟨rfl, rfl⟩
theorem copyM5S6 : Statement .copyM5S6 := ⟨rfl, rfl⟩
theorem copyM5S7 : Statement .copyM5S7 := ⟨rfl, rfl⟩
theorem copyM5S8 : Statement .copyM5S8 := ⟨rfl, rfl⟩
theorem copyM5S9 : Statement .copyM5S9 := ⟨rfl, rfl⟩
theorem copyM5S10 : Statement .copyM5S10 := ⟨rfl, rfl⟩
theorem copyM5S11 : Statement .copyM5S11 := ⟨rfl, rfl⟩
theorem copyM5S12 : Statement .copyM5S12 := ⟨rfl, rfl⟩
theorem copyM5S13 : Statement .copyM5S13 := ⟨rfl, rfl⟩
theorem copyM5S14 : Statement .copyM5S14 := ⟨rfl, rfl⟩
theorem copyM5S15 : Statement .copyM5S15 := ⟨rfl, rfl⟩
theorem copyM5S16 : Statement .copyM5S16 := ⟨rfl, rfl⟩
theorem copyM5S17 : Statement .copyM5S17 := ⟨rfl, rfl⟩
theorem copyM5S18 : Statement .copyM5S18 := ⟨rfl, rfl⟩
theorem copyM6 : Statement .copyM6 := ⟨rfl, rfl⟩
theorem copyM6S4 : Statement .copyM6S4 := ⟨rfl, rfl⟩
theorem copyM6S5 : Statement .copyM6S5 := ⟨rfl, rfl⟩
theorem copyM6S6 : Statement .copyM6S6 := ⟨rfl, rfl⟩
theorem copyM6S7 : Statement .copyM6S7 := ⟨rfl, rfl⟩
theorem copyM6S8 : Statement .copyM6S8 := ⟨rfl, rfl⟩
theorem copyM6S9 : Statement .copyM6S9 := ⟨rfl, rfl⟩
theorem copyM6S10 : Statement .copyM6S10 := ⟨rfl, rfl⟩
theorem copyM6S11 : Statement .copyM6S11 := ⟨rfl, rfl⟩
theorem copyM6S12 : Statement .copyM6S12 := ⟨rfl, rfl⟩
theorem copyM6S13 : Statement .copyM6S13 := ⟨rfl, rfl⟩
theorem copyM6S14 : Statement .copyM6S14 := ⟨rfl, rfl⟩
theorem copyM6S15 : Statement .copyM6S15 := ⟨rfl, rfl⟩
theorem copyM6S16 : Statement .copyM6S16 := ⟨rfl, rfl⟩
theorem copyM6S17 : Statement .copyM6S17 := ⟨rfl, rfl⟩
theorem copyM6S18 : Statement .copyM6S18 := ⟨rfl, rfl⟩
theorem copyM7 : Statement .copyM7 := ⟨rfl, rfl⟩
theorem copyM7S4 : Statement .copyM7S4 := ⟨rfl, rfl⟩
theorem copyM7S5 : Statement .copyM7S5 := ⟨rfl, rfl⟩
theorem copyM7S6 : Statement .copyM7S6 := ⟨rfl, rfl⟩
theorem copyM7S7 : Statement .copyM7S7 := ⟨rfl, rfl⟩
theorem copyM7S8 : Statement .copyM7S8 := ⟨rfl, rfl⟩
theorem copyM7S9 : Statement .copyM7S9 := ⟨rfl, rfl⟩
theorem copyM7S10 : Statement .copyM7S10 := ⟨rfl, rfl⟩
theorem copyM7S11 : Statement .copyM7S11 := ⟨rfl, rfl⟩
theorem copyM7S12 : Statement .copyM7S12 := ⟨rfl, rfl⟩
theorem copyM7S13 : Statement .copyM7S13 := ⟨rfl, rfl⟩
theorem copyM7S14 : Statement .copyM7S14 := ⟨rfl, rfl⟩
theorem copyM7S15 : Statement .copyM7S15 := ⟨rfl, rfl⟩
theorem copyM7S16 : Statement .copyM7S16 := ⟨rfl, rfl⟩
theorem copyM7S17 : Statement .copyM7S17 := ⟨rfl, rfl⟩
theorem copyM7S18 : Statement .copyM7S18 := ⟨rfl, rfl⟩
theorem copyM8 : Statement .copyM8 := ⟨rfl, rfl⟩
theorem copyM8S4 : Statement .copyM8S4 := ⟨rfl, rfl⟩
theorem copyM8S5 : Statement .copyM8S5 := ⟨rfl, rfl⟩
theorem copyM8S6 : Statement .copyM8S6 := ⟨rfl, rfl⟩
theorem copyM8S7 : Statement .copyM8S7 := ⟨rfl, rfl⟩
theorem copyM8S8 : Statement .copyM8S8 := ⟨rfl, rfl⟩
theorem copyM8S9 : Statement .copyM8S9 := ⟨rfl, rfl⟩
theorem copyM8S10 : Statement .copyM8S10 := ⟨rfl, rfl⟩
theorem copyM8S11 : Statement .copyM8S11 := ⟨rfl, rfl⟩
theorem copyM8S12 : Statement .copyM8S12 := ⟨rfl, rfl⟩
theorem copyM8S13 : Statement .copyM8S13 := ⟨rfl, rfl⟩
theorem copyM8S14 : Statement .copyM8S14 := ⟨rfl, rfl⟩
theorem copyM8S15 : Statement .copyM8S15 := ⟨rfl, rfl⟩
theorem copyM8S16 : Statement .copyM8S16 := ⟨rfl, rfl⟩
theorem copyM8S17 : Statement .copyM8S17 := ⟨rfl, rfl⟩
theorem copyM8S18 : Statement .copyM8S18 := ⟨rfl, rfl⟩
theorem addS1CopyM0S4 : Statement .addS1CopyM0S4 := ⟨rfl, rfl⟩
theorem addS1CopyM0S5 : Statement .addS1CopyM0S5 := ⟨rfl, rfl⟩
theorem addS1CopyM0S6 : Statement .addS1CopyM0S6 := ⟨rfl, rfl⟩
theorem addS2CopyM0S4 : Statement .addS2CopyM0S4 := ⟨rfl, rfl⟩
theorem addS2CopyM0S5 : Statement .addS2CopyM0S5 := ⟨rfl, rfl⟩
theorem addS2CopyM0S6 : Statement .addS2CopyM0S6 := ⟨rfl, rfl⟩
theorem addS3CopyM0S4 : Statement .addS3CopyM0S4 := ⟨rfl, rfl⟩
theorem addS3CopyM0S5 : Statement .addS3CopyM0S5 := ⟨rfl, rfl⟩
theorem addS3CopyM0S6 : Statement .addS3CopyM0S6 := ⟨rfl, rfl⟩
theorem addS4CopyM0S4 : Statement .addS4CopyM0S4 := ⟨rfl, rfl⟩
theorem addS4CopyM0S5 : Statement .addS4CopyM0S5 := ⟨rfl, rfl⟩
theorem addS4CopyM0S6 : Statement .addS4CopyM0S6 := ⟨rfl, rfl⟩
theorem addS1CopyM1S4 : Statement .addS1CopyM1S4 := ⟨rfl, rfl⟩
theorem addS1CopyM1S5 : Statement .addS1CopyM1S5 := ⟨rfl, rfl⟩
theorem addS1CopyM1S6 : Statement .addS1CopyM1S6 := ⟨rfl, rfl⟩
theorem addS2CopyM1S4 : Statement .addS2CopyM1S4 := ⟨rfl, rfl⟩
theorem addS2CopyM1S5 : Statement .addS2CopyM1S5 := ⟨rfl, rfl⟩
theorem addS2CopyM1S6 : Statement .addS2CopyM1S6 := ⟨rfl, rfl⟩
theorem addS3CopyM1S4 : Statement .addS3CopyM1S4 := ⟨rfl, rfl⟩
theorem addS3CopyM1S5 : Statement .addS3CopyM1S5 := ⟨rfl, rfl⟩
theorem addS3CopyM1S6 : Statement .addS3CopyM1S6 := ⟨rfl, rfl⟩
theorem addS4CopyM1S4 : Statement .addS4CopyM1S4 := ⟨rfl, rfl⟩
theorem addS4CopyM1S5 : Statement .addS4CopyM1S5 := ⟨rfl, rfl⟩
theorem addS4CopyM1S6 : Statement .addS4CopyM1S6 := ⟨rfl, rfl⟩
theorem addS1CopyM2S4 : Statement .addS1CopyM2S4 := ⟨rfl, rfl⟩
theorem addS1CopyM2S5 : Statement .addS1CopyM2S5 := ⟨rfl, rfl⟩
theorem addS1CopyM2S6 : Statement .addS1CopyM2S6 := ⟨rfl, rfl⟩
theorem addS2CopyM2S4 : Statement .addS2CopyM2S4 := ⟨rfl, rfl⟩
theorem addS2CopyM2S5 : Statement .addS2CopyM2S5 := ⟨rfl, rfl⟩
theorem addS2CopyM2S6 : Statement .addS2CopyM2S6 := ⟨rfl, rfl⟩
theorem addS3CopyM2S4 : Statement .addS3CopyM2S4 := ⟨rfl, rfl⟩
theorem addS3CopyM2S5 : Statement .addS3CopyM2S5 := ⟨rfl, rfl⟩
theorem addS3CopyM2S6 : Statement .addS3CopyM2S6 := ⟨rfl, rfl⟩
theorem addS4CopyM2S4 : Statement .addS4CopyM2S4 := ⟨rfl, rfl⟩
theorem addS4CopyM2S5 : Statement .addS4CopyM2S5 := ⟨rfl, rfl⟩
theorem addS4CopyM2S6 : Statement .addS4CopyM2S6 := ⟨rfl, rfl⟩
theorem addS1CopyM3S4 : Statement .addS1CopyM3S4 := ⟨rfl, rfl⟩
theorem addS1CopyM3S5 : Statement .addS1CopyM3S5 := ⟨rfl, rfl⟩
theorem addS1CopyM3S6 : Statement .addS1CopyM3S6 := ⟨rfl, rfl⟩
theorem addS2CopyM3S4 : Statement .addS2CopyM3S4 := ⟨rfl, rfl⟩
theorem addS2CopyM3S5 : Statement .addS2CopyM3S5 := ⟨rfl, rfl⟩
theorem addS2CopyM3S6 : Statement .addS2CopyM3S6 := ⟨rfl, rfl⟩
theorem addS3CopyM3S4 : Statement .addS3CopyM3S4 := ⟨rfl, rfl⟩
theorem addS3CopyM3S5 : Statement .addS3CopyM3S5 := ⟨rfl, rfl⟩
theorem addS3CopyM3S6 : Statement .addS3CopyM3S6 := ⟨rfl, rfl⟩
theorem addS4CopyM3S4 : Statement .addS4CopyM3S4 := ⟨rfl, rfl⟩
theorem addS4CopyM3S5 : Statement .addS4CopyM3S5 := ⟨rfl, rfl⟩
theorem addS4CopyM3S6 : Statement .addS4CopyM3S6 := ⟨rfl, rfl⟩
theorem addS1CopyM4S4 : Statement .addS1CopyM4S4 := ⟨rfl, rfl⟩
theorem addS1CopyM4S5 : Statement .addS1CopyM4S5 := ⟨rfl, rfl⟩
theorem addS1CopyM4S6 : Statement .addS1CopyM4S6 := ⟨rfl, rfl⟩
theorem addS2CopyM4S4 : Statement .addS2CopyM4S4 := ⟨rfl, rfl⟩
theorem addS2CopyM4S5 : Statement .addS2CopyM4S5 := ⟨rfl, rfl⟩
theorem addS2CopyM4S6 : Statement .addS2CopyM4S6 := ⟨rfl, rfl⟩
theorem addS3CopyM4S4 : Statement .addS3CopyM4S4 := ⟨rfl, rfl⟩
theorem addS3CopyM4S5 : Statement .addS3CopyM4S5 := ⟨rfl, rfl⟩
theorem addS3CopyM4S6 : Statement .addS3CopyM4S6 := ⟨rfl, rfl⟩
theorem addS4CopyM4S4 : Statement .addS4CopyM4S4 := ⟨rfl, rfl⟩
theorem addS4CopyM4S5 : Statement .addS4CopyM4S5 := ⟨rfl, rfl⟩
theorem addS4CopyM4S6 : Statement .addS4CopyM4S6 := ⟨rfl, rfl⟩
theorem addS1CopyM5S4 : Statement .addS1CopyM5S4 := ⟨rfl, rfl⟩
theorem addS1CopyM5S5 : Statement .addS1CopyM5S5 := ⟨rfl, rfl⟩
theorem addS1CopyM5S6 : Statement .addS1CopyM5S6 := ⟨rfl, rfl⟩
theorem addS2CopyM5S4 : Statement .addS2CopyM5S4 := ⟨rfl, rfl⟩
theorem addS2CopyM5S5 : Statement .addS2CopyM5S5 := ⟨rfl, rfl⟩
theorem addS2CopyM5S6 : Statement .addS2CopyM5S6 := ⟨rfl, rfl⟩
theorem addS3CopyM5S4 : Statement .addS3CopyM5S4 := ⟨rfl, rfl⟩
theorem addS3CopyM5S5 : Statement .addS3CopyM5S5 := ⟨rfl, rfl⟩
theorem addS3CopyM5S6 : Statement .addS3CopyM5S6 := ⟨rfl, rfl⟩
theorem addS4CopyM5S4 : Statement .addS4CopyM5S4 := ⟨rfl, rfl⟩
theorem addS4CopyM5S5 : Statement .addS4CopyM5S5 := ⟨rfl, rfl⟩
theorem addS4CopyM5S6 : Statement .addS4CopyM5S6 := ⟨rfl, rfl⟩
theorem addS1CopyM6S4 : Statement .addS1CopyM6S4 := ⟨rfl, rfl⟩
theorem addS2CopyM6S4 : Statement .addS2CopyM6S4 := ⟨rfl, rfl⟩
theorem addS3CopyM6S4 : Statement .addS3CopyM6S4 := ⟨rfl, rfl⟩
theorem addS4CopyM6S4 : Statement .addS4CopyM6S4 := ⟨rfl, rfl⟩
theorem addS1CopyM7S4 : Statement .addS1CopyM7S4 := ⟨rfl, rfl⟩
theorem addS2CopyM7S4 : Statement .addS2CopyM7S4 := ⟨rfl, rfl⟩
theorem addS3CopyM7S4 : Statement .addS3CopyM7S4 := ⟨rfl, rfl⟩
theorem addS4CopyM7S4 : Statement .addS4CopyM7S4 := ⟨rfl, rfl⟩
theorem addS1CopyM8S4 : Statement .addS1CopyM8S4 := ⟨rfl, rfl⟩
theorem addS2CopyM8S4 : Statement .addS2CopyM8S4 := ⟨rfl, rfl⟩
theorem addS3CopyM8S4 : Statement .addS3CopyM8S4 := ⟨rfl, rfl⟩
theorem addS4CopyM8S4 : Statement .addS4CopyM8S4 := ⟨rfl, rfl⟩
theorem copyM0S4AddS1 : Statement .copyM0S4AddS1 := ⟨rfl, rfl⟩
theorem copyM1S4AddS1 : Statement .copyM1S4AddS1 := ⟨rfl, rfl⟩
theorem copyM2S4AddS1 : Statement .copyM2S4AddS1 := ⟨rfl, rfl⟩
theorem copyM3S4AddS1 : Statement .copyM3S4AddS1 := ⟨rfl, rfl⟩
theorem copyM4S4AddS1 : Statement .copyM4S4AddS1 := ⟨rfl, rfl⟩
theorem copyM5S4AddS1 : Statement .copyM5S4AddS1 := ⟨rfl, rfl⟩
theorem copyM6S4AddS1 : Statement .copyM6S4AddS1 := ⟨rfl, rfl⟩
theorem copyM7S4AddS1 : Statement .copyM7S4AddS1 := ⟨rfl, rfl⟩
theorem copyM8S4AddS1 : Statement .copyM8S4AddS1 := ⟨rfl, rfl⟩
theorem decStart (dictionary : Bytes) : Statement (.decStart dictionary) := by rfl
theorem decChunk (chunk : Bytes) : Statement (.decChunk chunk) := by rfl
theorem decFinish : Statement .decFinish := by rfl
theorem decSetAllowVcdTarget (allow : Bool) : Statement (.decSetAllowVcdTarget allow) := by rfl
theorem decSetMaxTargetFileSize (cap : DWord) : Statement (.decSetMaxTargetFileSize cap) := by rfl
theorem decSetMaxTargetWindowSize (cap : Word) : Statement (.decSetMaxTargetWindowSize cap) := by rfl
theorem decSetMaxSectionSize (cap : Word) : Statement (.decSetMaxSectionSize cap) := by rfl
theorem encNew (interleaved : Bool) (custom : Option CustomTable) :
    Statement (.encNew interleaved custom) := by cases custom <;> rfl
theorem encInit (dictionarySize : Word) : Statement (.encInit dictionarySize) := by rfl
theorem encAdd (n : Nat) (offset : Nat) (len : Nat) (bytes : Bytes) : Statement (.encAdd n offset len bytes) := by rfl
theorem encRun (size : Word) (byte : Byte) : Statement (.encRun size byte) := by rfl
theorem encCopy (offset : Word) (size : Word) : Statement (.encCopy offset size) := by rfl
theorem encAddChecksum (checksum : Word) : Statement (.encAddChecksum checksum) := by rfl
theorem encOutput : Statement .encOutput := by rfl
theorem encWriteHeader (extensions : Bool) : Statement (.encWriteHeader extensions) := by rfl
theorem encTargetLength : Statement .encTargetLength := by rfl
theorem encGetDeltaWindowSize : Statement .encGetDeltaWindowSize := by rfl

end Sys2Proof.Laws.Format
end

