-- ==== Sys2Proof/Laws/Rows.lean ====
section
/-! SUPPORT. A row of a code table as the two effects of Safety.lean: each half goes on, raises or stops exactly as its rule says,
whatever the table (R260). -/

namespace Sys2Proof.Machine

open Sys2Proof.Safety

/-- A rule of the replay as the answer of an instruction (R385). -/
def Run.answer (s : State) : Run → Host.Outcome State Fault Refusal
  | .ok d => .next { s with dec := d }
  | .raise c d => .next { s with dec := decRaise c d, result := some (errOf c) }
  | .fault f => .fault f

theorem execOpcode_answer (op : Byte) (s : State) : execOpcode op s = (execGroup op s.dec).answer s := by
  unfold execOpcode Run.answer; cases execGroup op s.dec <;> rfl

/-- What a raise leaves does not depend on how far the window had got, but for the lint flag (R385). -/
theorem Replayed.decRaise_eq {d d' : Dec} (h : Replayed d d') (c : Cause) :
    decRaise c d' = decRaise c { d with lintAddAdd := d'.lintAddAdd } := by
  have e := h.eq
  obtain ⟨o1, o2, o3, o4, o5⟩ := h.outer
  cases hn : d.nested with
  | none =>
    rw [setActive_of_none _ _ (show ({ d with lintAddAdd := d'.lintAddAdd } : Dec).nested = none from hn)] at e
    rw [e]
    have hn' : d'.nested = none := by have := h.nested_isSome; rw [hn] at this; simpa using this
    have hc : activeCtx d' = d'.ctx := activeCtx_of_none _ hn'
    unfold decRaise freedCache
    simp only [hc, o1, o2, o3, o4, o5]
  | some n =>
    rw [setActive_of_some _ { d with lintAddAdd := d'.lintAddAdd } n hn] at e
    rw [e]
    rfl

theorem Replayed.raised_eq {s : State} {d' : Dec} (h : Replayed s.dec d') (c : Cause) :
    (Run.raise c d').answer s = .next (raised c d'.lintAddAdd s) := by
  show Host.Outcome.next { s with dec := decRaise c d', result := some (errOf c) } = _
  rw [h.decRaise_eq c]
  rfl

/-! ## The raising branches -/

theorem execSized_overrun {k : InstKind} {n m : Nat} {d : Dec} (h : (activeWin d).targetLen < (activeCtx d).tw.length + n) :
    execSized k n m d = .raise .targetOverrun d := by
  unfold execSized; rw [if_pos h]

theorem execSized_add_short {n m : Nat} {d : Dec} (hw : WindowOk d) (ht : (activeCtx d).tw.length + n ≤ (activeWin d).targetLen)
    (hs : (dataBytes d).length < n) : execSized .add n m d = .raise .sectionOverrun (lint .add d) := by
  have hl := windowOk_lengths hw.2.2.1
  unfold execSized
  rw [if_neg (Nat.not_lt.mpr ht)]
  simp only
  unfold halfAdd readData
  rw [dataStream_lint, if_pos]
  rw [dataBytes_eq, List.length_drop] at hs
  unfold dataStream instStream at *
  split <;> simp_all <;> omega

theorem execSized_run_short {n m : Nat} {d : Dec} (hw : WindowOk d) (ht : (activeCtx d).tw.length + n ≤ (activeWin d).targetLen)
    (hs : dataBytes d = []) : execSized .run n m d = .raise .sectionOverrun (lint .run d) := by
  have hl := windowOk_lengths hw.2.2.1
  unfold execSized
  rw [if_neg (Nat.not_lt.mpr ht)]
  simp only
  unfold halfRun readDataByte
  rw [dataStream_lint]
  have hr : byteRead (dataStream d).space (dataStream d).cur (dataStream d).lim = .needMore := by
    unfold byteRead
    have hs' := congrArg List.length hs
    rw [dataBytes_eq, List.length_drop, List.length_nil] at hs'
    rw [if_pos]
    unfold dataStream instStream at *
    split <;> simp_all <;> omega
  rw [hr]

theorem execSized_copy_read {n m : Nat} {d : Dec} (ht : (activeCtx d).tw.length + n ≤ (activeWin d).targetLen) :
    execSized .copy n m d =
      match decodedAddress m d with
      | .needMore => .raise .sectionOverrun (lint .copy d)
      | .error e => .raise (sectionCause e) (lint .copy d)
      | .noEntry => .fault .noSuchCacheEntry
      | .value addr cur cache => copyLoop n addr (setCache cache (setAddrCur cur (lint .copy d))) := by
  unfold execSized
  rw [if_neg (Nat.not_lt.mpr ht)]
  simp only
  unfold halfCopy readAddress
  rw [addrStream_lint, hereOf_lint, activeCtx_lint_call, decodedAddress_eq]
  all_goals (split <;> rename_i h <;> simp only [h])

theorem lintAddAdd_lint (k : InstKind) (d : Dec) : (lint k d).lintAddAdd = lintAfter k d := by
  rw [lint_eq]; simp [lintAfter]

/-- A mode above those of the cache has no entry, so a COPY that goes on has one. -/
theorem acDecode_mode {c c' : AddrCache} (hc : CacheOk c) {here mode addr cur cur' lim : Nat} {src : Bytes}
    (h : acDecode c here mode src cur lim = .value addr cur' c') : mode ≤ 1 + c.nearSize + c.sameSize := by
  unfold acDecode at h
  split at h
  · omega
  · split at h
    · simp at h
    · simp at h
    · unfold acDecodeSame at h
      split at h
      · simp at h
      · rename_i b _ _ _ hs
        have := (List.getElem?_eq_some_iff.mp hs).1
        rw [hc.2.1] at this
        apply Decidable.byContradiction
        intro hm
        have : c.sameSize * 256 ≤ (mode - 2 - c.nearSize) * 256 := Nat.mul_le_mul_right _ (by omega)
        omega

/-- An instruction that goes on leaves a good window. -/
theorem execSized_windowOk {k : InstKind} {n m : Nat} {d d' : Dec} (h : WindowOk d) (he : execSized k n m d = .ok d') :
    WindowOk d' := by
  by_cases hm : k = .copy → m ≤ 1 + (activeCtx d).cache.nearSize + (activeCtx d).cache.sameSize
  · have := execSized_sound h hm (n := n)
    rw [he] at this
    exact this
  · have hk : k = .copy := Decidable.byContradiction fun hne => hm fun hc => absurd hc hne
    subst hk
    by_cases ht : (activeWin d).targetLen < (activeCtx d).tw.length + n
    · rw [execSized_overrun ht] at he; simp at he
    · rw [execSized_copy_read (Nat.not_lt.mp ht)] at he
      split at he
      · simp at he
      · simp at he
      · simp at he
      · rename_i hv
        rw [decodedAddress_eq] at hv
        exact absurd (fun _ => acDecode_mode h.1 hv) hm

/-! ## Effects -/

theorem andThen_raise_answer {s : State} {d : Dec} (c : Cause) (k : Dec → Run) (h : Replayed s.dec d) :
    ((Run.raise c d).andThen k).answer s = .next (raised c d.lintAddAdd s) := h.raised_eq c

/-- ADD (R264), then the rest of the group. -/
theorem addEffect_of {s : State} {d : Dec} {n m : Nat} {k : Dec → Prop} (r : Replayed s.dec d) (hw : WindowOk d)
    (rest : Dec → Run)
    (hk : ∀ d', Replayed s.dec d' → WindowOk d' →
      ((execSized .add n m d).andThen rest).answer s = (rest d').answer s → k d') :
    AddEffect n s d (((execSized .add n m d).andThen rest).answer s) k := by
  refine ⟨fun h => ?_, fun h1 h2 => ?_, fun h1 h2 => ?_⟩
  · rw [execSized_overrun h]; exact andThen_raise_answer _ _ r
  · rw [execSized_add_short hw h1 h2, andThen_raise_answer _ _ (r.trans (replayed_lint _ _)), lintAddAdd_lint]
  · have he : execSized .add n m d = .ok (afterAdd n d) :=
      execSized_add ⟨h1, hw.2.2.1, h2, hw.2.2.2.1, hw.2.2.2.2.1⟩
    have ha := execSized_replayed .add n m d
    rw [he] at ha
    refine hk _ (r.trans ha) (execSized_windowOk hw he) ?_
    rw [he]; rfl

/-- RUN (R265), then the rest of the group. -/
theorem runEffect_of {s : State} {d : Dec} {n m : Nat} {k : Dec → Prop} (r : Replayed s.dec d) (hw : WindowOk d)
    (rest : Dec → Run)
    (hk : ∀ d', Replayed s.dec d' → WindowOk d' →
      ((execSized .run n m d).andThen rest).answer s = (rest d').answer s → k d') :
    RunEffect n s d (((execSized .run n m d).andThen rest).answer s) k := by
  refine ⟨fun h => ?_, fun h1 h2 => ?_, fun h1 b tl h2 => ?_⟩
  · rw [execSized_overrun h]; exact andThen_raise_answer _ _ r
  · rw [execSized_run_short hw h1 h2, andThen_raise_answer _ _ (r.trans (replayed_lint _ _)), lintAddAdd_lint]
    rw [show lintAfter .run d = d.lintAddAdd by
      unfold lintAfter; cases d.lintAddAdd <;> rfl]
  · have he : execSized .run n m d = .ok (afterRun n b d) :=
      execSized_run ⟨h1, hw.2.2.1, by rw [h2]; simp, hw.2.2.2.1, hw.2.2.2.2.1⟩ (by rw [h2]; rfl)
    have ha := execSized_replayed .run n m d
    rw [he] at ha
    refine hk _ (r.trans ha) (execSized_windowOk hw he) ?_
    rw [he]; rfl

/-- COPY (R266), then the rest of the group. -/
theorem copyEffect_of {s : State} {d : Dec} {n m : Nat} {k : Dec → Prop} (r : Replayed s.dec d) (hw : WindowOk d)
    (rest : Dec → Run)
    (hk : ∀ d', Replayed s.dec d' → WindowOk d' →
      ((execSized .copy n m d).andThen rest).answer s = (rest d').answer s → k d') :
    CopyEffect n m s d (((execSized .copy n m d).andThen rest).answer s) k := by
  have hl : lintAfter .copy d = d.lintAddAdd := by simp [lintAfter]
  refine ⟨fun h => ?_, fun h1 h2 => ?_, fun h1 e h2 => ?_, fun h1 h2 => ?_, fun h1 addr cur cache h2 => ?_⟩
  · rw [execSized_overrun h]; exact andThen_raise_answer _ _ r
  · rw [execSized_copy_read h1, h2]
    simp only
    rw [andThen_raise_answer _ _ (r.trans (replayed_lint _ _)), lintAddAdd_lint, hl]
  · rw [execSized_copy_read h1, h2]
    simp only
    rw [andThen_raise_answer _ _ (r.trans (replayed_lint _ _)), lintAddAdd_lint, hl]
  · rw [execSized_copy_read h1, h2]; rfl
  · obtain ⟨out, ho, he⟩ := execSized_copy (n := n) (m := m) ⟨h1, hw.2.1, h2⟩
    have ha := execSized_replayed .copy n m d
    rw [he] at ha
    refine ⟨out, ho, hk _ (r.trans ha) (execSized_windowOk hw he) ?_⟩
    rw [he]; rfl

/-- The explicit size (R262), then the rest of the half and of the group. -/
theorem sizeEffect_of {s : State} {d : Dec} {k : Nat → Dec → Prop} (r : Replayed s.dec d) (hw : WindowOk d)
    (body : Nat → Dec → Run) (rest : Dec → Run)
    (hk : ∀ n d', Replayed s.dec d' → WindowOk d' →
      ((readSize d body).andThen rest).answer s = ((body n d').andThen rest).answer s → k n d') :
    SizeEffect s d (((readSize d body).andThen rest).answer s) k := by
  refine ⟨fun h => ?_, fun h => ?_, fun n cur h => ?_⟩
  · unfold readSize; rw [h]; exact andThen_raise_answer _ _ r
  · unfold readSize; rw [h]; exact andThen_raise_answer _ _ r
  · have hv := viRead_value h
    refine hk n _ (r.trans (replayed_setIp (Nat.le_of_lt hv.1))) (windowOk_setIp hw (Nat.le_of_lt hv.1) hv.2.1) ?_
    rw [readSize_eq h]

/-- One half of any row (R260), then the rest of the group. -/
theorem halfEffect_of {s : State} {d : Dec} {h : Half} {k : Dec → Prop} (r : Replayed s.dec d) (hw : WindowOk d)
    (rest : Dec → Run)
    (hk : ∀ d', Replayed s.dec d' → WindowOk d' →
      ((execHalf h d).andThen rest).answer s = (rest d').answer s → k d') :
    HalfEffect h s d (((execHalf h d).andThen rest).answer s) k := by
  unfold HalfEffect
  unfold execHalf at hk ⊢
  cases hi : instKind h.inst with
  | none => rfl
  | some kind =>
    rw [hi] at hk
    cases kind with
    | noop => exact hk d r hw rfl
    | add =>
      simp only at hk ⊢
      split
      · rename_i hz
        simp only [hz, if_true] at hk
        refine sizeEffect_of r hw _ rest fun n d' r' hw' e => ?_
        rw [e]
        exact addEffect_of r' hw' rest fun d'' r'' hw'' e' => hk d'' r'' hw'' (e.trans e')
      · rename_i hz
        simp only [hz, if_false] at hk
        exact addEffect_of r hw rest hk
    | run =>
      simp only at hk ⊢
      split
      · rename_i hz
        simp only [hz, if_true] at hk
        refine sizeEffect_of r hw _ rest fun n d' r' hw' e => ?_
        rw [e]
        exact runEffect_of r' hw' rest fun d'' r'' hw'' e' => hk d'' r'' hw'' (e.trans e')
      · rename_i hz
        simp only [hz, if_false] at hk
        exact runEffect_of r hw rest hk
    | copy =>
      simp only at hk ⊢
      split
      · rename_i hz
        simp only [hz, if_true] at hk
        refine sizeEffect_of r hw _ rest fun n d' r' hw' e => ?_
        rw [e]
        exact copyEffect_of r' hw' rest fun d'' r'' hw'' e' => hk d'' r'' hw'' (e.trans e')
      · rename_i hz
        simp only [hz, if_false] at hk
        exact copyEffect_of r hw rest hk

/-! ## The halves of the default table -/

theorem halfEffect_implicit {n m : Nat} {s : State} {d : Dec} {o : Host.Outcome State Fault Refusal} {k : Dec → Prop}
    (kind : InstKind) (h1 : 1 ≤ n) (h2 : n < 256) (hm : m < 256) (h : HalfEffect (half kind n m) s d o k) :
    match kind with
    | .noop => k d
    | .add => AddEffect n s d o k
    | .run => RunEffect n s d o k
    | .copy => CopyEffect n m s d o k := by
  unfold HalfEffect at h
  rw [show instKind (half kind n m).inst = some kind from instKind_kindCode kind] at h
  cases kind <;> simp only at h ⊢
  · exact h
  all_goals
    rw [if_neg (half_size_ne h1 h2), half_size_toNat h2] at h
    first
      | exact h
      | (rw [half_mode_toNat hm] at h; exact h)

theorem halfEffect_explicit {m : Nat} {s : State} {d : Dec} {o : Host.Outcome State Fault Refusal} {k : Dec → Prop}
    (kind : InstKind) (hm : m < 256) (h : HalfEffect (half kind 0 m) s d o k) :
    match kind with
    | .noop => k d
    | .add => SizeEffect s d o (fun n d => AddEffect n s d o k)
    | .run => SizeEffect s d o (fun n d => RunEffect n s d o k)
    | .copy => SizeEffect s d o (fun n d => CopyEffect n m s d o k) := by
  unfold HalfEffect at h
  rw [show instKind (half kind 0 m).inst = some kind from instKind_kindCode kind] at h
  cases kind <;> simp only at h ⊢
  · exact h
  all_goals
    rw [if_pos (show (half _ 0 m).size = 0 from rfl)] at h
    first
      | exact h
      | (rw [half_mode_toNat hm] at h; exact h)

/-- A half that goes on leaves a good window. -/
theorem execHalf_windowOk {h : Half} {d d' : Dec} (hw : WindowOk d) (he : execHalf h d = .ok d') : WindowOk d' := by
  have sized : ∀ k, (if h.size = 0 then readSize d (fun n d => execSized k n h.mode.toNat d) else execSized k h.size.toNat h.mode.toNat d) = .ok d' → WindowOk d' := by
    intro k he
    split at he
    · unfold readSize at he
      split at he
      · simp at he
      · simp at he
      · rename_i v cur hv
        have hv := viRead_value hv
        exact execSized_windowOk (windowOk_setIp hw (Nat.le_of_lt hv.1) hv.2.1) he
    · exact execSized_windowOk hw he
  unfold execHalf at he
  split at he
  · simp at he
  · simp at he; exact he ▸ hw
  · exact sized _ he
  · exact sized _ he
  · exact sized _ he

/-- A row that goes on leaves a good window. -/
theorem execRow_windowOk {r : Half × Half} {d d' : Dec} (hw : WindowOk d) (he : execRow r d = .ok d') : WindowOk d' := by
  unfold execRow at he
  cases h1 : execHalf r.1 d with
  | ok d1 => rw [h1] at he; exact execHalf_windowOk (execHalf_windowOk hw h1) he
  | raise c d1 => rw [h1] at he; cases he
  | fault f => rw [h1] at he; cases he

end Sys2Proof.Machine
end

