-- ==== Sys2Proof/Laws/RoundTrip.lean ====
section
/-! SUPPORT. The round trip (R328), from below: what the encoder's buffers hold at any moment, replayed, makes the target the commands
described and leaves the decoder's cache as the encoder's is; then one window, then a file. -/

namespace Sys2Proof.Machine

open Sys2Proof.Safety

/-! ## A decoder at some place in a window -/

/-- The decoder `d` with its cursors, `TW`, cache, `PREV_INST` and lint flag replaced: all that a replay moves. -/
def placed (d : Dec) (i p q : Nat) (tw : Bytes) (c : AddrCache) (k : InstKind) (l : Bool) : Dec :=
  setActive { activeCtx d with tw := tw, cache := c, win := { activeWin d with ip := i, dp := p, ap := q, prevInst := k } }
    { d with lintAddAdd := l }

section placed
variable (d : Dec) (i p q : Nat) (tw : Bytes) (c : AddrCache) (k : InstKind) (l : Bool)

@[simp] theorem activeCtx_placed : activeCtx (placed d i p q tw c k l) =
    { activeCtx d with tw := tw, cache := c, win := { activeWin d with ip := i, dp := p, ap := q, prevInst := k } } := by
  simp [placed]
@[simp] theorem activeWin_placed : activeWin (placed d i p q tw c k l) =
    { activeWin d with ip := i, dp := p, ap := q, prevInst := k } := by simp [placed]
@[simp] theorem pending_placed : (placed d i p q tw c k l).pending = d.pending := by simp [placed]
@[simp] theorem interleaved_placed : (placed d i p q tw c k l).interleaved = d.interleaved := by simp [placed]
@[simp] theorem activeDict_placed : activeDict (placed d i p q tw c k l) = activeDict d := by simp [placed]
@[simp] theorem activeTab_placed : activeTab (placed d i p q tw c k l) = activeTab d := by simp [placed]
@[simp] theorem instSec_placed : instSec (placed d i p q tw c k l) = instSec d := by simp [instSec]
@[simp] theorem dataSec_placed : dataSec (placed d i p q tw c k l) = dataSec d := by simp [dataSec]
@[simp] theorem addrSec_placed : addrSec (placed d i p q tw c k l) = addrSec d := by simp [addrSec]
@[simp] theorem segmentBytes_placed : segmentBytes (placed d i p q tw c k l) = segmentBytes d := by
  unfold segmentBytes; simp
@[simp] theorem hereOf_placed : hereOf (placed d i p q tw c k l) = (activeWin d).srcSegSize + tw.length := by
  simp [hereOf]
@[simp] theorem windowLen_placed : windowLen (placed d i p q tw c k l) = windowLen d := by simp [windowLen]

theorem setIp_placed (v : Nat) : setIp v (placed d i p q tw c k l) = placed d v p q tw c k l := by
  rw [setIp_eq]
  simp only [activeCtx_placed, activeWin_placed]
  simp [placed]

theorem setActive_placed (x : Ctx) : setActive x (placed d i p q tw c k l) = setActive x { d with lintAddAdd := l } := by
  unfold placed; rw [setActive_setActive]

theorem lint_placed (b : Bool) : { placed d i p q tw c k l with lintAddAdd := b } = placed d i p q tw c k b := by
  unfold placed setActive; cases d.nested <;> rfl

theorem segmentOk_placed : SegmentOk (placed d i p q tw c k l) ↔ SegmentOk d := by
  unfold SegmentOk; simp

end placed

/-- A decoder is at the place it stands at. -/
theorem placed_self (d : Dec) : placed d (activeWin d).ip (activeWin d).dp (activeWin d).ap (activeCtx d).tw (activeCtx d).cache
    (activeWin d).prevInst d.lintAddAdd = d := by
  unfold placed
  exact setActive_activeCtx d

theorem windowOk_placed {d : Dec} (h : WindowOk d) {i p q : Nat} {tw : Bytes} {c : AddrCache} {k : InstKind} {l : Bool} (hc : CacheOk c)
    (hi : i ≤ (activeWin d).instLen) (hp : p ≤ (activeWin d).dataLen) (hq : q ≤ (activeWin d).addrLen)
    (ht : tw.length ≤ (activeWin d).targetLen) : WindowOk (placed d i p q tw c k l) := by
  obtain ⟨-, h2, h3, -, -, -, -, h8⟩ := h
  refine ⟨?_, (segmentOk_placed ..).mpr h2, ?_, ?_, ?_, ?_, ?_, ?_⟩ <;> simp_all

/-! ## The halves -/

/-- The bytes `b` stand next on the data stream and `a` next on the address stream of a decoder placed there. -/
def Ahead (d : Dec) (i p q : Nat) (b a : Bytes) : Prop :=
  if d.interleaved then b ++ a <+: (instSec d).drop i else b <+: (dataSec d).drop p ∧ a <+: (addrSec d).drop q

/-- An instruction with its data bytes `b` and address bytes `a` ahead goes on from any place and consumes them. -/
def HalfRuns (d : Dec) (k : InstKind) (n m : Nat) (b a : Bytes) (tw : Bytes) (c : AddrCache) (tw' : Bytes) (c' : AddrCache) : Prop :=
  ∀ i p q pk l, WindowOk (placed d i p q tw c pk l) → Ahead d i p q b a →
    ∃ pk' l', execSized k n m (placed d i p q tw c pk l) =
      .ok (placed d (if d.interleaved then i + (b.length + a.length) else i) (if d.interleaved then p else p + b.length)
        (if d.interleaved then q else q + a.length) tw' c' pk' l')

theorem ahead_data {d : Dec} {i p q : Nat} {b a tw : Bytes} {c : AddrCache} {k : InstKind} {l : Bool} (h : Ahead d i p q b a) :
    b <+: dataBytes (placed d i p q tw c k l) := by
  unfold Ahead at h
  unfold dataBytes
  rw [interleaved_placed]
  split at h <;> rename_i hi
  · rw [if_pos hi]; simp only [instSec_placed, activeWin_placed]; exact (List.prefix_append _ _).trans h
  · rw [if_neg hi]; simp only [dataSec_placed, activeWin_placed]; exact h.1

theorem halfRuns_add {d : Dec} {m : Nat} {b tw : Bytes} {c : AddrCache} (ht : tw.length + b.length ≤ (activeWin d).targetLen) :
    HalfRuns d .add b.length m b [] tw c (tw ++ b) c := by
  intro i p q pk l hw ha
  have hd := ahead_data (tw := tw) (c := c) (k := pk) (l := l) ha
  have he := execSized_add (n := b.length) (m := m) (d := placed d i p q tw c pk l)
    ⟨by simpa using ht, hw.2.2.1, hd.length_le, hw.2.2.2.1, hw.2.2.2.2.1⟩
  refine ⟨.add, lintAfter .add (placed d i p q tw c pk l), ?_⟩
  rw [he]
  unfold afterAdd
  rw [lint_placed, setActive_placed, ← List.prefix_iff_eq_take.mp hd]
  unfold consumedData
  rw [interleaved_placed]
  simp only [activeCtx_placed, activeWin_placed, List.length_nil, Nat.add_zero]
  congr 1
  generalize lintAfter .add _ = x
  unfold placed
  cases d.interleaved <;> rfl

theorem halfRuns_run {d : Dec} {n m : Nat} {x : Byte} {tw : Bytes} {c : AddrCache} (ht : tw.length + n ≤ (activeWin d).targetLen) :
    HalfRuns d .run n m [x] [] tw c (tw ++ List.replicate n x) c := by
  intro i p q pk l hw ha
  obtain ⟨rest, hd⟩ := ahead_data (tw := tw) (c := c) (k := pk) (l := l) ha
  have he := execSized_run (n := n) (m := m) (b := x) (d := placed d i p q tw c pk l)
    ⟨by simpa using ht, hw.2.2.1, by rw [← hd]; simp, hw.2.2.2.1, hw.2.2.2.2.1⟩ (by rw [← hd]; rfl)
  refine ⟨.run, l, ?_⟩
  rw [he]
  unfold afterRun consumedData
  rw [interleaved_placed]
  simp only [activeCtx_placed, activeWin_placed, List.length_nil, List.length_singleton]
  congr 1
  rw [setActive_placed]
  unfold placed
  cases d.interleaved <;> rfl

/-! COPY: the address bytes decode wherever they stand. -/

theorem acDecode_at {c c' : AddrCache} {here mode addr : Nat} {a : Bytes}
    (h : acDecode c here mode a 0 a.length = .value addr a.length c') (before after : Bytes) {lim : Nat}
    (hl : lim = (before ++ (a ++ after)).length) :
    acDecode c here mode (before ++ (a ++ after)) before.length lim = .value addr (before.length + a.length) c' := by
  subst hl
  unfold acDecode at h ⊢
  split at h
  · rename_i hm
    rw [if_pos hm]
    split at h
    · simp at h
    · simp at h
    · rename_i v cur hv
      split at h
      · simp at h
      · rename_i x hx
        have hc : cur = a.length := by
          unfold acAccept at h
          split at h
          · simp at h
          · simp only [AcOut.value.injEq] at h; exact h.2.1
        subst hc
        have := viRead_varInt (v := v) (b := a) hv before after
        rw [this]
        simp only [hx]
        unfold acAccept at h ⊢
        split at h
        · simp at h
        · rename_i hr
          rw [if_neg hr]
          simp only [AcOut.value.injEq] at h ⊢
          exact ⟨h.1, trivial, h.2.2⟩
  · rename_i hm
    rw [if_neg hm]
    cases a with
    | nil => unfold byteRead at h; simp at h
    | cons x xs =>
      have hb := byteRead_middle (lim := (x :: xs).length) [] xs x (by simp)
      rw [List.nil_append, List.length_nil] at hb
      rw [hb] at h
      have hb' := byteRead_middle (lim := (before ++ x :: (xs ++ after)).length) before (xs ++ after) x (by simp)
      rw [List.cons_append, hb']
      simp only at h ⊢
      unfold acDecodeSame at h ⊢
      split at h
      · simp at h
      · split at h
        · simp at h
        · rename_i hj
          rw [if_neg hj]
          unfold acAccept at h ⊢
          split at h
          · simp at h
          · rename_i hr
            rw [if_neg hr]
            simp only [AcOut.value.injEq] at h ⊢
            have h2 : 0 + 1 = (x :: xs).length := h.2.1
            exact ⟨h.1, by rw [← h2], h.2.2⟩

theorem copyOnto_eq {n x : Nat} {u : Bytes} (h : x < u.length) :
    ∃ out : Bytes, copyOnto n x u = u ++ out ∧ out.length = n ∧ ∀ k, k < n → out[k]? = (u ++ out)[x + k]? := by
  induction n generalizing x u with
  | zero => exact ⟨[], by simp [copyOnto], rfl, fun k hk => absurd hk (Nat.not_lt_zero k)⟩
  | succ n ih =>
    obtain ⟨out, h1, h2, h3⟩ := ih (x := x + 1) (u := u ++ [u.getD x 0]) (by simp; omega)
    refine ⟨u.getD x 0 :: out, by rw [copyOnto, h1]; simp, by simp [h2], fun k hk => ?_⟩
    cases k with
    | zero =>
      rw [Nat.add_zero, List.getElem?_append_left h, List.getElem?_cons_zero, List.getD_eq_getElem?_getD,
        List.getElem?_eq_getElem h]
      rfl
    | succ k =>
      rw [List.getElem?_cons_succ, h3 k (by omega), List.append_assoc]
      congr 1
      omega

/-- The source segment of the window is the whole dictionary (R225, R227). -/
def WholeDict (dictionary : Bytes) (d : Dec) : Prop :=
  segmentBytes d = dictionary ∧ (activeWin d).srcSegSize = dictionary.length ∧ SegmentOk d

theorem halfRuns_copy {d : Dec} {n mode value addr : Nat} {tw dictionary : Bytes} {c c' : AddrCache}
    (ht : tw.length + n ≤ (activeWin d).targetLen) (hd : WholeDict dictionary d) (hc : CacheOk c)
    (ha : addr < dictionary.length + tw.length) (hh : dictionary.length + tw.length ≤ 4294967295)
    (he : acEncode c addr (dictionary.length + tw.length) = (mode, value, c')) :
    HalfRuns d .copy n mode [] (addressBytes c mode value) tw c
      ((copyOnto n addr (dictionary ++ tw)).drop dictionary.length) c' := by
  intro i p q pk l hw hx
  have hdec : acDecode c (dictionary.length + tw.length) mode (addressBytes c mode value) 0 (addressBytes c mode value).length =
      .value addr (addressBytes c mode value).length c' := by
    obtain ⟨hc', len, hs⟩ := acEncode_cases he
    have hm : (⟨mode, value, len⟩ : Candidate) ∈
        (({ mode := 0, value := addr, len := viLen addr } : Candidate) :: otherCandidates c addr (dictionary.length + tw.length)) := by
      rw [← hs]
      rcases shortest_mem { mode := 0, value := addr, len := viLen addr } (otherCandidates c addr (dictionary.length + tw.length)) with h | h
      · rw [h]; exact List.mem_cons_self
      · exact List.mem_cons_of_mem _ h
    have := candidate_decodes hc ha hh hm
    rw [← hc', this.1] at this
    exact this.2
  generalize hab : addressBytes c mode value = a at *
  have hl := windowOk_lengths hw.2.2.1
  have hin := hw.2.2.2.1
  have hq := hw.2.2.2.2.2.1
  simp only [activeWin_placed, instSec_placed, addrSec_placed, dataSec_placed] at hl hin hq
  have hdecoded : decodedAddress mode (placed d i p q tw c pk l) =
      .value addr ((if d.interleaved then i else q) + a.length) c' := by
    unfold decodedAddress
    rw [interleaved_placed]
    simp only [activeCtx_placed, activeWin_placed, instSec_placed, addrSec_placed, hereOf_placed, hd.2.1]
    unfold Ahead at hx
    split at hx <;> rename_i hi <;> simp only [hi, if_true, if_false, Bool.false_eq_true]
    · obtain ⟨rest, hr⟩ := hx
      rw [List.nil_append] at hr
      have hs : instSec d = (instSec d).take i ++ (a ++ rest) := by rw [hr, List.take_append_drop]
      have hti : ((instSec d).take i).length = i := by rw [List.length_take]; omega
      have := acDecode_at hdec ((instSec d).take i) rest (lim := (activeWin d).instLen) (by rw [← hs]; exact hl.2.1.symm)
      rw [← hs, hti] at this
      exact this
    · obtain ⟨rest, hr⟩ := hx.2
      have hs : addrSec d = (addrSec d).take q ++ (a ++ rest) := by rw [hr, List.take_append_drop]
      have hti : ((addrSec d).take q).length = q := by rw [List.length_take]; omega
      have := acDecode_at hdec ((addrSec d).take q) rest (lim := (activeWin d).addrLen) (by rw [← hs]; exact hl.2.2.symm)
      rw [← hs, hti] at this
      exact this
  obtain ⟨out, ho, hr⟩ := execSized_copy (n := n) (m := mode) (d := placed d i p q tw c pk l)
    ⟨by simpa using ht, (segmentOk_placed ..).mpr hd.2.2, hdecoded⟩
  have hout : (copyOnto n addr (dictionary ++ tw)).drop dictionary.length = tw ++ out := by
    obtain ⟨out', h1, h2, h3⟩ := copyOnto_eq (n := n) (x := addr) (u := dictionary ++ tw) (by simpa using ha)
    have : out' = out := by
      refine isCopyOf_unique (d := placed d i p q tw c pk l) (n := n) (x := addr) ((segmentOk_placed ..).mpr hd.2.2)
        (by rw [hereOf_placed, hd.2.1]; exact ha) ⟨h2, fun k hk => ?_⟩ ho
      rw [h3 k hk]
      simp [hd.1]
    rw [h1, this, List.append_assoc, List.drop_left]
  refine ⟨.copy, l, ?_⟩
  rw [hr, hout]
  unfold afterCopy
  rw [setActive_placed, interleaved_placed]
  simp only [activeCtx_placed, activeWin_placed, List.length_nil, Nat.zero_add]
  congr 1
  unfold placed
  cases d.interleaved <;> rfl

/-! ## What the encoder's buffers hold -/

/-- A decoder at the start of the replay of a window with the default code table over the whole dictionary, its cache `c`
(R227, R321). -/
structure AtStart (dictionary : Bytes) (c : AddrCache) (d : Dec) : Prop where
  window : WindowOk d
  ip : (activeWin d).ip = 0
  dp : (activeWin d).dp = 0
  ap : (activeWin d).ap = 0
  tw : (activeCtx d).tw = []
  cache : (activeCtx d).cache = c
  tab : activeTab d = defTab
  whole : WholeDict dictionary d

/-- The sections of the decoder `d` begin with the encoder's buffers, in the encoder's layout, and there is room for its target. -/
structure Covers (e : Enc) (d : Dec) : Prop where
  insts : e.insts <+: instSec d
  data : e.data <+: dataSec d
  addrs : e.addrs <+: addrSec d
  layout : e.interleaved = true → d.interleaved = true
  room : e.targetLen ≤ (activeWin d).targetLen

/-- The decoder `d` at the ends of the encoder's buffers, with the encoder's cache. -/
def endOf (e : Enc) (tw : Bytes) (k : InstKind) (l : Bool) (d : Dec) : Dec :=
  placed d e.insts.length e.data.length e.addrs.length tw e.cache k l

/-- The encoder's buffers replayed make `tw`, and leave the decoder's cache as the encoder's is. -/
def Plays (dictionary : Bytes) (c : AddrCache) (e : Enc) (tw : Bytes) : Prop :=
  ∀ d, AtStart dictionary c d → Covers e d → ∃ k l, replayRest d = replayRest (endOf e tw k l d)

/-- With the pending opcode replaced by one with the same first entry, the buffers replayed make `tw` and come to that opcode's
second entry (R222). -/
def PlaysPending (dictionary : Bytes) (c : AddrCache) (e : Enc) (tw : Bytes) : Prop :=
  ∀ i b op, e.lastOpcodeIndex = some i → e.insts[i]? = some b → (tableRow defTab op).first = (tableRow defTab b).first →
    ∀ d, AtStart dictionary c d → Covers { e with insts := e.insts.set i op } d →
      ∃ k l, replayRest d = (execHalf (tableRow defTab op).second (endOf e tw k l d)).andThen replayRest

/-- The state of a window in the encoder with default code table (R221 to R225, R328). -/
structure Window (dictionary : Bytes) (c : AddrCache) (e : Enc) (tw : Bytes) : Prop where
  plays : Plays dictionary c e tw
  pending : PlaysPending dictionary c e tw
  target : e.targetLen = tw.length
  tab : e.etab = defTab
  near : e.cache.nearSize = 4
  same : e.cache.sameSize = 3
  cacheOk : CacheOk e.cache
  dict : e.dictSize.toNat = dictionary.length
  width : dictionary.length + tw.length ≤ 4294967295
  empty : e.interleaved = true → e.data = [] ∧ e.addrs = []
  written : e.insts = [] → tw = []
  ready : e.state = .ready

/-! ### A half, fed with its bytes -/

/-- The size bytes of an instruction of size `n` as a row's entry `h` has it: none, or a VarInt (R222, R262). -/
def SizeBytes (h : Half) (k : InstKind) (n m : Nat) (z : Bytes) : Prop :=
  (h = half k n m ∧ 1 ≤ n ∧ n ≤ 255 ∧ z = []) ∨ (h = half k 0 m ∧ z = viWrite n)

theorem execHalf_fed {d : Dec} {h : Half} {k : InstKind} {n m : Nat} {z b a tw tw' : Bytes} {c c' : AddrCache}
    (hk : k ≠ .noop) (hm : m < 256) (hn : n < 4294967296) (hz : SizeBytes h k n m z) (hr : HalfRuns d k n m b a tw c tw' c')
    {i p q : Nat} {pk : InstKind} {l : Bool} (hw : WindowOk (placed d i p q tw c pk l)) (hi : i + z.length ≤ (activeWin d).instLen)
    (hpre : z <+: (instSec d).drop i) (ha : Ahead d (i + z.length) p q b a) :
    ∃ pk' l', execHalf h (placed d i p q tw c pk l) =
      .ok (placed d (if d.interleaved then i + z.length + (b.length + a.length) else i + z.length)
        (if d.interleaved then p else p + b.length) (if d.interleaved then q else q + a.length) tw' c' pk' l') := by
  rcases hz with ⟨rfl, h1, h2, rfl⟩ | ⟨rfl, rfl⟩
  · rw [execHalf_implicit hk h1 (by omega) hm]
    simpa using hr i p q pk l hw (by simpa using ha)
  · rw [execHalf_explicit hk hm]
    have hl := (windowOk_lengths hw.2.2.1).2.1
    have hil := hw.2.2.2.1
    simp only [activeWin_placed, instSec_placed] at hl hil
    obtain ⟨rest, hrest⟩ := hpre
    have hsec : instSec d = (instSec d).take i ++ (viWrite n ++ rest) := by rw [hrest, List.take_append_drop]
    have hti : ((instSec d).take i).length = i := by rw [List.length_take]; omega
    have hv := viRead_middle (width := 32) (v := n) (lim := (activeWin d).instLen) (.inl rfl) hn ((instSec d).take i) rest
      (by rw [hti]; simpa using hi)
    rw [hti] at hv
    rw [readSize_eq (n := n) (cur := i + (viWrite n).length)]
    · rw [setIp_placed]
      refine hr _ p q pk l ?_ ha
      have := windowOk_setIp hw (v := i + (viWrite n).length) (by simp) (by simpa using hi)
      rwa [setIp_placed] at this
    · unfold ExplicitSize
      simp only [instSec_placed, activeWin_placed, viWrite_length]
      rw [hsec]
      simpa using hv

/-- `e₂` is `e` with its instructions buffer replaced by `I`, then the data bytes `b` and address bytes `a` appended where the
layout routes them (R229). -/
structure Grew (e e₂ : Enc) (I b a : Bytes) : Prop where
  layout : e₂.interleaved = e.interleaved
  insts : e₂.insts = if e.interleaved then I ++ (b ++ a) else I
  data : e₂.data = if e.interleaved then e.data else e.data ++ b
  addrs : e₂.addrs = if e.interleaved then e.addrs else e.addrs ++ a

theorem dataSec_interleaved {d : Dec} (h : WindowOk d) (hi : d.interleaved = true) : dataSec d = [] ∧ addrSec d = [] := by
  have h8 := h.2.2.2.2.2.2.2
  rw [hi] at h8
  have hl := windowOk_lengths h.2.2.1
  simp only [Bool.true_eq, Bool.and_eq_true, beq_iff_eq] at h8
  exact ⟨List.eq_nil_of_length_eq_zero (by rw [hl.1]; exact h8.1), List.eq_nil_of_length_eq_zero (by rw [hl.2.2]; exact h8.2)⟩

theorem prefix_drop {A B S : Bytes} (h : A ++ B <+: S) : B <+: S.drop A.length := by
  obtain ⟨r, rfl⟩ := h
  rw [List.append_assoc, List.drop_left]
  exact List.prefix_append _ _

/-- A half of a row replayed from where the bytes for it begin comes to the end of the encoder's buffers. -/
theorem feed {dictionary : Bytes} {c0 c' : AddrCache} {d : Dec} {e e₂ : Enc} {I J z b a tw tw' : Bytes} {k : InstKind} {h : Half} {n m : Nat}
    (hs : AtStart dictionary c0 d) (hw : Window dictionary c0 e tw) (hg : Grew e e₂ (I ++ z) b a) (hJ : J.length = I.length)
    (hcov : Covers { e₂ with insts := if e.interleaved then (J ++ z) ++ (b ++ a) else J ++ z } d)
    (hk : k ≠ .noop) (hm : m < 256) (hn : n < 4294967296) (hz : SizeBytes h k n m z)
    (hr : HalfRuns d k n m b a tw e.cache tw' c') (hc : e₂.cache = c') (ht : tw.length ≤ e₂.targetLen) (pk : InstKind) (l : Bool) :
    ∃ pk' l', execHalf h (placed d I.length e.data.length e.addrs.length tw e.cache pk l) = .ok (endOf e₂ tw' pk' l' d) := by
  have hlen := windowOk_lengths hs.window.2.2.1
  have hroom : e₂.targetLen ≤ (activeWin d).targetLen := hcov.room
  have hI : (if e.interleaved then (J ++ z) ++ (b ++ a) else J ++ z) <+: instSec d := hcov.insts
  have hD : e₂.data <+: dataSec d := hcov.data
  have hA : e₂.addrs <+: addrSec d := hcov.addrs
  have hLay : e₂.interleaved = true → d.interleaved = true := hcov.layout
  rw [hg.data] at hD
  rw [hg.addrs] at hA
  rw [hg.layout] at hLay
  have hJz : J ++ z <+: instSec d := by
    refine List.IsPrefix.trans ?_ hI
    show J ++ z <+: if e.interleaved then (J ++ z) ++ (b ++ a) else J ++ z
    split
    · exact List.prefix_append _ _
    · exact List.prefix_refl _
  have hJl := hJz.length_le
  simp only [List.length_append] at hJl
  have hDl : e.data.length ≤ (activeWin d).dataLen := by
    have := hD.length_le
    split at this <;> first | omega | (rw [List.length_append] at this; omega)
  have hAl : e.addrs.length ≤ (activeWin d).addrLen := by
    have := hA.length_le
    split at this <;> first | omega | (rw [List.length_append] at this; omega)
  have hwin : WindowOk (placed d I.length e.data.length e.addrs.length tw e.cache pk l) :=
    windowOk_placed hs.window hw.cacheOk (by omega) hDl hAl (by omega)
  have hahead : Ahead d (I.length + z.length) e.data.length e.addrs.length b a ∧
      (if d.interleaved then I.length + z.length + (b.length + a.length) else I.length + z.length) = e₂.insts.length ∧
      (if d.interleaved then e.data.length else e.data.length + b.length) = e₂.data.length ∧
      (if d.interleaved then e.addrs.length else e.addrs.length + a.length) = e₂.addrs.length := by
    unfold Ahead
    rw [hg.insts, hg.data, hg.addrs]
    cases he : e.interleaved with
    | true =>
      rw [he] at hI hLay
      rw [hLay rfl]
      simp only [if_true] at hI ⊢
      have := prefix_drop hI
      rw [List.length_append, hJ] at this
      refine ⟨this, by simp [Nat.add_assoc], ?_, ?_⟩ <;> simp
    | false =>
      rw [he] at hD hA
      simp only [Bool.false_eq_true, if_false] at hD hA ⊢
      cases hd : d.interleaved with
      | true =>
        obtain ⟨z1, z2⟩ := dataSec_interleaved hs.window hd
        rw [z1] at hD
        rw [z2] at hA
        have h1 := List.prefix_nil.mp hD
        have h2 := List.prefix_nil.mp hA
        simp only [List.append_eq_nil_iff] at h1 h2
        simp [h1, h2]
      | false =>
        simp only [Bool.false_eq_true, if_false]
        exact ⟨⟨prefix_drop hD, prefix_drop hA⟩, by simp, by simp, by simp⟩
  obtain ⟨ha, q1, q2, q3⟩ := hahead
  obtain ⟨pk', l', hx⟩ := execHalf_fed hk hm hn hz hr hwin (by omega) (by rw [← hJ]; exact prefix_drop hJz) ha
  refine ⟨pk', l', ?_⟩
  rw [hx, q1, q2, q3, ← hc]
  rfl

/-! ### `EncodeInstruction` -/

/-- What `EncodeInstruction` does to the instructions buffer of the default code table (R222): it replaces the pending opcode by
one with the same first entry and the instruction as second entry, or it appends a single opcode; the size follows if the entry
has none. -/
theorem encodeInstruction_insts {k : InstKind} {n m : Nat} {e e₁ : Enc} (ht : e.etab = defTab) (hk : k ≠ .noop)
    (h : encodeInstruction k n m e = some e₁) :
    (∃ i b op z, e.lastOpcodeIndex = some i ∧ e.insts[i]? = some b ∧ (tableRow defTab op).first = (tableRow defTab b).first ∧
      SizeBytes (tableRow defTab op).second k n m z ∧ e₁.lastOpcodeIndex = none ∧ e₁.insts = e.insts.set i op ++ z) ∨
    (∃ op z, SizeBytes (tableRow defTab op).first k n m z ∧ (tableRow defTab op).second.inst = kindCode .noop ∧
      e₁.lastOpcodeIndex = some e.insts.length ∧ e₁.insts = (e.insts ++ [op]) ++ z) := by
  have hl := defTab_length
  rcases encodeInstruction_cases h with ⟨i, op, h1, h2, hc, rfl⟩ | ⟨i, op, hc, rfl⟩ | ⟨op, h1, h2, ho, rfl⟩ | ⟨op, ho, rfl⟩
  · obtain ⟨b, q1, q2, q3⟩ := compoundFor_some hc
    rw [ht] at q3
    exact .inl ⟨i, b, op, [], q1, q2, (imapSecond_first hl defTab_valid hk q3).1,
      .inl ⟨(imapSecond_eq_some hl q3).1, h1, h2, rfl⟩, rfl, by simp [upgradeOpcode]⟩
  · obtain ⟨b, q1, q2, q3⟩ := compoundFor_some hc
    rw [ht] at q3
    exact .inl ⟨i, b, op, viWrite n, q1, q2, (imapSecond_first hl defTab_valid hk q3).1,
      .inr ⟨(imapSecond_eq_some hl q3).1, rfl⟩, rfl, rfl⟩
  · rw [ht] at ho
    have := imapFirst_eq_some hl ho
    exact .inr ⟨op, [], .inl ⟨this.1, h1, h2, rfl⟩, this.2.2, rfl, by simp [appendOpcode, memAppend]⟩
  · rw [ht] at ho
    have := imapFirst_eq_some hl ho
    exact .inr ⟨op, viWrite n, .inr ⟨this.1, rfl⟩, this.2.2, rfl, by simp [appendOpcode, memAppend, appendSize, viWrite32]⟩

theorem execHalf_noop {h : Half} (hn : h.inst = kindCode .noop) (d : Dec) : execHalf h d = .ok d := by
  unfold execHalf; rw [hn, instKind_kindCode]

theorem replayOne_placed {d : Dec} {I : Bytes} {op : Byte} {p q : Nat} {tw : Bytes} {c : AddrCache} {k : InstKind} {l : Bool}
    (h : WindowOk (placed d I.length p q tw c k l)) (hi : I ++ [op] <+: instSec d) :
    (activeWin (placed d I.length p q tw c k l)).ip < (activeWin (placed d I.length p q tw c k l)).instLen ∧
    replayOne (placed d I.length p q tw c k l) = execGroup op (placed d (I.length + 1) p q tw c k l) := by
  obtain ⟨r, hr⟩ := hi
  have hl := (windowOk_lengths h.2.2.1).2.1
  simp only [instSec_placed, activeWin_placed] at hl ⊢
  rw [← hr] at hl
  simp only [List.length_append, List.length_singleton] at hl
  refine ⟨by omega, ?_⟩
  unfold replayOne fetchOpcode
  simp only [instSec_placed, activeWin_placed]
  rw [← hr, List.append_assoc]
  have := byteRead_middle (lim := (activeWin d).instLen) I r op (by omega)
  rw [show [op] ++ r = op :: r from rfl, this]
  simp only [BitVec.ofNat_toNat, BitVec.setWidth_eq]
  rw [setIp_placed]

/-- One command's instruction: the window plays on. -/
theorem window_plays {dictionary : Bytes} {c0 c' : AddrCache} {e e₁ e₂ : Enc} {b a tw tw' : Bytes} {k : InstKind} {n m : Nat}
    (hw : Window dictionary c0 e tw) (hk : k ≠ .noop) (hm : m < 256) (hn : n < 4294967296) {x : AddrCache}
    (he : encodeInstruction k n m { e with cache := x } = some e₁) (hg : Grew e e₂ e₁.insts b a)
    (hi : e₂.lastOpcodeIndex = e₁.lastOpcodeIndex) (hc : e₂.cache = c') (ht : e₂.targetLen = tw.length + n)
    (hr : ∀ d, AtStart dictionary c0 d → tw.length + n ≤ (activeWin d).targetLen → HalfRuns d k n m b a tw e.cache tw' c') :
    Plays dictionary c0 e₂ tw' ∧ PlaysPending dictionary c0 e₂ tw' ∧ e₂.insts ≠ [] := by
  have upd : ∀ (J z : Bytes), e₁.insts = J ++ z → e₂.insts = if e.interleaved then (J ++ z) ++ (b ++ a) else J ++ z := by
    intro J z hJ; rw [hg.insts, hJ]
  have sub : ∀ {d : Dec} {J z : Bytes} {op : Byte}, Covers { e₂ with insts := if e.interleaved then (J ++ z) ++ (b ++ a) else J ++ z } d →
      ∀ J', J' <+: J → Covers { e with insts := J' } d := by
    intro d J z op hcov J' hJ'
    refine ⟨?_, ?_, ?_, ?_, ?_⟩
    · refine (hJ'.trans ?_).trans hcov.insts
      show J <+: if e.interleaved then (J ++ z) ++ (b ++ a) else J ++ z
      split
      · rw [List.append_assoc]; exact List.prefix_append _ _
      · exact List.prefix_append _ _
    · have hD : e₂.data <+: dataSec d := hcov.data
      rw [hg.data] at hD
      refine List.IsPrefix.trans ?_ hD
      show e.data <+: _
      split
      · exact List.prefix_refl _
      · exact List.prefix_append _ _
    · have hA : e₂.addrs <+: addrSec d := hcov.addrs
      rw [hg.addrs] at hA
      refine List.IsPrefix.trans ?_ hA
      show e.addrs <+: _
      split
      · exact List.prefix_refl _
      · exact List.prefix_append _ _
    · have := hcov.layout
      exact fun h => this (show e₂.interleaved = true by rw [hg.layout]; exact h)
    · have : e₂.targetLen ≤ _ := hcov.room
      have := hw.target
      show e.targetLen ≤ _
      omega
  have room : ∀ {d : Dec} {J : Bytes}, Covers { e₂ with insts := J } d → tw.length + n ≤ (activeWin d).targetLen := by
    intro d J hcov
    have : e₂.targetLen ≤ _ := hcov.room
    omega
  rcases encodeInstruction_insts (e := { e with cache := x }) hw.tab hk he with
    ⟨i, b0, op, z, q1, q2, q3, q4, q5, q6⟩ | ⟨op, z, q1, q2, q3, q4⟩
  · simp only at q1 q2 q6
    have hne : e.insts.set i op ≠ [] := by
      intro hh
      have := congrArg List.length hh
      rw [List.length_set] at this
      have := (List.getElem?_eq_some_iff.mp q2).1
      simp_all
    refine ⟨?_, ?_, ?_⟩
    · intro d hs hcov
      have hcov' : Covers { e₂ with insts := if e.interleaved then (e.insts.set i op ++ z) ++ (b ++ a) else e.insts.set i op ++ z } d := by
        rw [← upd _ _ q6]; exact hcov
      obtain ⟨pk, l, hp⟩ := hw.pending i b0 op q1 q2 q3 d hs (sub (op := op) hcov' _ (List.prefix_refl _))
      have hlen : (e.insts.set i op).length = e.insts.length := List.length_set
      obtain ⟨pk', l', hf⟩ := feed (I := e.insts.set i op) (J := e.insts.set i op) hs hw (q6 ▸ hg) rfl hcov' hk hm hn q4
        (hr d hs (room hcov)) hc (by omega) pk l
      refine ⟨pk', l', ?_⟩
      rw [hp]
      unfold endOf at hf ⊢
      rw [← hlen, hf]
      rfl
    · intro i' b' op' hl
      rw [hi, q5] at hl
      simp at hl
    · rw [upd _ _ q6]
      split <;> simp [hne]
  · simp only at q3 q4
    have hlast : e₂.lastOpcodeIndex = some e.insts.length := by rw [hi, q3]
    have hset : ∀ op', e₂.insts.set e.insts.length op' =
        if e.interleaved then ((e.insts ++ [op']) ++ z) ++ (b ++ a) else (e.insts ++ [op']) ++ z := by
      intro op'
      rw [upd _ _ q4]
      split <;> simp
    have hget : e₂.insts[e.insts.length]? = some op := by
      rw [upd _ _ q4]
      split <;> simp
    have hpend : PlaysPending dictionary c0 e₂ tw' := by
      intro i' b' op' hl hb' hrow d hs hcov
      rw [hlast] at hl
      simp only [Option.some.injEq] at hl
      subst hl
      rw [hget] at hb'
      simp only [Option.some.injEq] at hb'
      subst hb'
      rw [hset] at hcov
      have hcov0 := sub (op := op') hcov e.insts (List.prefix_append _ _)
      obtain ⟨pk, l, hp⟩ := hw.plays d hs hcov0
      obtain ⟨pk', l', hf⟩ := feed (I := e.insts ++ [op]) (J := e.insts ++ [op']) hs hw (q4 ▸ hg) (by simp) hcov hk hm hn
        (hrow ▸ q1) (hr d hs (room hcov)) hc (by omega) pk l
      have hop := (sub (op := op') hcov _ (List.prefix_refl _)).insts
      have hwin : WindowOk (endOf e tw pk l d) := by
        have h1 := hcov0.insts.length_le
        have h2 := hcov0.data.length_le
        have h3 := hcov0.addrs.length_le
        have h4 := hcov0.room
        have hlen := windowOk_lengths hs.window.2.2.1
        have ht := hw.target
        simp only at h1 h2 h3 h4
        exact windowOk_placed hs.window hw.cacheOk (by omega) (by omega) (by omega) (by omega)
      obtain ⟨r1, r2⟩ := replayOne_placed (k := pk) (l := l) hwin hop
      refine ⟨pk', l', ?_⟩
      rw [hp]
      unfold endOf at hf ⊢
      rw [replayRest_step r1, r2]
      unfold execGroup execRow idec
      rw [activeTab_placed, hs.tab]
      simp only [List.length_append, List.length_singleton] at hf
      rw [hrow] at hf ⊢
      rw [hf]
      rfl
    refine ⟨?_, hpend, ?_⟩
    · intro d hs hcov
      have hself : e₂.insts.set e.insts.length op = e₂.insts := by rw [hset, upd _ _ q4]
      obtain ⟨pk, l, hp⟩ := hpend _ op op hlast hget rfl d hs (by rw [hself]; exact hcov)
      rw [execHalf_noop q2] at hp
      exact ⟨pk, l, hp⟩
    · intro hh; rw [hh] at hget; simp at hget

/-! ### The commands -/

/-- What the commands of a window leave as it is. -/
structure Kept (e e' : Enc) : Prop where
  sink : e'.sink = e.sink
  hasChecksum : e'.hasChecksum = e.hasChecksum
  checksum : e'.checksum = e.checksum
  indexFn : e'.cache.indexFn = e.cache.indexFn

theorem encCommand_answer_ok {s u : State} {body : Enc → EncEnd} (h : encCommand s body = .next u) (hr : u.result = some .ok) :
    s.enc.state ≠ .failed ∧ ∃ e, body s.enc = .ok e .ok ∧ u = { s with enc := e, result := some .ok } := by
  unfold encCommand at h
  split at h
  · simp only [Host.Outcome.next.injEq] at h
    rw [← h] at hr
    simp [errOf] at hr
  · rename_i hs
    refine ⟨hs, ?_⟩
    split at h
    · rename_i e r hb
      simp only [Host.Outcome.next.injEq] at h
      rw [← h] at hr
      simp only [Option.some.injEq] at hr
      subst hr
      exact ⟨e, hb, h.symm⟩
    · simp only [Host.Outcome.next.injEq] at h
      rw [← h] at hr
      simp [errOf] at hr

theorem whenReady_answer_ok {e e' : Enc} {b : EncEnd} {r : Result} (h : whenReady e b = .ok e' r) : e.state = .ready ∧ b = .ok e' r := by
  unfold whenReady at h
  split at h
  · exact ⟨by assumption, h⟩
  · simp at h

theorem not_overflow {e : Enc} {n : Nat} (h : ¬ wouldOverflow e n = true) : encHere e + n ≤ 4294967295 := by
  unfold wouldOverflow at h
  rw [decide_eq_true_iff] at h
  exact Nat.not_lt.mp h

theorem grew_data {e e₁ : Enc} {bytes : Bytes} {n : Nat} (hi : e₁.interleaved = e.interleaved) (hd : e₁.data = e.data)
    (ha : e₁.addrs = e.addrs) : Grew e (growTarget n (appendData bytes e₁)) e₁.insts bytes [] := by
  unfold growTarget appendData memAppend
  cases hb : e.interleaved <;> rw [hb] at hi <;> constructor <;> simp [hi, hd, ha, hb]

theorem grew_address {e e₁ : Enc} {bytes : Bytes} {n : Nat} (hi : e₁.interleaved = e.interleaved) (hd : e₁.data = e.data)
    (ha : e₁.addrs = e.addrs) : Grew e (growTarget n (appendAddress bytes e₁)) e₁.insts [] bytes := by
  unfold growTarget appendAddress memAppend
  cases hb : e.interleaved <;> rw [hb] at hi <;> constructor <;> simp [hi, hd, ha, hb]

/-- The registers of the window that no instruction changes, and the empty sections of the interleaved layout. -/
theorem window_of_grew {dictionary : Bytes} {c0 : AddrCache} {e e₂ : Enc} {I b a tw tw' : Bytes} (hw : Window dictionary c0 e tw)
    (hg : Grew e e₂ I b a) (hp : Plays dictionary c0 e₂ tw' ∧ PlaysPending dictionary c0 e₂ tw' ∧ e₂.insts ≠ [])
    (ht : e₂.targetLen = tw'.length) (h1 : e₂.etab = e.etab) (h2 : e₂.cache = e.cache ∨ ∃ addr, addr < 4294967296 ∧ e₂.cache = acUpdate e.cache addr)
    (h3 : e₂.dictSize = e.dictSize) (h4 : dictionary.length + tw'.length ≤ 4294967295) (h5 : e₂.state = e.state) :
    Window dictionary c0 e₂ tw' where
  plays := hp.1
  pending := hp.2.1
  target := ht
  tab := h1.trans hw.tab
  near := by rcases h2 with h | ⟨_, _, h⟩ <;> rw [h] <;> simp [hw.near]
  same := by rcases h2 with h | ⟨_, _, h⟩ <;> rw [h] <;> simp [hw.same]
  cacheOk := by
    rcases h2 with h | ⟨x, hx, h⟩ <;> rw [h]
    · exact hw.cacheOk
    · exact acUpdate_ok hw.cacheOk hx
  dict := by rw [h3]; exact hw.dict
  width := h4
  empty := by
    intro hi
    rw [hg.layout] at hi
    rw [hg.data, hg.addrs, hi]
    exact hw.empty hi
  written := fun h => absurd h hp.2.2
  ready := h5.trans hw.ready

/-- A command that adds to the window's target adds what it describes (R223 to R225, R328). -/
theorem window_piece {dictionary : Bytes} {c0 : AddrCache} {s u : State} {tw : Bytes} {p : Piece} (hw : Window dictionary c0 s.enc tw)
    (h : exec p.command s = .next u) (hr : u.result = some .ok) :
    ∃ tw', p.onto (dictionary ++ tw) = dictionary ++ tw' ∧ Window dictionary c0 u.enc tw' ∧ Kept s.enc u.enc := by
  have hdict := hw.dict
  have htar := hw.target
  cases p with
  | add n offset slice =>
    rw [show Piece.command (.add n offset slice) = .encAdd n offset slice.length slice from rfl, exec_encAdd] at h
    obtain ⟨-, e₂, hb, rfl⟩ := encCommand_answer_ok h hr
    obtain ⟨-, hb⟩ := whenReady_answer_ok hb
    split at hb
    · simp at hb
    split at hb
    · simp at hb
    rename_i hov
    split at hb
    · simp at hb
    rename_i e₁ he
    simp only [EncEnd.ok.injEq, and_true] at hb
    subst hb
    have hf := encodeInstruction_frame he
    have hov : dictionary.length + (tw ++ slice).length ≤ 4294967295 := by
      have hov := not_overflow hov
      unfold encHere at hov
      simp only [List.length_append]
      omega
    have hg := grew_data (e := s.enc) (e₁ := e₁) (bytes := slice) (n := slice.length) (by rw [hf]) (by rw [hf]) (by rw [hf])
    have hp := window_plays (x := s.enc.cache) (tw' := tw ++ slice) (c' := s.enc.cache) hw (by simp) (by omega)
      (by simp only [List.length_append] at hov; omega) he hg
      (by unfold growTarget appendData; split <;> rfl) (by rw [hf]; unfold growTarget appendData; split <;> rfl)
      (by rw [hf]; unfold growTarget appendData; split <;> simp [htar])
      (fun d _ hroom => halfRuns_add hroom)
    refine ⟨tw ++ slice, by simp [Piece.onto], window_of_grew hw hg hp ?_ ?_ (.inl ?_) ?_ hov ?_, ?_⟩
    · rw [hf]; unfold growTarget appendData; split <;> simp [htar]
    · rw [hf]; unfold growTarget appendData; split <;> rfl
    · rw [hf]; unfold growTarget appendData; split <;> rfl
    · rw [hf]; unfold growTarget appendData; split <;> rfl
    · rw [hf]; unfold growTarget appendData; split <;> rfl
    · rw [hf]; unfold growTarget appendData; split <;> exact ⟨rfl, rfl, rfl, rfl⟩
  | run size byte =>
    rw [show Piece.command (.run size byte) = .encRun size byte from rfl, exec_encRun] at h
    obtain ⟨-, e₂, hb, rfl⟩ := encCommand_answer_ok h hr
    obtain ⟨-, hb⟩ := whenReady_answer_ok hb
    split at hb
    · simp at hb
    rename_i hov
    split at hb
    · simp at hb
    rename_i e₁ he
    simp only [EncEnd.ok.injEq, and_true] at hb
    subst hb
    have hf := encodeInstruction_frame he
    have hov : dictionary.length + (tw ++ List.replicate size.toNat byte).length ≤ 4294967295 := by
      have hov := not_overflow hov
      unfold encHere at hov
      simp only [List.length_append, List.length_replicate]
      omega
    have hg := grew_data (e := s.enc) (e₁ := e₁) (bytes := [byte]) (n := size.toNat) (by rw [hf]) (by rw [hf]) (by rw [hf])
    have hp := window_plays (x := s.enc.cache) (tw' := tw ++ List.replicate size.toNat byte) (c' := s.enc.cache) hw (by simp) (by omega)
      size.isLt he hg
      (by unfold growTarget appendData; split <;> rfl) (by rw [hf]; unfold growTarget appendData; split <;> rfl)
      (by rw [hf]; unfold growTarget appendData; split <;> simp [htar])
      (fun d _ hroom => halfRuns_run hroom)
    refine ⟨tw ++ List.replicate size.toNat byte, by simp [Piece.onto], window_of_grew hw hg hp ?_ ?_ (.inl ?_) ?_ hov ?_, ?_⟩
    · rw [hf]; unfold growTarget appendData; split <;> simp [htar]
    · rw [hf]; unfold growTarget appendData; split <;> rfl
    · rw [hf]; unfold growTarget appendData; split <;> rfl
    · rw [hf]; unfold growTarget appendData; split <;> rfl
    · rw [hf]; unfold growTarget appendData; split <;> rfl
    · rw [hf]; unfold growTarget appendData; split <;> exact ⟨rfl, rfl, rfl, rfl⟩
  | copy offset size =>
    rw [show Piece.command (.copy offset size) = .encCopy offset size from rfl, exec_encCopy] at h
    obtain ⟨-, e₂, hb, rfl⟩ := encCommand_answer_ok h hr
    obtain ⟨-, hb⟩ := whenReady_answer_ok hb
    split at hb
    · simp at hb
    rename_i hin
    split at hb
    · simp at hb
    rename_i hov
    simp only at hb
    split at hb
    · simp at hb
    rename_i e₁ he
    simp only [EncEnd.ok.injEq, and_true] at hb
    subst hb
    have hf := encodeInstruction_frame he
    have hhere : encHere s.enc = dictionary.length + tw.length := by unfold encHere; omega
    rw [hhere] at hin he hf
    have hov := not_overflow hov
    rw [hhere] at hov
    obtain ⟨out, ho, hol, -⟩ := copyOnto_eq (n := size.toNat) (x := offset.toNat) (u := dictionary ++ tw) (by simp; omega)
    have hdrop : (copyOnto size.toNat offset.toNat (dictionary ++ tw)).drop dictionary.length = tw ++ out := by
      rw [ho, List.append_assoc, List.drop_left]
    have hmode := acEncode_mode hw.cacheOk offset.toNat (dictionary.length + tw.length)
    rw [hw.near, hw.same] at hmode
    rw [hhere]
    generalize hac : acEncode s.enc.cache offset.toNat (dictionary.length + tw.length) = r at *
    obtain ⟨mode, value, c'⟩ := r
    simp only at he hf hmode ⊢
    have hc' : c' = acUpdate s.enc.cache offset.toNat := (acEncode_cases hac).1
    have hcache : e₁.cache = c' := by rw [hf]
    have hab : addressBytes e₁.cache mode value = addressBytes s.enc.cache mode value := by
      rw [hcache, hc']; unfold addressBytes; simp
    rw [hab]
    have hg := grew_address (e := s.enc) (e₁ := e₁) (bytes := addressBytes s.enc.cache mode value) (n := size.toNat) (by rw [hf]) (by rw [hf]) (by rw [hf])
    have hov' : dictionary.length + (tw ++ out).length ≤ 4294967295 := by
      simp only [List.length_append]; omega
    have hp := window_plays (x := c') (tw' := tw ++ out) (c' := c') hw (by simp) (by omega) size.isLt he hg
      (by unfold growTarget appendAddress; split <;> rfl) (by rw [hf]; unfold growTarget appendAddress; split <;> rfl)
      (by rw [hf]; unfold growTarget appendAddress; split <;> simp [htar])
      (fun d hs hroom => hdrop ▸ halfRuns_copy hroom hs.whole hw.cacheOk (by omega) (by omega) hac)
    refine ⟨tw ++ out, by simp [Piece.onto, ho], window_of_grew hw hg hp ?_ ?_ (.inr ⟨offset.toNat, offset.isLt, ?_⟩) ?_ hov' ?_, ?_⟩
    · rw [hf]; unfold growTarget appendAddress; split <;> simp [htar, hol]
    · rw [hf]; unfold growTarget appendAddress; split <;> rfl
    · rw [← hc', hf]; unfold growTarget appendAddress; split <;> rfl
    · rw [hf]; unfold growTarget appendAddress; split <;> rfl
    · rw [hf]; unfold growTarget appendAddress; split <;> rfl
    · rw [hf, hc']; unfold growTarget appendAddress; split <;> exact ⟨rfl, rfl, rfl, by simp⟩

/-! ### A window, from its start to its end -/

theorem atStart_placed {dictionary : Bytes} {c : AddrCache} {d : Dec} (h : AtStart dictionary c d) :
    placed d 0 0 0 [] c (activeWin d).prevInst d.lintAddAdd = d := by
  have := placed_self d
  rwa [h.ip, h.dp, h.ap, h.tw, h.cache] at this

/-- A window just cleared (R221, R227). -/
theorem window_cleared {dictionary : Bytes} {fn : SameIndexFn} {e : Enc} (h1 : e.insts = []) (h2 : e.data = []) (h3 : e.addrs = [])
    (h4 : e.lastOpcodeIndex = none) (h5 : e.cache = freshCache 4 3 fn) (h6 : e.targetLen = 0) (h7 : e.etab = defTab)
    (h8 : e.dictSize.toNat = dictionary.length) (h9 : e.state = .ready) : Window dictionary (freshCache 4 3 fn) e [] where
  plays := by
    intro d hs _
    refine ⟨(activeWin d).prevInst, d.lintAddAdd, ?_⟩
    unfold endOf
    rw [h1, h2, h3, h5]
    exact congrArg replayRest (atStart_placed hs).symm
  pending := by intro i b op hl; rw [h4] at hl; simp at hl
  target := h6
  tab := h7
  near := by rw [h5]; rfl
  same := by rw [h5]; rfl
  cacheOk := by rw [h5]; exact freshCache_ok 4 3 fn
  dict := h8
  width := by have := e.dictSize.isLt; simp only [List.length_nil]; omega
  empty := fun _ => ⟨h2, h3⟩
  written := fun _ => rfl
  ready := h9

theorem runsOk_append {a b : List Instr} {s t : State} : RunsOk (a ++ b) s t ↔ ∃ u, RunsOk a s u ∧ RunsOk b u t := by
  induction a generalizing s with
  | nil => simp [RunsOk]
  | cons i a ih =>
    simp only [List.cons_append, RunsOk, ih]
    constructor
    · rintro ⟨u, h1, h2, v, h3, h4⟩; exact ⟨v, ⟨u, h1, h2, h3⟩, h4⟩
    · rintro ⟨v, ⟨u, h1, h2, h3⟩, h4⟩; exact ⟨u, h1, h2, v, h3, h4⟩

theorem Kept.trans {a b c : Enc} (h : Kept a b) (k : Kept b c) : Kept a c :=
  ⟨k.sink.trans h.sink, k.hasChecksum.trans h.hasChecksum, k.checksum.trans h.checksum, k.indexFn.trans h.indexFn⟩

theorem window_pieces {dictionary : Bytes} {c0 : AddrCache} {pieces : List Piece} {s u : State} {tw : Bytes}
    (hw : Window dictionary c0 s.enc tw) (h : RunsOk (pieces.map Piece.command) s u) :
    ∃ tw', pieces.foldl (fun u p => p.onto u) (dictionary ++ tw) = dictionary ++ tw' ∧ Window dictionary c0 u.enc tw' ∧
      Kept s.enc u.enc := by
  induction pieces generalizing s tw with
  | nil =>
    cases (show s = u from h)
    exact ⟨tw, rfl, hw, ⟨rfl, rfl, rfl, rfl⟩⟩
  | cons p pieces ih =>
    obtain ⟨v, h1, h2, h3⟩ := h
    obtain ⟨tw₁, e1, w1, k1⟩ := window_piece hw h1 h2
    obtain ⟨tw₂, e2, w2, k2⟩ := ih w1 h3
    exact ⟨tw₂, by rw [List.foldl_cons, e1, e2], w2, k1.trans k2⟩

/-- The commands of a window before `ENC_OUTPUT` (R328). -/
theorem window_commands {dictionary : Bytes} {c0 : AddrCache} {w : WindowPlan} {s u : State}
    (hw : Window dictionary c0 s.enc []) (hc : s.enc.hasChecksum = false) (h : RunsOk (w.commands dictionary) s u) :
    Window dictionary c0 u.enc (w.target dictionary) ∧ u.enc.sink = s.enc.sink ∧ u.enc.cache.indexFn = s.enc.cache.indexFn ∧
      (u.enc.hasChecksum = true → u.enc.checksum = adler32 (w.target dictionary)) := by
  obtain ⟨v, h1, h2⟩ := runsOk_append.mp h
  obtain ⟨tw, e1, w1, k1⟩ := window_pieces hw h1
  have ht : w.target dictionary = tw := by
    unfold WindowPlan.target
    rw [List.append_nil] at e1
    rw [e1, List.drop_left]
  cases hch : w.checked with
  | false =>
    rw [hch] at h2
    cases (show v = u from h2)
    rw [ht]
    exact ⟨w1, k1.sink, k1.indexFn, by rw [k1.hasChecksum, hc]; simp⟩
  | true =>
    rw [hch] at h2
    obtain ⟨x, h3, h4, h5⟩ := h2
    cases (show x = u from h5)
    rw [exec_encAddChecksum] at h3
    obtain ⟨-, e, hb, rfl⟩ := encCommand_answer_ok h3 h4
    obtain ⟨-, hb⟩ := whenReady_answer_ok hb
    simp only [EncEnd.ok.injEq, and_true] at hb
    subst hb
    rw [ht]
    refine ⟨?_, k1.sink, k1.indexFn, fun _ => rfl⟩
    refine ⟨?_, ?_, w1.target, w1.tab, w1.near, w1.same, w1.cacheOk, w1.dict, w1.width, w1.empty, w1.written, w1.ready⟩
    · exact fun d hs hcov => w1.plays d hs ⟨hcov.insts, hcov.data, hcov.addrs, hcov.layout, hcov.room⟩
    · exact fun i b op q1 q2 q3 d hs hcov => w1.pending i b op q1 q2 q3 d hs ⟨hcov.insts, hcov.data, hcov.addrs, hcov.layout, hcov.room⟩

/-- `ENC_OUTPUT` (R227): the window is written, nothing if it has no instruction, and the next one begins. -/
theorem window_output {dictionary : Bytes} {fn : SameIndexFn} {s u : State} {tw : Bytes} (hw : Window dictionary (freshCache 4 3 fn) s.enc tw)
    (hfn : s.enc.cache.indexFn = fn) (h : RunsOk [.encOutput] s u) :
    Window dictionary (freshCache 4 3 fn) u.enc [] ∧ u.enc.hasChecksum = false ∧ u.enc.cache.indexFn = fn ∧
      ((tw = [] ∧ u.enc.sink = s.enc.sink) ∨
       (deltaWindowSize s.enc ≤ 4294967295 ∧ u.enc.sink = s.enc.sink ++ (windowPreamble s.enc ++ deltaEncoding s.enc))) := by
  obtain ⟨v, h1, h2, h3⟩ := h
  cases (show v = u from h3)
  rw [exec_encOutput] at h1
  obtain ⟨-, e, hb, rfl⟩ := encCommand_answer_ok h1 h2
  obtain ⟨-, hb⟩ := whenReady_answer_ok hb
  have hcache : acInit s.enc.cache = freshCache 4 3 fn := by unfold acInit; rw [hw.near, hw.same, hfn]
  split at hb
  · rename_i hi
    simp only [EncEnd.ok.injEq, and_true] at hb
    subst hb
    exact ⟨window_cleared rfl rfl rfl rfl hcache rfl hw.tab hw.dict hw.ready, rfl, hfn,
      .inl ⟨hw.written (List.eq_nil_of_length_eq_zero hi), rfl⟩⟩
  · split at hb
    · simp at hb
    · rename_i hl
      simp only [EncEnd.ok.injEq, and_true] at hb
      subst hb
      exact ⟨window_cleared rfl rfl rfl rfl hcache rfl hw.tab hw.dict hw.ready, rfl, hfn,
        .inr ⟨Nat.not_lt.mp fun hx => hl (.inr hx), rfl⟩⟩

/-! ## A window decoded -/

/-- The header `ENC_OUTPUT` writes for the window (R227). -/
def headerOf (e : Enc) : StreamHeader where
  space := .dict
  hasChecksum := e.hasChecksum
  size := e.dictSize.toNat
  pos := 0
  deltaLen := deltaWindowSize e
  targetLen := e.targetLen
  dataLen := e.data.length
  instLen := e.insts.length
  addrLen := e.addrs.length
  checksum := e.checksum.toNat
  sizeBytes := viWrite e.dictSize.toNat
  posBytes := viWrite 0
  deltaLenBytes := viWrite (deltaWindowSize e)
  targetLenBytes := viWrite e.targetLen
  dataLenBytes := viWrite e.data.length
  instLenBytes := viWrite e.insts.length
  addrLenBytes := viWrite e.addrs.length
  checksumBytes := viWrite e.checksum.toNat

theorem isVarInt_viWrite {v : Nat} (h : v < 4294967296) : IsVarInt v (viWrite v) := by
  have := viRead_middle (width := 32) (.inl rfl) h [] [] (lim := viLen v) (by simp)
  unfold IsVarInt
  simpa using this

theorem headerOf_bytes (e : Enc) :
    windowPreamble e ++ deltaEncoding e = (headerOf e).upTo 10 ++ (e.data ++ (e.insts ++ e.addrs)) := by
  unfold windowPreamble deltaEncoding StreamHeader.upTo StreamHeader.fields StreamHeader.indicator headerOf
  cases e.hasChecksum <;> simp

theorem headerOf_encoded {e : Enc} (h1 : deltaWindowSize e ≤ 4294967295) (h2 : e.targetLen ≤ 4294967295) : (headerOf e).Encoded := by
  have hd : e.data.length < 4294967296 ∧ e.insts.length < 4294967296 ∧ e.addrs.length < 4294967296 := by
    unfold deltaWindowSize at h1; omega
  refine ⟨by simp [headerOf], fun _ => ⟨isVarInt_viWrite e.dictSize.isLt, isVarInt_viWrite (v := 0) (by omega)⟩,
    isVarInt_viWrite (Nat.lt_succ_of_le h1), isVarInt_viWrite (Nat.lt_succ_of_le h2), isVarInt_viWrite hd.1, isVarInt_viWrite hd.2.1, isVarInt_viWrite hd.2.2,
    fun _ => isVarInt_viWrite e.checksum.isLt⟩

theorem headerOf_consistent (e : Enc) : (headerOf e).Consistent := by
  unfold StreamHeader.Consistent StreamHeader.fields headerOf deltaWindowSize
  cases e.hasChecksum <;> simp <;> omega

/-- A session between windows, with the default code table (R302). -/
structure Between (dictionary : Bytes) (fn : SameIndexFn) (d : Dec) : Prop where
  live : LiveOk d
  replaying : d.replaying = false
  nested : d.nested = none
  state : d.state = .expectWinIndicator
  tab : d.dtab = defTab
  near : d.ctx.cache.nearSize = 4
  same : d.ctx.cache.sameSize = 3
  indexFn : d.ctx.cache.indexFn = fn
  dict : d.dict = dictionary

theorem started_of_none {d : Dec} (h : d.nested = none) (w : StreamHeader) (stream : Bytes) :
    (w.started stream d).nested = none ∧ (w.started stream d).dtab = d.dtab ∧ (w.started stream d).dict = d.dict ∧
    (w.started stream d).sink = d.sink ∧ (w.started stream d).pending = stream ∧ (w.started stream d).hasChecksum = w.hasChecksum ∧
    (w.started stream d).ctx.dtarget = d.ctx.dtarget ∧ (w.started stream d).ctx.tw = [] ∧
    (w.started stream d).ctx.cache = acInit d.ctx.cache ∧ (w.started stream d).maxMode = d.maxMode ∧
    (w.started stream d).maxTargetFileSize = d.maxTargetFileSize ∧ (w.started stream d).maxTargetWindowSize = d.maxTargetWindowSize ∧
    (w.started stream d).maxSectionSize = d.maxSectionSize ∧ (w.started stream d).state = d.state := by
  unfold StreamHeader.started
  rw [setActive_of_none _ _ (show ({ d with
      pending := stream, hasChecksum := w.hasChecksum, interleaved := w.dataLen == 0 && w.addrLen == 0, replaying := true } : Dec).nested = none from h)]
  rw [activeCtx_of_none _ h]
  exact ⟨h, rfl, rfl, rfl, rfl, rfl, rfl, rfl, rfl, rfl, rfl, rfl, rfl, rfl⟩

theorem win_started (w : StreamHeader) (stream : Bytes) (d : Dec) : activeWin (w.started stream d) = {
    winIndicator := w.indicator, srcSegSize := w.size, srcSegPos := w.pos, srcSegSpace := w.space,
    deltaLen := w.deltaLen, targetLen := w.targetLen, dataLen := w.dataLen, instLen := w.instLen,
    addrLen := w.addrLen, prevInst := .noop, ip := 0, dp := 0, ap := 0, bodyPos := (w.upTo 10).length,
    checksum := if w.hasChecksum then BitVec.ofNat 32 w.checksum else (activeWin d).checksum } := by
  unfold activeWin StreamHeader.started
  rw [activeCtx_setActive]
  rfl

theorem sections_at (H a b c r : Bytes) :
    ((H ++ ((a ++ (b ++ c)) ++ r)).drop H.length).take a.length = a ∧
    ((H ++ ((a ++ (b ++ c)) ++ r)).drop (H.length + a.length)).take b.length = b ∧
    ((H ++ ((a ++ (b ++ c)) ++ r)).drop (H.length + a.length + b.length)).take c.length = c := by
  refine ⟨?_, ?_, ?_⟩
  · rw [List.drop_left, List.append_assoc, List.take_left]
  · rw [show H ++ ((a ++ (b ++ c)) ++ r) = (H ++ a) ++ (b ++ (c ++ r)) by simp, ← List.length_append, List.drop_left, List.take_left]
  · rw [show H ++ ((a ++ (b ++ c)) ++ r) = ((H ++ a) ++ b) ++ (c ++ r) by simp, ← List.length_append, ← List.length_append,
      List.drop_left, List.take_left]

theorem placed_of_none {d : Dec} (h : d.nested = none) (i p q : Nat) (tw : Bytes) (c : AddrCache) (k : InstKind) (l : Bool) :
    placed d i p q tw c k l = { d with
      lintAddAdd := l,
      ctx := { d.ctx with tw := tw, cache := c, win := { d.ctx.win with ip := i, dp := p, ap := q, prevInst := k } } } := by
  unfold placed
  rw [setActive_of_none _ _ (show ({ d with lintAddAdd := l } : Dec).nested = none from h), activeWin, activeCtx_of_none _ h]

theorem commit_endOf {d : Dec} {e : Enc} {tw : Bytes} {k : InstKind} {l : Bool} (h : d.nested = none) :
    commit (endOf e tw k l d) = { d with
      lintAddAdd := l, sink := d.sink ++ tw, pending := d.pending.drop (windowLen d), replaying := false, freeCount := d.freeCount + 1,
      ctx := { d.ctx with
        tw := tw, dtarget := d.ctx.dtarget ++ tw, totalTargetLen := d.ctx.totalTargetLen + tw.length,
        win := Config.freeWindow d.freeCount, cache := freedCache d.freeCount e.cache } } := by
  have hl : windowLen (endOf e tw k l d) = windowLen d := windowLen_placed ..
  rw [commit_of_none (by unfold endOf; rw [placed_of_none h]; exact h), hl]
  unfold endOf
  rw [placed_of_none h]

/-- A window that has arrived whole: its replay begins (R311 to R321). -/
theorem decodeWindow_started {d : Dec} {w : StreamHeader} {body rest : Bytes} (h : LiveOk d)
    (hin : ∀ n, d.nested = some n → n.phase = .innerWindows) (hp : d.pending = w.upTo 10 ++ (body ++ rest)) (ha : w.Accepted 10 d)
    (he : w.Encoded) (hc : w.Consistent) (hb : body.length = w.dataLen + w.instLen + w.addrLen) :
    decodeWindow d = finishWindow (w.started d.pending d) ∧ WindowLive (w.started d.pending d) := by
  have hact := liveOk_active h
  have hleads := parseWindowHeader_leads d hact.1 hact.2.1
  have hparse := (parseWindowHeader_stream hp ha he).1 hc
  rw [hparse] at hleads
  obtain ⟨r, hh⟩ := hleads
  have e3 : (Hdr.r10 w (activeWin d)).dataLen = w.dataLen ∧ (Hdr.r10 w (activeWin d)).instLen = w.instLen ∧
      (Hdr.r10 w (activeWin d)).addrLen = w.addrLen := by
    unfold Hdr.r10; split <;> exact ⟨rfl, rfl, rfl⟩
  have hlen := congrArg List.length hp
  simp only [List.length_append] at hlen
  have hl : ¬ (parsing d (Hdr.r10 w (activeWin d)) w.hasChecksum (w.dataLen == 0 && w.addrLen == 0)).pending.length <
      (w.upTo 10).length + (Hdr.r10 w (activeWin d)).dataLen + (Hdr.r10 w (activeWin d)).instLen + (Hdr.r10 w (activeWin d)).addrLen := by
    rw [parsing_pending, e3.1, e3.2.1, e3.2.2]; omega
  rw [← startReplay_parsing]
  refine ⟨?_, startReplay_live h hin r hh (by rw [parsing_win]; exact Nat.not_lt.mp hl)⟩
  unfold decodeWindow
  rw [hparse]
  simp only [parsing_win]
  rw [if_neg hl]

/-- A window as the encoder wrote it is decoded to its target (R328). -/
theorem decode_window {dictionary : Bytes} {fn : SameIndexFn} {d : Dec} {e : Enc} {tw rest : Bytes} (hb : Between dictionary fn d)
    (hw : Window dictionary (freshCache 4 3 fn) e tw) (hfn : e.cache.indexFn = fn) (hck : e.hasChecksum = true → e.checksum = adler32 tw) (hfit : WindowFits e d)
    (hl : deltaWindowSize e ≤ 4294967295) (htot : d.ctx.dtarget.length + tw.length ≤ d.maxTargetFileSize.toNat)
    (hp : d.pending = (windowPreamble e ++ deltaEncoding e) ++ rest) :
    ∃ d', driveItem d = .done d' ∧ Between dictionary fn d' ∧ d'.pending = rest ∧ d'.sink = d.sink ++ tw ∧
      d'.ctx.dtarget = d.ctx.dtarget ++ tw ∧ d'.maxTargetFileSize = d.maxTargetFileSize ∧
      d'.maxTargetWindowSize = d.maxTargetWindowSize ∧ d'.maxSectionSize = d.maxSectionSize := by
  have htar := hw.target
  have hwid := hw.width
  have hdict := hw.dict
  obtain ⟨f1, f2, f3, f4⟩ := hfit
  have hactive : activeCtx d = d.ctx := activeCtx_of_none _ hb.nested
  have hp' : d.pending = (headerOf e).upTo 10 ++ ((e.data ++ (e.insts ++ e.addrs)) ++ rest) := by
    rw [hp, headerOf_bytes, List.append_assoc]
  have hacc : (headerOf e).Accepted 10 d := by
    refine ⟨fun _ hs => by simp [headerOf] at hs, fun _ => ?_, fun _ => ⟨f1, ?_⟩, fun _ => f2, fun _ => f3, fun _ => f4⟩
    · show 0 + e.dictSize.toNat ≤ activeDictSize d
      unfold activeDictSize
      rw [hb.nested]
      simp only
      rw [hb.live.base.dictSize, hb.dict]; omega
    · show (activeCtx d).totalTargetLen + e.targetLen ≤ _
      rw [hactive, hb.live.base.total]; omega
  obtain ⟨hdec, hlive⟩ := decodeWindow_started hb.live (fun n hn => by rw [hb.nested] at hn; simp at hn) hp' hacc
    (headerOf_encoded hl (by omega)) (headerOf_consistent e) (by simp [headerOf]; omega)
  obtain ⟨g1, g2, g3, g4, g5, g6, g7, g8, g9, g10, g11, g12, g13, g14⟩ := started_of_none hb.nested (headerOf e) d.pending
  have gw := win_started (headerOf e) d.pending d
  generalize hD : (headerOf e).started d.pending d = D at *
  have gctx : activeCtx D = D.ctx := activeCtx_of_none _ g1
  obtain ⟨s1, s2, s3⟩ := sections_at ((headerOf e).upTo 10) e.data e.insts e.addrs rest
  have hDa : dataSec D = e.data := by
    unfold dataSec; rw [gw, g5, hp']; exact s1
  have hI : instSec D = e.insts := by
    unfold instSec; rw [gw, g5, hp']; exact s2
  have hAd : addrSec D = e.addrs := by
    unfold addrSec; rw [gw, g5, hp']; exact s3
  have hstart : AtStart dictionary (freshCache 4 3 fn) D := by
    refine ⟨hlive.window, by rw [gw], by rw [gw], by rw [gw], by rw [gctx]; exact g8, ?_, ?_, ?_, ?_, hlive.window.2.1⟩
    · rw [gctx, g9]; unfold acInit; rw [hb.near, hb.same, hb.indexFn]
    · unfold activeTab; rw [g1]; exact g2.trans hb.tab
    · unfold segmentBytes activeDict
      rw [gw, g1, g3, hb.dict]
      simp [headerOf, hdict]
    · rw [gw]; exact hdict
  have hcov : Covers e D := by
    refine ⟨⟨[], by rw [hI, List.append_nil]⟩, ⟨[], by rw [hDa, List.append_nil]⟩, ⟨[], by rw [hAd, List.append_nil]⟩, ?_, ?_⟩
    · intro hi
      have := hlive.window.2.2.2.2.2.2.2
      rw [this, gw]
      simp [headerOf, hw.empty hi]
    · rw [gw]; exact Nat.le_refl _
  obtain ⟨k, l, hplay⟩ := hw.plays D hstart hcov
  have hrest : replayRest D = .ok (endOf e tw k l D) := by
    rw [hplay]
    refine replayRest_done ?_
    unfold endOf
    rw [activeWin_placed, gw]
    exact Nat.le_refl _
  have hfin : finishWindow D = .done { commit (endOf e tw k l D) with state := .expectWinIndicator } := by
    unfold finishWindow
    rw [hrest]
    simp only
    unfold closeWindow
    have ht : terminate (endOf e tw k l D) = .ok (endOf e tw k l D) := by
      unfold terminate endOf
      rw [activeCtx_placed, activeWin_placed, gw, if_neg, if_neg]
      · simp [headerOf]
      · simp [headerOf, htar]
    have hc : checkChecksum (endOf e tw k l D) = .ok (endOf e tw k l D) := by
      unfold checkChecksum
      rw [if_neg]
      rintro ⟨h1, h2⟩
      unfold endOf at h1 h2
      rw [placed_of_none g1] at h1
      rw [activeCtx_placed, activeWin_placed, gw] at h2
      have h1 : e.hasChecksum = true := by rw [← show (headerOf e).hasChecksum = e.hasChecksum from rfl, ← g6]; exact h1
      apply h2
      simp only [show (headerOf e).hasChecksum = e.hasChecksum from rfl, h1, if_true]
      rw [← hck h1]
      simp [headerOf]
    rw [ht]
    show (match checkChecksum _ with | .ok d => _ | .raise c d => _ | .fault f => _) = _
    rw [hc]
    simp only
    unfold windowDone
    rw [show (commit (endOf e tw k l D)).nested = none by rw [commit_endOf g1]; exact g1]
  have hdrive : driveItem d = .done { commit (endOf e tw k l D) with state := .expectWinIndicator } := by
    unfold driveItem
    rw [hb.state]
    exact hdec.trans hfin
  have hsound := driveItem_sound hb.live hb.replaying
  rw [hdrive] at hsound
  refine ⟨_, hdrive, ⟨hsound.1, hsound.2.1, ?_, rfl, ?_, ?_, ?_, ?_, ?_⟩, ?_, ?_, ?_, ?_, ?_, ?_⟩ <;> simp only [commit_endOf g1]
  · exact g1
  · exact g2.trans hb.tab
  · exact hw.near
  · exact hw.same
  · exact hfn
  · exact g3.trans hb.dict
  · rw [g5, hp]
    have hwl : windowLen D = (windowPreamble e ++ deltaEncoding e).length := by
      unfold windowLen
      rw [gw, headerOf_bytes]
      simp only [headerOf, List.length_append]
      omega
    rw [hwl, List.drop_left]
  · rw [g4]
  · rw [g7]
  · exact g11
  · exact g12
  · exact g13

/-! ## A file -/

theorem drive_done {d d' : Dec} (h : LiveOk d) (hr : d.replaying = false) (ha : atRest d = false) (hd : driveItem d = .done d') :
    drive d = drive d' := by
  have hs := driveItem_sound h hr
  rw [hd] at hs
  rw [drive_item ha, hd]
  exact driveLoop_eq_drive hs.1 hs.2.1 hs.2.2

theorem windowPreamble_ne (e : Enc) : windowPreamble e ≠ [] := by simp [windowPreamble]

/-- The windows of a file, written and then decoded (R328). -/
theorem decode_windows {dictionary : Bytes} {fn : SameIndexFn} {caps : Dec} {plans : List WindowPlan} {s t : State}
    (hw : Window dictionary (freshCache 4 3 fn) s.enc []) (hck : s.enc.hasChecksum = false) (hfn : s.enc.cache.indexFn = fn)
    (h : WritesWindows dictionary caps plans s t) :
    ∃ bytes, t.enc.sink = s.enc.sink ++ bytes ∧
      ∀ d, Between dictionary fn d → d.pending = bytes → d.maxTargetFileSize = caps.maxTargetFileSize →
        d.maxTargetWindowSize = caps.maxTargetWindowSize → d.maxSectionSize = caps.maxSectionSize →
        d.ctx.dtarget.length + (fileTarget dictionary plans).length ≤ caps.maxTargetFileSize.toNat →
        ∃ d', drive d = .ok d' ∧ d'.state = .expectWinIndicator ∧ d'.pending = [] ∧
          d'.sink = d.sink ++ fileTarget dictionary plans ∧ d'.ctx.dtarget = d.ctx.dtarget ++ fileTarget dictionary plans := by
  induction plans generalizing s with
  | nil =>
    cases (show s = t from h)
    refine ⟨[], by simp, fun d hb hp _ _ _ _ => ⟨{ d with state := .expectWinIndicator }, ?_, rfl, hp, by simp [fileTarget], by simp [fileTarget]⟩⟩
    unfold drive
    rw [driveLoop, if_pos]
    unfold atRest
    rw [hb.state, hp]
    rfl
  | cons w plans ih =>
    obtain ⟨u, v, h1, h2, h3, h4⟩ := h
    obtain ⟨w1, k1, k2, k3⟩ := window_commands hw hck h1
    obtain ⟨w2, o1, o2, o3⟩ := window_output w1 (k2.trans hfn) h3
    obtain ⟨bytes, hb, hdec⟩ := ih w2 o1 o2 h4
    have htarget : fileTarget dictionary (w :: plans) = w.target dictionary ++ fileTarget dictionary plans := rfl
    rcases o3 with ⟨e1, e2⟩ | ⟨hl, e2⟩
    · refine ⟨bytes, by rw [hb, e2, k1], ?_⟩
      rw [htarget, e1, List.nil_append]
      exact hdec
    · refine ⟨(windowPreamble u.enc ++ deltaEncoding u.enc) ++ bytes, by rw [hb, e2, k1, List.append_assoc], ?_⟩
      intro d hbt hp c1 c2 c3 hlen
      rw [htarget, List.length_append] at hlen
      have hfit : WindowFits u.enc d := by unfold WindowFits; rw [c2, c3]; exact h2
      obtain ⟨d1, i1, i2, i3, i4, i5, i6, i7, i8⟩ := decode_window hbt w1 (k2.trans hfn) k3 hfit hl (by rw [c1]; omega) hp
      obtain ⟨d2, j1, j2, j3, j4, j5⟩ := hdec d1 i2 i3 (i6.trans c1) (i7.trans c2) (i8.trans c3) (by rw [i5, List.length_append]; omega)
      refine ⟨d2, ?_, j2, j3, by rw [j4, i4, htarget, List.append_assoc], by rw [j5, i5, htarget, List.append_assoc]⟩
      rw [drive_done hbt.live hbt.replaying ?_ i1, j1]
      unfold atRest
      rw [hbt.state, hp]
      simp [windowPreamble]

theorem outerHeader_written {d : Dec} {ext : Bool} {rest : Bytes} (hp : d.pending = headerBytes ext ++ rest) :
    outerHeader d = .done { d with pending := rest, state := .expectWinIndicator } := by
  unfold outerHeader parseFileHeader
  rw [hp]
  cases ext <;> rfl

end Sys2Proof.Machine
end

