-- ==== Sys2Proof/Tests/Slice0.lean ====
section
/-! SUPPORT. Tests of the model, their expected values taken from spec/ (95_test_vectors.md, the examples of the rules, the formulas of
30_encoding.md R113 and R117) and named beside each; and, for every obligation with hypotheses, concrete states and operands that
meet them. -/

namespace Sys2Proof.Tests

open Sys2Proof Sys2Proof.Machine Sys2Proof.Safety

-- one theorem after the other: each waits for the kernel, and a waiting theorem holds a thread and its stack
set_option Elab.async false

/-! ## Helpers -/

/-- The state after some instructions from reset. -/
def after (is : List Instr) : State :=
  match runInstrs is State.reset with
  | .next t => t
  | _ => State.reset

/-- One instruction from `s`, seen through `f`. -/
def see {α : Type} (f : State → α) : Host.Outcome State Fault Refusal → Option α
  | .next t => some (f t)
  | _ => none

/-- Some more instructions from `s`, seen through `f`. -/
def seeRun {α : Type} (f : State → α) (is : List Instr) (s : State) : Option α := see f (runInstrs is s)

/-- An instruction answers a next state. -/
def goes (o : Host.Outcome State Fault Refusal) : Bool :=
  match o with
  | .next _ => true
  | _ => false

/-! ## Well-formedness: a term each check refuses -/

theorem test_wf_encNew_image : (Instr.encNew false (some { image := [0], nearSize := 4, sameSize := 3, maxMode := 8 })).wf = false := by
  decide

theorem test_wf_encAdd_bytes : (Instr.encAdd 4 1 3 [0x61]).wf = false := by decide

theorem wf_long_dictionary (d : Bytes) (h : 4294967295 < d.length) : (Instr.decStart d).wf = false := by
  unfold Instr.wf
  exact decide_eq_false (by omega)

/-- The dictionary of `DEC_START` has at most 2^32 − 1 bytes (R300). -/
theorem test_wf_decStart_length : ∃ d : Bytes, d.length = 4294967296 ∧ (Instr.decStart d).wf = false :=
  ⟨List.replicate 4294967296 0, List.length_replicate,
    wf_long_dictionary _ (Nat.lt_of_lt_of_eq (by decide) List.length_replicate.symm)⟩

theorem test_wf_decStart_fits : (Instr.decStart [0x61]).wf = true := by decide

/-! ## Decoding: words written out from R113 and R117 -/

/-- RUN 0; ADD 1; ADD.s is 1 + s; COPY.m is 19 + 16m; COPY.m.s is 19 + 16m + (s − 3) (R113). -/
theorem test_decode_single :
    decodeOpcode 0x00 = .run ∧ decodeOpcode 0x01 = .add ∧ decodeOpcode 0x02 = .addS1 ∧ decodeOpcode 0x12 = .addS17 ∧
    decodeOpcode 0x13 = .copyM0 ∧ decodeOpcode 0x93 = .copyM8 ∧ decodeOpcode 0x14 = .copyM0S4 ∧
    decodeOpcode 0x22 = .copyM0S18 ∧ decodeOpcode 0x65 = .copyM5S5 ∧ decodeOpcode 0xA2 = .copyM8S18 := by decide

/-- 163 + 12m + 3(a − 1) + (c − 4); 235 + 4(m − 6) + (a − 1); 247 + m (R113). -/
theorem test_decode_compound :
    decodeOpcode 0xA3 = .addS1CopyM0S4 ∧ decodeOpcode 0xA7 = .addS2CopyM0S5 ∧ decodeOpcode 0xEA = .addS4CopyM5S6 ∧
    decodeOpcode 0xEB = .addS1CopyM6S4 ∧ decodeOpcode 0xF6 = .addS4CopyM8S4 ∧ decodeOpcode 0xF7 = .copyM0S4AddS1 ∧
    decodeOpcode 0xFF = .copyM8S4AddS1 := by decide

/-- Every opcode instruction encodes to its own byte: 0 to 255, no two alike. -/
theorem test_decode_every_opcode :
    ∀ w : Fin 256, encode (decodeOpcode (BitVec.ofNat 8 w.val)) = .stream [BitVec.ofNat 8 w.val] := by decide +kernel

/-- The decoder's commands by their codes (R117). -/
theorem test_decode_decoder_commands :
    decodeCommand { code := 0x01, dict := [0x61] } = .ok (.decStart [0x61]) ∧
    decodeCommand { code := 0x02, input := [0xD6, 0xC3] } = .ok (.decChunk [0xD6, 0xC3]) ∧
    decodeCommand { code := 0x03 } = .ok .decFinish ∧
    decodeCommand { code := 0x04, arg0 := 1 } = .ok (.decSetAllowVcdTarget true) ∧
    decodeCommand { code := 0x05, arg0 := 4294967296 } = .ok (.decSetMaxTargetFileSize 4294967296) ∧
    decodeCommand { code := 0x06, arg0 := 7 } = .ok (.decSetMaxTargetWindowSize 7) ∧
    decodeCommand { code := 0x07, arg0 := 9 } = .ok (.decSetMaxSectionSize 9) := by
  and_intros <;> rfl

/-- The encoder's commands by their codes (R117). -/
theorem test_decode_encoder_commands :
    decodeCommand { code := 0x10, arg0 := 1 } = .ok (.encNew true none) ∧
    decodeCommand { code := 0x11, arg0 := 13 } = .ok (.encInit 13) ∧
    decodeCommand { code := 0x12, arg0 := 4, arg1 := 1, arg2 := 2, encData := [1, 2] } = .ok (.encAdd 4 1 2 [1, 2]) ∧
    decodeCommand { code := 0x13, arg0 := 300, arg1 := 0x55 } = .ok (.encRun 300 0x55) ∧
    decodeCommand { code := 0x14, arg0 := 10, arg1 := 4 } = .ok (.encCopy 10 4) ∧
    decodeCommand { code := 0x15, arg0 := 1 } = .ok (.encAddChecksum 1) ∧ decodeCommand { code := 0x16 } = .ok .encOutput ∧
    decodeCommand { code := 0x17, arg0 := 1 } = .ok (.encWriteHeader true) ∧
    decodeCommand { code := 0x18 } = .ok .encTargetLength ∧
    decodeCommand { code := 0x19 } = .ok .encGetDeltaWindowSize := by and_intros <;> rfl

/-- Codes R117 does not list, and an argument too wide for its port. -/
theorem test_decode_rejects :
    decodeCommand { code := 0x00 } = .error (.unknownCommand 0x00) ∧
    decodeCommand { code := 0x08 } = .error (.unknownCommand 0x08) ∧
    decodeCommand { code := 0x1A } = .error (.unknownCommand 0x1A) ∧
    decodeCommand { code := 0x11, arg0 := 4294967296 } = .error (.illFormed 0x11) ∧ decodeStream [] = .error .empty := by
  and_intros <;> rfl

/-- A table word: a code of R117 on `CMD`, any other byte an opcode. -/
theorem test_decodeTableWord :
    decodeTableWord 8 0xFF = some .copyM8S4AddS1 ∧ decodeTableWord 8 0x03 = some .decFinish ∧
    decodeTableWord 8 0x14 = some (.encCopy 0 0) ∧ decodeTableWord 16 0x03 = none := by
  decide

/-- Every table word decodes and is what the very next step runs. -/
theorem test_fetchWord :
    ∀ w : Fin 256, (decodeTableWord 8 w.val).isSome = true ∧ goes (step (State.reset.withFetchWord 8 w.val)) = true := by
  decide +kernel

/-! ## Units (95_test_vectors.md sections 2 to 4 and 8) -/

theorem test_varint_300 : viWrite 300 = [0x82, 0x2C] ∧ viRead 32 [0x82, 0x2C] 0 2 = .value 300 2 := by decide +kernel

/-- The boundary values R138 names, and the last of each width, with their encodings from section 2 of 95_test_vectors.md: each is
written so and reads back whatever follows. -/
theorem test_varint_boundaries :
    (∀ p ∈ [((0 : Nat), ([0x00] : Bytes)), (127, [0x7F]), (128, [0x81, 0x00]), (16383, [0xFF, 0x7F]), (16384, [0x81, 0x80, 0x00]),
      (2147483647, [0x87, 0xFF, 0xFF, 0xFF, 0x7F]), (4294967295, [0x8F, 0xFF, 0xFF, 0xFF, 0x7F])],
      viWrite32 [] p.1 = p.2 ∧ viLen p.1 = p.2.length ∧
        viRead 32 (p.2 ++ [0xAA]) 0 (p.2.length + 1) = .value p.1 p.2.length) ∧
    viWrite64 [] 18446744073709551615 = [0x81, 0xFF, 0xFF, 0xFF, 0xFF, 0xFF, 0xFF, 0xFF, 0xFF, 0x7F] ∧
    viRead 64 [0x81, 0xFF, 0xFF, 0xFF, 0xFF, 0xFF, 0xFF, 0xFF, 0xFF, 0x7F] 0 10 = .value 18446744073709551615 10 := by
  decide +kernel

/-- Five bytes at the top of the width, and one past it. -/
theorem test_varint_top :
    viRead 32 [0x8F, 0xFF, 0xFF, 0xFF, 0x7F] 0 5 = .value 4294967295 5 ∧
    viRead 32 [0x90, 0x80, 0x80, 0x80, 0x00] 0 5 = .error .varIntOverflow ∧ viRead 32 [0x80, 0x80] 0 2 = .needMore := by
  decide +kernel

theorem test_adler :
    adler32 [] = 0x00000001 ∧
    adler32 [0x57, 0x69, 0x6B, 0x69, 0x70, 0x65, 0x64, 0x69, 0x61] = 0x11E60398 := by decide +kernel

/-- The reduction modulo 65521 (section 8, 5552 bytes of FF). -/
theorem test_adler_reduces : adler32 (List.replicate 5552 0xFF) = 0xF18F9B8C := by decide +kernel

/-- The examples of R155. -/
theorem test_imapFirst :
    imapFirst defTab .run 0 0 = some 0x00 ∧ imapFirst defTab .add 17 0 = some 0x12 ∧ imapFirst defTab .add 18 0 = none ∧
    imapFirst defTab .copy 0 0 = some 0x13 ∧ imapFirst defTab .copy 3 0 = none ∧ imapFirst defTab .copy 18 8 = some 0xA2 ∧
    imapFirst defTab .copy 4 9 = none := by decide +kernel

/-- The examples of R156. -/
theorem test_imapSecond :
    imapSecond defTab 0x03 .copy 5 0 = some 0xA7 ∧ imapSecond defTab 0x05 .copy 4 8 = some 0xF6 ∧
    imapSecond defTab 0x05 .copy 5 6 = none ∧ imapSecond defTab 0x14 .add 1 0 = some 0xF7 ∧
    imapSecond defTab 0x01 .copy 4 0 = none := by decide +kernel

/-- The example of R192, and the two functions of R193 on it. -/
theorem test_cache_update :
    (acUpdate AddrCache.reset 300).near = [300, 0, 0, 0] ∧ (acUpdate AddrCache.reset 300).nextSlot = 1 ∧
    (acUpdate AddrCache.reset 300).same[44]? = some 300 ∧
    sameIndex { AddrCache.reset with indexFn := .rfc } 300 = 300 := by decide +kernel

/-- An address of 2^32 or more is out of range wherever `here` stands (R196, R28); the last 32-bit address is not. -/
theorem test_address_width :
    acDecode AddrCache.reset 4294967300 1 [0x04] 0 1 = .error .copyAddressOutOfBounds ∧
    acDecode AddrCache.reset 4294967300 1 [0x05] 0 1 = .value 4294967295 1 (acUpdate AddrCache.reset 4294967295) := by
  decide +kernel

/-- I1 of R111: the explicit-size single row of ADD and of RUN has mode 0. -/
theorem test_explicit_mode :
    tabValid defTab 8 = true ∧ tabValid (defTab.set 1 (single .add 0 1)) 8 = false ∧
    tabValid (defTab.set 0 (single .run 0 1)) 8 = false := by decide +kernel

/-- The example of R196: mode 2 on a cleared cache, `here` 10, address byte 03. -/
theorem test_acDecode_near :
    acDecode AddrCache.reset 10 2 [0x03] 0 1 = .value 3 1 (acUpdate AddrCache.reset 3) := by decide +kernel

/-! ## Programs and single windows (95_test_vectors.md sections 6 and 9) -/

/-- The dictionary of section 6: the digits 0 to 9. -/
def digits : Bytes := [0x30, 0x31, 0x32, 0x33, 0x34, 0x35, 0x36, 0x37, 0x38, 0x39]

/-- A standard file header (R91). -/
def header : Bytes := [0xD6, 0xC3, 0xC4, 0x00, 0x00]

/-- One window against `digits`, and what is delivered and answered. -/
def window (bytes : Bytes) : Option (Bytes × Option Result) :=
  seeRun (fun t => (t.dec.sink, t.result)) [.decStart digits, .decChunk (header ++ bytes)] State.reset

/-- P1: RLE by self-overlap, segregated; the file on `ENC_SINK`. -/
theorem test_P1_encoder :
    seeRun (fun t => t.enc.sink) [.encWriteHeader false, .encInit 0, .encRun 1 0x61, .encCopy 0 3, .encOutput] State.reset =
      some [0xD6, 0xC3, 0xC4, 0x00, 0x00, 0x01, 0x00, 0x00, 0x0B, 0x04, 0x00, 0x01, 0x04, 0x01, 0x61, 0x00, 0x01, 0x13, 0x03,
        0x00] := by decide +kernel

/-- P1: the interleaved file, decoded to its end. -/
theorem test_P1_decoder :
    seeRun (fun t => (t.dec.sink, t.dec.state, t.result))
      (session [] [[0xD6, 0xC3, 0xC4, 0x53, 0x00, 0x01, 0x00, 0x00, 0x0B, 0x04, 0x00, 0x00, 0x06, 0x00, 0x00, 0x01, 0x61, 0x13,
        0x03, 0x00]]) State.reset = some ([0x61, 0x61, 0x61, 0x61], .finished, some .ok) := by decide +kernel

/-- P2: a sized COPY of the whole dictionary, interleaved. -/
theorem test_P2_encoder :
    seeRun (fun t => t.enc.sink) [.encNew true none, .encWriteHeader true, .encInit 13, .encCopy 0 13, .encOutput] State.reset =
      some [0xD6, 0xC3, 0xC4, 0x53, 0x00, 0x01, 0x0D, 0x00, 0x07, 0x0D, 0x00, 0x00, 0x02, 0x00, 0x1D, 0x00] := by
  decide +kernel

/-- The dictionary of P3. -/
def dict600 : Bytes := (List.range 600).map (BitVec.ofNat 8)

/-- The file of P3. -/
def fileP3 : Bytes :=
  [0xD6, 0xC3, 0xC4, 0x53, 0x00, 0x05, 0x84, 0x58, 0x00, 0x1D, 0x36, 0x00, 0x04, 0x08, 0x07, 0x83, 0x97, 0xA8, 0x96, 0x7E,
   0x78, 0x79, 0x7A, 0x2D, 0xA7, 0xF9, 0x14, 0x00, 0x14, 0x28, 0x14, 0x76, 0x82, 0x2C, 0x04, 0x0A, 0x24, 0x64, 0x2C]

/-- P3: every instruction type, both compound upgrades, every kind of address mode, a checksum. -/
theorem test_P3_encoder :
    seeRun (fun t => (t.enc.sink, t.enc.targetLen, t.enc.hasChecksum, t.enc.lastOpcodeIndex))
      [.encNew false none, .encWriteHeader true, .encInit 600, .encAdd 2 0 2 [0x78, 0x79], .encCopy 300 5, .encCopy 304 4,
       .encAdd 1 0 1 [0x7A], .encCopy 10 4, .encRun 20 0x2D, .encCopy 600 8, .encCopy 100 4, .encCopy 300 6,
       .encAddChecksum 0x32EA0B7E, .encOutput] State.reset = some (fileP3, 0, false, none) := by decide +kernel

theorem test_P3_decoder :
    seeRun (fun t => (t.dec.sink, t.dec.state, t.dec.lintAddAdd)) (session dict600 [fileP3]) State.reset =
      some ([0x78, 0x79, 0x2C, 0x2D, 0x2E, 0x2F, 0x30, 0x30, 0x31, 0x32, 0x33, 0x7A, 0x0A, 0x0B, 0x0C, 0x0D] ++
        List.replicate 20 0x2D ++ [0x78, 0x79, 0x2C, 0x2D, 0x2E, 0x2F, 0x30, 0x30, 0x64, 0x65, 0x66, 0x67, 0x2C, 0x2D, 0x2E,
        0x2F, 0x30, 0x31], .finished, false) := by decide +kernel

/-- P5: a window whose source is the target of the window before it. -/
theorem test_P5_decoder :
    seeRun (fun t => (t.dec.sink, t.result))
      (session [] [header ++ [0x00, 0x0A, 0x04, 0x00, 0x04, 0x01, 0x00, 0x61, 0x62, 0x63, 0x64, 0x05, 0x02, 0x03, 0x01, 0x07,
        0x06, 0x00, 0x00, 0x01, 0x01, 0x16, 0x00]]) State.reset =
      some ([0x61, 0x62, 0x63, 0x64, 0x62, 0x63, 0x64, 0x62, 0x63, 0x64], some .ok) := by decide +kernel

/-- E0 and E1: the checksum accepted, and one data byte changed. -/
theorem test_E0_E1_checksum :
    window [0x05, 0x00, 0x00, 0x0F, 0x04, 0x00, 0x01, 0x04, 0x01, 0x9E, 0xB8, 0x83, 0x05, 0x61, 0x00, 0x01, 0x13, 0x03, 0x00]
      = some ([0x61, 0x61, 0x61, 0x61], some .ok) ∧
    window [0x05, 0x00, 0x00, 0x0F, 0x04, 0x00, 0x01, 0x04, 0x01, 0x9E, 0xB8, 0x83, 0x05, 0x62, 0x00, 0x01, 0x13, 0x03, 0x00]
      = some ([], some (.err 5 0x51)) := by decide +kernel

/-- E2 to E6: SameCacheMiss, SAME entry 0, HERE at 0 and past the end, SELF at the end. -/
theorem test_E2_to_E6_addresses :
    window [0x01, 0x0A, 0x00, 0x07, 0x04, 0x00, 0x00, 0x01, 0x01, 0x74, 0x05] = some ([], some (.err 3 0x32)) ∧
    window [0x01, 0x0A, 0x00, 0x07, 0x04, 0x00, 0x00, 0x01, 0x01, 0x74, 0x00] = some ([0x30, 0x31, 0x32, 0x33], some .ok) ∧
    window [0x01, 0x0A, 0x00, 0x07, 0x04, 0x00, 0x00, 0x01, 0x01, 0x24, 0x00] = some ([], some (.err 3 0x31)) ∧
    window [0x01, 0x0A, 0x00, 0x07, 0x04, 0x00, 0x00, 0x01, 0x01, 0x24, 0x0A] = some ([0x30, 0x31, 0x32, 0x33], some .ok) ∧
    window [0x01, 0x0A, 0x00, 0x07, 0x04, 0x00, 0x00, 0x01, 0x01, 0x14, 0x0A] = some ([], some (.err 3 0x31)) := by
  decide +kernel

/-- E7 to E10, E16: target length short, target overrun, data left over, data missing, size missing. -/
theorem test_E7_to_E16_replay :
    window [0x01, 0x0A, 0x00, 0x07, 0x05, 0x00, 0x00, 0x01, 0x01, 0x14, 0x00] = some ([], some (.err 3 0x34)) ∧
    window [0x01, 0x0A, 0x00, 0x07, 0x03, 0x00, 0x00, 0x01, 0x01, 0x14, 0x00] = some ([], some (.err 3 0x36)) ∧
    window [0x01, 0x0A, 0x00, 0x08, 0x01, 0x00, 0x02, 0x01, 0x00, 0x41, 0x42, 0x02] = some ([], some (.err 3 0x35)) ∧
    window [0x01, 0x0A, 0x00, 0x07, 0x02, 0x00, 0x01, 0x01, 0x00, 0x41, 0x03] = some ([], some (.err 3 0x33)) ∧
    window [0x01, 0x0A, 0x00, 0x06, 0x04, 0x00, 0x00, 0x01, 0x00, 0x01] = some ([], some (.err 3 0x33)) := by decide +kernel

/-- E31: two ADDs in a row set the lint flag and decode. -/
theorem test_E31_lint :
    seeRun (fun t => (t.dec.sink, t.dec.lintAddAdd))
      [.decStart digits, .decChunk (header ++ [0x00, 0x09, 0x02, 0x00, 0x02, 0x02, 0x00, 0x41, 0x42, 0x02, 0x02])] State.reset =
      some ([0x41, 0x42], true) := by decide +kernel

/-- E38 and E39: the two orders of a compound opcode. -/
theorem test_E38_E39_compound :
    window [0x01, 0x0A, 0x00, 0x08, 0x05, 0x00, 0x01, 0x01, 0x01, 0x41, 0xF7, 0x00] =
      some ([0x30, 0x31, 0x32, 0x33, 0x41], some .ok) ∧
    window [0x01, 0x0A, 0x00, 0x08, 0x05, 0x00, 0x01, 0x01, 0x01, 0x41, 0xA3, 0x00] =
      some ([0x41, 0x30, 0x31, 0x32, 0x33], some .ok) := by decide +kernel

/-- E17 to E20: the four checks of a file header. -/
theorem test_E17_to_E20_header :
    seeRun (·.result) [.decStart [], .decChunk [0xD6, 0xC3, 0xC5, 0x00, 0x00]] State.reset = some (some (.err 2 0x21)) ∧
    seeRun (·.result) [.decStart [], .decChunk [0xD6, 0xC3, 0xC4, 0x01, 0x00]] State.reset = some (some (.err 2 0x22)) ∧
    seeRun (·.result) [.decStart [], .decChunk [0xD6, 0xC3, 0xC4, 0x00, 0x04]] State.reset = some (some (.err 2 0x23)) ∧
    seeRun (·.result) [.decStart [], .decChunk [0xD6, 0xC3, 0xC4, 0x00, 0x01]] State.reset = some (some (.err 4 0x45)) := by
  decide +kernel

/-- The examples of R223 and R225, and a COPY at `here` (section 5). -/
theorem test_encoder_steps :
    seeRun (fun t => (t.enc.insts, t.enc.data, t.enc.lastOpcodeIndex)) [.encInit 0, .encAdd 2 0 2 [0x78, 0x79]] State.reset =
      some ([0x03], [0x78, 0x79], some 0) ∧
    seeRun (fun t => (t.enc.insts, t.enc.addrs, t.enc.targetLen)) [.encInit 13, .encCopy 0 13] State.reset =
      some ([0x1D], [0x00], 13) ∧
    seeRun (fun t => (t.result, t.enc.state)) [.encInit 10, .encCopy 10 1] State.reset =
      some (some (.err 6 0x63), .failed) := by decide +kernel

/-- The corner cases of R223, R224 and of section 5: explicit sizes. -/
theorem test_encoder_sizes :
    seeRun (·.enc.insts) [.encInit 0, .encAdd 0 0 0 []] State.reset = some [0x01, 0x00] ∧
    seeRun (·.enc.insts) [.encInit 0, .encRun 1048576 0x00] State.reset = some [0x00, 0xC0, 0x80, 0x00] ∧
    seeRun (fun t => (t.enc.insts, t.result)) [.encInit 100, .encCopy 0 19, .encGetDeltaWindowSize] State.reset =
      some ([0x13, 0x13], some (.okValue 8)) ∧
    seeRun (·.result) [.encInit 100, .encCopy 0 19, .encTargetLength] State.reset = some (some (.okValue 19)) := by
  decide +kernel

/-- The setters, and the commands outside a session. -/
theorem test_decoder_small :
    seeRun (·.dec.allowVcdTarget) [.decSetAllowVcdTarget false] State.reset = some false ∧
    seeRun (·.dec.maxTargetFileSize) [.decSetMaxTargetFileSize 4294967296] State.reset = some 4294967296 ∧
    seeRun (fun t => (t.dec.maxTargetWindowSize, t.dec.maxSectionSize)) [.decSetMaxTargetWindowSize 3] State.reset =
      some (3, 67108864) ∧
    seeRun (·.dec.maxSectionSize) [.decSetMaxSectionSize 1] State.reset = some 1 ∧
    seeRun (·.result) [.decFinish] State.reset = some (some (.err 6 0x64)) := by decide +kernel


/-! ## Witnesses: the hypotheses of every obligation are met

First, checks that evaluate: each answers true only of a decoder, an encoder or a machine that meets the predicate of Safety it is
named after. -/

/-- `CacheOk`, as a check. -/
def cacheCheck (c : AddrCache) : Bool :=
  decide (c.near.length = c.nearSize ∧ c.same.length = c.sameSize * 256) &&
  ((if c.nearSize = 0 then decide (c.nextSlot = 0) else decide (c.nextSlot < c.nearSize)) &&
  (c.near.all (· < 4294967296) && c.same.all (· < 4294967296)))

theorem cacheOk_of_check {c : AddrCache} (h : cacheCheck c = true) : CacheOk c := by
  simp only [cacheCheck, Bool.and_eq_true, decide_eq_true_eq] at h
  refine ⟨h.1.1, h.1.2, ?_, fun a ha => ?_, fun a ha => ?_⟩
  · have h2 := h.2.1
    split at h2 <;> rename_i hn
    · rw [if_pos hn]; exact of_decide_eq_true h2
    · rw [if_neg hn]; exact of_decide_eq_true h2
  · simpa using List.all_eq_true.mp h.2.2.1 a ha
  · simpa using List.all_eq_true.mp h.2.2.2 a ha

/-- `SegmentOk`, as a check. -/
def segmentCheck (d : Dec) : Bool :=
  match (activeWin d).srcSegSpace with
  | .none => decide ((activeWin d).srcSegSize = 0)
  | .dict => decide ((activeWin d).srcSegPos + (activeWin d).srcSegSize ≤ (activeDict d).length)
  | .dtarget => decide ((activeWin d).srcSegPos + (activeWin d).srcSegSize ≤ (activeCtx d).dtarget.length)

theorem segmentOk_of_check {d : Dec} (h : segmentCheck d = true) : SegmentOk d := by
  unfold segmentCheck at h
  unfold SegmentOk
  split at h <;> rename_i hs <;> first | exact of_decide_eq_true h | (rw [hs]; exact of_decide_eq_true h)

/-- `WindowOk`, as a check. -/
def windowCheck (d : Dec) : Bool :=
  cacheCheck (activeCtx d).cache && (segmentCheck d &&
  decide (windowLen d ≤ d.pending.length ∧
    (activeWin d).ip ≤ (activeWin d).instLen ∧ (activeWin d).dp ≤ (activeWin d).dataLen ∧
    (activeWin d).ap ≤ (activeWin d).addrLen ∧ (activeCtx d).tw.length ≤ (activeWin d).targetLen ∧
    d.interleaved = ((activeWin d).dataLen == 0 && (activeWin d).addrLen == 0)))

theorem windowOk_of_check {d : Dec} (h : windowCheck d = true) : WindowOk d := by
  simp only [windowCheck, Bool.and_eq_true, decide_eq_true_eq] at h
  exact ⟨cacheOk_of_check h.1, segmentOk_of_check h.2.1, h.2.2⟩

/-- `NestedOk`, as a check. -/
def nestedCheck (d : Dec) : Bool :=
  match d.nested with
  | none => decide (d.state ≠ .customTable)
  | some n =>
    decide (d.state = .customTable ∧ n.ctx.cache.nearSize = 4 ∧ n.ctx.cache.sameSize = 3 ∧
      n.ctx.totalTargetLen = n.ctx.dtarget.length ∧ n.ctx.dtarget.length < 1536 ∧
      (n.phase ≠ .params → cacheSizesOk n.ctNear n.ctSame = true ∧ n.ctMaxMode = 1 + n.ctNear + n.ctSame) ∧
      (d.replaying = true → n.phase = .innerWindows))

theorem nestedOk_of_check {d : Dec} (h : nestedCheck d = true) : NestedOk d := by
  unfold nestedCheck at h
  unfold NestedOk
  split at h <;> rename_i hs <;> first | exact of_decide_eq_true h | (rw [hs]; exact of_decide_eq_true h)

/-- `RestOk`, as a check. -/
def restCheck (d : Dec) : Bool :=
  match d.state with
  | .idle | .finished | .expectWinIndicator | .poisoned => decide (d.pending = [])
  | .expectHeader => decide (d.pending.length < 5)
  | .inWindow => decide (d.pending ≠ [])
  | .customTable => true

theorem restOk_of_check {d : Dec} (h : restCheck d = true) : RestOk d := by
  unfold restCheck at h
  unfold RestOk
  split at h <;> rename_i hs <;> first | exact of_decide_eq_true h | (rw [hs]; exact of_decide_eq_true h) | trivial | (rw [hs]; trivial)

/-- `TableOk`, as a check. -/
def tableCheck (t : Table) (maxMode : Nat) (c : AddrCache) : Bool :=
  decide (t.length = 256 ∧ tabValid t maxMode = true ∧ maxMode = 1 + c.nearSize + c.sameSize ∧
    cacheSizesOk c.nearSize c.sameSize = true)

theorem tableOk_of_check {t : Table} {maxMode : Nat} {c : AddrCache} (h : tableCheck t maxMode c = true) : TableOk t maxMode c := by
  have h := of_decide_eq_true h
  exact h

/-- `DecInv`, as a check. -/
def decCheck (d : Dec) : Bool :=
  decide (d.dictSize = d.dict.length ∧ d.dict.length ≤ 4294967295 ∧
    d.ctx.totalTargetLen = d.ctx.dtarget.length ∧ d.ctx.totalTargetLen < 2 ^ 64 ∧ d.ctx.dtarget <:+ d.sink) &&
  (nestedCheck d && (tableCheck d.dtab d.maxMode d.ctx.cache &&
  (decide (d.state = .poisoned ↔ d.errKind ≠ 0) &&
  if d.replaying then
    decide (d.state = .expectWinIndicator ∨ d.state = .inWindow ∨ d.state = .customTable) && (windowCheck d &&
    decide ((activeWin d).targetLen < 2 ^ 32 ∧ (activeWin d).dataLen < 2 ^ 32 ∧ (activeWin d).instLen < 2 ^ 32 ∧
      (activeWin d).addrLen < 2 ^ 32 ∧ (activeCtx d).totalTargetLen + (activeWin d).targetLen < 2 ^ 64))
  else restCheck d)))

theorem decInv_of_check {d : Dec} (h : decCheck d = true) : DecInv d := by
  simp only [decCheck, Bool.and_eq_true, decide_eq_true_eq] at h
  obtain ⟨⟨h1, h2, h3, h4, h5⟩, hn, ht, hp, hr⟩ := h
  refine ⟨h1, h2, h3, h4, h5, nestedOk_of_check hn, fun _ => tableOk_of_check ht, hp, fun hf => ?_, fun hf => ?_⟩
  · rw [hf, if_neg (by decide)] at hr
    exact restOk_of_check hr
  · rw [hf, if_pos rfl] at hr
    simp only [Bool.and_eq_true, decide_eq_true_eq] at hr
    exact ⟨hr.1, windowOk_of_check hr.2.1, hr.2.2⟩

/-- `LastOpcodeOk`, as a check. -/
def lastOpcodeCheck (e : Enc) : Bool :=
  match e.lastOpcodeIndex with
  | none => true
  | some i =>
    match e.insts[i]? with
    | none => false
    | some op =>
      decide ((tableRow e.etab op).first.inst ≠ kindCode .noop ∧ (tableRow e.etab op).second.inst = kindCode .noop)

theorem lastOpcodeOk_of_check {e : Enc} (h : lastOpcodeCheck e = true) : LastOpcodeOk e := by
  unfold lastOpcodeCheck at h
  unfold LastOpcodeOk
  split at h <;> rename_i hs
  · first | trivial | (rw [hs]; trivial)
  · try rw [hs]
    split at h
    · cases h
    · rename_i op hop
      exact ⟨op, hop, of_decide_eq_true h⟩

/-- `EncInv`, as a check. -/
def encCheck (e : Enc) : Bool :=
  cacheCheck e.cache && (tableCheck e.etab e.maxMode e.cache && (lastOpcodeCheck e &&
  decide ((e.customTable = false → e.etab = defTab ∧ e.cache.nearSize = 4 ∧ e.cache.sameSize = 3) ∧
    encHere e ≤ 4294967295 ∧ (e.interleaved = true → e.data = [] ∧ e.addrs = []) ∧
    (e.state = .created → e.insts = [] ∧ e.targetLen = 0 ∧ e.lastOpcodeIndex = none) ∧
    (e.state = .failed ↔ e.errKind ≠ 0))))

theorem encInv_of_check {e : Enc} (h : encCheck e = true) : EncInv e := by
  simp only [encCheck, Bool.and_eq_true, decide_eq_true_eq] at h
  obtain ⟨hc, ht, hl, h1, h2, h3, h4, h5⟩ := h
  exact ⟨cacheOk_of_check hc, tableOk_of_check ht, h1, h2, h3, lastOpcodeOk_of_check hl, h4, h5⟩

/-- `Inv`, as a check. -/
def invCheck (s : State) : Bool := decCheck s.dec && encCheck s.enc

theorem inv_of_check {s : State} (h : invCheck s = true) : Inv s := by
  rw [invCheck, Bool.and_eq_true] at h
  exact ⟨decInv_of_check h.1, encInv_of_check h.2⟩

theorem defaultWindow_of_check {d : Dec} (h : windowCheck d = true) (ht : activeTab d = defTab) : DefaultWindow d :=
  ⟨windowOk_of_check h, ht⟩

/-- What is seen of an outcome comes from a next state. -/
theorem next_of_see {α : Type} {f : State → α} {o : Host.Outcome State Fault Refusal} {a : α} (h : see f o = some a) :
    ∃ t, o = .next t ∧ f t = a := by
  cases o with
  | next t => exact ⟨t, rfl, Option.some.inj h⟩
  | fault => cases h
  | refused => cases h

/-! Then machines to look at. -/

/-- A machine between commands: a session on `digits` in the state `st`. -/
def resting (st : DecState) (pending : Bytes) : State :=
  { State.reset with dec := { Dec.reset with state := st, pending := pending, dict := digits, dictSize := 10 } }

/-- The same machine with a command on the port. -/
def issued (t : HostCmd) (s : State) : State := { s with cmds := [t] }

/-- A poisoned decoder and a failed encoder. -/
def broken : State :=
  { State.reset with
    dec := { Dec.reset with state := .poisoned, errKind := 2, errCause := 0x21 },
    enc := { Enc.reset with state := .failed, errKind := 6, errCause := 0x61 } }

/-- The registers of a window in replay whose source is the whole of `digits`. -/
def playWin (targetLen : Nat) (data inst addr : Bytes) (ip : Nat) : WindowRegs :=
  { WindowRegs.reset with
    winIndicator := 0x01, srcSegSize := 10, srcSegSpace := .dict, targetLen := targetLen, dataLen := data.length,
    instLen := inst.length, addrLen := addr.length, ip := ip }

/-- A machine with that window in replay, its sections and what is in `TW` given. -/
def playing (targetLen : Nat) (data inst addr tw : Bytes) (ip : Nat) : State :=
  { State.reset with
    dec := { Dec.reset with
      state := .inWindow, dict := digits, dictSize := 10, pending := data ++ inst ++ addr, replaying := true,
      interleaved := data.length == 0 && addr.length == 0,
      ctx := { Dec.reset.ctx with tw := tw, win := playWin targetLen data inst addr ip } } }

/-- The nested context of a custom code table, in the phase given, its target so far and its window given. -/
def inner (phase : CtPhase) (dtarget tw : Bytes) (win : WindowRegs) : Nested :=
  { phase := phase, ctNear := 4, ctSame := 3, ctMaxMode := 8,
    ctx := { win := win, cache := AddrCache.reset, tw := tw, dtarget := dtarget, totalTargetLen := dtarget.length } }

/-- A machine in the custom code table section, between commands. -/
def tableSection (phase : CtPhase) (pending : Bytes) : State :=
  { State.reset with
    dec := { Dec.reset with
      state := .customTable, pending := pending, nested := some (inner phase [] [] WindowRegs.reset) } }

/-- A machine at the end of an inner window, which has no sections, with a target before it and in it. -/
def innerEnd (dtarget tw : Bytes) : State :=
  { State.reset with
    dec := { Dec.reset with
      state := .customTable, replaying := true, interleaved := true,
      nested := some (inner .innerWindows dtarget tw { WindowRegs.reset with targetLen := tw.length }) } }

/-- An encoder in a window: `INSTS`, `LAST_OPCODE_INDEX` and the target length given. -/
def encoding (insts : Bytes) (last : Option Nat) (targetLen : Nat) : State :=
  { State.reset with
    enc := { Enc.reset with
      state := .ready, mapBuilt := true, dictSize := 10, insts := insts, lastOpcodeIndex := last,
      targetLen := targetLen } }

theorem long_dictionary (d : Bytes) (h : d.length ≤ 4294967295) : (Instr.decStart d).wf = true := by
  unfold Instr.wf
  exact decide_eq_true h

/-- A longest dictionary, the shortest and a wider slice, an opcode. -/
theorem witness_DecodeInvertsEncode :
    (∃ d : Bytes, d.length = 4294967295 ∧ (Instr.decStart d).wf = true) ∧ (Instr.encAdd 4 1 3 [1, 2, 3]).wf = true ∧
    (Instr.encAdd 0 0 0 []).wf = true ∧ Instr.copyM8S4AddS1.wf = true :=
  ⟨⟨List.replicate 4294967295 0, List.length_replicate,
      long_dictionary _ (Nat.le_of_eq List.length_replicate)⟩, by decide, by decide, by decide⟩

theorem witness_HostCommandCodes :
    (∃ d : Bytes, d.length = 4294967295) ∧ (∃ image : Bytes, image.length = 1536) ∧
    ∀ c ∈ ([0x00, 0x08, 0x0F, 0x1A, 0xFF] : Bytes),
      (issued { code := c } State.reset).dec.replaying = false ∧
      (issued { code := c } State.reset).cmds = [{ code := c }] ∧
      ¬ (1 ≤ c.toNat ∧ c.toNat ≤ 7) ∧ ¬ (16 ≤ c.toNat ∧ c.toNat ≤ 25) :=
  ⟨⟨List.replicate 4294967295 0, List.length_replicate⟩, ⟨List.replicate 1536 0, List.length_replicate⟩, by decide⟩

/-- A command, an opcode, an opcode that raises, the end of a window, and no command at all. -/
theorem witness_StepKeepsInvariant :
    ∀ s ∈ [issued { code := 0x02, input := [0xD6, 0xC3] } (resting .expectHeader []), playing 4 [] [0x14, 0x00] [] [] 0,
        playing 3 [] [0x14, 0x00] [] [] 0, playing 0 [] [0x02] [] [] 1, resting .finished []],
      Inv s ∧ ∃ t, step s = .next t := by
  intro s hs
  have : invCheck s = true ∧ see (fun _ => ()) (step s) = some () := by
    revert s; decide +kernel
  exact ⟨inv_of_check this.1, (next_of_see this.2).imp fun _ h => h.1⟩

theorem witness_NoStepFaults : Inv (playing 4 [] [0x14, 0x00] [] [] 0) := inv_of_check (by decide +kernel)

/-- A command, a transaction whose operand is one too large for its port, an empty port. -/
theorem witness_StepRunsHostCommand :
    ((issued { code := 0x03 } State.reset).dec.replaying = false ∧ decode (.command { code := 0x03 }) = .ok .decFinish) ∧
    ((issued { code := 0x11, arg0 := 4294967296 } State.reset).dec.replaying = false ∧
      decode (.command { code := 0x11, arg0 := 4294967296 }) = .error (.illFormed 0x11)) ∧
    (State.reset.dec.replaying = false ∧ State.reset.cmds = []) := ⟨⟨rfl, rfl⟩, ⟨rfl, rfl⟩, rfl, rfl⟩

/-- The first and the last byte of an instructions section. -/
theorem witness_StepRunsOpcode :
    ∀ ip ∈ [0, 2], (playing 9 [0x41] [0x02, 0x14, 0xFF] [0x00, 0x00] [] ip).dec.replaying = true ∧
      (activeWin (playing 9 [0x41] [0x02, 0x14, 0xFF] [0x00, 0x00] [] ip).dec).ip <
        (activeWin (playing 9 [0x41] [0x02, 0x14, 0xFF] [0x00, 0x00] [] ip).dec).instLen ∧
      (instSec (playing 9 [0x41] [0x02, 0x14, 0xFF] [0x00, 0x00] [] ip).dec)[
        (activeWin (playing 9 [0x41] [0x02, 0x14, 0xFF] [0x00, 0x00] [] ip).dec).ip]? = some (if ip = 0 then 0x02 else 0xFF) := by
  decide +kernel

/-- The two ends of every range of the default table, with the rows R113 gives there. -/
theorem witness_DefaultTableGroups :
    (tableRow defTab 2 = single .add 1 0 ∧ tableRow defTab 18 = single .add 17 0) ∧
    (tableRow defTab 19 = single .copy 0 0 ∧ tableRow defTab 147 = single .copy 0 8) ∧
    (tableRow defTab 247 = pair .copy 4 0 .add 1 0 ∧ tableRow defTab 255 = pair .copy 4 8 .add 1 0) ∧
    (tableRow defTab 20 = single .copy 4 0 ∧ tableRow defTab 162 = single .copy 18 8) ∧
    (tableRow defTab 163 = pair .add 1 0 .copy 4 0 ∧ tableRow defTab 234 = pair .add 4 0 .copy 6 5) ∧
    (tableRow defTab 235 = pair .add 1 0 .copy 4 6 ∧ tableRow defTab 246 = pair .add 4 0 .copy 4 8) := by decide +kernel

theorem witness_InstructionMaps :
    defTab.length = 256 ∧ InstKind.add ≠ .noop ∧ InstKind.run ≠ .noop ∧ InstKind.copy ≠ .noop ∧ (255 : Nat) ≤ 255 ∧
    imapFirst defTab .copy 255 255 = none ∧ imapFirst defTab .copy 0 8 = some 0x93 ∧
    imapSecond defTab 0x14 .add 1 0 = some 0xF7 := by decide +kernel

theorem witness_TableImage : defTab.length = 256 ∧ (List.replicate 1536 (0xFF : Byte)).length = 1536 := by decide +kernel

/-- The least and the largest value of each width, and the places where a VarInt grows by a byte. -/
theorem witness_VarIntRoundTrip :
    (∀ v ∈ [0, 127, 128, 16383, 16384, 4294967295],
      v < 2 ^ 32 ∧ v < 2 ^ 64 ∧ viWrite32 [] v = (viWrite32 [] v).take 0 ++ viWrite32 [] v ∧ viWrite32 [] v ≠ []) ∧
    (18446744073709551615 < 2 ^ 64 ∧ (viWrite64 [] 18446744073709551615).length = 10 ∧
      viWrite64 [] 18446744073709551615 =
        (viWrite64 [] 18446744073709551615).take 9 ++ [0x7F] ∧ [(0x7F : Byte)] ≠ []) := by decide +kernel

/-- A one-byte and a cap-long VarInt, the largest value and the first that overflows; the cap's bytes all continuing; and each kind
of outcome at the end of the source. -/
theorem witness_VarIntOutcomes :
    (∀ head ∈ [[], [0x8F, 0xFF, 0xFF, 0xFF], ([0x90, 0x80, 0x80, 0x80] : Bytes)],
      head.length < 5 ∧ (∀ b ∈ head, 128 ≤ b.toNat) ∧ (0x7F : Byte).toNat < 128 ∧ ([] : Bytes).length + head.length < 5) ∧
    groupsValue [0x8F, 0xFF, 0xFF, 0xFF, 0x7F] = 2 ^ 32 - 1 ∧ groupsValue [0x90, 0x80, 0x80, 0x80, 0x00] = 2 ^ 32 ∧
    groupsValue ([0x81] ++ List.replicate 8 0xFF ++ [0x7F]) = 2 ^ 64 - 1 ∧
    (∀ cap ∈ [5, 10], (List.replicate cap (0x80 : Byte)).length = cap ∧
      (∀ b ∈ List.replicate cap (0x80 : Byte), 128 ≤ b.toNat) ∧
      ([] : Bytes).length + (List.replicate cap (0x80 : Byte)).length ≤ cap) ∧
    viRead 32 [0x80, 0x80, 0x80, 0x80] 0 4 = .needMore ∧ viRead 64 (List.replicate 10 0x80) 0 10 = .error .varIntOverflow := by
  decide +kernel

theorem witness_VarIntOutcomes_more :
    (4 - 0 < 5 ∧ ∀ k b, 0 ≤ k → k < 4 → ([0x80, 0x80, 0x80, 0x80] : Bytes)[k]? = some b → 128 ≤ b.toNat) ∧
    (5 ≤ 5 - 0 ∧ 5 ≤ ([0x80, 0x80, 0x80, 0x80, 0x00] : Bytes).length) ∧
    viRead 32 [0x90, 0x80, 0x80, 0x80, 0x00] 0 5 = .error .varIntOverflow := by
  refine ⟨⟨by decide, ?_⟩, by decide, by decide +kernel⟩
  have h : ∀ k, k < 4 → ([0x80, 0x80, 0x80, 0x80] : Bytes)[k]? = some 0x80 := by decide
  intro k b _ hk hb
  rw [h k hk] at hb
  rw [← Option.some.inj hb]
  decide

theorem witness_AdlerSeesEveryByte : (0x00 : Byte) ≠ 0xFF ∧ (0xFF : Byte) ≠ 0xFE := by decide

theorem witness_TableValidity : tabValid defTab 8 = true := by decide +kernel

theorem witness_CacheInitAndUpdate :
    (CacheOk (freshCache 4 3 .doc) ∧ 0 < (freshCache 4 3 .doc).nearSize ∧ 0 < (freshCache 4 3 .doc).sameSize) ∧
    (CacheOk (freshCache 0 0 .doc) ∧ (freshCache 0 0 .doc).nearSize = 0 ∧ (freshCache 0 0 .doc).sameSize = 0) ∧
    CacheOk (acUpdate (acUpdate (freshCache 4 3 .rfc) 300) 4294967295) ∧ 4294967295 < 4294967296 :=
  ⟨⟨cacheOk_of_check (by decide +kernel), by decide, by decide⟩, ⟨cacheOk_of_check (by decide +kernel), rfl, rfl⟩,
    cacheOk_of_check (by decide +kernel), by decide⟩

/-- The modes at the ends of SELF and HERE, NEAR, SAME; each outcome of the read; an entry that holds and one that does not. -/
theorem witness_AddressDecode :
    CacheOk (acUpdate AddrCache.reset 300) ∧
    (∀ mode ∈ [0, 1, 2, 5], mode < 2 + (acUpdate AddrCache.reset 300).nearSize) ∧ viRead 32 [0x09] 0 1 = .value 9 1 ∧
    viRead 32 [0x80] 0 1 = .needMore ∧ viRead 32 [0x90, 0x80, 0x80, 0x80, 0x00] 0 5 = .error .varIntOverflow ∧
    (∀ k ∈ [0, 2], k < (acUpdate AddrCache.reset 300).sameSize) ∧ byteRead [0x2C] 0 1 = .value 44 1 ∧ byteRead [] 0 0 = .needMore ∧
    (acUpdate AddrCache.reset 300).same[0 * 256 + 44]? = some 300 ∧
    (acUpdate AddrCache.reset 300).same[2 * 256 + 44]? = some 0 ∧
    acDecode (acUpdate AddrCache.reset 300) 301 6 [0x2C] 0 1 = .value 300 1 (acUpdate (acUpdate AddrCache.reset 300) 300) ∧
    acDecode (acUpdate AddrCache.reset 300) 300 6 [0x2C] 0 1 = .error .copyAddressOutOfBounds :=
  ⟨cacheOk_of_check (by decide +kernel), by decide +kernel⟩

/-- Entry 1 never written, entry 0 never written, entry 44 written by 300 (and entry 300 by 44 not in its way), the two ends of
`k`. -/
theorem witness_SameEntryCheck :
    (∀ k ∈ [0, 2], k < AddrCache.reset.sameSize) ∧ (∀ x ∈ [300, 44], x < 4294967296) ∧
    ((∀ x ∈ [300, 44], sameIndex AddrCache.reset x ≠ 2 * 256 + (0x00 : Byte).toNat) ∧ 2 * 256 + (0x00 : Byte).toNat ≠ 0) ∧
    ((∀ x ∈ [300, 44], sameIndex AddrCache.reset x ≠ 0 * 256 + (0x00 : Byte).toNat) ∧ 0 * 256 + (0x00 : Byte).toNat = 0 ∧ 0 < 1) ∧
    ([300, 44] = [] ++ 300 :: [44] ∧ sameIndex AddrCache.reset 300 = 0 * 256 + (0x2C : Byte).toNat ∧
      (∀ y ∈ [44], sameIndex AddrCache.reset y ≠ 0 * 256 + (0x2C : Byte).toNat) ∧ 300 < 301) := by decide +kernel

/-- The nearest and the farthest address, an address below 128, a NEAR mode and a SAME mode. -/
theorem witness_AddressEncodeIsShortest :
    CacheOk (acUpdate AddrCache.reset 300) ∧
    (9 < 10 ∧ acEncode AddrCache.reset 9 10 = (0, 9, acUpdate AddrCache.reset 9)) ∧
    (0 < 4294967295 ∧ acEncode AddrCache.reset 0 4294967295 = (0, 0, acUpdate AddrCache.reset 0)) ∧
    (310 < 600 ∧ acEncode (acUpdate AddrCache.reset 300) 310 600 =
      (2, 10, acUpdate (acUpdate AddrCache.reset 300) 310)) ∧
    acDecode (acUpdate AddrCache.reset 300) 600 2 [0x0A] 0 1 =
      .value 310 1 (acUpdate (acUpdate AddrCache.reset 300) 310) :=
  ⟨cacheOk_of_check (by decide +kernel), by decide +kernel⟩

theorem witness_CachesStayInStep :
    CacheOk (acUpdate (acUpdate (acUpdate (acUpdate (acUpdate AddrCache.reset 300) 2000) 3000) 4000) 5000) ∧ 300 < 6000 ∧
    acEncode (acUpdate (acUpdate (acUpdate (acUpdate (acUpdate AddrCache.reset 300) 2000) 3000) 4000) 5000) 300 6000 =
      (6, 44, acUpdate (acUpdate (acUpdate (acUpdate (acUpdate (acUpdate AddrCache.reset 300) 2000) 3000) 4000) 5000) 300) :=
  ⟨cacheOk_of_check (by decide +kernel), by decide +kernel⟩

/-! The delta instructions: for each family, windows that meet the clauses of its effect one by one. -/

/-- The outcome of the size read of the statements. -/
def sizeAt (d : Dec) : ReadOut := viRead 32 (instSec d) (activeWin d).ip (activeWin d).instLen

/-- `n` bytes fit the target window. -/
def fits (n : Nat) (d : Dec) : Bool := decide ((activeCtx d).tw.length + n ≤ (activeWin d).targetLen)

theorem fits_iff (n : Nat) (d : Dec) : fits n d = true ↔ (activeCtx d).tw.length + n ≤ (activeWin d).targetLen := by
  simp [fits]

theorem not_fits_iff (n : Nat) (d : Dec) : fits n d = false ↔ (activeWin d).targetLen < (activeCtx d).tw.length + n := by
  simp [fits]

/-- The machine `s` with another address cache. -/
def cached (c : AddrCache) (s : State) : State := { s with dec := setCache c s.dec }

/-- Windows of the default table, by a check. -/
def defaultCheck (s : State) : Bool := windowCheck s.dec && decide (activeTab s.dec = defTab)

theorem defaultWindow_of_all {l : List State} (h : l.all defaultCheck = true) : ∀ s ∈ l, DefaultWindow s.dec := by
  intro s hs
  have := List.all_eq_true.1 h s hs
  rw [defaultCheck, Bool.and_eq_true] at this
  exact ⟨windowOk_of_check this.1, of_decide_eq_true this.2⟩

/-- The size missing and too large, no room, no data byte, all well. -/
theorem witness_RunRuns :
    opcodeOf .run = some 0x00 ∧
    (∀ s ∈ [playing 5 [] [0x00] [] [] 1, playing 5 [] [0x00, 0x90, 0x80, 0x80, 0x80, 0x00] [] [] 1,
      playing 4 [0x61] [0x00, 0x05] [] [] 1, playing 5 [] [0x00, 0x05] [] [] 1, playing 5 [0x61] [0x00, 0x05] [] [] 1],
      DefaultWindow s.dec) ∧
    sizeAt (playing 5 [] [0x00] [] [] 1).dec = .needMore ∧
    sizeAt (playing 5 [] [0x00, 0x90, 0x80, 0x80, 0x80, 0x00] [] [] 1).dec = .error .varIntOverflow ∧
    (sizeAt (playing 4 [0x61] [0x00, 0x05] [] [] 1).dec = .value 5 2 ∧
      fits 5 (setIp 2 (playing 4 [0x61] [0x00, 0x05] [] [] 1).dec) = false) ∧
    (sizeAt (playing 5 [] [0x00, 0x05] [] [] 1).dec = .value 5 2 ∧ fits 5 (setIp 2 (playing 5 [] [0x00, 0x05] [] [] 1).dec) = true ∧
      dataBytes (setIp 2 (playing 5 [] [0x00, 0x05] [] [] 1).dec) = []) ∧
    (sizeAt (playing 5 [0x61] [0x00, 0x05] [] [] 1).dec = .value 5 2 ∧
      fits 5 (setIp 2 (playing 5 [0x61] [0x00, 0x05] [] [] 1).dec) = true ∧
      dataBytes (setIp 2 (playing 5 [0x61] [0x00, 0x05] [] [] 1).dec) = [0x61]) :=
  ⟨rfl, defaultWindow_of_all (by decide +kernel), by decide +kernel⟩

/-- The size missing and too large, no room, too little data, all well in both layouts. -/
theorem witness_AddExplicitAdds :
    opcodeOf .add = some 0x01 ∧
    (∀ s ∈ [playing 2 [] [0x01] [] [] 1, playing 2 [] [0x01, 0x90, 0x80, 0x80, 0x80, 0x00] [] [] 1,
      playing 1 [0x61, 0x62] [0x01, 0x02] [] [] 1, playing 2 [0x61] [0x01, 0x02] [] [] 1,
      playing 2 [0x61, 0x62] [0x01, 0x02] [] [] 1, playing 2 [] [0x01, 0x02, 0x61, 0x62] [] [] 1], DefaultWindow s.dec) ∧
    sizeAt (playing 2 [] [0x01] [] [] 1).dec = .needMore ∧
    sizeAt (playing 2 [] [0x01, 0x90, 0x80, 0x80, 0x80, 0x00] [] [] 1).dec = .error .varIntOverflow ∧
    (sizeAt (playing 1 [0x61, 0x62] [0x01, 0x02] [] [] 1).dec = .value 2 2 ∧
      fits 2 (setIp 2 (playing 1 [0x61, 0x62] [0x01, 0x02] [] [] 1).dec) = false) ∧
    (sizeAt (playing 2 [0x61] [0x01, 0x02] [] [] 1).dec = .value 2 2 ∧
      fits 2 (setIp 2 (playing 2 [0x61] [0x01, 0x02] [] [] 1).dec) = true ∧
      (dataBytes (setIp 2 (playing 2 [0x61] [0x01, 0x02] [] [] 1).dec)).length < 2) ∧
    (∀ s ∈ [playing 2 [0x61, 0x62] [0x01, 0x02] [] [] 1, playing 2 [] [0x01, 0x02, 0x61, 0x62] [] [] 1],
      sizeAt s.dec = .value 2 2 ∧ fits 2 (setIp 2 s.dec) = true ∧ dataBytes (setIp 2 s.dec) = [0x61, 0x62]) :=
  ⟨rfl, defaultWindow_of_all (by decide +kernel), by decide +kernel⟩

/-- The smallest and the largest size; no room, too little data, all well. -/
theorem witness_AddSizedAdds :
    opcodeOf .addS1 = some (BitVec.ofNat 8 (1 + 1)) ∧ opcodeOf .addS17 = some (BitVec.ofNat 8 (17 + 1)) ∧
    (∀ s ∈ [playing 16 (List.replicate 17 0x61) [0x12] [] [] 1, playing 17 (List.replicate 16 0x61) [0x12] [] [] 1,
      playing 17 (List.replicate 17 0x61) [0x12] [] [] 1, playing 1 [] [0x02, 0x61] [] [] 1], DefaultWindow s.dec) ∧
    fits 17 (playing 16 (List.replicate 17 0x61) [0x12] [] [] 1).dec = false ∧
    (fits 17 (playing 17 (List.replicate 16 0x61) [0x12] [] [] 1).dec = true ∧
      (dataBytes (playing 17 (List.replicate 16 0x61) [0x12] [] [] 1).dec).length < 17) ∧
    (fits 17 (playing 17 (List.replicate 17 0x61) [0x12] [] [] 1).dec = true ∧
      17 ≤ (dataBytes (playing 17 (List.replicate 17 0x61) [0x12] [] [] 1).dec).length) ∧
    (fits 1 (playing 1 [] [0x02, 0x61] [] [] 1).dec = true ∧ 1 ≤ (dataBytes (playing 1 [] [0x02, 0x61] [] [] 1).dec).length) :=
  ⟨by decide +kernel, by decide +kernel, defaultWindow_of_all (by decide +kernel), by decide +kernel⟩

/-- A cache whose SAME entry 514 (mode 8, byte 02) holds address 2. -/
def cacheWith2 : AddrCache := acUpdate AddrCache.reset 2

/-- A cache with no SAME table: modes 6 to 8 have no entry. -/
def cacheNoSame : AddrCache := freshCache 4 0 .doc

/-- The first and the last mode; the size missing, no room, the address missing, in error two ways, without an entry, and well in
both layouts, in a SELF and in a SAME mode. -/
theorem witness_CopyExplicitCopies :
    opcodeOf .copyM0 = some (BitVec.ofNat 8 (19 + 16 * 0)) ∧ opcodeOf .copyM8 = some (BitVec.ofNat 8 (19 + 16 * 8)) ∧
    (∀ s ∈ [playing 4 [] [0x13] [] [] 1, playing 3 [] [0x13, 0x04] [0x03] [] 1, playing 4 [] [0x13, 0x04] [] [] 1,
      playing 4 [] [0x13, 0x04] [0x0A] [] 1, playing 4 [] [0x93, 0x04] [0x05] [] 1,
      cached cacheNoSame (playing 4 [] [0x93, 0x04] [0x05] [] 1), playing 4 [] [0x13, 0x04] [0x09] [] 1,
      cached cacheWith2 (playing 4 [] [0x93, 0x04, 0x02] [] [] 1)], DefaultWindow s.dec) ∧
    sizeAt (playing 4 [] [0x13] [] [] 1).dec = .needMore ∧
    (∀ s ∈ [playing 3 [] [0x13, 0x04] [0x03] [] 1, playing 4 [] [0x13, 0x04] [] [] 1, playing 4 [] [0x13, 0x04] [0x0A] [] 1,
      playing 4 [] [0x93, 0x04] [0x05] [] 1, cached cacheNoSame (playing 4 [] [0x93, 0x04] [0x05] [] 1),
      playing 4 [] [0x13, 0x04] [0x09] [] 1, cached cacheWith2 (playing 4 [] [0x93, 0x04, 0x02] [] [] 1)],
      sizeAt s.dec = .value 4 2) ∧
    fits 4 (setIp 2 (playing 3 [] [0x13, 0x04] [0x03] [] 1).dec) = false ∧
    (fits 4 (setIp 2 (playing 4 [] [0x13, 0x04] [] [] 1).dec) = true ∧
      decodedAddress 0 (setIp 2 (playing 4 [] [0x13, 0x04] [] [] 1).dec) = .needMore) ∧
    decodedAddress 0 (setIp 2 (playing 4 [] [0x13, 0x04] [0x0A] [] 1).dec) = .error .copyAddressOutOfBounds ∧
    decodedAddress 8 (setIp 2 (playing 4 [] [0x93, 0x04] [0x05] [] 1).dec) = .error .sameCacheMiss ∧
    decodedAddress 8 (setIp 2 (cached cacheNoSame (playing 4 [] [0x93, 0x04] [0x05] [] 1)).dec) = .noEntry ∧
    decodedAddress 0 (setIp 2 (playing 4 [] [0x13, 0x04] [0x09] [] 1).dec) = .value 9 1 (acUpdate AddrCache.reset 9) ∧
    (fits 4 (setIp 2 (cached cacheWith2 (playing 4 [] [0x93, 0x04, 0x02] [] [] 1)).dec) = true ∧
      decodedAddress 8 (setIp 2 (cached cacheWith2 (playing 4 [] [0x93, 0x04, 0x02] [] [] 1)).dec) =
        .value 2 3 (acUpdate cacheWith2 2)) :=
  ⟨by decide +kernel, by decide +kernel, defaultWindow_of_all (by decide +kernel), by decide +kernel⟩

/-- The first and the last mode and size; no room, the address missing, in error, without an entry, well. -/
theorem witness_CopySizedCopies :
    opcodeOf .copyM0S4 = some (BitVec.ofNat 8 (19 + 16 * 0 + (4 - 3))) ∧
    opcodeOf .copyM8S18 = some (BitVec.ofNat 8 (19 + 16 * 8 + (18 - 3))) ∧
    (∀ s ∈ [playing 3 [] [0x14, 0x00] [] [] 1, playing 4 [] [0x14] [] [] 1, playing 4 [] [0x14, 0x0A] [] [] 1,
      cached cacheNoSame (playing 18 [] [0xA2, 0x00] [] [] 1), playing 4 [] [0x14, 0x00] [] [] 1,
      cached cacheWith2 (playing 18 [] [0xA2, 0x02] [] [] 1)], DefaultWindow s.dec) ∧
    fits 4 (playing 3 [] [0x14, 0x00] [] [] 1).dec = false ∧
    (fits 4 (playing 4 [] [0x14] [] [] 1).dec = true ∧ decodedAddress 0 (playing 4 [] [0x14] [] [] 1).dec = .needMore) ∧
    decodedAddress 0 (playing 4 [] [0x14, 0x0A] [] [] 1).dec = .error .copyAddressOutOfBounds ∧
    decodedAddress 8 (cached cacheNoSame (playing 18 [] [0xA2, 0x00] [] [] 1)).dec = .noEntry ∧
    decodedAddress 0 (playing 4 [] [0x14, 0x00] [] [] 1).dec = .value 0 2 (acUpdate AddrCache.reset 0) ∧
    (fits 18 (cached cacheWith2 (playing 18 [] [0xA2, 0x02] [] [] 1)).dec = true ∧
      decodedAddress 8 (cached cacheWith2 (playing 18 [] [0xA2, 0x02] [] [] 1)).dec = .value 2 2 (acUpdate cacheWith2 2)) :=
  ⟨by decide +kernel, by decide +kernel, defaultWindow_of_all (by decide +kernel), by decide +kernel⟩

/-- The first and the last of the 72; the ADD without room and without data; after it the COPY without room, without its address,
with a bad one, and well (the COPY at the byte the ADD appended). -/
theorem witness_AddThenCopy :
    opcodeOf .addS1CopyM0S4 = some (BitVec.ofNat 8 (163 + 0)) ∧ opcodeOf .addS4CopyM5S6 = some (BitVec.ofNat 8 (163 + 71)) ∧
    71 % 12 / 3 + 1 = 4 ∧ 71 % 3 + 4 = 6 ∧ 71 / 12 = 5 ∧
    (∀ s ∈ [playing 0 [] [0xA3, 0x41] [] [] 1, playing 5 [] [0xA3] [] [] 1, playing 4 [] [0xA3, 0x41, 0x0A] [] [] 1,
      playing 5 [] [0xA3, 0x41] [] [] 1, playing 5 [] [0xA3, 0x41, 0x0B] [] [] 1, playing 5 [] [0xA3, 0x41, 0x0A] [] [] 1,
      playing 10 [0x41, 0x42, 0x43, 0x44] [0xEA] [0x00] [] 1], DefaultWindow s.dec) ∧
    fits 1 (playing 0 [] [0xA3, 0x41] [] [] 1).dec = false ∧
    (fits 1 (playing 5 [] [0xA3] [] [] 1).dec = true ∧ (dataBytes (playing 5 [] [0xA3] [] [] 1).dec).length < 1) ∧
    (∀ s ∈ [playing 4 [] [0xA3, 0x41, 0x0A] [] [] 1, playing 5 [] [0xA3, 0x41] [] [] 1, playing 5 [] [0xA3, 0x41, 0x0B] [] [] 1,
      playing 5 [] [0xA3, 0x41, 0x0A] [] [] 1], fits 1 s.dec = true ∧ 1 ≤ (dataBytes s.dec).length) ∧
    fits 4 (afterAdd 1 (playing 4 [] [0xA3, 0x41, 0x0A] [] [] 1).dec) = false ∧
    decodedAddress 0 (afterAdd 1 (playing 5 [] [0xA3, 0x41] [] [] 1).dec) = .needMore ∧
    decodedAddress 0 (afterAdd 1 (playing 5 [] [0xA3, 0x41, 0x0B] [] [] 1).dec) = .error .copyAddressOutOfBounds ∧
    (fits 4 (afterAdd 1 (playing 5 [] [0xA3, 0x41, 0x0A] [] [] 1).dec) = true ∧
      decodedAddress 0 (afterAdd 1 (playing 5 [] [0xA3, 0x41, 0x0A] [] [] 1).dec) =
        .value 10 3 (acUpdate AddrCache.reset 10)) ∧
    (fits 4 (playing 10 [0x41, 0x42, 0x43, 0x44] [0xEA] [0x00] [] 1).dec = true ∧
      4 ≤ (dataBytes (playing 10 [0x41, 0x42, 0x43, 0x44] [0xEA] [0x00] [] 1).dec).length ∧
      fits 6 (afterAdd 4 (playing 10 [0x41, 0x42, 0x43, 0x44] [0xEA] [0x00] [] 1).dec) = true ∧
      decodedAddress 5 (afterAdd 4 (playing 10 [0x41, 0x42, 0x43, 0x44] [0xEA] [0x00] [] 1).dec) =
        .value 0 1 (acUpdate AddrCache.reset 0)) :=
  ⟨by decide +kernel, by decide +kernel, by decide, by decide, by decide, defaultWindow_of_all (by decide +kernel), by decide +kernel⟩

/-- The first and the last of the 12; the ADD without room and without data; the COPY with a SAME entry that misses, without its
byte, and well. -/
theorem witness_AddThenCopySame :
    opcodeOf .addS1CopyM6S4 = some (BitVec.ofNat 8 (235 + 0)) ∧ opcodeOf .addS4CopyM8S4 = some (BitVec.ofNat 8 (235 + 11)) ∧
    11 % 4 + 1 = 4 ∧ 6 + 11 / 4 = 8 ∧
    (∀ s ∈ [playing 0 [] [0xEB, 0x41] [] [] 1, playing 5 [] [0xEB] [] [] 1, playing 4 [] [0xEB, 0x41, 0x00] [] [] 1,
      playing 5 [] [0xEB, 0x41] [] [] 1, playing 5 [] [0xEB, 0x41, 0x05] [] [] 1, playing 5 [] [0xEB, 0x41, 0x00] [] [] 1,
      cached cacheWith2 (playing 8 [0x41, 0x42, 0x43, 0x44] [0xF6] [0x02] [] 1)], DefaultWindow s.dec) ∧
    fits 1 (playing 0 [] [0xEB, 0x41] [] [] 1).dec = false ∧
    (fits 1 (playing 5 [] [0xEB] [] [] 1).dec = true ∧ (dataBytes (playing 5 [] [0xEB] [] [] 1).dec).length < 1) ∧
    (∀ s ∈ [playing 4 [] [0xEB, 0x41, 0x00] [] [] 1, playing 5 [] [0xEB, 0x41] [] [] 1, playing 5 [] [0xEB, 0x41, 0x05] [] [] 1,
      playing 5 [] [0xEB, 0x41, 0x00] [] [] 1], fits 1 s.dec = true ∧ 1 ≤ (dataBytes s.dec).length) ∧
    fits 4 (afterAdd 1 (playing 4 [] [0xEB, 0x41, 0x00] [] [] 1).dec) = false ∧
    decodedAddress 6 (afterAdd 1 (playing 5 [] [0xEB, 0x41] [] [] 1).dec) = .needMore ∧
    decodedAddress 6 (afterAdd 1 (playing 5 [] [0xEB, 0x41, 0x05] [] [] 1).dec) = .error .sameCacheMiss ∧
    (fits 4 (afterAdd 1 (playing 5 [] [0xEB, 0x41, 0x00] [] [] 1).dec) = true ∧
      decodedAddress 6 (afterAdd 1 (playing 5 [] [0xEB, 0x41, 0x00] [] [] 1).dec) = .value 0 3 (acUpdate AddrCache.reset 0)) ∧
    (fits 4 (afterAdd 4 (cached cacheWith2 (playing 8 [0x41, 0x42, 0x43, 0x44] [0xF6] [0x02] [] 1)).dec) = true ∧
      decodedAddress 8 (afterAdd 4 (cached cacheWith2 (playing 8 [0x41, 0x42, 0x43, 0x44] [0xF6] [0x02] [] 1)).dec) =
        .value 2 1 (acUpdate cacheWith2 2)) :=
  ⟨by decide +kernel, by decide +kernel, by decide, by decide, defaultWindow_of_all (by decide +kernel), by decide +kernel⟩

/-- The decoder after the COPY of four bytes from address 6 that a window with one byte of data makes: the bytes 6789. -/
def copied (s : State) : Dec := afterCopy [0x36, 0x37, 0x38, 0x39] 2 (acUpdate AddrCache.reset 6) s.dec

/-- The first and the last mode; the COPY without room, without its address, with a bad one; the COPY well, and after it the ADD
without room, without data, and well. -/
theorem witness_CopyThenAdd :
    opcodeOf .copyM0S4AddS1 = some (BitVec.ofNat 8 (247 + 0)) ∧ opcodeOf .copyM8S4AddS1 = some (BitVec.ofNat 8 (247 + 8)) ∧
    (∀ s ∈ [playing 3 [] [0xF7, 0x06, 0x41] [] [] 1, playing 5 [] [0xF7] [] [] 1, playing 5 [] [0xFF, 0x05] [] [] 1,
      playing 4 [] [0xF7, 0x06, 0x41] [] [] 1, playing 5 [] [0xF7, 0x06] [] [] 1, playing 5 [] [0xF7, 0x06, 0x41] [] [] 1],
      DefaultWindow s.dec) ∧
    fits 4 (playing 3 [] [0xF7, 0x06, 0x41] [] [] 1).dec = false ∧
    (fits 4 (playing 5 [] [0xF7] [] [] 1).dec = true ∧ decodedAddress 0 (playing 5 [] [0xF7] [] [] 1).dec = .needMore) ∧
    decodedAddress 8 (playing 5 [] [0xFF, 0x05] [] [] 1).dec = .error .sameCacheMiss ∧
    (∀ s ∈ [playing 4 [] [0xF7, 0x06, 0x41] [] [] 1, playing 5 [] [0xF7, 0x06] [] [] 1, playing 5 [] [0xF7, 0x06, 0x41] [] [] 1],
      fits 4 s.dec = true ∧ decodedAddress 0 s.dec = .value 6 2 (acUpdate AddrCache.reset 6) ∧
      ∀ k, k < 4 → ([0x36, 0x37, 0x38, 0x39] : Bytes)[k]? =
        (segmentBytes s.dec ++ (activeCtx s.dec).tw ++ [0x36, 0x37, 0x38, 0x39])[6 + k]?) ∧
    fits 1 (copied (playing 4 [] [0xF7, 0x06, 0x41] [] [] 1)) = false ∧
    (fits 1 (copied (playing 5 [] [0xF7, 0x06] [] [] 1)) = true ∧ (dataBytes (copied (playing 5 [] [0xF7, 0x06] [] [] 1))).length < 1) ∧
    (fits 1 (copied (playing 5 [] [0xF7, 0x06, 0x41] [] [] 1)) = true ∧
      1 ≤ (dataBytes (copied (playing 5 [] [0xF7, 0x06, 0x41] [] [] 1))).length) :=
  ⟨by decide +kernel, by decide +kernel, defaultWindow_of_all (by decide +kernel), by decide +kernel⟩

/-- A window under a custom table, whose opcode 00 is NOOP twice, 01 a row of a type that does not exist. -/
def oddTable (s : State) : State :=
  { s with dec := { s.dec with
      dtab := [{ first := half .noop 0 0, second := half .noop 0 0 },
        { first := { inst := 9, size := 0, mode := 0 }, second := half .noop 0 0 }] } }

/-- Every kind of half: under the default table with and without an explicit size, NOOP, a type code out of range. -/
theorem witness_EveryOpcodeRunsItsRow :
    opcodeOf .run = some 0x00 ∧ opcodeOf .add = some 0x01 ∧ opcodeOf .copyM8S4AddS1 = some 0xFF ∧
    WindowOk (playing 5 [] [0xFF, 0x00] [] [] 1).dec ∧ WindowOk (oddTable (playing 5 [] [0x00] [] [] 1)).dec ∧
    (tableRow (activeTab (oddTable (playing 5 [] [0x00] [] [] 1)).dec) 0x00).first.inst = 0 ∧
    instKind (tableRow (activeTab (oddTable (playing 5 [] [0x00] [] [] 1)).dec) 0x01).first.inst = none ∧
    (tableRow (activeTab (playing 5 [] [0xFF, 0x00] [] [] 1).dec) 0x00).first.size = 0 ∧
    (tableRow (activeTab (playing 5 [] [0xFF, 0x00] [] [] 1).dec) 0xFF).second.size ≠ 0 :=
  ⟨rfl, rfl, by decide +kernel, windowOk_of_check (by decide +kernel), windowOk_of_check (by decide +kernel), by decide +kernel⟩

/-- An opcode that goes on and one that raises. -/
theorem witness_OpcodeFrame :
    opcodeOf .copyM0S4 = some 0x14 ∧
    (WindowOk (playing 4 [] [0x14, 0x00] [] [] 1).dec ∧
      ∃ t, exec .copyM0S4 (playing 4 [] [0x14, 0x00] [] [] 1) = .next t ∧ t.dec.state = .inWindow) ∧
    (WindowOk (playing 3 [] [0x14, 0x00] [] [] 1).dec ∧
      ∃ t, exec .copyM0S4 (playing 3 [] [0x14, 0x00] [] [] 1) = .next t ∧ t.dec.state = .poisoned) :=
  ⟨by decide +kernel, ⟨windowOk_of_check (by decide +kernel), next_of_see (f := (·.dec.state)) (by decide +kernel)⟩,
    windowOk_of_check (by decide +kernel), next_of_see (f := (·.dec.state)) (by decide +kernel)⟩

/-! Windows, headers, sections. -/

theorem witness_ReplaySteps :
    ∀ s ∈ [playing 4 [] [0x14, 0x00] [] [] 0, playing 4 [] [0x14, 0x00] [] [0x30, 0x31, 0x32, 0x33] 2, innerEnd [] []],
      Inv s ∧ s.dec.replaying = true := by
  intro s hs
  have : invCheck s = true ∧ s.dec.replaying = true := by revert s; decide +kernel
  exact ⟨inv_of_check this.1, this.2⟩

/-- The same machine with a checksum to check. -/
def checked (c : Word) (s : State) : State :=
  { s with dec := { s.dec with hasChecksum := true, ctx := { s.dec.ctx with win := { s.dec.ctx.win with checksum := c } } } }

/-- The same window in the nested context, without its source. -/
def nestedIn (s : State) : State :=
  { s with dec := { s.dec with
      state := .customTable, ctx := Dec.reset.ctx,
      nested := some (inner .innerWindows [] s.dec.ctx.tw
        { s.dec.ctx.win with winIndicator := 0x00, srcSegSize := 0, srcSegSpace := .none }) } }

/-- A window too short, data left, an address left, a wrong checksum, in either context; an outer window with a right one, and
with none. -/
theorem witness_WindowEnd :
    (∀ s ∈ [playing 1 [] [0x00] [] [] 1, playing 0 [0x61] [0x00] [] [] 1, playing 0 [] [0x00] [0x00] [] 1,
      checked 2 (playing 0 [] [] [] [] 0)],
      ∀ t ∈ [s, nestedIn s], Inv t ∧ t.dec.replaying = true ∧ (activeWin t.dec).ip = (activeWin t.dec).instLen) ∧
    (∀ s ∈ [checked 1 (playing 0 [] [] [] [] 0), playing 1 [] [0x00] [] [0x61] 1],
      Inv s ∧ s.dec.replaying = true ∧ (activeWin s.dec).ip = (activeWin s.dec).instLen) ∧
    (∀ s ∈ [playing 1 [] [0x00] [] [] 1, nestedIn (playing 1 [] [0x00] [] [] 1)],
      (activeCtx s.dec).tw.length ≠ (activeWin s.dec).targetLen) ∧
    (∀ s ∈ [playing 0 [0x61] [0x00] [] [] 1, nestedIn (playing 0 [0x61] [0x00] [] [] 1)],
      (activeCtx s.dec).tw.length = (activeWin s.dec).targetLen ∧ (activeWin s.dec).dp ≠ (activeWin s.dec).dataLen) ∧
    (∀ s ∈ [playing 0 [] [0x00] [0x00] [] 1, nestedIn (playing 0 [] [0x00] [0x00] [] 1)],
      (activeCtx s.dec).tw.length = (activeWin s.dec).targetLen ∧ (activeWin s.dec).ap ≠ (activeWin s.dec).addrLen) ∧
    (∀ s ∈ [checked 2 (playing 0 [] [] [] [] 0), nestedIn (checked 2 (playing 0 [] [] [] [] 0)),
      checked 1 (playing 0 [] [] [] [] 0), playing 1 [] [0x00] [] [0x61] 1],
      (activeCtx s.dec).tw.length = (activeWin s.dec).targetLen ∧ (activeWin s.dec).dp = (activeWin s.dec).dataLen ∧
        (activeWin s.dec).ap = (activeWin s.dec).addrLen) ∧
    (∀ s ∈ [checked 2 (playing 0 [] [] [] [] 0), nestedIn (checked 2 (playing 0 [] [] [] [] 0))],
      s.dec.hasChecksum = true ∧ adler32 (activeCtx s.dec).tw ≠ (activeWin s.dec).checksum) ∧
    ((checked 1 (playing 0 [] [] [] [] 0)).dec.nested = none ∧
      adler32 (checked 1 (playing 0 [] [] [] [] 0)).dec.ctx.tw = (checked 1 (playing 0 [] [] [] [] 0)).dec.ctx.win.checksum) ∧
    ((playing 1 [] [0x00] [] [0x61] 1).dec.nested = none ∧ (playing 1 [] [0x00] [] [0x61] 1).dec.hasChecksum = false) := by
  refine ⟨fun s hs t ht => ?_, fun s hs => ?_, by decide +kernel⟩
  · have : invCheck t = true ∧ t.dec.replaying = true ∧ (activeWin t.dec).ip = (activeWin t.dec).instLen := by
      revert t; revert s; decide +kernel
    exact ⟨inv_of_check this.1, this.2⟩
  · have : invCheck s = true ∧ s.dec.replaying = true ∧ (activeWin s.dec).ip = (activeWin s.dec).instLen := by
      revert s; decide +kernel
    exact ⟨inv_of_check this.1, this.2⟩

/-- The image of the default table. -/
def defaultImage : Bytes := packImage defTab

theorem defaultImage_length : defaultImage.length = 1536 := by decide +kernel

theorem defaultImage_valid : tabValid (unpackImage defaultImage) 8 = true := by
  rw [defaultImage, unpackImage_packImage defTab_length]
  exact defTab_valid

theorem innerEnd_inv {dtarget tw : Bytes} (h : dtarget.length < 1536) (ht : tw.length ≤ 1536) : Inv (innerEnd dtarget tw) := by
  have hw : tw.length < 2 ^ 32 := by omega
  have hs : dtarget.length + tw.length < 2 ^ 64 := by omega
  refine ⟨⟨rfl, Nat.zero_le _, rfl, Nat.pow_pos (by decide), ⟨[], rfl⟩,
    ⟨rfl, rfl, rfl, rfl, h, fun _ => ⟨rfl, rfl⟩, fun _ => rfl⟩, fun _ => ⟨defTab_length, defTab_valid, rfl, rfl⟩,
    ⟨fun h => (by cases h), fun h => absurd rfl h⟩, fun h => (by cases h), fun _ => ⟨.inr (.inr rfl), ?_, ?_⟩⟩, ?_⟩
  · exact ⟨cacheOk_of_check (c := AddrCache.reset) (by decide +kernel), rfl, Nat.le_refl _, Nat.le_refl _, Nat.le_refl _,
      Nat.le_refl _, Nat.le_refl _, rfl⟩
  · exact ⟨hw, Nat.pow_pos (by decide), Nat.pow_pos (by decide), Nat.pow_pos (by decide), hs⟩
  · exact encInv_of_check (e := Enc.reset) (by decide +kernel)

/-- An image that is one byte short, one byte long, whole and valid, whole and not valid. -/
theorem witness_InnerWindowEnd :
    (∀ dtarget tw : Bytes, dtarget.length < 1536 → tw.length ≤ 1536 →
      ∃ n : Nested, Inv (innerEnd dtarget tw) ∧ (innerEnd dtarget tw).dec.replaying = true ∧
        (innerEnd dtarget tw).dec.nested = some n ∧ n.ctx.win.ip = n.ctx.win.instLen ∧
        n.ctx.tw.length = n.ctx.win.targetLen ∧ n.ctx.win.dp = n.ctx.win.dataLen ∧ n.ctx.win.ap = n.ctx.win.addrLen ∧
        (innerEnd dtarget tw).dec.hasChecksum = false ∧ n.ctMaxMode = 8 ∧ n.ctx.dtarget ++ n.ctx.tw = dtarget ++ tw) ∧
    (∃ dtarget tw : Bytes, dtarget.length < 1536 ∧ tw.length ≤ 1536 ∧ (dtarget ++ tw).length = 1535) ∧
    (∃ dtarget tw : Bytes, dtarget.length < 1536 ∧ tw.length ≤ 1536 ∧ (dtarget ++ tw).length = 1537) ∧
    (defaultImage.length = 1536 ∧ tabValid (unpackImage ([] ++ defaultImage)) 8 = true) ∧
    ((List.replicate 1536 (0xFF : Byte)).length = 1536 ∧ tabValid (unpackImage ([] ++ List.replicate 1536 0xFF)) 8 = false) := by
  refine ⟨fun a b ha hb => ⟨_, innerEnd_inv ha hb, rfl, rfl, rfl, rfl, rfl, rfl, rfl, rfl, rfl⟩,
    ⟨List.replicate 1535 0, [], ?_, by decide, ?_⟩, ⟨List.replicate 1535 0, [0, 0], ?_, by decide, ?_⟩,
    ⟨defaultImage_length, defaultImage_valid⟩, List.length_replicate, by decide +kernel⟩ <;>
  simp only [List.length_append, List.length_replicate] <;> decide

/-- The header of the window of E0, with the whole of `digits` as its source. -/
def goodHeader : StreamHeader :=
  { space := .dict, hasChecksum := true, size := 10, pos := 0, deltaLen := 15, targetLen := 4, dataLen := 1, instLen := 4,
    addrLen := 1, checksum := 63832453, sizeBytes := [0x0A], posBytes := [0x00], deltaLenBytes := [0x0F],
    targetLenBytes := [0x04], dataLenBytes := [0x01], instLenBytes := [0x04], addrLenBytes := [0x01],
    checksumBytes := [0x9E, 0xB8, 0x83, 0x05] }

/-- `Encoded`, as a check. -/
def encodedCheck (w : StreamHeader) : Bool :=
  decide ((w.space = .none → w.size = 0 ∧ w.pos = 0) ∧
    (w.space ≠ .none → viRead 32 w.sizeBytes 0 w.sizeBytes.length = .value w.size w.sizeBytes.length ∧
      viRead 32 w.posBytes 0 w.posBytes.length = .value w.pos w.posBytes.length) ∧
    viRead 32 w.deltaLenBytes 0 w.deltaLenBytes.length = .value w.deltaLen w.deltaLenBytes.length ∧
    viRead 32 w.targetLenBytes 0 w.targetLenBytes.length = .value w.targetLen w.targetLenBytes.length ∧
    viRead 32 w.dataLenBytes 0 w.dataLenBytes.length = .value w.dataLen w.dataLenBytes.length ∧
    viRead 32 w.instLenBytes 0 w.instLenBytes.length = .value w.instLen w.instLenBytes.length ∧
    viRead 32 w.addrLenBytes 0 w.addrLenBytes.length = .value w.addrLen w.addrLenBytes.length ∧
    (w.hasChecksum = true → viRead 32 w.checksumBytes 0 w.checksumBytes.length = .value w.checksum w.checksumBytes.length))

theorem encoded_of_check {w : StreamHeader} (h : encodedCheck w = true) : w.Encoded := by
  have h := of_decide_eq_true h
  exact h

/-- `Accepted`, as a check. -/
def acceptedCheck (w : StreamHeader) (k : Nat) (d : Dec) : Bool :=
  decide ((1 ≤ k → w.space = .dtarget → d.allowVcdTarget = true) ∧
    (3 ≤ k → w.pos + w.size ≤ w.bound d) ∧
    (5 ≤ k → w.targetLen ≤ d.maxTargetWindowSize.toNat ∧
      (activeCtx d).totalTargetLen + w.targetLen ≤ d.maxTargetFileSize.toNat) ∧
    (7 ≤ k → w.dataLen ≤ d.maxSectionSize.toNat) ∧ (8 ≤ k → w.instLen ≤ d.maxSectionSize.toNat) ∧
    (9 ≤ k → w.addrLen ≤ d.maxSectionSize.toNat))

theorem accepted_of_check {w : StreamHeader} {k : Nat} {d : Dec} (h : acceptedCheck w k d = true) : w.Accepted k d := by
  have h := of_decide_eq_true h
  exact h

/-- Between windows of a session on `digits`; the same inside a custom code table; the same with the start of a window pending. -/
theorem at_window :
    (Inv (resting .expectWinIndicator []) ∧ AtWindow (resting .expectWinIndicator []).dec) ∧
    (Inv (tableSection .innerWindows []) ∧ AtWindow (tableSection .innerWindows []).dec) ∧
    (Inv (resting .inWindow [0x05, 0x0A]) ∧ AtWindow (resting .inWindow [0x05, 0x0A]).dec) :=
  ⟨⟨inv_of_check (by decide +kernel), .inl rfl⟩, ⟨inv_of_check (by decide +kernel), .inr (.inr ⟨rfl, _, rfl, rfl⟩)⟩,
    inv_of_check (by decide +kernel), .inr (.inl rfl)⟩

/-- Nothing is pending there, so the stream of the statements on headers is the chunk, and any bytes can be the chunk. -/
theorem stream_is_chunk (chunk : Bytes) :
    (resting .expectWinIndicator []).dec.pending ++ chunk = chunk ∧ (tableSection .innerWindows []).dec.pending ++ chunk = chunk ∧
    (tableSection .params []).dec.pending ++ chunk = chunk := ⟨rfl, rfl, rfl⟩

/-- `VCD_TARGET` refused by the control register. -/
def targetBarred : State :=
  { resting .expectWinIndicator [] with dec := { (resting .expectWinIndicator []).dec with allowVcdTarget := false } }

/-- The Win_Indicator: each reserved bit, both sources, a source in the target where that is barred. -/
theorem witness_HeaderErrors_indicator :
    Inv targetBarred ∧ AtWindow targetBarred.dec ∧ goodHeader.Encoded ∧
    (∀ wi ∈ ([0x08, 0x10, 0x20, 0x40, 0x80, 0xFF] : Bytes), wi &&& 0xF8 ≠ 0) ∧
    (∀ wi ∈ ([0x03, 0x07] : Bytes), wi &&& 0xF8 = 0 ∧ wi &&& 0x03 = 0x03) ∧
    (∀ wi ∈ ([0x02, 0x06] : Bytes), wi &&& 0xF8 = 0 ∧ wi &&& 0x03 = 0x02 ∧ targetBarred.dec.allowVcdTarget = false) :=
  ⟨inv_of_check (by decide +kernel), .inl rfl, encoded_of_check (by decide +kernel), by decide⟩

/-- The eight VarInts of a header, each in turn overflowing. -/
theorem witness_HeaderErrors_overflow :
    goodHeader.Encoded ∧ (∀ k ∈ [1, 2, 3, 4, 6, 7, 8, 9], goodHeader.Accepted k (resting .expectWinIndicator []).dec) ∧
    Overflows [0x90, 0x80, 0x80, 0x80, 0x00] ∧ goodHeader.space ≠ .none ∧ goodHeader.hasChecksum = true := by
  refine ⟨encoded_of_check (by decide +kernel), ?_, ?_, by decide⟩
  · intro k hk
    apply accepted_of_check
    revert k
    decide +kernel
  · unfold Overflows
    decide +kernel

/-- A segment one byte past the dictionary; a target one past CR2, and one past CR1; a Delta_Indicator; each section one past CR3;
lengths that do not add up by one. -/
theorem witness_HeaderErrors_fields :
    ({ goodHeader with size := 11, sizeBytes := [0x0B] } : StreamHeader).Encoded ∧
    ({ goodHeader with size := 11, sizeBytes := [0x0B] } : StreamHeader).Accepted 2 (resting .expectWinIndicator []).dec ∧
    goodHeader.bound (resting .expectWinIndicator []).dec = 10 ∧
    ({ goodHeader with targetLen := 67108865, targetLenBytes := viWrite 67108865 } : StreamHeader).Encoded ∧
    ({ goodHeader with targetLen := 67108865, targetLenBytes := viWrite 67108865 } : StreamHeader).Accepted 4
      (resting .expectWinIndicator []).dec ∧
    (resting .expectWinIndicator []).dec.maxTargetWindowSize.toNat = 67108864 ∧
    goodHeader.Accepted 5 (resting .expectWinIndicator []).dec ∧ (0x01 : Byte) ≠ 0 ∧
    ({ goodHeader with dataLen := 67108865, dataLenBytes := viWrite 67108865 } : StreamHeader).Encoded ∧
    ({ goodHeader with dataLen := 67108865, dataLenBytes := viWrite 67108865 } : StreamHeader).Accepted 6
      (resting .expectWinIndicator []).dec ∧
    ({ goodHeader with instLen := 67108865, instLenBytes := viWrite 67108865 } : StreamHeader).Encoded ∧
    ({ goodHeader with instLen := 67108865, instLenBytes := viWrite 67108865 } : StreamHeader).Accepted 7
      (resting .expectWinIndicator []).dec ∧
    ({ goodHeader with addrLen := 67108865, addrLenBytes := viWrite 67108865 } : StreamHeader).Encoded ∧
    ({ goodHeader with addrLen := 67108865, addrLenBytes := viWrite 67108865 } : StreamHeader).Accepted 8
      (resting .expectWinIndicator []).dec ∧
    (resting .expectWinIndicator []).dec.maxSectionSize.toNat = 67108864 ∧
    ({ goodHeader with deltaLen := 14, deltaLenBytes := [0x0E] } : StreamHeader).Encoded ∧
    ({ goodHeader with deltaLen := 14, deltaLenBytes := [0x0E] } : StreamHeader).Accepted 10 (resting .expectWinIndicator []).dec ∧
    ¬ ({ goodHeader with deltaLen := 14, deltaLenBytes := [0x0E] } : StreamHeader).Consistent := by
  refine ⟨encoded_of_check ?_, accepted_of_check ?_, ?_, encoded_of_check ?_, accepted_of_check ?_, ?_, accepted_of_check ?_, ?_,
    encoded_of_check ?_, accepted_of_check ?_, encoded_of_check ?_, accepted_of_check ?_, encoded_of_check ?_, accepted_of_check ?_,
    ?_, encoded_of_check ?_, accepted_of_check ?_, ?_⟩
  case refine_18 => unfold StreamHeader.Consistent; decide +kernel
  all_goals decide +kernel

/-- The file cap one byte short of the window. -/
def fileFull : State :=
  { resting .expectWinIndicator [] with
    dec := { (resting .expectWinIndicator []).dec with maxTargetFileSize := 3 } }

theorem witness_HeaderErrors_file :
    Inv fileFull ∧ AtWindow fileFull.dec ∧ goodHeader.Accepted 4 fileFull.dec ∧
    goodHeader.targetLen ≤ fileFull.dec.maxTargetWindowSize.toNat ∧
    fileFull.dec.maxTargetFileSize.toNat < (activeCtx fileFull.dec).totalTargetLen + goodHeader.targetLen :=
  ⟨inv_of_check (by decide +kernel), .inl rfl, accepted_of_check (by decide +kernel), by decide +kernel⟩

/-- The body of that window. -/
def goodBody : Bytes := [0x61, 0x00, 0x01, 0x13, 0x03, 0x0A]

/-- All but the last byte of a window, and the last byte of its header. -/
theorem witness_WindowWaits :
    Inv (resting .expectWinIndicator []) ∧ AtWindow (resting .expectWinIndicator []).dec ∧ goodHeader.Encoded ∧
    goodHeader.Accepted 10 (resting .expectWinIndicator []).dec ∧ goodHeader.Consistent ∧
    goodBody.length = goodHeader.dataLen + goodHeader.instLen + goodHeader.addrLen ∧
    (∀ n ∈ [1, 12, 18], ((goodHeader.upTo 10 ++ goodBody).drop n ≠ [] ∧ [] ++ (goodHeader.upTo 10 ++ goodBody).take n ≠ [] ∧
      ([] ++ (goodHeader.upTo 10 ++ goodBody).take n) ++ (goodHeader.upTo 10 ++ goodBody).drop n =
        goodHeader.upTo 10 ++ goodBody)) := by
  refine ⟨at_window.1.1, at_window.1.2, encoded_of_check ?_, accepted_of_check ?_, ?_, ?_⟩
  case refine_3 => unfold StreamHeader.Consistent; decide +kernel
  all_goals decide +kernel

/-- A header without a source, for the nested context, whose dictionary is not known. -/
def innerWindowHeader : StreamHeader :=
  { space := .none, hasChecksum := false, size := 0, pos := 0, deltaLen := 8, targetLen := 1, dataLen := 1, instLen := 1,
    addrLen := 0, checksum := 0, sizeBytes := [], posBytes := [], deltaLenBytes := [0x08], targetLenBytes := [0x01],
    dataLenBytes := [0x01], instLenBytes := [0x80, 0x01], addrLenBytes := [0x00], checksumBytes := [] }

/-- A whole window with the start of another behind it; and one in the nested context, with a VarInt longer than it need be. -/
theorem witness_WindowRuns :
    (Inv (resting .inWindow [0x05, 0x0A]) ∧ AtWindow (resting .inWindow [0x05, 0x0A]).dec ∧ goodHeader.Encoded ∧
      goodHeader.Accepted 10 (resting .inWindow [0x05, 0x0A]).dec ∧ goodHeader.Consistent ∧
      goodBody.length = goodHeader.dataLen + goodHeader.instLen + goodHeader.addrLen ∧
      [0x05, 0x0A] ++ ((goodHeader.upTo 10).drop 2 ++ goodBody ++ [0x01]) = goodHeader.upTo 10 ++ goodBody ++ [0x01]) ∧
    (Inv (tableSection .innerWindows []) ∧ AtWindow (tableSection .innerWindows []).dec ∧ innerWindowHeader.Encoded ∧
      innerWindowHeader.Accepted 10 (tableSection .innerWindows []).dec ∧ innerWindowHeader.Consistent ∧
      [(0x61 : Byte), 0x02].length = innerWindowHeader.dataLen + innerWindowHeader.instLen + innerWindowHeader.addrLen ∧
      [] ++ (innerWindowHeader.upTo 10 ++ [0x61, 0x02] ++ []) = innerWindowHeader.upTo 10 ++ [0x61, 0x02] ++ []) := by
  refine ⟨⟨at_window.2.2.1, at_window.2.2.2, encoded_of_check ?_, accepted_of_check ?_, ?_, ?_⟩,
    at_window.2.1.1, at_window.2.1.2, encoded_of_check ?_, accepted_of_check ?_, ?_, ?_⟩
  case refine_3 => unfold StreamHeader.Consistent; decide +kernel
  case refine_7 => unfold StreamHeader.Consistent; decide +kernel
  all_goals decide +kernel

/-- Four bytes, five; every check of the header at a byte that fails it. -/
theorem witness_FileHeader :
    (Inv (resting .expectHeader [0xD6, 0xC3]) ∧ (resting .expectHeader [0xD6, 0xC3]).dec.replaying = false) ∧
    ([0xD6, 0xC3] ++ [0xC4, 0x00] : Bytes).length < 5 ∧
    ((0xD6 : Byte) ≠ 0xD6 ∨ (0xC3 : Byte) ≠ 0xC3 ∨ (0xC5 : Byte) ≠ 0xC4) ∧
    ((0x01 : Byte) ≠ 0x00 ∧ (0x01 : Byte) ≠ 0x53) ∧
    (∀ h4 ∈ ([0x04, 0x08, 0x80, 0xFF] : Bytes), h4 &&& 0xFC ≠ 0) ∧
    (∀ h4 ∈ ([0x00, 0x01, 0x02, 0x03] : Bytes), h4 &&& 0xFC = 0 ∧ (h4 = 0x00 ∨ h4 = 0x01 ∨ h4 = 0x02 ∨ h4 = 0x03)) ∧
    ([0xD6, 0xC3] ++ [0xC4, 0x53, 0x02, 0x04] : Bytes) = 0xD6 :: 0xC3 :: 0xC4 :: 0x53 :: 0x02 :: [0x04] :=
  ⟨⟨inv_of_check (by decide +kernel), rfl⟩, by decide⟩

theorem overflows_of_check {b : Bytes} (h : viRead 32 b 0 b.length = .error .varIntOverflow) : Overflows b := h

theorem isVarInt_of_check {v : Nat} {b : Bytes} (h : viRead 32 b 0 b.length = .value v b.length) : IsVarInt v b := h

/-- Each VarInt overflowing; the parameters cut short at every place; sizes at the last that are good and the first that are not. -/
theorem witness_CustomTableParameters :
    (Inv (tableSection .params []) ∧ (tableSection .params []).dec.replaying = false ∧
      ∃ n, (tableSection .params []).dec.nested = some n ∧ n.phase = .params) ∧
    Overflows [0x90, 0x80, 0x80, 0x80, 0x00] ∧ IsVarInt 4 [0x04] ∧ IsVarInt 3 [0x03] ∧
    (∀ p ∈ [[], [0x04], ([0x04, 0x03] : Bytes)], p ++ ([0x04] ++ [0x03] ++ [(0x08 : Byte)]).drop p.length = [0x04] ++ [0x03] ++ [0x08] ∧
      ([0x04] ++ [0x03] ++ [(0x08 : Byte)]).drop p.length ≠ []) ∧
    (IsVarInt 254 [0x81, 0x7E] ∧ IsVarInt 0 [0x00] ∧ 254 ≤ 254 ∧ 0 ≤ 254 ∧ 1 + 254 + 0 ≤ 255 ∧ (0xFF : Byte).toNat = 1 + 254 + 0) ∧
    (IsVarInt 255 [0x81, 0x7F] ∧ ¬ (255 ≤ 254 ∧ 0 ≤ 254 ∧ 1 + 255 + 0 ≤ 255 ∧ (0x00 : Byte).toNat = 1 + 255 + 0)) ∧
    ¬ (4 ≤ 254 ∧ 3 ≤ 254 ∧ 1 + 4 + 3 ≤ 255 ∧ (0x07 : Byte).toNat = 1 + 4 + 3) :=
  ⟨⟨inv_of_check (by decide +kernel), rfl, _, rfl, rfl⟩, overflows_of_check (by decide +kernel), isVarInt_of_check (by decide +kernel),
    isVarInt_of_check (by decide +kernel), by decide, ⟨isVarInt_of_check (by decide +kernel), isVarInt_of_check (by decide +kernel),
    by decide⟩, ⟨isVarInt_of_check (by decide +kernel), by decide⟩, by decide⟩

theorem witness_InnerFileHeader :
    (Inv (tableSection .innerHeader [0xD6, 0xC3]) ∧ (tableSection .innerHeader [0xD6, 0xC3]).dec.replaying = false ∧
      ∃ n, (tableSection .innerHeader [0xD6, 0xC3]).dec.nested = some n ∧ n.phase = .innerHeader) ∧
    ([0xD6, 0xC3] ++ [0xC4, 0x00] : Bytes).length < 5 ∧
    ([0xD6, 0xC3] ++ [0xC4, 0x00, 0x02] : Bytes) = 0xD6 :: 0xC3 :: 0xC4 :: 0x00 :: 0x02 :: [] ∧
    ([0xD6, 0xC3] ++ [0xC5, 0x00, 0x00] : Bytes) = 0xD6 :: 0xC3 :: 0xC5 :: 0x00 :: 0x00 :: [] ∧
    ((0xD6 : Byte) ≠ 0xD6 ∨ (0xC3 : Byte) ≠ 0xC3 ∨ (0xC5 : Byte) ≠ 0xC4) ∧ ((0x54 : Byte) ≠ 0x00 ∧ (0x54 : Byte) ≠ 0x53) ∧
    (0x04 : Byte) &&& 0xFC ≠ 0 :=
  ⟨⟨inv_of_check (by decide +kernel), rfl, _, rfl, rfl⟩, by decide⟩

/-! The decoder's commands and the whole machine. -/

/-- The four states of a session. -/
theorem witness_DecChunkEnds :
    ∀ s ∈ [resting .expectHeader [0xD6], tableSection .params [], resting .expectWinIndicator [], resting .inWindow [0x01]],
      Inv s ∧ s.dec.replaying = false ∧ InSession s.dec.state := by
  intro s hs
  have : invCheck s = true ∧ s.dec.replaying = false ∧
      (s.dec.state = .expectHeader ∨ s.dec.state = .customTable ∨ s.dec.state = .expectWinIndicator ∨ s.dec.state = .inWindow) := by
    revert s; decide +kernel
  exact ⟨inv_of_check this.1, this.2⟩

theorem witness_DecFinishEnds :
    (Inv (resting .expectWinIndicator []) ∧ (resting .expectWinIndicator []).dec.state = .expectWinIndicator) ∧
    ∀ s ∈ [resting .expectHeader [0xD6], tableSection .params [], resting .inWindow [0x01]],
      s.dec.replaying = false ∧ s.dec.state ≠ .expectWinIndicator :=
  ⟨⟨at_window.1.1, rfl⟩, by decide +kernel⟩

theorem witness_DecoderRefusals :
    (resting .idle []).dec.state = .idle ∧ (resting .finished []).dec.state = .finished ∧ broken.dec.state = .poisoned ∧
    (issued { code := 0x08 } broken).dec.replaying = false ∧ (issued { code := 0x08 } broken).cmds = [{ code := 0x08 }] ∧
    ¬ (1 ≤ (0x08 : Byte).toNat ∧ (0x08 : Byte).toNat ≤ 7) ∧ ¬ (16 ≤ (0x08 : Byte).toNat ∧ (0x08 : Byte).toNat ≤ 25) := by decide

/-- An opcode that raises, a chunk, a chunk with a whole window before what fails, `DEC_FINISH`. -/
theorem witness_Poisoning :
    (∀ s ∈ [playing 3 [] [0x14, 0x00] [] [] 0, issued { code := 0x02, input := [0x00, 0x00, 0x00, 0x00, 0x00] } (resting .expectHeader []),
      issued { code := 0x03 } (resting .inWindow [0x01])],
      Inv s ∧ s.dec.state ≠ .poisoned ∧ ∃ t, step s = .next t ∧ t.dec.state = .poisoned) ∧
    ((playing 3 [] [0x14, 0x00] [] [] 0).dec.replaying = true ∧
      (activeWin (playing 3 [] [0x14, 0x00] [] [] 0).dec).ip < (activeWin (playing 3 [] [0x14, 0x00] [] [] 0).dec).instLen) ∧
    Issues 0x03 (issued { code := 0x03 } (resting .inWindow [0x01])) ∧
    (∀ p ∈ [(resting .expectHeader [], ([0x00, 0x00, 0x00, 0x00, 0x00] : Bytes)),
      (resting .expectWinIndicator [], goodHeader.upTo 10 ++ goodBody ++ [0xFF, 0x00])],
      Inv p.1 ∧ p.1.dec.replaying = false ∧ InSession p.1.dec.state ∧
        ∃ t, exec (.decChunk p.2) p.1 = .next t ∧ t.dec.state = .poisoned) ∧
    seeRun (·.dec.sink) [.decChunk (goodHeader.upTo 10 ++ goodBody ++ [0xFF, 0x00])] (resting .expectWinIndicator []) =
      some [0x61, 0x61, 0x61, 0x61] := by
  refine ⟨fun s hs => ?_, by decide +kernel, ⟨rfl, _, _, rfl, rfl⟩, fun p hp => ?_, by decide +kernel⟩
  · have : invCheck s = true ∧ s.dec.state ≠ .poisoned ∧ see (·.dec.state) (step s) = some .poisoned := by revert s; decide +kernel
    exact ⟨inv_of_check this.1, this.2.1, next_of_see this.2.2⟩
  · have : invCheck p.1 = true ∧ p.1.dec.replaying = false ∧ (p.1.dec.state = .expectHeader ∨ p.1.dec.state = .expectWinIndicator) ∧
        see (·.dec.state) (exec (.decChunk p.2) p.1) = some .poisoned := by
      simp only [List.mem_cons, List.not_mem_nil, or_false] at hp
      rcases hp with rfl | rfl <;> decide +kernel
    exact ⟨inv_of_check this.1, this.2.1, this.2.2.1.elim .inl fun h => .inr (.inr (.inl h)), next_of_see this.2.2.2⟩

theorem not_issues {c : Byte} {s : State} {t : HostCmd} {rest : List HostCmd} (h : s.cmds = t :: rest) (hc : t.code ≠ c) :
    ¬ Issues c s := by
  rintro ⟨_, t', rest', h', hc'⟩
  rw [h] at h'
  cases h'
  exact hc hc'

/-- A chunk to a poisoned decoder, a command to a failed encoder, a setter. -/
theorem witness_LeavingErrorState :
    (Inv (issued { code := 0x02, input := [0x00] } broken) ∧ (issued { code := 0x02, input := [0x00] } broken).dec.state = .poisoned ∧
      (∃ t, step (issued { code := 0x02, input := [0x00] } broken) = .next t ∧ t.dec.errCause = 0x21) ∧
      ¬ Issues 0x01 (issued { code := 0x02, input := [0x00] } broken)) ∧
    (Inv (issued { code := 0x16 } broken) ∧ (issued { code := 0x16 } broken).enc.state = .failed ∧
      (∃ t, step (issued { code := 0x16 } broken) = .next t ∧ t.enc.errCause = 0x61) ∧
      ¬ Issues 0x10 (issued { code := 0x16 } broken)) :=
  ⟨⟨inv_of_check (by decide +kernel), rfl, next_of_see (f := (·.dec.errCause)) (by decide +kernel), not_issues rfl (by decide)⟩,
    inv_of_check (by decide +kernel), rfl, next_of_see (f := (·.enc.errCause)) (by decide +kernel), not_issues rfl (by decide)⟩

theorem witness_ContextsAreIndependent :
    (isEncoderCommand (.encInit 13) = true ∧ ∃ t, exec (.encInit 13) State.reset = .next t ∧ t.enc.dictSize = 13) ∧
    (isEncoderCommand .decFinish = false ∧ ∃ t, exec .decFinish State.reset = .next t ∧ t.enc.dictSize = 0) ∧
    (isEncoderCommand .copyM0S4 = false ∧
      ∃ t, exec .copyM0S4 (playing 4 [] [0x14, 0x00] [] [] 1) = .next t ∧ t.enc.dictSize = 0) :=
  ⟨⟨by decide, next_of_see (f := (·.enc.dictSize)) (by decide +kernel)⟩,
    ⟨by decide, next_of_see (f := (·.enc.dictSize)) (by decide +kernel)⟩,
    by decide, next_of_see (f := (·.enc.dictSize)) (by decide +kernel)⟩

/-- For every register of the statement a command that changes it, from a state that meets the invariant. -/
theorem witness_WhoWrites :
    (∀ s ∈ [issued { code := 0x04 } (resting .idle []), issued { code := 0x05, arg0 := 1 } (resting .idle []),
        issued { code := 0x06, arg0 := 1 } (resting .idle []), issued { code := 0x07, arg0 := 1 } (resting .idle []),
        issued { code := 0x01, dict := [0x61] } (resting .idle []), issued { code := 0x10, arg0 := 1 } (resting .idle []),
        issued { code := 0x17, arg0 := 1 } (resting .idle [])], Inv s ∧ ∃ t, step s = .next t) ∧
    see (·.dec.allowVcdTarget) (step (issued { code := 0x04 } (resting .idle []))) = some false ∧
    see (·.dec.maxTargetFileSize) (step (issued { code := 0x05, arg0 := 1 } (resting .idle []))) = some 1 ∧
    see (·.dec.maxTargetWindowSize) (step (issued { code := 0x06, arg0 := 1 } (resting .idle []))) = some 1 ∧
    see (·.dec.maxSectionSize) (step (issued { code := 0x07, arg0 := 1 } (resting .idle []))) = some 1 ∧
    see (·.dec.dict) (step (issued { code := 0x01, dict := [0x61] } (resting .idle []))) = some [0x61] ∧
    see (·.enc.interleaved) (step (issued { code := 0x10, arg0 := 1 } (resting .idle []))) = some true ∧
    see (·.enc.sink.length) (step (issued { code := 0x17, arg0 := 1 } (resting .idle []))) = some 5 := by
  refine ⟨?_, by decide +kernel⟩
  intro s hs
  have : invCheck s = true ∧ see (fun _ => ()) (step s) = some () := by revert s; decide +kernel
  exact ⟨inv_of_check this.1, (next_of_see this.2).imp fun _ h => h.1⟩

/-- The longest dictionary there is, and none. -/
theorem witness_ChunkingLaw : (∃ d : Bytes, d.length = 4294967295) ∧ ([] : Bytes).length ≤ 4294967295 :=
  ⟨⟨List.replicate 4294967295 0, List.length_replicate⟩, by decide⟩

/-- A file of one header and one window, cut inside the window, between header and window, and before its last byte. -/
theorem witness_TruncationLaw :
    digits.length ≤ 4294967295 ∧
    (∃ t, runInstrs (session digits [header ++ (goodHeader.upTo 10 ++ goodBody)]) State.reset = .next t ∧ t.result = some .ok) ∧
    (∀ n ∈ [0, 3, 5, 10, 23], header ++ (goodHeader.upTo 10 ++ goodBody) =
      (header ++ (goodHeader.upTo 10 ++ goodBody)).take n ++ (header ++ (goodHeader.upTo 10 ++ goodBody)).drop n) ∧
    header ++ (goodHeader.upTo 10 ++ goodBody) = (header ++ (goodHeader.upTo 10 ++ goodBody)).take 23 ++ [0x0A] :=
  ⟨by decide, next_of_see (f := (·.result)) (by decide +kernel), by decide +kernel⟩

/-! The encoder. -/

/-- The default table as a custom one, at its own sizes and at ones that do not fit. -/
def givenTable (near mode : Nat) : CustomTable := { image := defaultImage, nearSize := near, sameSize := 3, maxMode := mode }

theorem witness_EncNewConfigures :
    GoodTable (givenTable 4 8) ∧ ¬ GoodTable (givenTable 255 8) ∧ ¬ GoodTable (givenTable 4 9) ∧
    ∀ g, (none : Option CustomTable) = some g → GoodTable g :=
  ⟨⟨by decide, by decide, rfl, by decide, defaultImage_valid⟩, fun h => absurd h.1 (by decide),
    fun h => absurd h.2.2.1 (by decide), fun _ h => nomatch h⟩

theorem witness_EncInitReadies :
    State.reset.enc.state ≠ .failed ∧ (encoding [] none 0).enc.state ≠ .failed := by decide

/-- A table with a compound opcode whose second half has no size of its own. -/
def openPair : Enc := { (encoding [0x03] (some 0) 2).enc with etab := defTab.set 0xA7 (pair .add 2 0 .copy 0 0) }

theorem no_upgrade {e : Enc} (h : e.lastOpcodeIndex = none) (k : InstKind) (size mode i : Nat) (c : Byte) :
    ¬ Upgrades e k size mode i c := by
  rintro ⟨b, hi, -⟩
  rw [h] at hi
  cases hi

/-- Each of the four steps being the one that finds an opcode, and none. -/
theorem witness_EncodeInstructionSteps :
    (1 ≤ 5 ∧ 5 ≤ 255 ∧ Upgrades (encoding [0x03] (some 0) 2).enc .copy 5 0 0 0xA7) ∧
    (¬ (1 ≤ 300 ∧ 300 ≤ 255) ∧ Upgrades openPair .copy 0 0 0 0xA7) ∧
    ((∀ size i c, ¬ Upgrades (encoding [] none 0).enc .add size 0 i c) ∧
      (1 ≤ 1 ∧ 1 ≤ 255 ∧ imapFirst (encoding [] none 0).enc.etab .add 1 0 = some 0x02) ∧
      (imapFirst (encoding [] none 0).enc.etab .add 255 0 = none ∧ imapFirst (encoding [] none 0).enc.etab .add 0 0 = some 0x01)) ∧
    ((∀ size i c, ¬ Upgrades (encoding [] none 0).enc .copy size 9 i c) ∧
      imapFirst (encoding [] none 0).enc.etab .copy 4 9 = none ∧ imapFirst (encoding [] none 0).enc.etab .copy 0 9 = none) ∧
    ((encoding [] none 0).enc.etab = defTab ∧ InstKind.copy ≠ .noop ∧ 8 ≤ 8 ∧ (InstKind.copy ≠ .copy → 8 = 0)) :=
  ⟨⟨by decide, by decide, 0x03, by decide +kernel⟩, ⟨by decide, 0x03, by decide +kernel⟩,
    ⟨fun _ _ _ => no_upgrade rfl _ _ _ _ _, by decide +kernel⟩, ⟨fun _ _ _ => no_upgrade rfl _ _ _ _ _, by decide +kernel⟩,
    rfl, by decide, by decide, fun h => absurd rfl h⟩

/-- The machine `s` whose encoder has a table without rows: no instruction has an opcode. -/
def noOpcodes (s : State) : State := { s with enc := { s.enc with etab := [] } }

/-- Not initialised; a slice one past the end, and one at the end; a target one past the last length, and at it; no opcode; all
well. -/
theorem witness_EncAddAndRun :
    State.reset.enc.state = .created ∧ (encoding [] none 0).enc.state = .ready ∧ (3 < 2 + 2 ∧ 2 + 2 ≤ 4) ∧
    4294967295 < (encoding [] none 4294967285).enc.dictSize.toNat + (encoding [] none 4294967285).enc.targetLen + 1 ∧
    (encoding [] none 4294967284).enc.dictSize.toNat + (encoding [] none 4294967284).enc.targetLen + 1 ≤ 4294967295 ∧
    encodeInstruction .add 1 0 (noOpcodes (encoding [] none 0)).enc = none ∧
    encodeInstruction .run 1 0 (noOpcodes (encoding [] none 0)).enc = none ∧
    EncodesTo .add 1 0 (encoding [] none 4294967284).enc [0x02] (some 0) ∧
    EncodesTo .run 1 0 (encoding [] none 4294967284).enc [0x00, 0x01] (some 0) := by
  unfold EncodesTo
  decide +kernel

/-- At `here` and just below it; a target one past the last length, and at it; no opcode; a SELF and a HERE address. -/
theorem witness_EncCopyCopies :
    State.reset.enc.state = .created ∧ (encoding [] none 0).enc.state = .ready ∧
    (encoding [] none 0).enc.dictSize.toNat + (encoding [] none 0).enc.targetLen ≤ (10 : Word).toNat ∧
    (9 : Word).toNat < (encoding [] none 0).enc.dictSize.toNat + (encoding [] none 0).enc.targetLen ∧
    4294967295 < (encoding [] none 0).enc.dictSize.toNat + (encoding [] none 0).enc.targetLen + (4294967286 : Word).toNat ∧
    (encoding [] none 0).enc.dictSize.toNat + (encoding [] none 0).enc.targetLen + (4294967285 : Word).toNat ≤ 4294967295 ∧
    acEncode (encoding [] none 0).enc.cache (9 : Word).toNat 10 = (0, 9, acUpdate AddrCache.reset 9) ∧
    acEncode (encoding [] none 300).enc.cache (300 : Word).toNat 310 = (1, 10, acUpdate AddrCache.reset 300) ∧
    encodeInstruction .copy 4 0 { (noOpcodes (encoding [] none 0)).enc with cache := acUpdate AddrCache.reset 9 } = none ∧
    EncodesTo .copy 4 0 { (encoding [] none 0).enc with cache := acUpdate AddrCache.reset 9 } [0x14] (some 0) := by
  unfold EncodesTo
  decide +kernel

theorem witness_EncSmallCommands :
    State.reset.enc.state = .created ∧ (encoding [] none 0).enc.state = .ready ∧ State.reset.enc.state ≠ .failed ∧
    (encoding [] none 0).enc.state ≠ .failed := by decide

/-- An encoder whose data section has `data`. -/
def withData (data : Bytes) (s : State) : State := { s with enc := { s.enc with data := data } }

theorem long_body (e : Enc) : e.data.length ≤ (windowBody e).length := by
  simp only [windowBody, List.length_append]
  omega

/-- Not initialised, an empty window, a window that fits, and one whose delta encoding is longer than a 32-bit length. -/
theorem witness_EncOutputFlushes :
    State.reset.enc.state = .created ∧ ((encoding [] none 0).enc.state = .ready ∧ (encoding [] none 0).enc.insts = []) ∧
    ((encoding [0x14] (some 0) 4).enc.insts ≠ [] ∧ (windowBody (encoding [0x14] (some 0) 4).enc).length ≤ 4294967295) ∧
    ∃ s : State, s.enc.state = .ready ∧ s.enc.insts ≠ [] ∧ 4294967295 < (windowBody s.enc).length := by
  refine ⟨rfl, ⟨rfl, rfl⟩, ⟨by decide, by decide +kernel⟩,
    withData (List.replicate 4294967296 0) (encoding [0x14] (some 0) 4), rfl, List.cons_ne_nil _ _, ?_⟩
  refine Nat.lt_of_lt_of_le ?_ (long_body _)
  exact Nat.lt_of_lt_of_eq (by decide) List.length_replicate.symm

/-- A command to a failed encoder; one that fails in a good state; `ENC_NEW` that fails in a failed one. -/
theorem witness_EncoderFailure :
    (isEncoderCommand .encOutput = true ∧ (∀ b c, Instr.encOutput ≠ .encNew b c) ∧ broken.enc.state = .failed) ∧
    (isEncoderCommand (.encCopy 10 1) = true ∧ (encoding [] none 0).enc.state ≠ .failed ∧
      ∃ t, exec (.encCopy 10 1) (encoding [] none 0) = .next t ∧ t.result = some (.err 6 0x63)) ∧
    (isEncoderCommand (.encNew false (some (givenTable 4 9))) = true ∧
      ∃ t, exec (.encNew false (some (givenTable 4 9))) broken = .next t ∧ t.result = some (.err 6 0x66)) ∧
    (EncInv (encoding [] none 0).enc ∧ isEncoderCommand (.encAdd 3 0 3 [1, 2, 3]) = true ∧
      ∃ t, exec (.encAdd 3 0 3 [1, 2, 3]) (encoding [] none 0) = .next t ∧ t.result = some .ok) :=
  ⟨⟨by decide, fun _ _ h => Instr.noConfusion h, rfl⟩,
    ⟨by decide, by decide, next_of_see (f := (·.result)) (by decide +kernel)⟩,
    ⟨by decide, next_of_see (f := (·.result)) (by decide +kernel)⟩,
    encInv_of_check (by decide +kernel), by decide, next_of_see (f := (·.result)) (by decide +kernel)⟩

/-- Run some commands, each of which must answer `OK`. -/
def runOk : List Instr → State → Option State
  | [], s => some s
  | i :: rest, s =>
    match exec i s with
    | .next u => if u.result = some .ok then runOk rest u else none
    | _ => none

theorem runsOk_of_run {is : List Instr} {s t : State} (h : runOk is s = some t) : RunsOk is s t := by
  induction is generalizing s with
  | nil => exact Option.some.inj h
  | cons i rest ih =>
    rw [runOk] at h
    split at h
    · rename_i u hu
      split at h
      · exact ⟨u, hu, by assumption, ih h⟩
      · simp at h
    · simp at h

/-- Write some windows, each within the caps of `d`. -/
def writeOk (dictionary : Bytes) (d : Dec) : List WindowPlan → State → Option State
  | [], s => some s
  | w :: rest, s =>
    match runOk (w.commands dictionary) s with
    | none => none
    | some u =>
      if u.enc.targetLen ≤ d.maxTargetWindowSize.toNat ∧ u.enc.data.length ≤ d.maxSectionSize.toNat ∧
          u.enc.insts.length ≤ d.maxSectionSize.toNat ∧ u.enc.addrs.length ≤ d.maxSectionSize.toNat then
        match runOk [.encOutput] u with
        | none => none
        | some v => writeOk dictionary d rest v
      else none

theorem writesWindows_of_write {dictionary : Bytes} {d : Dec} {plans : List WindowPlan} {s t : State}
    (h : writeOk dictionary d plans s = some t) : WritesWindows dictionary d plans s t := by
  induction plans generalizing s with
  | nil => exact Option.some.inj h
  | cons w rest ih =>
    rw [writeOk] at h
    split at h
    · simp at h
    · rename_i u hu
      split at h
      · rename_i hf
        split at h
        · simp at h
        · rename_i v hv
          exact ⟨u, v, runsOk_of_run hu, hf, runsOk_of_run hv, ih h⟩
      · simp at h

/-- Two windows over the dictionary "abc": an ADD and an overlapping COPY with a checksum; a RUN, a COPY from the dictionary and an
ADD of no bytes. -/
def twoWindows : List WindowPlan :=
  [{ pieces := [.add 3 1 [0x78, 0x79], .copy 3 5], checked := true },
   { pieces := [.run 4 0x7A, .copy 0 4, .add 0 0 []], checked := false }]

/-- The commands written out by hand: "xy" and "xyxyx", then "zzzz" and "abcz". -/
theorem test_fileTarget : fileTarget [0x61, 0x62, 0x63] twoWindows =
    [0x78, 0x79, 0x78, 0x79, 0x78, 0x79, 0x78, 0x7A, 0x7A, 0x7A, 0x7A, 0x61, 0x62, 0x63, 0x7A] := by decide

theorem witness_RoundTrip :
    ∃ t : State, [0x61, 0x62, 0x63].length ≤ 4294967295 ∧ EncInv State.reset.enc ∧ State.reset.enc.customTable = false ∧
      State.reset.dec.ctx.cache.indexFn = State.reset.enc.cache.indexFn ∧
      (∃ u, RunsOk [.encWriteHeader false, .encInit (BitVec.ofNat 32 [0x61, 0x62, 0x63].length)] State.reset u ∧
        WritesWindows [0x61, 0x62, 0x63] State.reset.dec twoWindows u t) ∧
      (fileTarget [0x61, 0x62, 0x63] twoWindows).length ≤ State.reset.dec.maxTargetFileSize.toNat := by
  have h : ((runOk [.encWriteHeader false, .encInit 3] State.reset).bind
      (writeOk [0x61, 0x62, 0x63] State.reset.dec twoWindows)).isSome = true := by decide +kernel
  obtain ⟨t, ht⟩ := Option.isSome_iff_exists.mp h
  obtain ⟨u, hu, hw⟩ := Option.bind_eq_some_iff.mp ht
  exact ⟨t, by decide, (inv_of_check (s := State.reset) (by decide +kernel)).2, rfl, rfl, ⟨u, runsOk_of_run hu, writesWindows_of_write hw⟩, by decide⟩

end Sys2Proof.Tests
end

/-! PROOFS. The step (00_scope.md R5): between windows it runs the host's next command; in a window it is one turn of the loop of
R260, or the end of the window; and those steps together are the run of the command. -/

namespace Sys2Proof.Machine

open Sys2Proof.Safety

/-! ## What a step is, by what the fetch finds -/

theorem step_of_fetch_instr {s s' : State} {i : Instr} (h : fetch s = .instr i s') : step s = exec i s' := by
  rw [step, h]

theorem step_of_fetch_illFormed {s : State} {c : Byte} (h : fetch s = .illFormed c) :
    step s = .refused (.illFormedCommand c) := by
  rw [step, h]

theorem step_of_fetch_idle {s : State} (h : fetch s = .idle) : step s = .next s := by
  rw [step, h]

theorem step_of_fetch_endOfWindow {s : State} (h : fetch s = .endOfWindow) : step s = endCommand s (resumeDrive s.dec) := by
  rw [step, h]

theorem fetch_of_between {s : State} (h : s.dec.replaying = false) : fetch s = fetchCommand s := by simp [fetch, h]

theorem fetch_of_replaying {s : State} (h : s.dec.replaying = true) : fetch s = fetchStream s := by simp [fetch, h]

/-! ## Between windows -/

theorem fetchCommand_nil {s : State} (h : s.cmds = []) : fetchCommand s = .idle := by rw [fetchCommand, h]

theorem fetchCommand_decoded {s : State} {t : HostCmd} {rest : List HostCmd} {i : Instr} (h : s.cmds = t :: rest)
    (hd : decodeCommand t = .ok i) : fetchCommand s = .instr i { s with cmds := rest } := by
  simp only [fetchCommand, h, hd]

theorem fetchCommand_illFormed {s : State} {t : HostCmd} {rest : List HostCmd} {c : Byte} (h : s.cmds = t :: rest)
    (hd : decodeCommand t = .error (.illFormed c)) : fetchCommand s = .illFormed c := by
  simp only [fetchCommand, h, hd]

/-- Settles O8, by what the fetch from `CMD` finds in each case. -/
theorem stepRunsHostCommand : Obligations.StepRunsHostCommand := by
  unfold Obligations.StepRunsHostCommand
  refine ⟨fun s t rest i hr hc hd => ?_, fun s t rest c hr hc hd => ?_, fun s hr hc => ?_⟩
  · exact step_of_fetch_instr ((fetch_of_between hr).trans (fetchCommand_decoded hc hd))
  · exact step_of_fetch_illFormed ((fetch_of_between hr).trans (fetchCommand_illFormed hc hd))
  · exact step_of_fetch_idle ((fetch_of_between hr).trans (fetchCommand_nil hc))

/-! ## One step of a window in replay -/

/-- At the end of the instructions section a step runs the rest of the command (R269, R302). -/
theorem step_endOfWindow {s : State} (hr : s.dec.replaying = true) (hi : (activeWin s.dec).instLen ≤ (activeWin s.dec).ip) :
    step s = endCommand s (resumeDrive s.dec) := by
  refine step_of_fetch_endOfWindow ((fetch_of_replaying hr).trans ?_)
  rw [fetchStream, if_neg (Nat.not_lt.mpr hi)]

/-- Before the end a step is the opcode at `ip`, with `ip` behind it (R260). -/
theorem step_opcode {s : State} {op : Byte} (hr : s.dec.replaying = true) (hi : (activeWin s.dec).ip < (activeWin s.dec).instLen)
    (hop : fetchOpcode s.dec = some op) :
    step s = execOpcode op { s with dec := setIp ((activeWin s.dec).ip + 1) s.dec } := by
  rw [← exec_decodeOpcode]
  refine step_of_fetch_instr ((fetch_of_replaying hr).trans ?_)
  simp only [fetchStream, if_pos hi, hop]

/-- A turn of the loop of R260 that finds an opcode is its group, with `ip` behind it. -/
theorem replayOne_of_fetchOpcode {d : Dec} {op : Byte} (h : fetchOpcode d = some op) :
    replayOne d = execGroup op (setIp ((activeWin d).ip + 1) d) := by
  rw [replayOne, h]

/-- A step of a window in replay is one turn of the loop of R260: where the turn goes on, so does the machine. -/
theorem step_of_replayOne_ok {s : State} {d : Dec} (hw : WindowOk s.dec) (hr : s.dec.replaying = true)
    (hi : (activeWin s.dec).ip < (activeWin s.dec).instLen) (h : replayOne s.dec = .ok d) :
    step s = .next { s with dec := d } := by
  obtain ⟨op, hop⟩ := fetchOpcode_isSome hw.2.2.1 hi
  rw [replayOne_of_fetchOpcode hop] at h
  rw [step_opcode hr hi hop, execOpcode, h]

/-- Where the turn raises, the step ends the command with that error (R385). -/
theorem step_of_replayOne_raise {s : State} {d : Dec} {c : Cause} (hw : WindowOk s.dec) (hr : s.dec.replaying = true)
    (hi : (activeWin s.dec).ip < (activeWin s.dec).instLen) (h : replayOne s.dec = .raise c d) :
    step s = endCommand s (.raise c d) := by
  obtain ⟨op, hop⟩ := fetchOpcode_isSome hw.2.2.1 hi
  rw [replayOne_of_fetchOpcode hop] at h
  rw [step_opcode hr hi hop, execOpcode_raise h]
  rfl

/-- A turn of the loop leaves a good window in replay, with its section as long and fewer of its bytes left. -/
theorem windowLive_replayOne {d d' : Dec} (h : WindowLive d) (hi : (activeWin d).ip < (activeWin d).instLen)
    (he : replayOne d = .ok d') :
    WindowLive d' ∧ d'.replaying = d.replaying ∧
      (activeWin d').instLen - (activeWin d').ip < (activeWin d).instLen - (activeWin d).ip := by
  have hs := replayOne_sound h.window (liveOk_active h.session).2.2 hi
  have hp := replayOne_replayed d
  rw [he] at hs hp
  have hp : Replayed d d' := hp
  obtain ⟨-, -, -, -, -, -, -, -, -, -, hrep, -, -⟩ := hp.frame
  have hlen : (activeWin d').instLen = (activeWin d).instLen := by rw [hp.win]
  have hip := replayOne_ip he
  exact ⟨windowLive_replayed hp h hs, hrep, by omega⟩

/-! ## The steps of a window reach the end of its command -/

/-- The whole rest of the command that has a window in replay, as one run: the loop of R260, the end of the window, and the driver
going on (R301, R302). -/
def restOfCommand (s : State) : Host.Outcome State Fault Refusal := endCommand s ((replayRest s.dec).andThen resumeDrive)

/-- At most `n` steps lead from `s` to where the rest of its command leads, with no window in replay. -/
def ReachesEnd (n : Nat) (s : State) : Prop :=
  ∃ (k : Nat) (t : State), k ≤ n ∧ runSteps k s = .next t ∧ t.dec.replaying = false ∧ restOfCommand s = .next t

/-- One step that ends the command. -/
theorem reachesEnd_of_step {n : Nat} {s : State} {r : Run} (hd : r.Drives) (hs : step s = endCommand s r)
    (hc : restOfCommand s = endCommand s r) : ReachesEnd (n + 1) s := by
  obtain ⟨t, ht, hr⟩ := endCommand_next hd
  refine ⟨1, t, by omega, ?_, hr, hc.trans ht⟩
  rw [runSteps, hs.trans ht]
  rfl

/-- One step, and the command goes on. -/
theorem ReachesEnd.step {n : Nat} {s s' : State} (h : ReachesEnd n s') (hs : step s = .next s')
    (hc : restOfCommand s = restOfCommand s') : ReachesEnd (n + 1) s := by
  obtain ⟨k, t, hk, hrun, hr, ht⟩ := h
  refine ⟨k + 1, t, by omega, ?_, hr, hc.trans ht⟩
  rw [runSteps, hs]
  exact hrun

theorem restOfCommand_endOfWindow {s : State} (hi : (activeWin s.dec).instLen ≤ (activeWin s.dec).ip) :
    restOfCommand s = endCommand s (resumeDrive s.dec) := by
  rw [restOfCommand, replayRest_done hi]
  rfl

theorem restOfCommand_replayOne_ok {s : State} {d : Dec} (hi : (activeWin s.dec).ip < (activeWin s.dec).instLen)
    (h : replayOne s.dec = .ok d) : restOfCommand s = restOfCommand { s with dec := d } := by
  rw [restOfCommand, replayRest_step hi, h]
  exact (endCommand_congr rfl rfl _).symm

theorem restOfCommand_replayOne_raise {s : State} {c : Cause} {d : Dec} (hi : (activeWin s.dec).ip < (activeWin s.dec).instLen)
    (h : replayOne s.dec = .raise c d) : restOfCommand s = endCommand s (.raise c d) := by
  rw [restOfCommand, replayRest_step hi, h]
  rfl

/-- From a window in replay the steps reach the end of its command: by induction on the bytes of the section left, since every turn
of the loop takes one at least. -/
theorem reachesEnd_of_windowLive {n : Nat} {s : State} (hw : WindowLive s.dec) (hr : s.dec.replaying = true)
    (hn : (activeWin s.dec).instLen - (activeWin s.dec).ip ≤ n) : ReachesEnd (n + 1) s := by
  induction n generalizing s with
  | zero =>
    have hi : (activeWin s.dec).instLen ≤ (activeWin s.dec).ip := by omega
    exact reachesEnd_of_step (resumeDrive_sound hw) (step_endOfWindow hr hi) (restOfCommand_endOfWindow hi)
  | succ n ih =>
    rcases Nat.lt_or_ge (activeWin s.dec).ip (activeWin s.dec).instLen with hi | hi
    · have hs := replayOne_sound hw.window (liveOk_active hw.session).2.2 hi
      have hp := replayOne_replayed s.dec
      cases he : replayOne s.dec with
      | ok d =>
        obtain ⟨hw', hr', hlt⟩ := windowLive_replayOne hw hi he
        have hleft : (activeWin d).instLen - (activeWin d).ip ≤ n := by omega
        exact (ih (s := { s with dec := d }) hw' (hr'.trans hr) hleft).step
          (step_of_replayOne_ok hw.window hr hi he) (restOfCommand_replayOne_ok hi he)
      | raise c d =>
        rw [he] at hp
        exact reachesEnd_of_step (r := .raise c d) (baseOk_replayed hp hw.session.base)
          (step_of_replayOne_raise hw.window hr hi he) (restOfCommand_replayOne_raise hi he)
      | fault f => rw [he] at hs; exact hs.elim
    · exact reachesEnd_of_step (resumeDrive_sound hw) (step_endOfWindow hr hi) (restOfCommand_endOfWindow hi)

/-- Settles O32: the invariant gives a live window, and its steps reach the end of the command. -/
theorem replayStepsReachEndOfCommand : Obligations.ReplayStepsReachEndOfCommand := by
  unfold Obligations.ReplayStepsReachEndOfCommand
  intro s hinv hr
  exact reachesEnd_of_windowLive (windowLive_of_inv hinv.1 hr) hr (Nat.le_refl _)

end Sys2Proof.Machine

/-! PROOFS. The state (10_state.md): the values at reset, the invariant from reset on and over every step, who writes which register,
and that the two contexts do not touch or read each other. -/

namespace Sys2Proof.Machine

open Sys2Proof.Safety

/-! ## Reset -/

/-- There is no reset vector (R420). -/
theorem step_reset : step State.reset = .next State.reset :=
  step_of_fetch_idle ((fetch_of_between rfl).trans (fetchCommand_nil rfl))

/-- Settles O4: every value is a field of `State.reset`, and no command waits. -/
theorem resetValues : Obligations.ResetValues := by
  unfold Obligations.ResetValues
  intro d e
  repeat refine ⟨rfl, ?_⟩
  exact step_reset

theorem defTab_ok : TableOk defTab 8 AddrCache.reset := ⟨defTab_length, defTab_valid, rfl, rfl⟩

theorem decInv_reset : DecInv Dec.reset := by
  refine ⟨rfl, Nat.zero_le _, rfl, Nat.two_pow_pos 64, List.suffix_rfl, ?_, fun _ => defTab_ok, ?_, fun _ => rfl, ?_⟩
  · exact nestedOk_of_none rfl (by decide)
  · decide
  · intro hr; exact absurd hr Bool.false_ne_true

theorem encInv_reset : EncInv Enc.reset :=
  ⟨freshCache_ok _ _ _, defTab_ok, fun _ => ⟨rfl, rfl, rfl⟩, Nat.zero_le _, fun _ => ⟨rfl, rfl⟩, trivial, fun _ => ⟨rfl, rfl, rfl⟩,
    by decide⟩

/-- Settles O5: each context meets its invariant, and the histories begin empty. -/
theorem resetMeetsInvariant : Obligations.ResetMeetsInvariant :=
  ⟨⟨decInv_reset, encInv_reset⟩, rfl, rfl⟩

/-! ## Every step keeps the invariant -/

theorem step_of_fetch_unknownCommand {s s' : State} (h : fetch s = .unknownCommand s') :
    step s = .next { s' with result := some (errOf .badConfiguration) } := by
  rw [step, h]

/-- Between windows: a command keeps the invariant (`exec_host_good`), and anything else on `CMD` touches neither context. -/
theorem step_good_between {s : State} (h : Inv s) (hr : s.dec.replaying = false) : NextSat Inv (step s) := by
  have hfetch := fetch_of_between hr
  rcases fetchCommand_cases s with ⟨-, hf⟩ | ⟨c, rest, -, ⟨i, hd, hf⟩ | hf | ⟨k, hf⟩⟩ <;> rw [hf] at hfetch
  · rw [step_of_fetch_idle hfetch]
    exact h
  · rw [step_of_fetch_instr hfetch]
    obtain ⟨hwf, hop⟩ := decodeCommand_ok hd
    exact exec_host_good (s := { s with cmds := rest }) i h hr hwf hop
  · rw [step_of_fetch_unknownCommand hfetch]
    exact h
  · rw [step_of_fetch_illFormed hfetch]
    trivial

/-- The fetch of an opcode byte leaves a good window good (R260). -/
theorem windowLive_fetched {d : Dec} (h : WindowLive d) (hi : (activeWin d).ip < (activeWin d).instLen) :
    WindowLive (setIp ((activeWin d).ip + 1) d) :=
  windowLive_replayed (replayed_setIp (Nat.le_succ _)) h (windowOk_setIp h.window (Nat.le_succ _) hi)

theorem replayState_of_inv {d : Dec} (h : DecInv d) (hr : d.replaying = true) : ReplayState d := by
  obtain ⟨-, -, -, -, -, -, -, -, -, hwindow⟩ := h
  exact (hwindow hr).1

/-- In a window: an opcode runs on a window that is still good, and the end of the section is the rest of the command. -/
theorem step_good_inWindow {s : State} (h : Inv s) (hr : s.dec.replaying = true) : NextSat Inv (step s) := by
  have hw := windowLive_of_inv h.1 hr
  rcases Nat.lt_or_ge (activeWin s.dec).ip (activeWin s.dec).instLen with hi | hi
  · obtain ⟨-, -, hwhole, -⟩ := hw.window
    obtain ⟨op, hop⟩ := fetchOpcode_isSome hwhole hi
    rw [step_opcode hr hi hop]
    have hstate := replayState_of_inv h.1 hr
    exact execOpcode_good h.2 (windowLive_fetched hw hi) (by simpa [setIp_eq] using hr)
      (by simpa [setIp_eq, ReplayState] using hstate)
  · rw [step_endOfWindow hr hi]
    exact endCommand_good h.2 (resumeDrive_sound hw)

/-- A step from a state that meets the invariant does not fault, and its next state meets the invariant. -/
theorem step_good {s : State} (h : Inv s) : NextSat Inv (step s) := by
  cases hr : s.dec.replaying with
  | false => exact step_good_between h hr
  | true => exact step_good_inWindow h hr

/-- Settles O6: `step_good`, between windows and in one. -/
theorem stepKeepsInvariant : Obligations.StepKeepsInvariant := by
  unfold Obligations.StepKeepsInvariant
  intro s t h he
  have hgood := step_good h
  rwa [he] at hgood

/-! ## The two contexts -/

/-- `f` leaves the encoder as it is and does the same whatever it holds (R20, R79). -/
def DecOnly (f : State → Host.Outcome State Fault Refusal) : Prop :=
  ∀ s t : State, f s = .next t → t.enc = s.enc ∧ ∀ e : Enc, f { s with enc := e } = .next { t with enc := e }

/-- `f` leaves the decoder as it is and does the same whatever it holds (R20, R79). -/
def EncOnly (f : State → Host.Outcome State Fault Refusal) : Prop :=
  ∀ s t : State, f s = .next t → t.dec = s.dec ∧ ∀ d : Dec, f { s with dec := d } = .next { t with dec := d }

theorem endCommand_decOnly (r : Run) : DecOnly (endCommand · r) := by
  intro s t h
  cases r with
  | ok d => cases h; exact ⟨rfl, fun _ => rfl⟩
  | raise c d => cases h; exact ⟨rfl, fun _ => rfl⟩
  | fault f => cases h

theorem execOpcode_decOnly (op : Byte) : DecOnly (execOpcode op) := by
  intro s t h
  unfold execOpcode at h ⊢
  dsimp only
  cases hg : execGroup op s.dec <;> simp only [hg] at h ⊢ <;> cases h <;> exact ⟨rfl, fun _ => rfl⟩

theorem execDecChunk_decOnly (chunk : Bytes) : DecOnly (execDecChunk chunk) := by
  intro s t h
  unfold execDecChunk at h ⊢
  cases hs : s.dec.state <;> simp only [hs] at h ⊢
  case idle | finished | poisoned => cases h; exact ⟨rfl, fun _ => rfl⟩
  all_goals exact endCommand_decOnly _ s t h

theorem execDecFinish_decOnly : DecOnly execDecFinish := by
  intro s t h
  unfold execDecFinish at h ⊢
  cases hs : s.dec.state <;> simp only [hs] at h ⊢
  case idle | finished | poisoned => cases h; exact ⟨rfl, fun _ => rfl⟩
  all_goals
    split at h
    next hrest => cases h; exact ⟨rfl, fun _ => if_pos hrest⟩
    next hrest => cases h; exact ⟨rfl, fun _ => if_neg hrest⟩

theorem encOnly_of_encCommand {f : State → Host.Outcome State Fault Refusal} {body : Enc → EncEnd}
    (hf : ∀ s, f s = encCommand s body) : EncOnly f := by
  intro s t h
  simp only [hf] at h ⊢
  unfold encCommand at h ⊢
  by_cases hs : s.enc.state = .failed
  · simp only [if_pos hs] at h ⊢
    cases h
    exact ⟨rfl, fun _ => rfl⟩
  · simp only [if_neg hs] at h ⊢
    cases hb : body s.enc <;> simp only [hb] at h ⊢ <;> cases h <;> exact ⟨rfl, fun _ => rfl⟩

theorem execEncNew_encOnly (interleaved : Bool) (custom : Option CustomTable) : EncOnly (execEncNew interleaved custom) := by
  intro s t h
  unfold execEncNew at h ⊢
  cases hc : encConfigure custom s.enc <;> simp only [hc] at h ⊢ <;> cases h <;> exact ⟨rfl, fun _ => rfl⟩

/-- An opcode is no command of the encoder (R113, R117). -/
theorem opcodeOf_of_isEncoderCommand {i : Instr} (h : isEncoderCommand i = true) : opcodeOf i = none := by
  unfold isEncoderCommand at h
  unfold opcodeOf
  split at h
  · exact absurd h Bool.false_ne_true
  · next he => rw [he]

theorem exec_encOnly {i : Instr} (h : isEncoderCommand i = true) : EncOnly (exec i) := by
  cases i
  case encNew interleaved custom => exact execEncNew_encOnly interleaved custom
  case encInit size => exact encOnly_of_encCommand (exec_encInit size)
  case encAdd n offset len bytes => exact encOnly_of_encCommand (exec_encAdd n offset len bytes)
  case encRun size byte => exact encOnly_of_encCommand (exec_encRun size byte)
  case encCopy offset size => exact encOnly_of_encCommand (exec_encCopy offset size)
  case encAddChecksum checksum => exact encOnly_of_encCommand (exec_encAddChecksum checksum)
  case encOutput => exact encOnly_of_encCommand exec_encOutput
  case encWriteHeader extensions => exact encOnly_of_encCommand (exec_encWriteHeader extensions)
  case encTargetLength => exact encOnly_of_encCommand exec_encTargetLength
  case encGetDeltaWindowSize => exact encOnly_of_encCommand exec_encGetDeltaWindowSize
  all_goals exact absurd h Bool.false_ne_true

theorem exec_decOnly {i : Instr} (h : isEncoderCommand i = false) : DecOnly (exec i) := by
  cases hop : opcodeOf i with
  | some op =>
    rw [funext (exec_of_opcodeOf hop)]
    exact execOpcode_decOnly op
  | none =>
    cases i
    case decChunk chunk => exact execDecChunk_decOnly chunk
    case decFinish => exact execDecFinish_decOnly
    case decStart | decSetAllowVcdTarget | decSetMaxTargetFileSize | decSetMaxTargetWindowSize | decSetMaxSectionSize =>
      intro s t he
      cases he
      exact ⟨rfl, fun _ => rfl⟩
    case encNew interleaved custom => cases custom <;> exact absurd h.symm Bool.false_ne_true
    case encInit | encAdd | encRun | encCopy | encAddChecksum | encOutput | encWriteHeader | encTargetLength
        | encGetDeltaWindowSize => exact absurd h.symm Bool.false_ne_true
    all_goals exact absurd hop.symm (Option.some_ne_none _).symm

/-- Settles O48: the meanings of the encoder's commands read and write only its context, all others only the decoder's. -/
theorem contextsAreIndependent : Obligations.ContextsAreIndependent := by
  unfold Obligations.ContextsAreIndependent
  exact fun i s t he => ⟨fun h => exec_encOnly h s t he, fun h => exec_decOnly h s t he⟩

/-! ## Who writes what -/

/-- What a step may write of the decoder's registers and spaces, and by which command (R22, R61, R64, R68). -/
structure DecWrites (s t : State) : Prop where
  allowVcdTarget : t.dec.allowVcdTarget ≠ s.dec.allowVcdTarget → Issues 0x04 s
  maxTargetFileSize : t.dec.maxTargetFileSize ≠ s.dec.maxTargetFileSize → Issues 0x05 s
  maxTargetWindowSize : t.dec.maxTargetWindowSize ≠ s.dec.maxTargetWindowSize → Issues 0x06 s
  maxSectionSize : t.dec.maxSectionSize ≠ s.dec.maxSectionSize → Issues 0x07 s
  dict : t.dec.dict ≠ s.dec.dict ∨ t.dec.dictSize ≠ s.dec.dictSize → Issues 0x01 s
  out : ∃ out : Bytes, t.dec.sink = s.dec.sink ++ out ∧
    (t.dec.ctx.dtarget = s.dec.ctx.dtarget ++ out ∨ Issues 0x01 s ∧ t.dec.ctx.dtarget = [] ∧ out = [])

theorem decWrites_of_delivers {s t : State} (h : Delivers s.dec t.dec) : DecWrites s t := by
  obtain ⟨out, hsink, hdtarget, -⟩ := h.out
  obtain ⟨hdict, hsize⟩ := h.dict
  obtain ⟨hvcd, hfile, hwin, hsec⟩ := h.caps
  exact ⟨absurd hvcd, absurd hfile, absurd hwin, absurd hsec, (·.elim (absurd hdict) (absurd hsize)), out, hsink, .inl hdtarget⟩

/-- A setter writes its own register; `DEC_START` writes the dictionary and empties `DTARGET`; whatever else moves the decoder
delivers (R301, R395). -/
theorem DecMove.writes {s t : State} (m : DecMove s t) : DecWrites s t := by
  cases m with
  | same h => exact decWrites_of_delivers (h ▸ .refl _)
  | ran h => exact decWrites_of_delivers h
  | raised c d h _ ht => exact decWrites_of_delivers (ht ▸ h.trans (delivers_decRaise c d))
  | session h dictionary ht =>
    constructor
    case dict => exact fun _ => h
    case out => exact ⟨[], by simp [ht], .inr ⟨h, by simp [ht], rfl⟩⟩
    all_goals simp [ht]
  | vcd h _ ht =>
    constructor
    case allowVcdTarget => exact fun _ => h
    all_goals simp [ht]
  | file h _ ht =>
    constructor
    case maxTargetFileSize => exact fun _ => h
    all_goals simp [ht]
  | win h _ ht =>
    constructor
    case maxTargetWindowSize => exact fun _ => h
    all_goals simp [ht]
  | sec h _ ht =>
    constructor
    case maxSectionSize => exact fun _ => h
    all_goals simp [ht]

/-- What a step may write of the encoder's configuration and of `ENC_SINK`, and by which command (R22, R69). -/
structure EncWrites (s t : State) : Prop where
  config : t.enc.interleaved ≠ s.enc.interleaved ∨ t.enc.customTable ≠ s.enc.customTable ∨ t.enc.maxMode ≠ s.enc.maxMode ∨
    t.enc.cache.nearSize ≠ s.enc.cache.nearSize ∨ t.enc.cache.sameSize ≠ s.enc.cache.sameSize ∨
    t.enc.etab ≠ s.enc.etab → Issues 0x10 s
  out : ∃ out : Bytes, t.enc.sink = s.enc.sink ++ out ∧ (out ≠ [] → Issues 0x16 s ∨ Issues 0x17 s)

theorem encWrites_of_sink_eq {s t : State} (hk : EncKeeps s.enc t.enc ∨ Issues 0x10 s) (hsink : t.enc.sink = s.enc.sink) :
    EncWrites s t := by
  refine ⟨fun hne => ?_, [], by simpa using hsink, by simp⟩
  rcases hk with ⟨h1, h2, h3, h4, h5, h6⟩ | h
  · simp [h1, h2, h3, h4, h5, h6] at hne
  · exact h

theorem EncMove.writes {s t : State} (m : EncMove s t) : EncWrites s t := by
  cases m with
  | same h => exact encWrites_of_sink_eq (.inl (by simp [h, EncKeeps])) (by rw [h])
  | new h hnew =>
    obtain ⟨e, rfl, hsink⟩ := hnew
    exact encWrites_of_sink_eq (.inr h) hsink
  | failed c _ h => exact encWrites_of_sink_eq (.inl (by simp [h, EncKeeps])) (by simp [h])
  | ran _ hk hout =>
    obtain ⟨h1, h2, h3, h4, h5, h6⟩ := hk
    exact ⟨by simp [h1, h2, h3, h4, h5, h6], hout⟩

/-- Settles O49: `step_move` says how a step can move each context, and each move writes only what is its own. -/
theorem whoWrites : Obligations.WhoWrites := by
  unfold Obligations.WhoWrites
  intro s t hinv he
  obtain ⟨hdec, henc⟩ := step_move hinv he
  have hd := hdec.writes
  have hk := henc.writes
  exact ⟨hd.allowVcdTarget, hd.maxTargetFileSize, hd.maxTargetWindowSize, hd.maxSectionSize, hd.dict, hk.config, hd.out, hk.out⟩

end Sys2Proof.Machine

/-! PROOFS. The byte spaces and what a rule reads of them (20_memory.md R65): no step from a state that meets the invariant faults. -/

namespace Sys2Proof.Machine

open Sys2Proof.Safety

theorem NextSat.ne_fault {P : State → Prop} {o : Host.Outcome State Fault Refusal} (h : NextSat P o) (f : Fault) :
    o ≠ .fault f := by
  rintro rfl
  exact h

/-- Settles O7: `step_good` excludes the fault. In a window it rests on `execGroup_sound` and `resumeDrive_sound`, between windows
on `exec_host_good`. -/
theorem noStepFaults : Obligations.NoStepFaults := by
  unfold Obligations.NoStepFaults
  intro s f hinv
  exact (step_good hinv).ne_fault f

end Sys2Proof.Machine

/-! PROOFS. Encodings (30_encoding.md): the opcodes of the stream (R113), the transactions of the host (R117), the default code table
and the image of a code table (R112, R160). -/

namespace Sys2Proof.Machine

/-! ## Operands on the numeric ports -/

theorem fitsBit_toNat (b : Bool) : fitsBit b.toNat = true := decide_eq_true b.toNat_lt

theorem fits32_toNat (v : Word) : fits32 v.toNat = true := decide_eq_true v.isLt

theorem fits64_toNat (v : DWord) : fits64 v.toNat = true := decide_eq_true v.isLt

theorem toNat_beq_one (b : Bool) : (b.toNat == 1) = b := by cases b <;> rfl

/-! ## Decoding what the encoder wrote -/

/-- A command is decoded where its arguments fit, what is read from them is the command, and the command is well-formed. -/
theorem decodeCommand_of_acceptIf {t : HostCmd} {fits : Bool} {i j : Instr} (hd : decodeCommand t = acceptIf t.code fits j)
    (hfits : fits = true) (hj : j = i) (hwf : i.wf = true) : decodeCommand t = .ok i := by
  rw [hd, acceptIf, hj, hfits, hwf]
  rfl

/-- A transaction written by the encoder is read back by its code, as the 17 rows of R117 lay out the arguments. -/
theorem decodeCommand_of_encode {i : Instr} {t : HostCmd} (hwf : i.wf = true) (he : encode i = .command t) :
    decodeCommand t = .ok i := by
  cases i
  case encNew interleaved custom =>
    cases custom <;> cases he <;>
      exact decodeCommand_of_acceptIf rfl (fitsBit_toNat _) (congrArg (Instr.encNew · _) (toNat_beq_one _)) hwf
  all_goals cases he
  case decSetAllowVcdTarget b =>
    exact decodeCommand_of_acceptIf rfl (fitsBit_toNat b) (congrArg Instr.decSetAllowVcdTarget (toNat_beq_one b)) hwf
  case encWriteHeader b =>
    exact decodeCommand_of_acceptIf rfl (fitsBit_toNat b) (congrArg Instr.encWriteHeader (toNat_beq_one b)) hwf
  case decSetMaxTargetFileSize v => exact decodeCommand_of_acceptIf rfl (fits64_toNat v) (by simp) hwf
  case decSetMaxTargetWindowSize v | decSetMaxSectionSize v | encInit v | encAddChecksum v =>
    exact decodeCommand_of_acceptIf rfl (fits32_toNat v) (by simp) hwf
  case encRun size b =>
    have hfits : (fits32 size.toNat && decide (b.toNat < 256)) = true := by simp [fits32_toNat, b.isLt]
    exact decodeCommand_of_acceptIf rfl hfits (by simp) hwf
  case encCopy offset size =>
    have hfits : (fits32 offset.toNat && fits32 size.toNat) = true := by simp [fits32_toNat]
    exact decodeCommand_of_acceptIf rfl hfits (by simp) hwf
  case decStart | decChunk | decFinish | encAdd | encOutput | encTargetLength | encGetDeltaWindowSize =>
    exact decodeCommand_of_acceptIf rfl rfl rfl hwf

/-- An opcode byte written by the encoder is the place of its instruction in the table of R113. -/
theorem decodeStream_of_encode {i : Instr} {bytes : Bytes} (he : encode i = .stream bytes) : decodeStream bytes = .ok (i, []) := by
  cases i
  case encNew interleaved custom => cases custom <;> cases he
  all_goals cases he
  all_goals rfl

/-- Settles O1: by the port the encoding travels on. -/
theorem decodeInvertsEncode : Obligations.DecodeInvertsEncode := by
  unfold Obligations.DecodeInvertsEncode
  intro i hwf
  cases he : encode i with
  | stream bytes => rw [decode, decodeStream_of_encode he]; rfl
  | command t => exact decodeCommand_of_encode hwf he

/-! ## Opcode bytes -/

/-- Every byte is the encoding of the instruction it decodes to (R113). -/
theorem encode_decodeOpcode (op : Byte) : encode (decodeOpcode op) = .stream [op] := by
  have h : ∀ n : Fin 256, encode (decodeOpcode (BitVec.ofNat 8 n.val)) = .stream [BitVec.ofNat 8 n.val] := by
    decide +kernel
  simpa using h ⟨op.toNat, op.isLt⟩

/-- Settles O2: the decoder takes one byte, and that byte is the encoding of what it answers; the eight opcodes are places of the table
of R113. -/
theorem opcodeBytesDecode : Obligations.OpcodeBytesDecode := by
  unfold Obligations.OpcodeBytesDecode
  exact ⟨fun op rest => ⟨rfl, encode_decodeOpcode op⟩, rfl, rfl, rfl, rfl, rfl, rfl, rfl, rfl, rfl⟩

/-! ## Command codes -/

/-- A code that R117 does not list is no command, whatever stands on the other ports. -/
theorem decodeCommand_unknownCommand {t : HostCmd} (h : isCommandCode t.code = false) :
    decodeCommand t = .error (.unknownCommand t.code) := by
  have hne : ∀ c : Byte, isCommandCode c = true → t.code ≠ c := fun c hc he => by simp [← he, h] at hc
  rw [decodeCommand, if_neg (hne 0x01 rfl), if_neg (hne 0x02 rfl), if_neg (hne 0x03 rfl), if_neg (hne 0x04 rfl),
    if_neg (hne 0x05 rfl), if_neg (hne 0x06 rfl), if_neg (hne 0x07 rfl), if_neg (hne 0x10 rfl), if_neg (hne 0x11 rfl),
    if_neg (hne 0x12 rfl), if_neg (hne 0x13 rfl), if_neg (hne 0x14 rfl), if_neg (hne 0x15 rfl), if_neg (hne 0x16 rfl),
    if_neg (hne 0x17 rfl), if_neg (hne 0x18 rfl), if_neg (hne 0x19 rfl)]

theorem isCommandCode_eq_false {c : Byte} (hdec : ¬ (1 ≤ c.toNat ∧ c.toNat ≤ 7)) (henc : ¬ (16 ≤ c.toNat ∧ c.toNat ≤ 25)) :
    isCommandCode c = false := by
  simp only [isCommandCode, ← Bool.decide_and, ← Bool.decide_or]
  exact decide_eq_false (not_or.mpr ⟨hdec, henc⟩)

/-- The fetch takes an unknown code from `CMD` (R117). -/
theorem fetchCommand_unknownCommand {s : State} {t : HostCmd} {rest : List HostCmd} (h : s.cmds = t :: rest)
    (hc : isCommandCode t.code = false) : fetchCommand s = .unknownCommand { s with cmds := rest } := by
  simp only [fetchCommand, h, decodeCommand_unknownCommand hc]

/-- Settles O3: each listed transaction is the encoding of its command, which `decodeCommand_of_encode` reads back; any other code is
taken from the port and answered by the step. -/
theorem hostCommandCodes : Obligations.HostCommandCodes := by
  unfold Obligations.HostCommandCodes
  refine ⟨fun d hd => ?decStart, fun chunk => ?decChunk, ?decFinish, fun b => ?decSetAllowVcdTarget,
    fun v => ?decSetMaxTargetFileSize, fun v => ?decSetMaxTargetWindowSize, fun v => ?decSetMaxSectionSize, fun b => ?encNew,
    fun b image near same mode hi => ?encNewCustom, fun v => ?encInit, fun n offset slice => ?encAdd, fun size b => ?encRun,
    fun offset size => ?encCopy, fun v => ?encAddChecksum, ?encOutput, fun b => ?encWriteHeader, ?encTargetLength,
    ?encGetDeltaWindowSize, fun s t rest hr hc hdec henc => ?otherCode⟩
  case decStart => exact decodeCommand_of_encode (decide_eq_true hd) rfl
  case encNewCustom => exact decodeCommand_of_encode (decide_eq_true hi) rfl
  case encAdd =>
    have hwf : (Instr.encAdd n offset slice.length slice).wf = true := by simp [Instr.wf]
    exact decodeCommand_of_encode hwf rfl
  case otherCode =>
    have hcode := isCommandCode_eq_false hdec henc
    exact step_of_fetch_unknownCommand ((fetch_of_between hr).trans (fetchCommand_unknownCommand hc hcode))
  all_goals exact decodeCommand_of_encode rfl rfl

/-! ## The default code table -/

/-- Settles O10, by the rows of each group. -/
theorem defaultTableGroups : Obligations.DefaultTableGroups := by
  unfold Obligations.DefaultTableGroups
  refine ⟨defTab_length, defTab_run, defTab_addExplicit, fun s h1 h2 => ?_, fun m hm => ⟨defTab_copy hm, defTab_copyAdd hm⟩,
    fun m s hm h1 h2 => defTab_copySized hm h1 h2, fun m a c hm ha ha' hc hc' => defTab_addCopy hm ha ha' hc hc',
    fun m a hm hm' ha ha' => defTab_addCopySame hm hm' ha ha', defTab_valid⟩
  rw [Nat.add_comm]
  exact defTab_add h1 h2

/-! ## The image of a code table -/

theorem packImage_length (t : Table) : (packImage t).length = 6 * t.length := by
  simp only [packImage, List.length_append, List.length_map]
  omega

theorem getD_eq_getElem_of_lt {l : Bytes} {n : Nat} (h : n < l.length) : l.getD n 0 = l[n] := by
  rw [List.getD_eq_getElem?_getD, List.getElem?_eq_getElem h, Option.getD_some]

/-- A byte of the image, as the row of its opcode has it (R112). -/
theorem getElem?_packImage {t : Table} (h : t.length = 256) {n : Nat} {b : Byte} (hn : n < 1536)
    (hb : (packImage t).getD n 0 = b) : (packImage t)[n]? = some b := by
  have hlt : n < (packImage t).length := by rw [packImage_length, h]; exact hn
  rw [← hb, List.getElem?_eq_getElem hlt, getD_eq_getElem_of_lt hlt]

/-- The six arrays of an image make up all of it: two images with the same rows are the same bytes (R112). -/
theorem image_ext {a b : Bytes} (ha : a.length = 1536) (hb : b.length = 1536)
    (h : ∀ n, n < 256 → imageRow a n = imageRow b n) : a = b := by
  refine List.ext_getElem (ha.trans hb.symm) fun i hia hib => ?_
  rw [← getD_eq_getElem_of_lt hia, ← getD_eq_getElem_of_lt hib]
  have hrow := h (i % 256) (Nat.mod_lt i (by decide))
  simp only [imageRow, Row.mk.injEq, Half.mk.injEq] at hrow
  obtain ⟨⟨inst₁, size₁, mode₁⟩, inst₂, size₂, mode₂⟩ := hrow
  have hi : i = i % 256 ∨ i = 256 + i % 256 ∨ i = 512 + i % 256 ∨ i = 768 + i % 256 ∨ i = 1024 + i % 256 ∨ i = 1280 + i % 256 := by
    omega
  rcases hi with e | e | e | e | e | e <;> rw [e]
  · exact inst₁
  · exact inst₂
  · exact size₁
  · exact size₂
  · exact mode₁
  · exact mode₂

/-- Loading reads row `n` of an image where packing puts row `n` of the table (R112, R160). -/
theorem imageRow_packImage {t : Table} (h : t.length = 256) {n : Nat} (hn : n < 256) :
    imageRow (packImage t) n = tableRow t (BitVec.ofNat 8 n) := by
  obtain ⟨inst₁, inst₂, size₁, size₂, mode₁, mode₂⟩ := getD_image h n hn
  rw [imageRow, inst₁, inst₂, size₁, size₂, mode₁, mode₂]

theorem tableRow_unpackImage (img : Bytes) {n : Nat} (hn : n < 256) :
    tableRow (unpackImage img) (BitVec.ofNat 8 n) = imageRow img n := by
  simp [tableRow, unpackImage, Nat.mod_eq_of_lt hn, hn]

/-- Packing the table of an image gives the image back (R112, R160). -/
theorem packImage_unpackImage {img : Bytes} (h : img.length = 1536) : packImage (unpackImage img) = img := by
  have hlen := unpackImage_length img
  refine image_ext (by rw [packImage_length, hlen]) h fun n hn => ?_
  rw [imageRow_packImage hlen hn, tableRow_unpackImage img hn]

/-- Settles O13: `getD_image` says what stands in each array, and the two directions are `unpackImage_packImage` and
`packImage_unpackImage`. -/
theorem tableImage : Obligations.TableImage := by
  unfold Obligations.TableImage
  refine ⟨fun t ht => ⟨by rw [packImage_length, ht], unpackImage_packImage ht, fun op => ?_⟩,
    fun img himg => ⟨unpackImage_length img, packImage_unpackImage himg⟩⟩
  have hop : op.toNat < 256 := op.isLt
  have hbytes := getD_image ht op.toNat hop
  rw [BitVec.ofNat_toNat, BitVec.setWidth_eq] at hbytes
  obtain ⟨inst₁, inst₂, size₁, size₂, mode₁, mode₂⟩ := hbytes
  exact ⟨getElem?_packImage ht (by omega) inst₁, getElem?_packImage ht (by omega) inst₂, getElem?_packImage ht (by omega) size₁,
    getElem?_packImage ht (by omega) size₂, getElem?_packImage ht (by omega) mode₁, getElem?_packImage ht (by omega) mode₂⟩

end Sys2Proof.Machine

/-! PROOFS. The VarInt unit (40_varint.md): the length and the round trip of a written VarInt (R130, R138), and the outcomes of
`VI_READ` with the order in which they are decided (R133 to R135). -/

namespace Sys2Proof.Machine

/-! ## Writing -/

@[simp] theorem viWrite32_nil (v : Nat) : viWrite32 [] v = viWrite v := List.nil_append _

@[simp] theorem viWrite64_nil (v : Nat) : viWrite64 [] v = viWrite v := List.nil_append _

/-- Settles O14: `viLen_bounds` says that `VI_LEN` is the least number of groups, `viRead_middle` reads the written VarInt back and
`viRead_cut` wants more of a front part. -/
theorem varIntRoundTrip : Obligations.VarIntRoundTrip := by
  unfold Obligations.VarIntRoundTrip
  constructor
  · intro v hv
    obtain ⟨hpos, hle, hlt, hleast⟩ := viLen_bounds hv
    exact ⟨hpos, hle, hlt, hleast, fun h32 => (viLen_le_cap (.inl rfl) h32).2⟩
  · intro width hw v hv s hs
    rw [viWrite32_nil, viWrite64_nil, ite_self] at hs
    subst hs
    refine ⟨viWrite_length v, fun t => ?_, fun p q hpq hq => viRead_cut hw hv hpq hq⟩
    simpa using viRead_middle hw hv [] t (lim := (viWrite v).length + t.length) (by simp)

/-! ## Reading -/

/-- All groups but the last of a VarInt as long as the cap fit the width (R134: 28 of 32 bits, 63 of 64). -/
theorem groups_below_cap_fit {width : Nat} (hw : width = 32 ∨ width = 64) : 128 ^ (viMaxBytes width - 1) ≤ 2 ^ width := by
  rcases hw with rfl | rfl <;> decide

/-- An overflow is decided with the cap of bytes available, all but the last of them continuing (R134). -/
theorem viRead_error_at_cap {width : Nat} {src : Bytes} {cur lim : Nat} {e : UnitError} (hw : width = 32 ∨ width = 64)
    (h : viRead width src cur lim = .error e) :
    cur + viMaxBytes width ≤ lim ∧ ∀ k b, cur ≤ k → k + 1 < cur + viMaxBytes width → src[k]? = some b → 128 ≤ b.toNat := by
  have hcap : 0 < viMaxBytes width := by rcases hw with rfl | rfl <;> decide
  obtain ⟨havail, hcont⟩ :=
    viReadLoop_overflow (acc := 0) (done := 0) (by decide) (by rw [Nat.zero_add]; exact groups_below_cap_fit hw) h
  exact ⟨havail hcap, hcont⟩

/-- Settles O15: each clause is the law of the loop of `VI_READ` for that outcome, started at the cap of the width. -/
theorem varIntOutcomes : Obligations.VarIntOutcomes := by
  unfold Obligations.VarIntOutcomes
  intro width cap hwc
  obtain ⟨hw, rfl⟩ : (width = 32 ∨ width = 64) ∧ cap = viMaxBytes width := by
    rcases hwc with ⟨rfl, rfl⟩ | ⟨rfl, rfl⟩ <;> decide
  refine ⟨fun before head rest last lim hlen hhead hlast hlim => viReadLoop_groups before head rest last hlen hlim hhead hlast rfl,
    fun before head rest lim hlen hhead hlim => viReadLoop_allContinue before head rest hlen hlim hhead,
    fun src cur lim hcur hlim => ⟨fun hfew hcont => ?_, fun henough => ?_, fun e he => ?_⟩⟩
  · exact viReadLoop_needMore hlim hcur (by omega) hcont
  · exact viReadLoop_enough hlim (by omega)
  · obtain ⟨havail, hcont⟩ := viRead_error_at_cap hw he
    exact ⟨viRead_error he, by omega, hcont⟩

end Sys2Proof.Machine

/-! PROOFS. The code table (41_code_table.md): when a table is valid (R152), what the two instruction maps hold (R153, R154), the
parameters of a custom code table (R158) and the end of an inner window, which loads the image (R159, R160). -/

namespace Sys2Proof.Machine

open Sys2Proof.Safety

/-! ## Validity -/

/-- V1 to V3 on one row (R152). -/
theorem rowValid_iff {maxMode : Nat} {r : Row} : rowValid maxMode r = true ↔
    r.first.inst.toNat ≤ 3 ∧ r.second.inst.toNat ≤ 3 ∧
    (r.first.inst = 3 → r.first.mode.toNat ≤ maxMode) ∧ (r.second.inst = 3 → r.second.mode.toNat ≤ maxMode) ∧
    (r.second.inst ≠ 0 → r.first.inst ≠ 0 ∧ r.first.size ≠ 0) := by
  simp only [rowValid, kindCode, Bool.and_eq_true, Bool.or_eq_true, decide_eq_true_eq, bne_iff_ne, beq_iff_eq, and_assoc,
    Decidable.or_iff_not_imp_left, Decidable.not_not, ne_eq]

/-- A table that has an explicit-size single row of a type and mode (R152 V4). -/
theorem any_explicitSingle_iff {t : Table} {k : InstKind} {mode : Nat} : t.any (explicitSingle k mode) = true ↔
    ∃ r ∈ t, r.first.inst = kindCode k ∧ r.first.size = 0 ∧ r.second.inst = 0 ∧ r.first.mode.toNat = mode := by
  simp only [List.any_eq_true, explicitSingle, kindCode, Bool.and_eq_true, beq_iff_eq, and_assoc]

/-- Settles O11: V1 to V3 row by row, V4 by the rows it names; `imapFirst_isSome` finds those. -/
theorem tableValidity : Obligations.TableValidity := by
  unfold Obligations.TableValidity
  intro t maxMode
  refine ⟨?_, fun hv => ?_⟩
  · have hmode : ∀ r : Row, r.first.mode.toNat = 0 ↔ r.first.mode = 0 := fun r => BitVec.toNat_inj (y := 0)
    simp only [tabValid, Bool.and_eq_true, List.all_eq_true, List.mem_range, Nat.lt_succ_iff, rowValid_iff,
      any_explicitSingle_iff, hmode, and_assoc, kindCode]
  · obtain ⟨hadd, hrun, hcopy⟩ := imapFirst_isSome hv
    simp only [← Option.isSome_iff_exists, Option.isSome_iff_ne_none] at hadd hrun hcopy
    exact ⟨hadd, hrun, hcopy⟩

/-! ## The instruction maps -/

/-- `op` is the lowest opcode whose row meets `P`. -/
def LowestOpcode (t : Table) (P : Row → Prop) (op : Byte) : Prop :=
  P (tableRow t op) ∧ ∀ lower : Byte, lower.toNat < op.toNat → ¬ P (tableRow t lower)

theorem findIdx_map_lowest {t : Table} (hl : t.length = 256) {p : Row → Bool} {P : Row → Prop} (hp : ∀ r, p r = true ↔ P r)
    (op : Byte) : (t.findIdx? p).map (BitVec.ofNat 8) = some op ↔ LowestOpcode t P op := by
  simp only [findIdx_map_iff hl, hp, LowestOpcode]

theorem half_eq_iff {h : Half} {k : InstKind} {size mode : Nat} : h = half k size mode ↔
    h.inst = kindCode k ∧ h.size = BitVec.ofNat 8 size ∧ h.mode = BitVec.ofNat 8 mode := by
  cases h
  simp only [half, Half.mk.injEq]

theorem kindCode_ne_zero {k : InstKind} (hk : k ≠ .noop) : kindCode k ≠ 0 := by
  cases k
  case noop => exact absurd rfl hk
  all_goals decide

/-- `FIRST` holds the lowest single opcode of an instruction (R153). -/
theorem imapFirst_eq_some_iff {t : Table} (hl : t.length = 256) {k : InstKind} (hk : k ≠ .noop) (size mode : Nat) (op : Byte) :
    imapFirst t k size mode = some op ↔
      LowestOpcode t (fun r => r.first = half k size mode ∧ r.second.inst = 0) op := by
  refine findIdx_map_lowest hl (fun r => ?_) op
  have hne := kindCode_ne_zero hk
  simp only [Bool.and_eq_true, beq_iff_eq, bne_iff_ne, half_eq_iff]
  constructor
  · rintro ⟨⟨⟨⟨hi, hs⟩, hm⟩, -⟩, h2⟩
    exact ⟨⟨hi, hs, hm⟩, h2⟩
  · rintro ⟨⟨hi, hs, hm⟩, h2⟩
    exact ⟨⟨⟨⟨hi, hs⟩, hm⟩, hi ▸ hne⟩, h2⟩

/-- `SECOND` holds the lowest compound opcode of a single opcode and an instruction after it (R154). -/
theorem imapSecond_eq_some_iff {t : Table} (hl : t.length = 256) {k : InstKind} (hk : k ≠ .noop) (size mode : Nat)
    (op₁ op : Byte) : imapSecond t op₁ k size mode = some op ↔
      LowestOpcode t (fun r => r.first.inst ≠ 0 ∧ r.second = half k size mode ∧
        firstOf t r.first.inst r.first.size r.first.mode = some op₁) op := by
  refine findIdx_map_lowest hl (fun r => ?_) op
  have hne := kindCode_ne_zero hk
  simp only [Bool.and_eq_true, beq_iff_eq, bne_iff_ne, half_eq_iff]
  constructor
  · rintro ⟨⟨⟨⟨⟨hi, hs⟩, hm⟩, h1⟩, -⟩, hf⟩
    exact ⟨h1, ⟨hi, hs, hm⟩, hf⟩
  · rintro ⟨h1, ⟨hi, hs, hm⟩, hf⟩
    exact ⟨⟨⟨⟨⟨hi, hs⟩, hm⟩, h1⟩, hi ▸ hne⟩, hf⟩

/-- Settles O12: each map is a search for the lowest row, `imapFirst_eq_some_iff` and `imapSecond_eq_some_iff`. -/
theorem instructionMaps : Obligations.InstructionMaps := by
  unfold Obligations.InstructionMaps
  intro t k size mode hl hk _ _
  exact ⟨fun op => (imapFirst_eq_some_iff hl hk size mode op).trans and_assoc,
    fun op₁ op => imapSecond_eq_some_iff hl hk size mode op₁ op⟩

/-! ## The parameters of a custom code table -/

/-- A VarInt that is cut off wants more, however it is encoded (R133). -/
theorem viRead_needMore_of_isVarInt {v : Nat} {p q : Bytes} (h : IsVarInt v (p ++ q)) (hq : q ≠ []) (before : Bytes) :
    viRead 32 (before ++ p) before.length (before ++ p).length = .needMore := by
  have hcut : viRead 32 p 0 p.length = .needMore := by
    refine Decidable.byContradiction fun hne => ?_
    have hread : viRead 32 p 0 p.length = .value v (p ++ q).length := (viRead_append hne).symm.trans h
    obtain ⟨-, hle, -⟩ := viRead_value hread
    have hpos := List.length_pos_iff.mpr hq
    rw [List.length_append] at hle
    omega
  rw [viRead_shift, hcut]
  rfl

theorem byteRead_end {src : Bytes} {cur : Nat} (h : src.length ≤ cur) : byteRead src cur src.length = .needMore := if_pos h

/-- A front part of `a ++ r` cuts `a` off, or has all of it and then a front part of `r`. -/
theorem front_cases {p q a r : Bytes} (h : p ++ q = a ++ r) :
    (∃ x, x ≠ [] ∧ a = p ++ x) ∨ ∃ y, p = a ++ y ∧ y ++ q = r := by
  rcases List.append_eq_append_iff.mp h with ⟨x, ha, hq⟩ | ⟨y, hp, hr⟩
  · by_cases hx : x = []
    · subst hx
      exact .inr ⟨[], by simpa using ha.symm, by simpa using hq⟩
    · exact .inl ⟨x, hx, ha⟩
  · exact .inr ⟨y, hp, hr.symm⟩

section Params

variable {n : Nested} {d : Dec} {near same : Nat} {nearBytes sameBytes rest : Bytes}

theorem paramsStep_overflow_near (h : Overflows d.pending) : paramsStep n d = .raise .headerVarIntOverflow d := by
  have hnear : viRead 32 d.pending 0 d.pending.length = .error .varIntOverflow := h
  rw [paramsStep, hnear]

theorem paramsStep_more_near {v : Nat} {missing : Bytes} (hn : IsVarInt v (d.pending ++ missing)) (hm : missing ≠ []) :
    paramsStep n d = .more := by
  have hnear : viRead 32 d.pending 0 d.pending.length = .needMore := viRead_needMore_of_isVarInt hn hm []
  rw [paramsStep, hnear]

theorem viRead_near (hn : IsVarInt near nearBytes) (hp : d.pending = nearBytes ++ rest) :
    viRead 32 d.pending 0 d.pending.length = .value near nearBytes.length := by
  have hread := viRead_varInt hn [] rest
  rw [List.nil_append, List.length_nil, Nat.zero_add] at hread
  rw [hp, hread]

theorem viRead_same (hs : IsVarInt same sameBytes) (hp : d.pending = nearBytes ++ (sameBytes ++ rest)) :
    viRead 32 d.pending nearBytes.length d.pending.length = .value same (nearBytes ++ sameBytes).length := by
  rw [hp, viRead_varInt hs, List.length_append]

variable (hn : IsVarInt near nearBytes)
include hn

theorem paramsStep_overflow_same (hp : d.pending = nearBytes ++ rest) (h : Overflows rest) :
    paramsStep n d = .raise .headerVarIntOverflow d := by
  have hsame := viRead_overflows h nearBytes
  rw [← hp] at hsame
  simp only [paramsStep, viRead_near hn hp, hsame]

theorem paramsStep_more_same {v : Nat} {missing : Bytes} (hp : d.pending = nearBytes ++ rest)
    (hs : IsVarInt v (rest ++ missing)) (hm : missing ≠ []) : paramsStep n d = .more := by
  have hsame := viRead_needMore_of_isVarInt hs hm nearBytes
  rw [← hp] at hsame
  simp only [paramsStep, viRead_near hn hp, hsame]

variable (hs : IsVarInt same sameBytes)
include hs

theorem paramsStep_more_mode (hp : d.pending = nearBytes ++ sameBytes) : paramsStep n d = .more := by
  have hp' : d.pending = nearBytes ++ (sameBytes ++ []) := by rw [hp, List.append_nil]
  have hmode : byteRead d.pending (nearBytes ++ sameBytes).length d.pending.length = .needMore := 
    byteRead_end (Nat.le_of_eq (by rw [hp]))
  simp only [paramsStep, viRead_near hn hp, viRead_same hs hp', hmode]

/-- The whole group is read: `CT_MAX_MODE` and the two sizes are checked together (R158). -/
theorem paramsStep_whole {maxMode : Byte} (hp : d.pending = nearBytes ++ (sameBytes ++ maxMode :: rest)) :
    paramsStep n d =
      if cacheSizesOk near same = true ∧ maxMode.toNat = 1 + near + same then
        .done { d with
          pending := rest,
          nested := some { n with phase := .innerHeader, ctNear := near, ctSame := same, ctMaxMode := maxMode.toNat } }
      else .raise .badCacheSizes d := by
  have hfront : d.pending = (nearBytes ++ sameBytes) ++ maxMode :: rest := by rw [hp, List.append_assoc]
  have hmode : byteRead d.pending (nearBytes ++ sameBytes).length d.pending.length
      = .value maxMode.toNat ((nearBytes ++ sameBytes).length + 1) := by
    rw [hfront]
    exact byteRead_middle _ rest maxMode (by simp)
  have hrest : d.pending.drop ((nearBytes ++ sameBytes).length + 1) = rest := by
    rw [hfront, ← List.drop_drop, List.drop_left]
    rfl
  simp only [paramsStep, viRead_near hn hp, viRead_same hs hp, hmode, hrest]
  cases cacheSizesOk near same with
  | false => simp
  | true => simp

/-- A proper part of the group wants more, wherever it is cut (R158, R302). -/
theorem paramsStep_more {maxMode : Byte} {missing : Bytes} (hm : missing ≠ [])
    (hp : d.pending ++ missing = nearBytes ++ (sameBytes ++ [maxMode])) : paramsStep n d = .more := by
  rcases front_cases hp with ⟨x, hx, rfl⟩ | ⟨y, hpend, hy⟩
  · exact paramsStep_more_near hn hx
  rcases front_cases hy with ⟨x, hx, rfl⟩ | ⟨z, rfl, hz⟩
  · exact paramsStep_more_same hn hpend hs hx
  rcases List.append_eq_singleton_iff.mp hz with ⟨rfl, -⟩ | ⟨-, hnil⟩
  · rw [List.append_nil] at hpend
    exact paramsStep_more_mode hn hs hpend
  · exact absurd hnil hm

end Params

/-- In phase `PARAMS` the driver reads the parameters, whatever is in `PENDING`. -/
theorem driveItem_params {d : Dec} {n : Nested} (hst : d.state = .customTable) (hn : d.nested = some n)
    (hph : n.phase = .params) : driveItem d = paramsStep n d ∧ atRest d = false ∧ wantMore d = d := by
  simp only [driveItem, customTableStep, atRest, wantMore, hst, hn, hph, and_self]

theorem cacheSizesOk_iff {near same : Nat} : cacheSizesOk near same = true ↔ near ≤ 254 ∧ same ≤ 254 ∧ 1 + near + same ≤ 255 := by
  simp only [cacheSizesOk, Bool.and_eq_true, decide_eq_true_eq, and_assoc]

/-- Settles O39: the chunk ends as `paramsStep` does on the bytes there are. -/
theorem customTableParameters : Obligations.CustomTableParameters := by
  unfold Obligations.CustomTableParameters
  intro s n chunk nearBytes sameBytes rest near same maxMode hinv hr hn hph hnear hsame
  have hst := nested_state hinv hn
  have hlive : Live s.dec.state := .inr (.inl hst)
  obtain ⟨hitem, hrest, hwait⟩ := driveItem_params (d := addPending chunk s.dec) hst hn hph
  have hraise : ∀ {c : Cause}, paramsStep n (addPending chunk s.dec) = .raise c (addPending chunk s.dec) →
      FailsWith c s (exec (.decChunk chunk) s) := fun h => chunk_raise hlive hrest (hitem.trans h) (.inl rfl)
  refine ⟨fun h => ?_, fun hstream h => ?_, fun p q hstream hpq hq => ?_, fun hstream => ?_⟩
  · exact hraise (paramsStep_overflow_near h)
  · exact hraise (paramsStep_overflow_same hnear hstream h)
  · subst hstream
    have hmore := paramsStep_more (n := n) (d := addPending chunk s.dec) hnear hsame hq (by simpa using hpq)
    rw [chunk_more hlive hrest (hitem.trans hmore), hwait]
    rfl
  · have hwhole := paramsStep_whole (n := n) (d := addPending chunk s.dec) hnear hsame (by simpa using hstream)
    refine ⟨fun hbad => hraise ?_, fun hle₁ hle₂ hcount hmax => chunk_done hinv hr hlive hrest (hitem.trans ?_)⟩
    · rw [hwhole, if_neg (by simpa only [cacheSizesOk_iff, and_assoc] using hbad)]
    · rw [hwhole, if_pos ⟨cacheSizesOk_iff.mpr ⟨hle₁, hle₂, hcount⟩, hmax⟩]
      rfl

/-! ## The end of a window -/

/-- A window whose tests pass commits (R269, R322, R323). -/
theorem closeWindow_of_passed {d : Dec} (htw : (activeCtx d).tw.length = (activeWin d).targetLen)
    (hdp : (activeWin d).dp = (activeWin d).dataLen) (hap : (activeWin d).ap = (activeWin d).addrLen)
    (hck : d.hasChecksum = true → adler32 (activeCtx d).tw = (activeWin d).checksum) :
    closeWindow d = windowDone (commit d) := by
  have hterm : terminate d = .ok d := by
    rw [terminate, if_neg (Decidable.not_not.mpr htw), if_neg (by simp [hdp, hap])]
  have hsum : checkChecksum d = .ok d := if_neg fun ⟨h, hne⟩ => hne (hck h)
  rw [closeWindow, hterm, Run.andThen, hsum]

/-- At the end of the instructions section: a window that is done hands the rest of `PENDING` to the command as a chunk (R302). -/
theorem step_of_closeWindow_done {s : State} {d : Dec} {rest : Bytes} (hr : s.dec.replaying = true)
    (hi : (activeWin s.dec).instLen ≤ (activeWin s.dec).ip) (hl : Live d.state)
    (h : closeWindow s.dec = .done (addPending rest d)) : step s = exec (.decChunk rest) { s with dec := d } := by
  rw [step_endOfWindow hr hi, resumeDrive, h]
  exact (chunk_eq hl).symm

theorem step_of_closeWindow_raise {s : State} {d : Dec} {c : Cause} (hr : s.dec.replaying = true)
    (hi : (activeWin s.dec).instLen ≤ (activeWin s.dec).ip) (h : closeWindow s.dec = .raise c d) :
    step s = endCommand s (.raise c d) := by
  rw [step_endOfWindow hr hi, resumeDrive, h]

/-! ## The end of an inner window -/

/-- The nested context after the commit of an inner window (R323, R325): its target has grown by `TW`, its working registers and
cache are free values. -/
def committedInner (d : Dec) (n : Nested) : Ctx :=
  { n.ctx with
    dtarget := n.ctx.dtarget ++ n.ctx.tw, totalTargetLen := n.ctx.totalTargetLen + n.ctx.tw.length,
    win := Config.freeWindow d.freeCount, cache := freedCache d.freeCount n.ctx.cache }

section InnerWindow

variable {d : Dec} {n : Nested} (hn : d.nested = some n)
include hn

theorem commit_inner : commit d = { d with
    nested := some { n with ctx := committedInner d n }, pending := d.pending.drop (windowLen d), replaying := false,
    freeCount := d.freeCount + 1 } := commit_of_some hn

/-- An image still short goes on with the next inner window (R310). -/
theorem windowDone_inner_short (h : (n.ctx.dtarget ++ n.ctx.tw).length < 1536) :
    windowDone (commit d) = .done (commit d) := by
  rw [windowDone, commit_inner hn]
  exact if_pos h

theorem windowDone_inner_long (h : 1536 < (n.ctx.dtarget ++ n.ctx.tw).length) :
    windowDone (commit d) = .raise .badCodeTable (commit d) := by
  rw [windowDone, commit_inner hn]
  exact (if_neg (Nat.lt_asymm h)).trans (if_pos h)

/-- A whole image is loaded (R160, R310). -/
theorem windowDone_inner_whole (h : (n.ctx.dtarget ++ n.ctx.tw).length = 1536) :
    windowDone (commit d) = loadTable { n with ctx := committedInner d n } (commit d) := by
  rw [windowDone, commit_inner hn]
  exact (if_neg (Nat.not_lt.mpr (Nat.le_of_eq h.symm))).trans (if_neg (Nat.not_lt.mpr (Nat.le_of_eq h)))

end InnerWindow

/-- What the load of an image changes (R160): the table, its highest mode, and the cache of its sizes. -/
def loaded (n : Nested) (d : Dec) : Dec :=
  { d with
    dtab := unpackImage n.ctx.dtarget, maxMode := n.ctMaxMode,
    ctx := { d.ctx with cache := freshCache n.ctNear n.ctSame d.ctx.cache.indexFn } }

theorem loadTable_valid {n : Nested} {d : Dec} (h : tabValid (unpackImage n.ctx.dtarget) n.ctMaxMode = true) :
    loadTable n d = .done { loaded n d with nested := none, state := .expectWinIndicator } := if_pos h

theorem loadTable_invalid {n : Nested} {d : Dec} (h : tabValid (unpackImage n.ctx.dtarget) n.ctMaxMode = false) :
    loadTable n d = .raise .badCodeTable (loaded n d) := if_neg (ne_true_of_eq_false h)

/-- Settles O34: the tests passed, the window is committed, and the length of the image decides (R310). -/
theorem innerWindowEnd : Obligations.InnerWindowEnd := by
  unfold Obligations.InnerWindowEnd
  intro s n hinv hr hn hip htw hdp hap hck
  have hlive := (windowLive_of_inv hinv.1 hr).session.live
  have hctx := activeCtx_of_some s.dec n hn
  have hwin : activeWin s.dec = n.ctx.win := congrArg Ctx.win hctx
  have hi : (activeWin s.dec).instLen ≤ (activeWin s.dec).ip := Nat.le_of_eq (by rw [hwin, hip])
  have hclose : closeWindow s.dec = windowDone (commit s.dec) := by
    apply closeWindow_of_passed <;> simpa only [hctx, hwin]
  have hcommit := commit_inner hn
  refine ⟨fun hshort => ?_, fun hbad => ?_, fun hlen hvalid => ?_⟩
  · refine ⟨committedInner s.dec n, s.dec.freeCount + 1, rfl, rfl, step_of_closeWindow_done hr hi hlive ?_⟩
    rw [hclose, windowDone_inner_short hn hshort, hcommit]
    rfl
  · rcases hbad with hlong | ⟨hlen, hinvalid⟩
    · rw [step_of_closeWindow_raise hr hi (hclose.trans (windowDone_inner_long hn hlong)), hcommit]
      exact failsWith_of_raise rfl rfl rfl rfl rfl rfl rfl rfl rfl
    · have hload := (windowDone_inner_whole hn hlen).trans (loadTable_invalid hinvalid)
      rw [step_of_closeWindow_raise hr hi (hclose.trans hload), hcommit]
      exact failsWith_of_raise rfl rfl rfl rfl rfl rfl rfl rfl rfl
  · have hload := (windowDone_inner_whole hn hlen).trans (loadTable_valid hvalid)
    refine ⟨s.dec.freeCount + 1, step_of_closeWindow_done hr hi (.inr (.inr (.inl rfl))) ?_⟩
    rw [hclose, hload, hcommit]
    rfl

end Sys2Proof.Machine

/-! PROOFS. The address cache (42_address_cache.md): what `AC_INIT` and `AC_UPDATE` write (R191, R192), the decode by kind of mode
(R196, R198), the check of a SAME entry (R197), and the choice of `AC_ENCODE` (R194, R195), which the decoder reads back (R199). -/

namespace Sys2Proof.Machine

open Sys2Proof.Safety

/-! ## The update -/

@[simp] theorem sameIndex_acInit (c : AddrCache) (a : Nat) : sameIndex (acInit c) a = sameIndex c a := rfl

@[simp] theorem sameIndex_acUpdate (c : AddrCache) (x a : Nat) : sameIndex (acUpdate c x) a = sameIndex c a := by
  simp only [sameIndex, acUpdate_indexFn, acUpdate_sameSize]

/-- The slot of the ring that an update writes (R192). -/
theorem acUpdate_near_written {c : AddrCache} (hc : CacheOk c) (hpos : 0 < c.nearSize) (a : Nat) :
    (acUpdate c a).near[c.nextSlot]? = some a := by
  obtain ⟨hlen, -, hslot, -, -⟩ := hc
  rw [if_neg (Nat.ne_of_gt hpos)] at hslot
  rw [acUpdate_near, if_pos hpos, List.getElem?_set_self (hlen.symm ▸ hslot)]

theorem acUpdate_near_other {c : AddrCache} {k : Nat} (h : k ≠ c.nextSlot ∨ c.nearSize = 0) (a : Nat) :
    (acUpdate c a).near[k]? = c.near[k]? := by
  rw [acUpdate_near]
  split
  · next hpos => exact List.getElem?_set_ne (h.resolve_right (Nat.ne_of_gt hpos)).symm
  · rfl

/-- The SAME entry that an update writes (R192). -/
theorem acUpdate_same_written {c : AddrCache} (hc : CacheOk c) (hpos : 0 < c.sameSize) (a : Nat) :
    (acUpdate c a).same[sameIndex c a]? = some a := by
  obtain ⟨-, hlen, -, -, -⟩ := hc
  rw [acUpdate_same, if_pos hpos, List.getElem?_set_self (hlen.symm ▸ sameIndex_lt hpos a)]

theorem acUpdate_same_other {c : AddrCache} {a j : Nat} (h : j ≠ sameIndex c a ∨ c.sameSize = 0) :
    (acUpdate c a).same[j]? = c.same[j]? := by
  rw [acUpdate_same]
  split
  · next hpos => exact List.getElem?_set_ne (h.resolve_right (Nat.ne_of_gt hpos)).symm
  · rfl

/-- Settles O17: the cleared arrays are those of `freshCache`, and an update sets one element of each array that has any. -/
theorem cacheInitAndUpdate : Obligations.CacheInitAndUpdate := by
  unfold Obligations.CacheInitAndUpdate
  constructor
  · intro c
    exact ⟨rfl, rfl, rfl, rfl, List.length_replicate, List.length_replicate,
      fun a => List.eq_of_mem_replicate, fun a => List.eq_of_mem_replicate⟩
  · intro c addr hc haddr
    refine ⟨acUpdate_ok hc haddr, acUpdate_nearSize c addr, acUpdate_sameSize c addr, acUpdate_indexFn c addr,
      fun hpos => ⟨acUpdate_near_written hc hpos addr, ?_⟩, fun hzero => ?_, fun k hk => acUpdate_near_other hk addr,
      fun hpos => acUpdate_same_written hc hpos addr, fun j hj => acUpdate_same_other hj⟩
    · rw [acUpdate_nextSlot, if_pos hpos]
    · rw [acUpdate_nextSlot, if_neg (Nat.not_lt.mpr (Nat.le_of_eq hzero))]

/-! ## The decode -/

/-- The range check accepts what lies below `here` and is a 32-bit number (R196, R198). -/
theorem acAccept_eq (c : AddrCache) (here : Nat) (addr : Int) (cur : Nat) : acAccept c here addr cur =
    if 0 ≤ addr ∧ addr < here ∧ addr < 4294967296 then .value addr.toNat cur (acUpdate c addr.toNat)
    else .error .copyAddressOutOfBounds := by
  by_cases h : 0 ≤ addr ∧ addr < here ∧ addr < 4294967296
  · rw [if_pos h, acAccept, if_neg (by omega)]
  · rw [if_neg h, acAccept, if_pos (by omega)]

/-- A cache element is a 32-bit address (R28), so that only `here` bounds it. -/
theorem acAccept_element (c : AddrCache) (here : Nat) {addr : Nat} (h32 : addr < 4294967296) (cur : Nat) :
    acAccept c here addr cur =
      if addr < here then .value addr cur (acUpdate c addr) else .error .copyAddressOutOfBounds := by
  have hiff : (0 ≤ (addr : Int) ∧ (addr : Int) < here ∧ (addr : Int) < 4294967296) ↔ addr < here := by omega
  simp only [acAccept_eq, hiff, Int.toNat_natCast]

/-- Every mode below the SAME modes denotes an address (R103). -/
theorem acVarIntAddress_eq {c : AddrCache} (hc : CacheOk c) {mode : Nat} (hm : mode < 2 + c.nearSize) (here v : Nat) :
    acVarIntAddress c here mode v =
      some (if mode = 0 then (v : Int) else if mode = 1 then (here : Int) - v
        else ((c.near.getD (mode - 2) 0 + v : Nat) : Int)) := by
  obtain ⟨hlen, -⟩ := hc
  unfold acVarIntAddress
  by_cases h0 : mode = 0
  · rw [if_pos h0, if_pos h0]
  by_cases h1 : mode = 1
  · rw [if_neg h0, if_neg h0, if_pos h1, if_pos h1]
  · have hslot : mode - 2 < c.near.length := by omega
    rw [if_neg h0, if_neg h0, if_neg h1, if_neg h1, List.getD_eq_getElem?_getD, List.getElem?_eq_getElem hslot]
    rfl

section Decode

variable {c : AddrCache} {here mode cur lim : Nat} {src : Bytes}

theorem acDecode_varInt_needMore (hm : mode < 2 + c.nearSize) (h : viRead 32 src cur lim = .needMore) :
    acDecode c here mode src cur lim = .needMore := by
  rw [acDecode, if_pos hm, h]

theorem acDecode_varInt_error {e : UnitError} (hm : mode < 2 + c.nearSize) (h : viRead 32 src cur lim = .error e) :
    acDecode c here mode src cur lim = .error e := by
  rw [acDecode, if_pos hm, h]

theorem acDecode_varInt_value {v cur' : Nat} {addr : Int} (hm : mode < 2 + c.nearSize)
    (h : viRead 32 src cur lim = .value v cur') (ha : acVarIntAddress c here mode v = some addr) :
    acDecode c here mode src cur lim = acAccept c here addr cur' := by
  simp only [acDecode, if_pos hm, h, ha]

theorem acDecode_same_needMore (k : Nat) (h : byteRead src cur lim = .needMore) :
    acDecode c here (2 + c.nearSize + k) src cur lim = .needMore := by
  rw [acDecode, if_neg (by omega), h]

/-- A SAME mode on an entry that stands in the cache (R196, R197). -/
theorem acDecode_same_value (hc : CacheOk c) {k b cur' addr : Nat} (h : byteRead src cur lim = .value b cur')
    (he : c.same[k * 256 + b]? = some addr) :
    acDecode c here (2 + c.nearSize + k) src cur lim =
      if sameIndex c addr ≠ k * 256 + b then .error .sameCacheMiss
      else if addr < here then .value addr cur' (acUpdate c addr)
      else .error .copyAddressOutOfBounds := by
  obtain ⟨-, -, -, -, h32⟩ := hc
  have hk : 2 + c.nearSize + k - 2 - c.nearSize = k := by omega
  simp only [acDecode, if_neg (show ¬ 2 + c.nearSize + k < 2 + c.nearSize by omega), h, acDecodeSame, hk, he,
    acAccept_element c here (h32 addr (List.mem_of_getElem? he))]

/-- What a decoded address was read from: a VarInt that denotes it, or the SAME entry that holds it (R196). -/
theorem acDecode_value_cases {c' : AddrCache} {addr cur' : Nat} (h : acDecode c here mode src cur lim = .value addr cur' c') :
    (mode < 2 + c.nearSize ∧ ∃ v, viRead 32 src cur lim = .value v cur' ∧ acVarIntAddress c here mode v = some (addr : Int)) ∨
    (∃ k b, mode = 2 + c.nearSize + k ∧ byteRead src cur lim = .value b cur' ∧
      c.same[k * 256 + b]? = some addr ∧ sameIndex c addr = k * 256 + b) := by
  unfold acDecode at h
  split at h
  · next hm =>
    split at h
    · cases h
    · cases h
    · next v cur₁ hread =>
      split at h
      · cases h
      · next a ha =>
        obtain ⟨-, -, rfl, -, rfl⟩ := acAccept_value h
        exact .inl ⟨hm, v, hread, ha⟩
  · next hm =>
    split at h
    · cases h
    · cases h
    · next b cur₁ hread =>
      unfold acDecodeSame at h
      split at h
      · cases h
      · next a ha =>
        split at h
        · cases h
        · next hindex =>
          obtain ⟨-, -, rfl, -, heq⟩ := acAccept_value h
          obtain rfl := Int.natCast_inj.mp heq
          exact .inr ⟨mode - 2 - c.nearSize, b, by omega, hread, ha, Decidable.not_not.mp hindex⟩

end Decode

/-- Settles O18: each kind of mode by its rule, and `acDecode_value` for what any of them accepts. -/
theorem addressDecode : Obligations.AddressDecode := by
  unfold Obligations.AddressDecode
  intro c here src cur lim hc
  refine ⟨fun mode v cur' hm hread addr haddr => ?_, fun mode hm hread => acDecode_varInt_needMore hm hread,
    fun mode e hm hread => acDecode_varInt_error hm hread,
    fun k b cur' addr _ hread _ he => acDecode_same_value hc hread he,
    fun k _ hread => acDecode_same_needMore k hread, fun mode addr cur' c' h => ?_⟩
  · rw [acDecode_varInt_value hm hread (acVarIntAddress_eq hc hm here v), ← haddr, acAccept_eq]
  · obtain ⟨hhere, h32, -, -, hcache⟩ := acDecode_value h
    exact ⟨hhere, h32, hcache⟩

/-! ## The SAME entries after a list of updates -/

/-- The cache after `AC_UPDATE` of each address in turn. -/
def updateAll (c : AddrCache) (addrs : List Nat) : AddrCache := addrs.foldl acUpdate c

section UpdateAll

variable (c : AddrCache) (addrs : List Nat)

theorem updateAll_append_cons (x : Nat) (later : List Nat) :
    updateAll c (addrs ++ x :: later) = updateAll (acUpdate (updateAll c addrs) x) later := List.foldl_append ..

@[simp] theorem updateAll_nearSize : (updateAll c addrs).nearSize = c.nearSize := by
  induction addrs generalizing c with
  | nil => rfl
  | cons x rest ih => exact (ih (acUpdate c x)).trans (acUpdate_nearSize c x)

@[simp] theorem updateAll_sameSize : (updateAll c addrs).sameSize = c.sameSize := by
  induction addrs generalizing c with
  | nil => rfl
  | cons x rest ih => exact (ih (acUpdate c x)).trans (acUpdate_sameSize c x)

@[simp] theorem sameIndex_updateAll (a : Nat) : sameIndex (updateAll c addrs) a = sameIndex c a := by
  induction addrs generalizing c with
  | nil => rfl
  | cons x rest ih => exact (ih (acUpdate c x)).trans (sameIndex_acUpdate c x a)

variable {c addrs}

theorem updateAll_ok (hc : CacheOk c) (h32 : ∀ x ∈ addrs, x < 4294967296) : CacheOk (updateAll c addrs) := by
  induction addrs generalizing c with
  | nil => exact hc
  | cons x rest ih =>
    obtain ⟨hx, hrest⟩ := List.forall_mem_cons.mp h32
    exact ih (acUpdate_ok hc hx) hrest

/-- An entry at whose index no update writes stays as it was. -/
theorem updateAll_same_other {j : Nat} (h : ∀ x ∈ addrs, sameIndex c x ≠ j) :
    (updateAll c addrs).same[j]? = c.same[j]? := by
  induction addrs generalizing c with
  | nil => rfl
  | cons x rest ih =>
    obtain ⟨hx, hrest⟩ := List.forall_mem_cons.mp h
    calc (updateAll (acUpdate c x) rest).same[j]?
      _ = (acUpdate c x).same[j]? := ih fun y hy => by rw [sameIndex_acUpdate]; exact hrest y hy
      _ = c.same[j]? := acUpdate_same_other (.inl hx.symm)

/-- An entry that is written holds the address written there last. -/
theorem updateAll_same_written (hc : CacheOk c) (hpos : 0 < c.sameSize) {earlier later : List Nat} {x : Nat}
    (h32 : ∀ y ∈ earlier, y < 4294967296) (hlater : ∀ y ∈ later, sameIndex c y ≠ sameIndex c x) :
    (updateAll c (earlier ++ x :: later)).same[sameIndex c x]? = some x := by
  rw [updateAll_append_cons, updateAll_same_other (by simpa using hlater)]
  have := acUpdate_same_written (updateAll_ok hc h32) (by simpa using hpos) x
  rwa [sameIndex_updateAll] at this

end UpdateAll

/-- Address 0 belongs to entry 0 under both index functions (R193). -/
theorem sameIndex_zero (c : AddrCache) : sameIndex c 0 = 0 := by
  unfold sameIndex
  cases c.indexFn <;> simp

section AfterInit

variable {c : AddrCache} {addrs : List Nat}

/-- An entry never written since `AC_INIT` holds 0 (R197). -/
theorem updateAll_acInit_same_unwritten {j : Nat} (hj : j < c.sameSize * 256) (h : ∀ x ∈ addrs, sameIndex c x ≠ j) :
    (updateAll (acInit c) addrs).same[j]? = some 0 :=
  (updateAll_same_other (c := acInit c) h).trans (List.getElem?_replicate_of_lt hj)

/-- What a SAME mode reads from an entry, in the sizes and the index function the cache had before `AC_INIT` (R196). -/
theorem acDecode_same_updateAll_acInit {here k addr : Nat} {b : Byte} (h32 : ∀ x ∈ addrs, x < 4294967296)
    (he : (updateAll (acInit c) addrs).same[k * 256 + b.toNat]? = some addr) :
    acDecode (updateAll (acInit c) addrs) here (2 + c.nearSize + k) [b] 0 1 =
      if sameIndex c addr ≠ k * 256 + b.toNat then .error .sameCacheMiss
      else if addr < here then .value addr 1 (acUpdate (updateAll (acInit c) addrs) addr)
      else .error .copyAddressOutOfBounds := by
  have hbyte : byteRead [b] 0 1 = .value b.toNat 1 := byteRead_middle [] [] b Nat.one_pos
  simpa only [updateAll_nearSize, acInit_nearSize, sameIndex_updateAll, sameIndex_acInit] using
    acDecode_same_value (here := here) (updateAll_ok (acInit_ok c) h32) hbyte he

end AfterInit

/-- Settles O19: an entry never written holds 0, whose own index is 0; a written one holds the address written last. -/
theorem sameEntryCheck : Obligations.SameEntryCheck := by
  unfold Obligations.SameEntryCheck
  intro c₀ addrs here k b hk h32 c j
  have hentry : j < c₀.sameSize * 256 := by
    have := b.isLt
    omega
  refine ⟨fun hnot hj => ?_, fun hnot hj hhere => ?_, fun earlier x later hsplit hx hlater hhere => ?_⟩
  · have hdec := acDecode_same_updateAll_acInit (here := here) h32 (updateAll_acInit_same_unwritten hentry hnot)
    rwa [sameIndex_zero, if_pos (Ne.symm hj)] at hdec
  · have hdec := acDecode_same_updateAll_acInit (here := here) h32 (updateAll_acInit_same_unwritten hentry hnot)
    rwa [sameIndex_zero, if_neg (Decidable.not_not.mpr hj.symm), if_pos hhere] at hdec
  · have hwritten : (updateAll (acInit c₀) addrs).same[j]? = some x := by
      subst hsplit
      rw [← hx] at hlater ⊢
      exact updateAll_same_written (c := acInit c₀) (acInit_ok c₀) (Nat.zero_lt_of_lt hk)
        (fun y hy => h32 y (List.mem_append_left _ hy)) hlater
    have hdec := acDecode_same_updateAll_acInit (here := here) h32 hwritten
    rwa [if_neg (Decidable.not_not.mpr hx), if_pos hhere] at hdec

/-! ## The encode -/

/-- The list `C` of R194: SELF, then the others. -/
def candidates (c : AddrCache) (addr here : Nat) : List Candidate :=
  { mode := 0, value := addr, len := viLen addr } :: otherCandidates c addr here

section Candidates

variable {c : AddrCache} {addr here : Nat}

theorem self_mem_candidates : { mode := 0, value := addr, len := viLen addr } ∈ candidates c addr here :=
  List.mem_cons_self

theorem here_mem_candidates : { mode := 1, value := here - addr, len := viLen (here - addr) } ∈ candidates c addr here :=
  List.mem_cons_of_mem _ List.mem_cons_self

theorem near_mem_candidates {k base : Nat} (hk : c.near[k]? = some base) (hb : base ≤ addr) :
    { mode := 2 + k, value := addr - base, len := viLen (addr - base) } ∈ candidates c addr here := by
  have : { mode := 2 + k, value := addr - base, len := viLen (addr - base) } ∈ nearCandidates addr 0 c.near :=
    nearCandidates_spec.mpr ⟨k, base, hk, hb, by rw [Nat.zero_add]⟩
  exact List.mem_cons_of_mem _ (List.mem_cons_of_mem _ (List.mem_append_left _ this))

theorem same_mem_candidates (hpos : 0 < c.sameSize) (he : c.same[sameIndex c addr]? = some addr) :
    { mode := 2 + c.nearSize + sameIndex c addr / 256, value := sameIndex c addr % 256, len := 1 } ∈
      candidates c addr here := by
  have : { mode := 2 + c.nearSize + sameIndex c addr / 256, value := sameIndex c addr % 256, len := 1 } ∈
      sameCandidates c addr := by
    rw [sameCandidates, if_pos ⟨hpos, he⟩]
    exact List.mem_singleton_self _
  exact List.mem_cons_of_mem _ (List.mem_cons_of_mem _ (List.mem_append_right _ this))

/-- A candidate for a NEAR mode is the difference to the address in that slot. -/
theorem near_of_mem_candidates {x : Candidate} (hx : x ∈ candidates c addr here) (h2 : 2 ≤ x.mode)
    (hn : x.mode < 2 + c.nearSize) :
    ∃ base, c.near[x.mode - 2]? = some base ∧ x.len = viLen (addr - base) := by
  rcases List.mem_cons.mp hx with rfl | hx
  · exact absurd h2 (by simp)
  rcases List.mem_cons.mp hx with rfl | hx
  · exact absurd h2 (by simp)
  rcases List.mem_append.mp hx with hx | hx
  · obtain ⟨k, base, hk, -, rfl⟩ := nearCandidates_spec.mp hx
    exact ⟨base, by simpa using hk, rfl⟩
  · unfold sameCandidates at hx
    split at hx
    · obtain rfl := List.mem_singleton.mp hx
      exact absurd hn (by simp only; omega)
    · exact absurd hx List.not_mem_nil

end Candidates

theorem viLen_of_lt {v : Nat} (h : v < 128) : viLen v = 1 := by
  rw [viLen, viLenLoop, if_neg (by omega)]

/-- No VarInt of a value is shorter than the one that is written (R130). -/
theorem viLen_le_of_viRead {src : Bytes} {lim v cur : Nat} (h : viRead 32 src 0 lim = .value v cur) : viLen v ≤ cur := by
  obtain ⟨hpos, -, -, -, hv⟩ := viRead_value h
  have hgroups := viReadLoop_bound (acc := 0) (done := 0) (by decide) h
  rw [Nat.zero_add, Nat.sub_zero] at hgroups
  exact viLen_le (by omega) hpos hgroups

/-- Whatever the decoder accepts as an address is a candidate for it, at least as long (R194, R196). -/
theorem exists_candidate_of_acDecode {c c' : AddrCache} (hc : CacheOk c) {addr here mode lim cur : Nat} {src : Bytes}
    (h : acDecode c here mode src 0 lim = .value addr cur c') :
    ∃ x ∈ candidates c addr here, x.mode = mode ∧ x.len ≤ cur := by
  rcases acDecode_value_cases h with ⟨hm, v, hread, ha⟩ | ⟨k, b, rfl, hread, he, hindex⟩
  · have hlen := viLen_le_of_viRead hread
    unfold acVarIntAddress at ha
    split at ha
    · next h0 =>
      obtain rfl : v = addr := Int.natCast_inj.mp (Option.some.inj ha)
      exact ⟨_, self_mem_candidates, h0.symm, hlen⟩
    split at ha
    · next h1 =>
      obtain rfl : v = here - addr := by
        have := Option.some.inj ha
        omega
      exact ⟨_, here_mem_candidates, h1.symm, hlen⟩
    · obtain ⟨base, hslot, hsum⟩ := Option.map_eq_some_iff.mp ha
      obtain rfl : base + v = addr := Int.natCast_inj.mp hsum
      refine ⟨_, near_mem_candidates hslot (Nat.le_add_right _ _), by simp only; omega, ?_⟩
      rwa [Nat.add_sub_cancel_left]
  · obtain ⟨-, rfl, byte, -, rfl⟩ := byteRead_value hread
    have hpos : 0 < c.sameSize := by
      have := (List.getElem?_eq_some_iff.mp he).1
      rw [hc.2.1] at this
      omega
    refine ⟨_, same_mem_candidates hpos (hindex.symm ▸ he), ?_, Nat.le_refl _⟩
    have := byte.isLt
    simp only [hindex]
    omega

/-- The choice of R195: a shortest candidate, of the lowest mode among those. -/
def Chosen (c : AddrCache) (addr here : Nat) (x : Candidate) : Prop :=
  x ∈ candidates c addr here ∧
  ∀ y ∈ candidates c addr here, x.len ≤ y.len ∧ (y.len = x.len → x.mode ≤ y.mode)

/-- `AC_ENCODE` answers the chosen candidate and the updated cache (R194, R195). -/
theorem acEncode_chosen {c c' : AddrCache} (hc : CacheOk c) {addr here mode value : Nat}
    (h : acEncode c addr here = (mode, value, c')) :
    c' = acUpdate c addr ∧ ∃ len, Chosen c addr here ⟨mode, value, len⟩ := by
  obtain ⟨hcache, len, hbest⟩ := acEncode_cases h
  refine ⟨hcache, len, ?_, fun y hy => ⟨?_, ?_⟩⟩
  · have := shortest_mem { mode := 0, value := addr, len := viLen addr } (otherCandidates c addr here)
    rw [hbest] at this
    exact List.mem_cons.mpr this
  · obtain ⟨hself, hother⟩ := shortest_le { mode := 0, value := addr, len := viLen addr } (otherCandidates c addr here)
    rw [hbest] at hself hother
    exact (List.forall_mem_cons.mpr ⟨hself, hother⟩ : ∀ y ∈ candidates c addr here, len ≤ y.len) y hy
  · have := shortest_first _ _ (candidates_pairwise hc addr here) y hy
    rwa [hbest] at this

/-- From a slot that holds 0 the difference is the address itself, which SELF writes in as many bytes (R195). -/
theorem Chosen.near_slot_ne_zero {c : AddrCache} {addr here : Nat} {x : Candidate} (hx : Chosen c addr here x) (h2 : 2 ≤ x.mode)
    (hn : x.mode < 2 + c.nearSize) {base : Nat} (hbase : c.near[x.mode - 2]? = some base) : base ≠ 0 := by
  rintro rfl
  obtain ⟨base, hslot, hlen⟩ := near_of_mem_candidates hx.1 h2 hn
  obtain rfl : 0 = base := Option.some.inj (hbase.symm.trans hslot)
  have : x.mode ≤ 0 := (hx.2 _ self_mem_candidates).2 hlen.symm
  omega

section Chosen

variable {c : AddrCache} {addr here : Nat} {x : Candidate} (hc : CacheOk c) (haddr : addr < here) (hhere : here ≤ 4294967295)
  (hx : Chosen c addr here x)
include hc haddr hhere hx

theorem Chosen.length_addressBytes : (addressBytes c x.mode x.value).length = x.len :=
  (candidate_decodes hc haddr hhere hx.1).1.symm

/-- The decoder reads the chosen candidate back (R199). -/
theorem Chosen.decodes : acDecode c here x.mode (addressBytes c x.mode x.value) 0 (addressBytes c x.mode x.value).length =
    .value addr (addressBytes c x.mode x.value).length (acUpdate c addr) := by
  rw [hx.length_addressBytes hc haddr hhere]
  exact (candidate_decodes hc haddr hhere hx.1).2

/-- One byte is the least there is, so that the first candidate of one byte is the one chosen. -/
theorem Chosen.mode_le_of_one_byte {y : Candidate} (hy : y ∈ candidates c addr here) (hlen : y.len = 1) : x.mode ≤ y.mode := by
  obtain ⟨-, -, hpos, -, -⟩ := acDecode_value (hx.decodes hc haddr hhere)
  rw [hx.length_addressBytes hc haddr hhere] at hpos
  obtain ⟨hle, hfirst⟩ := hx.2 y hy
  exact hfirst (by omega)

/-- An address of one group is written as it is (R195). -/
theorem Chosen.mode_self_of_lt (h : addr < 128) : x.mode = 0 :=
  Nat.le_zero.mp (hx.mode_le_of_one_byte hc haddr hhere self_mem_candidates (viLen_of_lt h))

/-- SAME only where no VarInt mode takes one byte (R195). -/
theorem Chosen.same_only_if (hmode : 2 + c.nearSize ≤ x.mode) :
    128 ≤ addr ∧ 128 ≤ here - addr ∧ ∀ base ∈ c.near, base ≤ addr → 128 ≤ addr - base := by
  refine ⟨Nat.not_lt.mp fun h => ?_, Nat.not_lt.mp fun h => ?_, fun base hbase hle => Nat.not_lt.mp fun h => ?_⟩
  · have := hx.mode_self_of_lt hc haddr hhere h
    omega
  · have : x.mode ≤ 1 := hx.mode_le_of_one_byte hc haddr hhere here_mem_candidates (viLen_of_lt h)
    omega
  · obtain ⟨k, hk, rfl⟩ := List.mem_iff_getElem.mp hbase
    have : x.mode ≤ 2 + k :=
      hx.mode_le_of_one_byte hc haddr hhere (near_mem_candidates (List.getElem?_eq_getElem hk) hle) (viLen_of_lt h)
    rw [hc.1] at hk
    omega

end Chosen

/-- Settles O20: `AC_ENCODE` chooses among the candidates, and whatever the decoder accepts is a candidate. -/
theorem addressEncodeIsShortest : Obligations.AddressEncodeIsShortest := by
  unfold Obligations.AddressEncodeIsShortest
  intro c addr here mode value c' hc haddr hhere h
  obtain ⟨-, len, hx⟩ := acEncode_chosen hc h
  refine ⟨fun m bytes c'' hdec => ?_, hx.mode_self_of_lt hc haddr hhere, hx.same_only_if hc haddr hhere,
    fun h2 hn base hbase => hx.near_slot_ne_zero h2 hn hbase⟩
  obtain ⟨y, hy, rfl, hle⟩ := exists_candidate_of_acDecode hc hdec
  obtain ⟨hshort, hfirst⟩ := hx.2 y hy
  rw [show (addressBytes c mode value).length = len from hx.length_addressBytes hc haddr hhere]
  exact ⟨Nat.le_trans hshort hle, fun heq => hfirst (Nat.le_antisymm (heq ▸ hle) hshort)⟩

/-- Settles O21: the encoder writes a candidate, and every candidate decodes to its address with the same update. -/
theorem cachesStayInStep : Obligations.CachesStayInStep := by
  unfold Obligations.CachesStayInStep
  intro c addr here mode value c' hc haddr hhere h
  obtain ⟨rfl, len, hx⟩ := acEncode_chosen hc h
  refine ⟨addressBytes c mode value, ?_, hx.decodes hc haddr hhere⟩
  rw [addressBytes, viWrite32_nil]

end Sys2Proof.Machine

/-! PROOFS. The window encoder (43_window_encoder.md): the four steps of `EncodeInstruction` (R222), the commands that add an instruction
to the window (R223 to R225, R229), `ENC_OUTPUT` (R227, R228, R233), and the commands that write no instruction (R220, R221, R226,
R230 to R232). -/

namespace Sys2Proof.Machine

open Sys2Proof.Safety

/-! ## `EncodeInstruction` -/

section Steps

variable {e : Enc} {k : InstKind} {size mode : Nat}

theorem compoundFor_eq_some_iff {i : Nat} {c : Byte} :
    compoundFor e k size mode = some (i, c) ↔ Upgrades e k size mode i c := by
  refine ⟨compoundFor_some, ?_⟩
  rintro ⟨b, hlast, hbyte, hmap⟩
  simp only [compoundFor, pendingOpcode, hlast, hbyte, Option.map_some, hmap]

theorem compoundFor_eq_none (h : ∀ i c, ¬ Upgrades e k size mode i c) : compoundFor e k size mode = none :=
  Option.eq_none_iff_forall_ne_some.mpr fun ⟨i, c⟩ hc => h i c (compoundFor_eq_some_iff.mp hc)

/-- Step 1 of R222 finds a compound opcode. -/
theorem encodeInstruction_of_implicit_compound {i : Nat} {c : Byte} (hsize : 1 ≤ size ∧ size ≤ 255)
    (hc : Upgrades e k size mode i c) : encodeInstruction k size mode e = some (upgradeOpcode i c e) := by
  simp only [encodeInstruction, if_pos hsize, compoundFor_eq_some_iff.mpr hc]

section PastStep1

variable (h1 : ∀ i c, ¬ (1 ≤ size ∧ size ≤ 255 ∧ Upgrades e k size mode i c))
include h1

theorem implicit_compound_eq_none : (if 1 ≤ size ∧ size ≤ 255 then compoundFor e k size mode else none) = none :=
  ite_eq_right_iff.mpr fun hsize => compoundFor_eq_none fun i c hc => h1 i c ⟨hsize.1, hsize.2, hc⟩

/-- Step 1 of R222 finds nothing and step 2 a compound opcode. -/
theorem encodeInstruction_of_explicit_compound {i : Nat} {c : Byte} (hc : Upgrades e k 0 mode i c) :
    encodeInstruction k size mode e = some (appendSize size (upgradeOpcode i c e)) := by
  simp only [encodeInstruction, implicit_compound_eq_none h1, compoundFor_eq_some_iff.mpr hc]

/-- Neither finds one, so that a single opcode is left (R222 steps 3 and 4). -/
theorem encodeInstruction_eq_encodeSingle (h2 : ∀ i c, ¬ Upgrades e k 0 mode i c) :
    encodeInstruction k size mode e = encodeSingle k size mode e := by
  simp only [encodeInstruction, implicit_compound_eq_none h1, compoundFor_eq_none h2]

end PastStep1

/-- Step 3 of R222 finds a single opcode. -/
theorem encodeSingle_of_implicit {c : Byte} (hsize : 1 ≤ size ∧ size ≤ 255) (hc : imapFirst e.etab k size mode = some c) :
    encodeSingle k size mode e = some (appendOpcode c e) := by
  simp only [encodeSingle, if_pos hsize, hc]

/-- Step 3 finds nothing, so that step 4 decides. -/
theorem encodeSingle_explicit (h3 : ∀ c, ¬ (1 ≤ size ∧ size ≤ 255 ∧ imapFirst e.etab k size mode = some c)) :
    encodeSingle k size mode e = (imapFirst e.etab k 0 mode).map fun c => appendSize size (appendOpcode c e) := by
  have hnone : (if 1 ≤ size ∧ size ≤ 255 then imapFirst e.etab k size mode else none) = none :=
    ite_eq_right_iff.mpr fun hsize =>
      Option.eq_none_iff_forall_ne_some.mpr fun c hc => h3 c ⟨hsize.1, hsize.2, hc⟩
  simp only [encodeSingle, hnone]
  cases imapFirst e.etab k 0 mode <;> rfl

end Steps

/-- The default table has an explicit-size opcode for every instruction at every mode it can have (R113, R152). -/
theorem imapFirst_defTab_explicit {k : InstKind} {mode : Nat} (hk : k ≠ .noop) (hmode : mode ≤ 8)
    (h0 : k ≠ .copy → mode = 0) :
    ∃ op, imapFirst defTab k 0 mode = some op := by
  obtain ⟨hadd, hrun, hcopy⟩ := imapFirst_isSome defTab_valid
  cases k with
  | noop => exact absurd rfl hk
  | add => rw [h0 InstKind.noConfusion]; exact hadd
  | run => rw [h0 InstKind.noConfusion]; exact hrun
  | copy => exact hcopy mode hmode

/-- Settles O54, step by step; in the default table `imapFirst_defTab_explicit` serves the last one. -/
theorem encodeInstructionSteps : Obligations.EncodeInstructionSteps := by
  unfold Obligations.EncodeInstructionSteps
  intro e k size mode
  dsimp only
  refine ⟨fun i c h => ?_, fun i c h1 h => ?_, fun c h1 h2 h => ?_, fun c h1 h2 h3 h => ?_, fun h1 h2 h3 h => ?_,
    fun htab hk hmode h0 => ?_⟩
  · exact encodeInstruction_of_implicit_compound ⟨h.1, h.2.1⟩ h.2.2
  · exact encodeInstruction_of_explicit_compound h1 h
  · exact (encodeInstruction_eq_encodeSingle h1 h2).trans (encodeSingle_of_implicit ⟨h.1, h.2.1⟩ h.2.2)
  · rw [EncodesTo, encodeInstruction_eq_encodeSingle h1 h2, encodeSingle_explicit h3, h]
    rfl
  · rw [encodeInstruction_eq_encodeSingle h1 h2, encodeSingle_explicit h3, h]
    rfl
  · obtain ⟨e', he⟩ := encodeInstruction_isSome (size := size) (htab ▸ imapFirst_defTab_explicit hk hmode h0)
    exact he ▸ Option.some_ne_none e'

/-! ## Instructions added to the window -/

/-- How a command ends whose own checks are passed: the check of the target length, the instruction encoded, its bytes put in their
place by `place`, the target grown (R223 to R225). -/
def addInstruction (k : InstKind) (n mode : Nat) (place : Enc → Enc) (e : Enc) : EncEnd :=
  if wouldOverflow e n then .raise .targetLengthOverflow
  else
    match encodeInstruction k n mode e with
    | none => .raise .noOpcodeForInstruction
    | some e => .ok (growTarget n (place e)) .ok

theorem execEncAdd_eq (n offset len : Nat) (slice : Bytes) (s : State) :
    execEncAdd n offset len slice s = encCommand s fun e => whenReady e (
      if n < offset + len then .raise .sliceOutOfBounds else addInstruction .add len 0 (appendData slice) e) := rfl

theorem execEncRun_eq (size : Word) (b : Byte) (s : State) :
    execEncRun size b s = encCommand s fun e => whenReady e (addInstruction .run size.toNat 0 (appendData [b]) e) := rfl

/-- `ENC_COPY` with the mode, the value and the cache that `AC_ENCODE` answers. -/
def addCopy (size : Nat) (answer : Nat × Nat × AddrCache) (e : Enc) : EncEnd :=
  addInstruction .copy size answer.1 (fun e => appendAddress (addressBytes e.cache answer.1 answer.2.1) e)
    { e with cache := answer.2.2 }

theorem execEncCopy_eq (offset size : Word) (s : State) :
    execEncCopy offset size s = encCommand s fun e => whenReady e (
      if encHere e ≤ offset.toNat then .raise .copyOffsetOutOfRange
      else addCopy size.toNat (acEncode e.cache offset.toNat (encHere e)) e) := rfl

theorem not_wouldOverflow {e : Enc} {n : Nat} (h : e.dictSize.toNat + e.targetLen + n ≤ 4294967295) : ¬ wouldOverflow e n = true :=
  fun ho => Nat.not_lt.mpr h (of_decide_eq_true ho)

section AddInstruction

variable {k : InstKind} {n mode : Nat} {place : Enc → Enc} {e : Enc}

theorem addInstruction_overflow (h : 4294967295 < e.dictSize.toNat + e.targetLen + n) :
    addInstruction k n mode place e = .raise .targetLengthOverflow :=
  if_pos (decide_eq_true h)

theorem addInstruction_none (h : e.dictSize.toNat + e.targetLen + n ≤ 4294967295) (henc : encodeInstruction k n mode e = none) :
    addInstruction k n mode place e = .raise .noOpcodeForInstruction := by
  rw [addInstruction, if_neg (not_wouldOverflow h), henc]

theorem addInstruction_some {insts : Bytes} {last : Option Nat} (h : e.dictSize.toNat + e.targetLen + n ≤ 4294967295)
    (henc : EncodesTo k n mode e insts last) : addInstruction k n mode place e =
      .ok (growTarget n (place { e with insts := insts, lastOpcodeIndex := last })) .ok := by
  rw [addInstruction, if_neg (not_wouldOverflow h), henc]

end AddInstruction

theorem growTarget_appendData (insts bytes : Bytes) (last : Option Nat) (n : Nat) (e : Enc) :
    growTarget n (appendData bytes { e with insts := insts, lastOpcodeIndex := last }) = afterEncode insts last bytes [] n e := by
  unfold appendData afterEncode
  cases e.interleaved <;> simp [growTarget, memAppend]

theorem growTarget_appendAddress (insts bytes : Bytes) (last : Option Nat) (n : Nat) (e : Enc) :
    growTarget n (appendAddress bytes { e with insts := insts, lastOpcodeIndex := last }) = afterEncode insts last [] bytes n e := by
  unfold appendAddress afterEncode
  cases e.interleaved <;> simp [growTarget, memAppend]

/-- ADD and RUN: the data bytes stand where the layout routes them. -/
theorem addInstruction_data {k : InstKind} {n mode : Nat} {e : Enc} {insts bytes : Bytes} {last : Option Nat}
    (h : e.dictSize.toNat + e.targetLen + n ≤ 4294967295) (henc : EncodesTo k n mode e insts last) :
    addInstruction k n mode (appendData bytes) e = .ok (afterEncode insts last bytes [] n e) .ok :=
  growTarget_appendData insts bytes last n e ▸ addInstruction_some h henc

/-- Settles O55: the slice is checked first, and `addInstruction` says how both commands go on. -/
theorem encAddAndRun : Obligations.EncAddAndRun := by
  unfold Obligations.EncAddAndRun
  intro s
  refine ⟨fun n offset len slice => ?_, fun size b => ?_⟩
  · dsimp only
    rw [exec_encAdd, execEncAdd_eq]
    refine ⟨encCommand_created, fun hr hout => encCommand_ready_raise hr (if_pos hout), fun hr hin =>
      ⟨fun hlen => ?_, fun hlen => ⟨fun hnone => ?_, fun insts last henc => ?_⟩⟩⟩
    · exact encCommand_ready_raise hr ((if_neg (Nat.not_lt.mpr hin)).trans (addInstruction_overflow hlen))
    · exact encCommand_ready_raise hr ((if_neg (Nat.not_lt.mpr hin)).trans (addInstruction_none hlen hnone))
    · exact encCommand_ready_ok hr ((if_neg (Nat.not_lt.mpr hin)).trans (addInstruction_data hlen henc))
  · dsimp only
    rw [exec_encRun, execEncRun_eq]
    refine ⟨encCommand_created, fun hr => ⟨fun hlen => ?_, fun hlen => ⟨fun hnone => ?_, fun insts last henc => ?_⟩⟩⟩
    · exact encCommand_ready_raise hr (addInstruction_overflow hlen)
    · exact encCommand_ready_raise hr (addInstruction_none hlen hnone)
    · exact encCommand_ready_ok hr (addInstruction_data hlen henc)

/-- The sizes of the cache that `AC_ENCODE` answers are those of the cache it is given (R194). -/
theorem acEncode_nearSize {c c' : AddrCache} {addr here mode value : Nat} (h : acEncode c addr here = (mode, value, c')) :
    c'.nearSize = c.nearSize := by
  have hcache : c' = acUpdate c addr := by rw [← acEncode_cache c addr here, h]
  rw [hcache, acUpdate_nearSize]

/-- The instruction of a COPY is encoded after the update of the cache, its address bytes stand where the layout routes them. -/
theorem addCopy_ok {e : Enc} {size mode value : Nat} {cache : AddrCache} {insts : Bytes} {last : Option Nat}
    (h : e.dictSize.toNat + e.targetLen + size ≤ 4294967295)
    (henc : EncodesTo .copy size mode { e with cache := cache } insts last) : addCopy size (mode, value, cache) e =
      .ok (afterEncode insts last [] (addressBytes cache mode value) size { e with cache := cache }) .ok :=
  growTarget_appendAddress insts _ last size { e with cache := cache } ▸ addInstruction_some h henc

/-- Settles O56: the offset is checked first; `addInstruction` says how the command goes on with the answer of `AC_ENCODE`. -/
theorem encCopyCopies : Obligations.EncCopyCopies := by
  unfold Obligations.EncCopyCopies
  intro s offset size
  dsimp only
  rw [exec_encCopy, execEncCopy_eq]
  refine ⟨encCommand_created, fun hr hout => encCommand_ready_raise hr (if_pos hout), fun hr hin hlen => ?_,
    fun hr hin hlen mode value cache hac => ⟨fun hnone => ?_, fun insts last henc => ?_⟩⟩
  · exact encCommand_ready_raise hr ((if_neg (Nat.not_le.mpr hin)).trans (addInstruction_overflow hlen))
  · refine encCommand_ready_raise hr ((if_neg (Nat.not_le.mpr hin)).trans ?_)
    rw [encHere, hac]
    exact addInstruction_none hlen hnone
  · refine encCommand_ready_ok hr ((if_neg (Nat.not_le.mpr hin)).trans ?_)
    rw [encHere, hac, addCopy_ok hlen henc, addressBytes, acEncode_nearSize hac]

/-! ## The window written -/

theorem windowPreamble_eq (e : Enc) : windowPreamble e = windowFront e (deltaWindowSize e) := by
  unfold windowPreamble windowFront
  cases e.hasChecksum <;> rfl

/-- `ENC_OUTPUT`, its length field being the length of what it writes (R228, R233). -/
theorem execEncOutput_eq (s : State) :
    execEncOutput s = encCommand s fun e => whenReady e (
      if e.insts = [] then .ok (windowCleared e) .ok
      else if 4294967295 < (windowBody e).length then .raise .deltaLengthDisagrees
      else .ok { windowCleared e with sink := e.sink ++ (windowFront e (windowBody e).length ++ windowBody e) } .ok) := by
  have hlen : ∀ e, (windowBody e).length = deltaWindowSize e := deltaEncoding_length
  simp only [execEncOutput, deltaEncoding_length, hlen, windowPreamble_eq, List.length_eq_zero_iff, ne_eq, not_true_eq_false,
    false_or]
  rfl

/-- Settles O58: the outcomes of `execEncOutput_eq`. -/
theorem encOutputFlushes : Obligations.EncOutputFlushes := by
  unfold Obligations.EncOutputFlushes
  intro s
  rw [exec_encOutput, execEncOutput_eq]
  refine ⟨encCommand_created, fun hr hnil => ?_, fun hr hinsts hlen => ?_, fun hr hinsts hlen => ?_⟩
  · exact encCommand_ready_ok hr (if_pos hnil)
  · exact encCommand_ready_ok hr ((if_neg hinsts).trans (if_neg (Nat.not_lt.mpr hlen)))
  · exact encCommand_ready_raise hr ((if_neg hinsts).trans (if_pos hlen))

/-! ## Commands that write no instruction -/

theorem goodTable_iff {g : CustomTable} : GoodTable g ↔
    cacheSizesOk g.nearSize g.sameSize ∧ g.maxMode = 1 + g.nearSize + g.sameSize ∧
      tabValid (unpackImage g.image) g.maxMode := by
  rw [cacheSizesOk_iff, GoodTable]
  constructor
  · rintro ⟨hnear, hsame, hmode, hmax, hvalid⟩
    exact ⟨⟨hnear, hsame, hmode ▸ hmax⟩, hmode, hvalid⟩
  · rintro ⟨⟨hnear, hsame, hsum⟩, hmode, hvalid⟩
    exact ⟨hnear, hsame, hmode, hmode ▸ hsum, hvalid⟩

theorem encConfigure_none (e : Enc) : encConfigure none e = some { e with
    customTable := false, etab := defTab, maxMode := 8, cache := freshCache 4 3 e.cache.indexFn } := rfl

theorem encConfigure_good {g : CustomTable} (e : Enc) (h : GoodTable g) : encConfigure (some g) e = some { e with
    customTable := true, etab := unpackImage g.image, maxMode := g.maxMode,
    cache := freshCache g.nearSize g.sameSize e.cache.indexFn } :=
  if_pos (goodTable_iff.mp h)

theorem encConfigure_bad {g : CustomTable} (e : Enc) (h : ¬ GoodTable g) : encConfigure (some g) e = none :=
  if_neg fun hgood => h (goodTable_iff.mpr hgood)

/-- Settles O52: without a table, with a good one, and with a bad one. -/
theorem encNewConfigures : Obligations.EncNewConfigures := by
  unfold Obligations.EncNewConfigures
  intro s interleaved custom
  rw [exec_encNew, execEncNew]
  refine ⟨fun hgood => ?_, fun g hg hbad => ?_⟩
  · cases custom with
    | none =>
      rw [encConfigure_none]
      exact ⟨_, rfl, by simp⟩
    | some g =>
      rw [encConfigure_good s.enc (hgood g rfl)]
      exact ⟨_, rfl, by simp⟩
  · rw [hg, encConfigure_bad s.enc hbad]
    rfl

/-- Settles O53: `ENC_INIT` has no check but that of `FAILED`. -/
theorem encInitReadies : Obligations.EncInitReadies := by
  unfold Obligations.EncInitReadies
  intro s size hs
  rw [exec_encInit, execEncInit]
  exact encCommand_ok hs rfl

/-- Settles O57, command by command. -/
theorem encSmallCommands : Obligations.EncSmallCommands := by
  unfold Obligations.EncSmallCommands
  intro s
  simp only [exec_encAddChecksum, execEncAddChecksum, exec_encWriteHeader, execEncWriteHeader, exec_encTargetLength,
    execEncTargetLength, exec_encGetDeltaWindowSize, execEncGetDeltaWindowSize]
  refine ⟨fun c => ⟨encCommand_created, fun hr => ?_⟩, fun hs => ⟨?_, ?_, ?_⟩, encCommand_created, fun hr => ?_⟩
  · exact encCommand_ready_ok hr rfl
  · exact encCommand_ok hs rfl
  · exact encCommand_ok hs rfl
  · exact encCommand_ok hs rfl
  · exact encCommand_ready_ok hr rfl

end Sys2Proof.Machine

/-! PROOFS. The delta instructions (44_delta_instructions.md): the fetch of an opcode (R260), the two halves of its row under any code
table, the opcodes of the default table by their groups (R270 to R277), what every opcode leaves alone, and the end of a window (R269,
R322, R323). -/

namespace Sys2Proof.Machine

open Sys2Proof.Safety

/-! ## An opcode runs its row -/

theorem Run.andThen_ok_right (r : Run) : r.andThen .ok = r := by cases r <;> rfl

/-- An opcode group is the two halves of its row in the table in force (R150, R260). -/
theorem execGroup_eq (op : Byte) (d : Dec) : execGroup op d =
    (execHalf (tableRow (activeTab d) op).first d).andThen (execHalf (tableRow (activeTab d) op).second) := rfl

/-- The two halves of the row, the second from the decoder the first leaves, then the next state (R260). -/
theorem execOpcode_runsRow {s : State} (op : Byte) (hw : WindowOk s.dec) :
    HalfEffect (tableRow (activeTab s.dec) op).first s s.dec (execOpcode op s) (fun d =>
      HalfEffect (tableRow (activeTab s.dec) op).second s d (execOpcode op s) (goesOn s (execOpcode op s))) := by
  rw [execOpcode_answer, execGroup_eq]
  refine halfEffect_of (.refl _) hw _ fun d r hw' hfirst => ?_
  rw [hfirst, ← Run.andThen_ok_right (execHalf _ d)]
  exact halfEffect_of r hw' .ok fun d' _ _ hsecond => hsecond

/-- Settles O30: `execOpcode_runsRow`, since the meaning of an instruction of the stream is its opcode under the table in force. -/
theorem everyOpcodeRunsItsRow : Obligations.EveryOpcodeRunsItsRow := by
  unfold Obligations.EveryOpcodeRunsItsRow
  intro i s op hop hw
  rw [exec_of_opcodeOf hop]
  exact execOpcode_runsRow op hw

/-! ## The opcodes of the default table -/

theorem AddEffect.mono {n : Nat} {s : State} {d : Dec} {o : Host.Outcome State Fault Refusal} {k k' : Dec → Prop}
    (h : AddEffect n s d o k) (hk : ∀ d, k d → k' d) : AddEffect n s d o k' := by
  obtain ⟨hover, hshort, hdone⟩ := h
  exact ⟨hover, hshort, fun ht hn => hk _ (hdone ht hn)⟩

theorem CopyEffect.mono {n mode : Nat} {s : State} {d : Dec} {o : Host.Outcome State Fault Refusal} {k k' : Dec → Prop}
    (h : CopyEffect n mode s d o k) (hk : ∀ d, k d → k' d) : CopyEffect n mode s d o k' := by
  obtain ⟨hover, hcut, herr, hentry, hdone⟩ := h
  refine ⟨hover, hcut, herr, hentry, fun ht addr cur cache ha => ?_⟩
  obtain ⟨out, hout, hgo⟩ := hdone ht addr cur cache ha
  exact ⟨out, hout, hk _ hgo⟩

section DefaultTable

variable {i : Instr} {s : State} {op : Byte} (hop : opcodeOf i = some op) (hw : DefaultWindow s.dec)
include hop hw

/-- Under the default table an opcode runs the halves of its default row. -/
theorem exec_runsDefaultRow {r : Row} (hr : tableRow defTab op = r) :
    HalfEffect r.first s s.dec (exec i s) (fun d => HalfEffect r.second s d (exec i s) (goesOn s (exec i s))) := by
  obtain ⟨hwindow, htab⟩ := hw
  rw [← hr, ← htab]
  exact everyOpcodeRunsItsRow i s op hop hwindow

/-- A row of one instruction goes on after it: its second half is NOOP (R263). -/
theorem exec_runsSingle {k : InstKind} {n m : Nat} (hr : tableRow defTab op = single k n m) :
    HalfEffect (half k n m) s s.dec (exec i s) (goesOn s (exec i s)) := exec_runsDefaultRow hop hw hr

/-- A compound row of ADD and COPY (R275, R276). -/
theorem exec_runsAddCopy {a c m : Nat} (ha : 1 ≤ a) (ha' : a < 256) (hc : 1 ≤ c) (hc' : c < 256) (hm : m < 256)
    (hr : tableRow defTab op = pair .add a 0 .copy c m) :
    AddEffect a s s.dec (exec i s) (fun d => CopyEffect c m s d (exec i s) (goesOn s (exec i s))) :=
  AddEffect.mono (halfEffect_implicit .add ha ha' (Nat.zero_lt_succ _) (exec_runsDefaultRow hop hw hr)) fun _ h =>
    halfEffect_implicit .copy hc hc' hm h

/-- A compound row of COPY and ADD (R277). -/
theorem exec_runsCopyAdd {a c m : Nat} (hc : 1 ≤ c) (hc' : c < 256) (hm : m < 256) (ha : 1 ≤ a) (ha' : a < 256)
    (hr : tableRow defTab op = pair .copy c m .add a 0) :
    CopyEffect c m s s.dec (exec i s) (fun d => AddEffect a s d (exec i s) (goesOn s (exec i s))) :=
  CopyEffect.mono (halfEffect_implicit .copy hc hc' hm (exec_runsDefaultRow hop hw hr)) fun _ h =>
    halfEffect_implicit .add ha ha' (Nat.zero_lt_succ _) h

end DefaultTable

/-- Settles O22, by its row `(RUN, 0, 0)`. -/
theorem runRuns : Obligations.RunRuns := by
  unfold Obligations.RunRuns
  intro i s hop hw
  exact halfEffect_explicit .run (Nat.zero_lt_succ _) (exec_runsSingle hop hw defTab_run)

/-- Settles O23, by its row `(ADD, 0, 0)`. -/
theorem addExplicitAdds : Obligations.AddExplicitAdds := by
  unfold Obligations.AddExplicitAdds
  intro i s hop hw
  exact halfEffect_explicit .add (Nat.zero_lt_succ _) (exec_runsSingle hop hw defTab_addExplicit)

/-- Settles O24, by its row `(ADD, n, 0)`. -/
theorem addSizedAdds : Obligations.AddSizedAdds := by
  unfold Obligations.AddSizedAdds
  intro i s n hn hn' hop hw
  exact halfEffect_implicit .add hn (by omega) (Nat.zero_lt_succ _) (exec_runsSingle hop hw (defTab_add hn hn'))

/-- Settles O25, by its row `(COPY, 0, m)`. -/
theorem copyExplicitCopies : Obligations.CopyExplicitCopies := by
  unfold Obligations.CopyExplicitCopies
  intro i s m hm hop hw
  exact halfEffect_explicit .copy (by omega) (exec_runsSingle hop hw (defTab_copy hm))

/-- Settles O26, by its row `(COPY, n, m)`. -/
theorem copySizedCopies : Obligations.CopySizedCopies := by
  unfold Obligations.CopySizedCopies
  intro i s m n hm hn hn' hop hw
  exact halfEffect_implicit .copy (by omega) (by omega) (by omega) (exec_runsSingle hop hw (defTab_copySized hm hn hn'))

/-- Settles O27: opcode `163 + k` is the row of `defTab_addCopy` for the modes and sizes that `k` counts, sizes fastest. -/
theorem addThenCopy : Obligations.AddThenCopy := by
  unfold Obligations.AddThenCopy
  intro i s k hk hop hw
  have hindex : 163 + 12 * (k / 12) + 3 * (k % 12 / 3 + 1 - 1) + (k % 3 + 4 - 4) = 163 + k := by omega
  have hrow := defTab_addCopy (m := k / 12) (a := k % 12 / 3 + 1) (c := k % 3 + 4) (by omega) (by omega) (by omega) (by omega)
    (by omega)
  rw [hindex] at hrow
  exact exec_runsAddCopy hop hw (by omega) (by omega) (by omega) (by omega) (by omega) hrow

/-- Settles O28: opcode `235 + k` is the row of `defTab_addCopySame` for the mode and size that `k` counts, the size fastest. -/
theorem addThenCopySame : Obligations.AddThenCopySame := by
  unfold Obligations.AddThenCopySame
  intro i s k hk hop hw
  have hindex : 235 + 4 * (6 + k / 4 - 6) + (k % 4 + 1 - 1) = 235 + k := by omega
  have hrow := defTab_addCopySame (m := 6 + k / 4) (a := k % 4 + 1) (by omega) (by omega) (by omega) (by omega)
  rw [hindex] at hrow
  exact exec_runsAddCopy hop hw (by omega) (by omega) (by omega) (by omega) (by omega) hrow

/-- Settles O29, by its row `(COPY, 4, m), (ADD, 1, 0)`. -/
theorem copyThenAdd : Obligations.CopyThenAdd := by
  unfold Obligations.CopyThenAdd
  intro i s m hm hop hw
  exact exec_runsCopyAdd hop hw (by omega) (by omega) (by omega) (by omega) (by omega) (defTab_copyAdd hm)

/-! ## What every opcode leaves alone -/

/-- An opcode that answers a next state has replayed to some decoder: it goes on with it, a good window, or raises from it. -/
theorem execOpcode_cases {op : Byte} {s t : State} (hw : WindowOk s.dec) (h : execOpcode op s = .next t) :
    ∃ d, Replayed s.dec d ∧ (t = { s with dec := d } ∧ WindowOk d ∨
      ∃ c, t = { s with dec := decRaise c d, result := some (errOf c) }) := by
  have hr := execGroup_replayed op s.dec
  rw [execOpcode_answer] at h
  cases hg : execGroup op s.dec with
  | ok d =>
    rw [hg] at h hr
    cases h
    exact ⟨d, hr, .inl ⟨rfl, execRow_windowOk hw hg⟩⟩
  | raise c d =>
    rw [hg] at h hr
    cases h
    exact ⟨d, hr, .inr ⟨c, rfl⟩⟩
  | fault f =>
    rw [hg] at h
    cases h

/-- In a good window that the replay has reached, the cursors are in the sections they started in. -/
theorem Replayed.cursors_le {d d' : Dec} (r : Replayed d d') (hw : WindowOk d') :
    (activeWin d').ip ≤ (activeWin d).instLen ∧ (activeWin d').dp ≤ (activeWin d).dataLen ∧
    (activeWin d').ap ≤ (activeWin d).addrLen := by
  obtain ⟨-, -, -, hip, hdp, hap, -⟩ := hw
  have hinst : (activeWin d').instLen = (activeWin d).instLen := by rw [r.win]
  have hdata : (activeWin d').dataLen = (activeWin d).dataLen := by rw [r.win]
  have haddr : (activeWin d').addrLen = (activeWin d).addrLen := by rw [r.win]
  exact ⟨hinst ▸ hip, hdata ▸ hdp, haddr ▸ hap⟩

/-- Settles O31: what `Replayed` keeps, whether the opcode goes on or raises from there. -/
theorem opcodeFrame : Obligations.OpcodeFrame := by
  unfold Obligations.OpcodeFrame
  intro i s t op hop hw he
  rw [exec_of_opcodeOf hop] at he
  obtain ⟨d, r, hcases⟩ := execOpcode_cases hw he
  obtain ⟨hvcd, hfile, hwin, hsec⟩ := r.caps
  obtain ⟨hpending, hsink, hstate, hlayout, hsum, htab, hmode, hdict, hsize, -, hreplaying, hkind, hcause⟩ := r.frame
  obtain ⟨hdtarget, htotal, -⟩ := r.outer
  rcases hcases with ⟨rfl, hw'⟩ | ⟨c, rfl⟩
  · obtain ⟨hip, hdp, hap⟩ := r.cursors_le hw'
    obtain ⟨more, hmore⟩ := r.tw
    have htw : ∀ a, a < (activeCtx s.dec).tw.length → (activeCtx d).tw[a]? = (activeCtx s.dec).tw[a]? := fun a ha => by
      rw [← hmore, List.getElem?_append_left ha]
    exact ⟨rfl, rfl, hvcd, hfile, hwin, hsec, hmode, htab, hdict, hsize, hsink, hdtarget, htotal, hsum, hlayout,
      .inr ⟨rfl, hpending, hstate, hkind, hcause, hreplaying, r.nested_isSome, r.ip_le, hip, r.dp_le, hdp, r.ap_le, hap, htw,
        r.win⟩⟩
  · exact ⟨rfl, rfl, hvcd, hfile, hwin, hsec, hmode, htab, hdict, hsize, hsink, hdtarget, htotal, hsum, hlayout,
      .inl ⟨rfl, causeKind_ne_zero c⟩⟩

/-! ## The end of a window -/

section EndTests

variable {d : Dec}

theorem closeWindow_of_length (htw : (activeCtx d).tw.length ≠ (activeWin d).targetLen) :
    closeWindow d = .raise .targetLengthMismatch d := by
  rw [closeWindow, terminate, if_pos htw, Run.andThen]

theorem closeWindow_of_leftOver (htw : (activeCtx d).tw.length = (activeWin d).targetLen)
    (hleft : (activeWin d).dp ≠ (activeWin d).dataLen ∨ (activeWin d).ap ≠ (activeWin d).addrLen) :
    closeWindow d = .raise .sectionNotConsumed d := by
  rw [closeWindow, terminate, if_neg (Decidable.not_not.mpr htw), if_pos hleft, Run.andThen]

theorem closeWindow_of_checksum (htw : (activeCtx d).tw.length = (activeWin d).targetLen)
    (hdp : (activeWin d).dp = (activeWin d).dataLen) (hap : (activeWin d).ap = (activeWin d).addrLen)
    (hsum : d.hasChecksum = true) (hne : adler32 (activeCtx d).tw ≠ (activeWin d).checksum) :
    closeWindow d = .raise .checksumMismatch d := by
  rw [closeWindow, terminate, if_neg (Decidable.not_not.mpr htw), if_neg (by simp [hdp, hap]), Run.andThen, checkChecksum,
    if_pos ⟨hsum, hne⟩]

end EndTests

/-- The outer context after the commit of a window (R323): `DTARGET` and its total have grown by `TW`, the working registers and
the cache are free values. -/
def committedOuter (d : Dec) : Ctx :=
  { d.ctx with
    dtarget := d.ctx.dtarget ++ d.ctx.tw, totalTargetLen := d.ctx.totalTargetLen + d.ctx.tw.length,
    win := Config.freeWindow d.freeCount, cache := freedCache d.freeCount d.ctx.cache }

theorem windowDone_of_none {d : Dec} (hn : d.nested = none) :
    windowDone d = .done { d with state := .expectWinIndicator } := by
  rw [windowDone, hn]

/-- After the commit of an outer window a window header is expected, behind the window in `PENDING` (R302, R323). -/
theorem windowDone_outer {d : Dec} (hn : d.nested = none) : windowDone (commit d) = .done { d with
    ctx := committedOuter d, sink := d.sink ++ d.ctx.tw, pending := d.pending.drop (windowLen d), replaying := false,
    freeCount := d.freeCount + 1, state := .expectWinIndicator } := by
  rw [commit_of_none hn]
  exact windowDone_of_none hn

/-- Settles O33: each test that fails, in order; and where all pass, the commit and the rest of `PENDING` as a chunk. -/
theorem windowEnd : Obligations.WindowEnd := by
  unfold Obligations.WindowEnd
  intro s hinv hr hip w tw
  have hi : (activeWin s.dec).instLen ≤ (activeWin s.dec).ip := Nat.le_of_eq hip.symm
  refine ⟨fun htw => ?_, fun htw hleft => ?_, fun htw hdp hap => ⟨fun hsum hne => ?_, fun hn hck => ?_⟩⟩
  · exact step_of_closeWindow_raise hr hi (closeWindow_of_length htw)
  · exact step_of_closeWindow_raise hr hi (closeWindow_of_leftOver htw hleft)
  · exact step_of_closeWindow_raise hr hi (closeWindow_of_checksum htw hdp hap hsum hne)
  · have hctx : s.dec.ctx.tw = tw := congrArg Ctx.tw (activeCtx_of_none s.dec hn).symm
    have hclose := (closeWindow_of_passed htw hdp hap hck).trans (windowDone_outer hn)
    rw [← hctx]
    exact ⟨committedOuter s.dec, rfl, rfl, rfl, rfl, rfl, rfl, s.dec.freeCount + 1,
      step_of_closeWindow_done hr hi (.inr (.inr (.inl rfl))) hclose⟩

/-! ## The fetch of an opcode -/

theorem fetchOpcode_of_getElem? {d : Dec} {op : Byte} (hi : (activeWin d).ip < (activeWin d).instLen)
    (hop : (instSec d)[(activeWin d).ip]? = some op) : fetchOpcode d = some op := by
  have hread : byteRead (instSec d) (activeWin d).ip (activeWin d).instLen = .value op.toNat ((activeWin d).ip + 1) := by
    rw [byteRead, if_neg (Nat.not_le.mpr hi), hop]
  rw [fetchOpcode, hread]
  simp

/-- Settles O9: the fetch finds `op`, and all it changes is `ip`. -/
theorem stepRunsOpcode : Obligations.StepRunsOpcode := by
  unfold Obligations.StepRunsOpcode
  intro s op hr hi hop
  rw [step_opcode hr hi (fetchOpcode_of_getElem? hi hop), setIp_eq, exec_decodeOpcode]

end Sys2Proof.Machine

/-! PROOFS. The window decoder (45_window_decoder.md): the decoder's commands, and the laws of a whole session, cut into chunks, cut
short, or written by the encoder. -/

namespace Sys2Proof.Machine

open Sys2Proof.Safety

/-! ## The decoder's commands -/

/-- Settles O41: every register is a field of `decNewSession`. -/
theorem decStartBeginsSession : Obligations.DecStartBeginsSession := by
  unfold Obligations.DecStartBeginsSession
  intro s dictionary
  refine ⟨_, exec_decStart dictionary s, ?_⟩
  repeat refine ⟨rfl, ?_⟩
  rfl

/-- Settles O45, setter by setter. -/
theorem settersWriteOneRegister : Obligations.SettersWriteOneRegister := by
  unfold Obligations.SettersWriteOneRegister
  intro s
  exact ⟨fun _ => rfl, fun _ => rfl, fun _ => rfl, fun _ => rfl⟩

theorem restOk_of_decInv {d : Dec} (h : DecInv d) (hr : d.replaying = false) : RestOk d := by
  obtain ⟨-, -, -, -, -, -, -, -, hrest, -⟩ := h
  exact hrest hr

/-- Between windows nothing is pending (R302). -/
theorem pending_of_between {d : Dec} (h : DecInv d) (hr : d.replaying = false) (hst : d.state = .expectWinIndicator) :
    d.pending = [] := by
  have hrest := restOk_of_decInv h hr
  unfold RestOk at hrest
  rwa [hst] at hrest

/-- Settles O43: `finish_live`, since nothing is pending between windows. -/
theorem decFinishEnds : Obligations.DecFinishEnds := by
  unfold Obligations.DecFinishEnds
  intro s hinv hr hsession
  rcases finish_live hsession with ⟨hst, -, hfinish⟩ | ⟨hnot, hfinish⟩
  · exact ⟨fun _ => hfinish, fun hne => absurd hst hne⟩
  · refine ⟨fun hst => absurd ⟨hst, pending_of_between hinv.1 hr hst⟩ hnot, fun _ => ?_⟩
    rw [hfinish]
    exact failsWith_of_raise rfl rfl rfl rfl rfl rfl rfl rfl rfl

/-- The states a decoder at rest in a session can be in, and what is pending there (R302). -/
theorem rest_cases {d : Dec} (h : DecInv d) (hr : d.replaying = false) (hl : Live d.state) :
    d.state = .expectHeader ∧ d.pending.length < 5 ∨ d.state = .customTable ∨
      d.state = .expectWinIndicator ∧ d.pending = [] ∨ d.state = .inWindow ∧ d.pending ≠ [] := by
  have hrest := restOk_of_decInv h hr
  unfold RestOk at hrest
  rcases hl with hst | hst | hst | hst <;> rw [hst] at hrest
  · exact .inl ⟨hst, hrest⟩
  · exact .inr (.inl hst)
  · exact .inr (.inr (.inl ⟨hst, hrest⟩))
  · exact .inr (.inr (.inr ⟨hst, hrest⟩))

/-- Settles O42: the driver ends at rest or raises, `drive_sound`, and `drive_delivers` says what either way is delivered and kept. -/
theorem decChunkEnds : Obligations.DecChunkEnds := by
  unfold Obligations.DecChunkEnds
  intro s chunk hinv hr hsession
  have hlive := liveOk_addPending chunk (liveOk_of_decInv hinv.1 hsession)
  have hsound := drive_sound hlive hr
  have hdelivers := drive_delivers hlive hr
  rw [chunk_self hsession]
  cases hdrive : drive (addPending chunk s.dec) with
  | ok d =>
    rw [hdrive] at hsound hdelivers
    obtain ⟨hgood, hrest, hl⟩ := hsound
    obtain ⟨hout, ⟨hdict, hsize⟩, hvcd, hfile, hwindow, hsection⟩ := hdelivers
    exact ⟨_, rfl, .inl ⟨rfl, rest_cases hgood hrest hl⟩, hout, hrest, hdict, hsize, hvcd, hfile, hwindow, hsection, rfl, rfl⟩
  | raise c d =>
    rw [hdrive] at hdelivers
    obtain ⟨hout, ⟨hdict, hsize⟩, hvcd, hfile, hwindow, hsection⟩ := hdelivers
    exact ⟨_, rfl, .inr ⟨rfl, causeKind_ne_zero c, rfl⟩, hout, rfl, hdict, hsize, hvcd, hfile, hwindow, hsection, rfl, rfl⟩
  | fault f =>
    rw [hdrive] at hsound
    exact hsound.elim

/-! ## Chunks of a session -/

theorem runInstrs_congr {i j : Instr} {l : List Instr} {s t : State} (h : exec i s = exec j t) :
    runInstrs (i :: l) s = runInstrs (j :: l) t := by
  rw [runInstrs, runInstrs, h]

/-- The machine after `DEC_START` (R300). -/
def sessionStart (dictionary : Bytes) (s : State) : State :=
  { s with dec := decNewSession dictionary s.dec, result := some .ok }

theorem runInstrs_decStart (dictionary : Bytes) (l : List Instr) (s : State) :
    runInstrs (.decStart dictionary :: l) s = runInstrs l (sessionStart dictionary s) := runInstrs_next (exec_decStart dictionary s)

/-- A chunk of no bytes changes nothing in a new session: the file header still wants its five bytes (R302, R308). -/
theorem sessionStart_chunk_nil (dictionary : Bytes) (s : State) :
    exec (.decChunk []) (sessionStart dictionary s) = .next (sessionStart dictionary s) := rfl

/-- A chunk and then others are one chunk, whatever follows them: by induction on the others, from `chunk_chunk`. -/
theorem runInstrs_chunks {s : State} (hs : Live s.dec.state → LiveOk s.dec ∧ s.dec.replaying = false) (first : Bytes)
    (chunks : List Bytes) (l : List Instr) :
    runInstrs (.decChunk first :: (chunks.map .decChunk ++ l)) s = runInstrs (.decChunk (first ++ chunks.flatten) :: l) s := by
  induction chunks generalizing first with
  | nil => simp
  | cons c chunks ih =>
    obtain ⟨t, hfirst, hsecond⟩ := chunk_chunk first c hs
    calc runInstrs (.decChunk first :: ((c :: chunks).map .decChunk ++ l)) s
        = runInstrs (.decChunk c :: (chunks.map .decChunk ++ l)) t := runInstrs_next hfirst
      _ = runInstrs (.decChunk (first ++ c) :: (chunks.map .decChunk ++ l)) s := runInstrs_congr hsecond
      _ = runInstrs (.decChunk (first ++ (c :: chunks).flatten) :: l) s := by rw [ih, List.flatten_cons, List.append_assoc]

/-- Settles O50: after `DEC_START` a chunk of no bytes can be put in front, and then all chunks are one. -/
theorem chunkingLaw : Obligations.ChunkingLaw := by
  unfold Obligations.ChunkingLaw
  intro s dictionary chunks hdict
  have hlive : LiveOk (sessionStart dictionary s).dec ∧ (sessionStart dictionary s).dec.replaying = false :=
    ⟨newSession_live dictionary s.dec hdict, rfl⟩
  calc runInstrs (session dictionary chunks) s
      = runInstrs (.decChunk [] :: (chunks.map .decChunk ++ [.decFinish])) (sessionStart dictionary s) := by
        rw [session, runInstrs_decStart, runInstrs_next (sessionStart_chunk_nil dictionary s)]
    _ = runInstrs [.decChunk chunks.flatten, .decFinish] (sessionStart dictionary s) := runInstrs_chunks (fun _ => hlive) [] chunks _
    _ = runInstrs (session dictionary [chunks.flatten]) s := (runInstrs_decStart dictionary _ s).symm

/-! ## A file cut short -/

theorem chunk_poisoned {u : State} (b : Bytes) (h : u.dec.state = .poisoned) :
    exec (.decChunk b) u = .next { u with result := some (storedError u.dec) } := by
  rw [exec_decChunk, execDecChunk, h]

/-- A poisoned session does not end well (R386). -/
theorem poisoned_finish_not_ok {u t : State} (h : u.dec.state = .poisoned) (hrun : runInstrs [.decFinish] u = .next t) :
    t.result ≠ some .ok := by
  rw [runInstrs_next (finish_poisoned h)] at hrun
  cases hrun
  exact fun he => nomatch he

/-- Whatever else is fed. -/
theorem poisoned_not_ok {u t : State} {b : Bytes} (h : u.dec.state = .poisoned)
    (hrun : runInstrs [.decChunk b, .decFinish] u = .next t) : t.result ≠ some .ok := by
  rw [runInstrs_next (chunk_poisoned b h)] at hrun
  exact poisoned_finish_not_ok (u := { u with result := some (storedError u.dec) }) h hrun

/-- One byte after the end of a window is not another window, so with it the session does not end well (R303, R320). -/
theorem one_byte_not_ok {u t : State} {x : Byte} (hst : u.dec.state = .expectWinIndicator) (hpend : u.dec.pending = [])
    (hrun : runInstrs [.decChunk [x], .decFinish] u = .next t) : t.result ≠ some .ok := by
  have hpx : (addPending [x] u.dec).pending = [x] := by rw [addPending_pending, hpend, List.nil_append]
  obtain ⟨hitem, hrest⟩ := driveItem_atWindow (d := addPending [x] u.dec) (.inl hst) (by simp)
  have hlive : Live u.dec.state := .inr (.inr (.inl hst))
  rcases decodeWindow_one hpx with hmore | ⟨c, d', hraise⟩
  · rw [runInstrs_next (chunk_more hlive hrest (hitem.trans hmore))] at hrun
    have hwait : (wantMore (addPending [x] u.dec)).state = .inWindow := by
      rw [wantMore, addPending_state, hst]
    rcases finish_live (u := { u with result := some .ok, dec := wantMore (addPending [x] u.dec) }) (.inr (.inr (.inr hwait)))
      with ⟨hend, -⟩ | ⟨-, hfinish⟩
    · exact absurd (hwait.symm.trans hend) (by decide)
    · rw [runInstrs_next hfinish] at hrun
      cases hrun
      exact fun he => nomatch he
  · have hchunk : exec (.decChunk [x]) u = endCommand u (.raise c d') := by
      rw [chunk_self hlive, drive_item hrest, hitem, hraise]
    rw [runInstrs_next hchunk] at hrun
    exact poisoned_finish_not_ok rfl hrun

section Truncation

variable {s t : State} {dictionary file front rest : Bytes} (hdict : dictionary.length ≤ 4294967295)
  (hrun : runInstrs (session dictionary [file]) s = .next t) (hok : t.result = some .ok)
include hdict hrun hok

/-- A front part of a file that decodes is taken with `OK`, and the rest of the file then leads to the same end (R326, R327). -/
theorem front_taken (hfile : file = front ++ rest) :
    ∃ d, exec (.decChunk front) (sessionStart dictionary s) = .next { s with dec := d, result := some .ok } ∧ DecInv d ∧
      d.replaying = false ∧ Live d.state ∧
      runInstrs [.decChunk rest, .decFinish] { s with dec := d, result := some .ok } = .next t := by
  have hlive := newSession_live dictionary s.dec hdict
  obtain ⟨u, hfront, hrest⟩ := chunk_chunk (s := sessionStart dictionary s) front rest fun _ => ⟨hlive, rfl⟩
  have hafter : runInstrs [.decChunk rest, .decFinish] u = .next t := by
    rw [runInstrs_congr hrest, ← hfile, ← runInstrs_decStart]
    exact hrun
  rcases chunk_ends (s := sessionStart dictionary s) front hlive rfl with ⟨d, hends, hinv, hr, hl⟩ | ⟨c, d, hends⟩
  · cases hfront.symm.trans hends
    exact ⟨d, hends, hinv, hr, hl, hafter⟩
  · cases hfront.symm.trans hends
    exact absurd hok (poisoned_not_ok rfl hafter)

/-- `DEC_FINISH` after a front part (R303, R327). -/
theorem front_finished (hfile : file = front ++ rest) :
    ∃ u v : State, runInstrs [.decStart dictionary, .decChunk front] s = .next u ∧ u.result = some .ok ∧
      exec .decFinish u = .next v ∧
      (u.dec.state = .expectWinIndicator → v.result = some .ok ∧ v.dec.state = .finished) ∧
      (u.dec.state ≠ .expectWinIndicator → v.result = some (.err 1 0x11) ∧ v.dec.state = .poisoned) := by
  obtain ⟨d, hfront, hinv, hr, hl, -⟩ := front_taken hdict hrun hok hfile
  have htaken : runInstrs [.decStart dictionary, .decChunk front] s = .next { s with dec := d, result := some .ok } := by
    rw [runInstrs_decStart, runInstrs_next hfront, runInstrs]
  rcases finish_live (u := { s with dec := d, result := some .ok }) hl with ⟨hst, -, hfinish⟩ | ⟨hnot, hfinish⟩
  · exact ⟨_, _, htaken, rfl, hfinish, fun _ => ⟨rfl, rfl⟩, fun hne => absurd hst hne⟩
  · exact ⟨_, _, htaken, rfl, hfinish, fun hst => absurd ⟨hst, pending_of_between hinv hr hst⟩ hnot, fun _ => ⟨rfl, rfl⟩⟩

/-- Without its last byte a file does not end between windows (R327). -/
theorem last_byte_missing {last : Byte} (hfile : file = front ++ [last]) :
    ∃ v : State, runInstrs (session dictionary [front]) s = .next v ∧ v.result = some (.err 1 0x11) := by
  obtain ⟨d, hfront, -, -, hl, hafter⟩ := front_taken hdict hrun hok hfile
  have hsession : runInstrs (session dictionary [front]) s = runInstrs [.decFinish] { s with dec := d, result := some .ok } :=
    (runInstrs_decStart dictionary _ s).trans (runInstrs_next hfront)
  rcases finish_live (u := { s with dec := d, result := some .ok }) hl with ⟨hst, hpend, -⟩ | ⟨-, hfinish⟩
  · exact absurd hok (one_byte_not_ok hst hpend hafter)
  · exact ⟨_, hsession.trans (runInstrs_next hfinish), rfl⟩

end Truncation

/-- Settles O51: any front part is taken, and how `DEC_FINISH` answers is a matter of where the decoder then stands. -/
theorem truncationLaw : Obligations.TruncationLaw := by
  unfold Obligations.TruncationLaw
  intro s t dictionary file hdict hrun hok
  exact ⟨fun _ _ => front_finished hdict hrun hok, fun _ _ => last_byte_missing hdict hrun hok⟩

/-! ## The round trip -/

/-- `ENC_WRITE_HEADER` and `ENC_INIT` with the default code table: the header is written, and an empty window is open (R221, R230). -/
theorem window_opened {dictionary : Bytes} {ext : Bool} {s u : State} (hdict : dictionary.length ≤ 4294967295) (henc : EncInv s.enc)
    (htab : s.enc.customTable = false)
    (h : RunsOk [.encWriteHeader ext, .encInit (BitVec.ofNat 32 dictionary.length)] s u) :
    Window dictionary (freshCache 4 3 s.enc.cache.indexFn) u.enc [] ∧ u.enc.hasChecksum = false ∧
      u.enc.cache.indexFn = s.enc.cache.indexFn ∧ u.enc.sink = s.enc.sink ++ headerBytes ext := by
  obtain ⟨v, hwrite, hwriteOk, x, hinit, hinitOk, hend⟩ := h
  cases (show x = u from hend)
  rw [exec_encWriteHeader] at hwrite
  rw [exec_encInit] at hinit
  obtain ⟨-, e, hbody, rfl⟩ := encCommand_answer_ok hwrite hwriteOk
  cases hbody
  obtain ⟨-, e, hbody, rfl⟩ := encCommand_answer_ok hinit hinitOk
  cases hbody
  obtain ⟨-, -, hdefault, -⟩ := henc
  obtain ⟨hetab, hnear, hsame⟩ := hdefault htab
  have hcache : acInit s.enc.cache = freshCache 4 3 s.enc.cache.indexFn := by rw [acInit, hnear, hsame]
  have hsize : (BitVec.ofNat 32 dictionary.length).toNat = dictionary.length := by
    rw [BitVec.toNat_ofNat]
    exact Nat.mod_eq_of_lt (by omega)
  exact ⟨window_cleared rfl rfl rfl rfl hcache rfl hetab hsize rfl, rfl, rfl, rfl⟩

/-- A session that has consumed the header of a file written with the default code table stands between windows (R309). -/
theorem between_of_header {dictionary : Bytes} (hdict : dictionary.length ≤ 4294967295) (d : Dec) (bytes : Bytes) :
    Between dictionary d.ctx.cache.indexFn { decNewSession dictionary d with pending := bytes, state := .expectWinIndicator } where
  live :=
    have h := newSession_live dictionary d hdict
    ⟨⟨h.base.dictSize, h.base.dictLe, h.base.total, h.base.totalLt, h.base.sink⟩, nestedOk_of_none rfl (by simp), h.table, h.noError,
      .inr (.inr (.inl rfl))⟩
  replaying := rfl
  nested := rfl
  state := rfl
  tab := rfl
  near := rfl
  same := rfl
  indexFn := rfl
  dict := rfl

/-- The driver on a written file consumes the header and goes on with the windows (R302, R309). -/
theorem drive_written {dictionary : Bytes} (hdict : dictionary.length ≤ 4294967295) (ext : Bool) (d : Dec) (bytes : Bytes) :
    drive (addPending (headerBytes ext ++ bytes) (decNewSession dictionary d)) =
      drive { decNewSession dictionary d with pending := bytes, state := .expectWinIndicator } :=
  drive_done (liveOk_addPending _ (newSession_live dictionary d hdict)) rfl rfl (outerHeader_written rfl)

/-- Settles O60: the encoder opens a window, `decode_windows` reads back what it writes, and the decoder gets there behind the file
header. -/
theorem roundTrip : Obligations.RoundTrip := by
  unfold Obligations.RoundTrip
  intro s t d dictionary ext plans hdict henc htab hfn ⟨u, hopen, hwrites⟩ hcap
  obtain ⟨hwindow, hck, hufn, husink⟩ := window_opened hdict henc htab hopen
  obtain ⟨bytes, htsink, hdecode⟩ := decode_windows hwindow hck hufn hwrites
  have hbetween := between_of_header hdict d.dec bytes
  rw [hfn] at hbetween
  obtain ⟨d', hdrive, hst, hpend, hsink, hdtarget⟩ := hdecode _ hbetween rfl rfl rfl rfl
    (by simpa [decNewSession] using hcap)
  have hchunk : exec (.decChunk (headerBytes ext ++ bytes)) (sessionStart dictionary d)
      = endCommand (sessionStart dictionary d) (.ok d') := by
    rw [chunk_self (.inl rfl), ← hdrive]
    exact congrArg _ (drive_written hdict ext d.dec bytes)
  have hsession : runInstrs (session dictionary [headerBytes ext ++ bytes]) d
      = runInstrs [.decFinish] { d with dec := d', result := some .ok } :=
    (runInstrs_decStart dictionary _ d).trans (runInstrs_next hchunk)
  rcases finish_live (u := { d with dec := d', result := some .ok }) (.inr (.inr (.inl hst))) with ⟨-, -, hfinish⟩ | ⟨hnot, -⟩
  · exact ⟨_, _, by rw [htsink, husink, List.append_assoc], hsession.trans (runInstrs_next hfinish), rfl, rfl, hsink,
      by simpa [decNewSession] using hdtarget⟩
  · exact absurd ⟨hst, hpend⟩ hnot

end Sys2Proof.Machine

/-! PROOFS. The file headers of the window decoder (45_window_decoder.md R308 to R310), outer and inner. -/

namespace Sys2Proof.Machine

open Sys2Proof.Safety

/-! ## The five bytes -/

theorem parseFileHeader_short {d : Dec} (h : d.pending.length < 5) : parseFileHeader d = .more := by
  unfold parseFileHeader
  split
  · rename_i hp
    simp only [hp, List.length_cons] at h
    omega
  · rfl

section FiveBytes

variable {d : Dec} {h0 h1 h2 h3 h4 : Byte} {rest : Bytes} (hp : d.pending = h0 :: h1 :: h2 :: h3 :: h4 :: rest)
include hp

theorem parseFileHeader_of_cons : parseFileHeader d =
    if h0 ≠ 0xD6 ∨ h1 ≠ 0xC3 ∨ h2 ≠ 0xC4 then .raise .badMagic d
    else if h3 ≠ 0x00 ∧ h3 ≠ 0x53 then .raise .badVersionByte d
    else if h4 &&& 0xFC ≠ 0 then .raise .hdrIndicatorReserved d
    else if h4 &&& 0x01 ≠ 0 then .raise .secondaryCompressor d
    else .ok { d with pending := rest } h4.toNat := by
  rw [parseFileHeader, hp]

theorem parseFileHeader_badMagic (h : h0 ≠ 0xD6 ∨ h1 ≠ 0xC3 ∨ h2 ≠ 0xC4) : parseFileHeader d = .raise .badMagic d :=
  (parseFileHeader_of_cons hp).trans (if_pos h)

variable (hmagic : h0 = 0xD6 ∧ h1 = 0xC3 ∧ h2 = 0xC4)
include hmagic

theorem parseFileHeader_badVersion (h : h3 ≠ 0x00) (h' : h3 ≠ 0x53) : parseFileHeader d = .raise .badVersionByte d := by
  rw [parseFileHeader_of_cons hp, if_neg (by simp [hmagic]), if_pos ⟨h, h'⟩]

variable (hversion : h3 = 0x00 ∨ h3 = 0x53)
include hversion

/-- Behind a good magic and version the Hdr_Indicator decides (R309). -/
theorem parseFileHeader_indicator : parseFileHeader d =
    if h4 &&& 0xFC ≠ 0 then .raise .hdrIndicatorReserved d
    else if h4 &&& 0x01 ≠ 0 then .raise .secondaryCompressor d
    else .ok { d with pending := rest } h4.toNat := by
  rw [parseFileHeader_of_cons hp, if_neg (by simp [hmagic]), if_neg fun h => hversion.elim h.1 h.2]

theorem parseFileHeader_reserved (h : h4 &&& 0xFC ≠ 0) : parseFileHeader d = .raise .hdrIndicatorReserved d :=
  (parseFileHeader_indicator hp hmagic hversion).trans (if_pos h)

theorem parseFileHeader_secondary (h : h4 = 0x01 ∨ h4 = 0x03) : parseFileHeader d = .raise .secondaryCompressor d := by
  rw [parseFileHeader_indicator hp hmagic hversion]
  rcases h with rfl | rfl <;> rfl

theorem parseFileHeader_accepted (h : h4 = 0x00 ∨ h4 = 0x02) :
    parseFileHeader d = .ok { d with pending := rest } h4.toNat := by
  rw [parseFileHeader_indicator hp hmagic hversion]
  rcases h with rfl | rfl <;> rfl

omit hmagic hversion in
/-- The checks on the five bytes in order (R308, R309), for a procedure that fails with `P` where the parse raises, and of which `Q`
holds where the parse accepts. -/
theorem fileHeader_checks {P : Cause → Prop} {Q : Prop} (hraise : ∀ {c : Cause}, parseFileHeader d = .raise c d → P c)
    (haccept : (h4 = 0x00 ∨ h4 = 0x02 → parseFileHeader d = .ok { d with pending := rest } h4.toNat) → Q) :
    (h0 ≠ 0xD6 ∨ h1 ≠ 0xC3 ∨ h2 ≠ 0xC4 → P .badMagic) ∧
      (h0 = 0xD6 → h1 = 0xC3 → h2 = 0xC4 →
        (h3 ≠ 0x00 → h3 ≠ 0x53 → P .badVersionByte) ∧
        (h3 = 0x00 ∨ h3 = 0x53 →
          (h4 &&& 0xFC ≠ 0 → P .hdrIndicatorReserved) ∧ (h4 = 0x01 ∨ h4 = 0x03 → P .secondaryCompressor) ∧ Q)) := by
  refine ⟨fun h => hraise (parseFileHeader_badMagic hp h), fun e0 e1 e2 => ?_⟩
  have hmagic := And.intro e0 (And.intro e1 e2)
  refine ⟨fun h h' => hraise (parseFileHeader_badVersion hp hmagic h h'), fun hversion => ⟨fun h => ?_, fun h => ?_, ?_⟩⟩
  · exact hraise (parseFileHeader_reserved hp hmagic hversion h)
  · exact hraise (parseFileHeader_secondary hp hmagic hversion h)
  · exact haccept (parseFileHeader_accepted hp hmagic hversion)

end FiveBytes

/-! ## The outer header -/

theorem outerHeader_of_more {d : Dec} (h : parseFileHeader d = .more) : outerHeader d = .more := by rw [outerHeader, h]

theorem outerHeader_of_raise {d : Dec} {c : Cause} (h : parseFileHeader d = .raise c d) : outerHeader d = .raise c d := by
  rw [outerHeader, h]

/-- In `EXPECT_HEADER` the driver reads the file header, whatever is in `PENDING`. -/
theorem driveItem_header {d : Dec} (hst : d.state = .expectHeader) :
    driveItem d = outerHeader d ∧ atRest d = false ∧ wantMore d = d := by
  simp only [driveItem, atRest, wantMore, hst, and_self]

/-- Settles O38: the chunk ends, or goes on, as the parse of the five bytes does. -/
theorem fileHeader : Obligations.FileHeader := by
  unfold Obligations.FileHeader
  intro s chunk hinv hr hst
  have hlive : Live s.dec.state := .inl hst
  obtain ⟨hitem, hrest, hwait⟩ := driveItem_header (d := addPending chunk s.dec) hst
  have hraise : ∀ {c : Cause}, parseFileHeader (addPending chunk s.dec) = .raise c (addPending chunk s.dec) →
      FailsWith c s (exec (.decChunk chunk) s) :=
    fun h => chunk_raise hlive hrest (hitem.trans (outerHeader_of_raise h)) (.inl rfl)
  refine ⟨fun hshort => ?_, fun h0 h1 h2 h3 h4 rest hp => fileHeader_checks hp hraise fun haccept => ⟨?_, ?_⟩⟩
  · have hmore := outerHeader_of_more (parseFileHeader_short (d := addPending chunk s.dec) hshort)
    rw [chunk_more hlive hrest (hitem.trans hmore), hwait]
    rfl
  · rintro rfl
    refine chunk_done hinv hr hlive hrest (hitem.trans ?_)
    rw [outerHeader, haccept (.inl rfl)]
    rfl
  · rintro rfl
    refine ⟨freshNested s.dec, s.dec.freeCount + 1, rfl, rfl, rfl, rfl, rfl, chunk_done hinv hr hlive hrest (hitem.trans ?_)⟩
    rw [outerHeader, haccept (.inr rfl)]
    rfl

/-! ## The inner header -/

theorem innerHeaderStep_of_more {n : Nested} {d : Dec} (h : parseFileHeader d = .more) : innerHeaderStep n d = .more := by
  rw [innerHeaderStep, h]

theorem innerHeaderStep_of_raise {n : Nested} {d : Dec} {c : Cause} (h : parseFileHeader d = .raise c d) :
    innerHeaderStep n d = .raise c d := by
  rw [innerHeaderStep, h]

/-- In phase `INNER_HEADER` the driver reads a file header, whatever is in `PENDING`. -/
theorem driveItem_innerHeader {d : Dec} {n : Nested} (hst : d.state = .customTable) (hn : d.nested = some n)
    (hph : n.phase = .innerHeader) : driveItem d = innerHeaderStep n d ∧ atRest d = false ∧ wantMore d = d := by
  simp only [driveItem, customTableStep, atRest, wantMore, hst, hn, hph, and_self]

/-- Settles O40: as for an outer header, but that the parse of the five bytes may accept the custom-table bit, which is then refused. -/
theorem innerFileHeader : Obligations.InnerFileHeader := by
  unfold Obligations.InnerFileHeader
  intro s n chunk hinv hr hn hph
  have hst := nested_state hinv hn
  have hlive : Live s.dec.state := .inr (.inl hst)
  obtain ⟨hitem, hrest, hwait⟩ := driveItem_innerHeader (d := addPending chunk s.dec) hst hn hph
  have hraise : ∀ {c : Cause}, parseFileHeader (addPending chunk s.dec) = .raise c (addPending chunk s.dec) →
      FailsWith c s (exec (.decChunk chunk) s) :=
    fun h => chunk_raise hlive hrest (hitem.trans (innerHeaderStep_of_raise h)) (.inl rfl)
  refine ⟨fun hshort => ?_, fun h0 h1 h2 h3 h4 rest hp => fileHeader_checks hp hraise fun haccept => ⟨?_, ?_⟩⟩
  · have hmore := innerHeaderStep_of_more (n := n) (parseFileHeader_short (d := addPending chunk s.dec) hshort)
    rw [chunk_more hlive hrest (hitem.trans hmore), hwait]
    rfl
  · rintro rfl
    refine chunk_raise hlive hrest (c := .customTableTooDeep) (hitem.trans ?_) (.inr ⟨rest, rfl⟩)
    rw [innerHeaderStep, haccept (.inr rfl)]
    rfl
  · rintro rfl
    refine chunk_done hinv hr hlive hrest (hitem.trans ?_)
    rw [innerHeaderStep, haccept (.inl rfl)]
    rfl

end Sys2Proof.Machine

/-! PROOFS. The windows of the window decoder (45_window_decoder.md R311 to R321): the checks on a header, a window that waits, and a
window that runs. -/

namespace Sys2Proof.Machine

open Sys2Proof.Safety

/-! ## A header that raises -/

/-- The parse ends with the cause `c`. -/
def Parse.Raises (c : Cause) (p : Parse) : Prop := ∃ d, p = .raise c d

section FieldRaises

variable {d e : Dec} {before rest : Bytes} {k : Nat → Nat → Parse} {next : Dec → Nat → Parse}
  (hparse : parseWindowHeader d = (headerVarInt e before.length k).andThen next) (hpend : e.pending = d.pending)
include hparse hpend

/-- The parse stands at a VarInt field that overflows (R311). -/
theorem raises_of_overflow (hp : d.pending = before ++ rest) (h : Overflows rest) :
    (parseWindowHeader d).Raises .headerVarIntOverflow :=
  ⟨e, by rw [hparse, headerVarInt_overflow (hpend.trans hp) h]; rfl⟩

/-- The parse stands at a VarInt field whose value is refused. -/
theorem raises_of_value {field : Bytes} {v : Nat} {c : Cause} (hp : d.pending = before ++ (field ++ rest)) (hv : IsVarInt v field)
    (h : k v (before ++ field).length = .raise c e) : (parseWindowHeader d).Raises c :=
  ⟨e, by rw [hparse, headerVarInt_ok (hpend.trans hp) hv, h]; rfl⟩

end FieldRaises

/-! ### Win_Indicator -/

theorem parseWindowHeader_of_indicator {d : Dec} {c : Cause} (h : parseWinIndicator d 0 = .raise c d) :
    (parseWindowHeader d).Raises c :=
  ⟨d, by rw [parseWindowHeader_eq, h]; rfl⟩

section Indicator

variable {d : Dec} {wi : Byte} {rest : Bytes} (hp : d.pending = wi :: rest)
include hp

theorem parseWinIndicator_of_cons : parseWinIndicator d 0 =
    if wi &&& 0xF8 ≠ 0 then .raise .winIndicatorReserved d
    else if wi &&& 0x03 = 0x03 then .raise .winSourceAndTarget d
    else if wi &&& 0x02 ≠ 0 ∧ d.allowVcdTarget = false then .raise .vcdTargetDisallowed d
    else .ok (setHasChecksum wi (setWin { activeWin d with winIndicator := wi } d)) 1 := headerByte_ok (A := []) hp

theorem header_reserved (h : wi &&& 0xF8 ≠ 0) : (parseWindowHeader d).Raises .winIndicatorReserved :=
  parseWindowHeader_of_indicator ((parseWinIndicator_of_cons hp).trans (if_pos h))

variable (hclear : wi &&& 0xF8 = 0)
include hclear

theorem header_sourceAndTarget (h : wi &&& 0x03 = 0x03) : (parseWindowHeader d).Raises .winSourceAndTarget :=
  parseWindowHeader_of_indicator (by rw [parseWinIndicator_of_cons hp, if_neg (Decidable.not_not.mpr hclear), if_pos h])

theorem header_targetDisallowed (h : wi &&& 0x03 = 0x02) (hvcd : d.allowVcdTarget = false) :
    (parseWindowHeader d).Raises .vcdTargetDisallowed := by
  have hbit : wi &&& 0x02 ≠ 0 := by
    rw [show (0x02 : Byte) = 0x03 &&& 0x02 by decide, ← BitVec.and_assoc, h]
    decide
  have hnot : wi &&& 0x03 ≠ 0x03 := by rw [h]; decide
  exact parseWindowHeader_of_indicator
    (by rw [parseWinIndicator_of_cons hp, if_neg (Decidable.not_not.mpr hclear), if_neg hnot, if_pos ⟨hbit, hvcd⟩])

end Indicator

/-! ### The source segment -/

/-- The parse of the source segment once its size is read (R313). -/
def segmentFromPos (size : Nat) (d : Dec) (c : Nat) : Parse :=
  headerVarInt d c fun pos c =>
    if segmentBound (activeWin d).winIndicator d < pos + size then .raise .sourceSegmentOutOfBounds d
    else
      .ok (setWin { activeWin d with
        srcSegSpace := segmentSpace (activeWin d).winIndicator, srcSegSize := size, srcSegPos := pos } d) c

theorem parseSourceSegment_of_source {d : Dec} {c : Nat} (h : (activeWin d).winIndicator &&& 0x03 ≠ 0) :
    parseSourceSegment d c = headerVarInt d c fun size c => segmentFromPos size d c := if_neg h

/-- The decoder `d` after the Win_Indicator of `w` (R312). -/
def afterIndicator (w : StreamHeader) (d : Dec) : Dec := parsing d (Hdr.r1 w (activeWin d)) w.hasChecksum d.interleaved

theorem pending_afterIndicator (w : StreamHeader) (d : Dec) : (afterIndicator w d).pending = d.pending := parsing_pending ..

theorem winIndicator_afterIndicator (w : StreamHeader) (d : Dec) : (activeWin (afterIndicator w d)).winIndicator = w.indicator := by
  rw [afterIndicator, parsing_win]
  rfl

section Source

variable {d : Dec} {w : StreamHeader} {rest : Bytes} (hne : w.space ≠ .none)
include hne

theorem segmentBound_afterIndicator : segmentBound w.indicator (afterIndicator w d) = w.bound d := by
  obtain ⟨-, -, -, -, -, hdict⟩ := indicator_bits w
  rw [segmentBound, StreamHeader.bound, afterIndicator, parsing_dictSize, parsing_total]
  cases hs : w.space with
  | none => exact absurd hs hne
  | dict => exact if_pos (hdict.mpr hs)
  | dtarget => exact if_neg fun h => nomatch hs.symm.trans (hdict.mp h)

theorem upTo_two : w.upTo 2 = w.upTo 1 ++ w.sizeBytes := by
  rw [upTo_succ (k := 1) (f := w.sizeBytes)]
  simp [StreamHeader.fields, hne]

theorem upTo_three : w.upTo 3 = w.upTo 2 ++ w.posBytes := by
  rw [upTo_succ (k := 2) (f := w.posBytes)]
  simp [StreamHeader.fields, hne]

/-- Win_Indicator accepted, and there is a source. -/
theorem stage1_source (hp : d.pending = w.upTo 1 ++ rest) (ha : w.Accepted 1 d) :
    parseWindowHeader d = (headerVarInt (afterIndicator w d) (w.upTo 1).length
      fun size c => segmentFromPos size (afterIndicator w d) c).andThen fromDeltaLen := by
  obtain ⟨-, -, -, hnone, -⟩ := indicator_bits w
  have hsource : (activeWin (afterIndicator w d)).winIndicator &&& 0x03 ≠ 0 := by
    rw [winIndicator_afterIndicator]
    exact fun h => hne (hnone.mp h)
  rw [stage1 hp ha, ← parseSourceSegment_of_source hsource]
  rfl

/-- The size of the source segment read. -/
theorem stage2 (hp : d.pending = w.upTo 2 ++ rest) (ha : w.Accepted 2 d) (he : w.Encoded) :
    parseWindowHeader d = (segmentFromPos w.size (afterIndicator w d) (w.upTo 2).length).andThen fromDeltaLen := by
  obtain ⟨-, hsource, -⟩ := he
  rw [upTo_two hne, List.append_assoc] at hp
  rw [stage1_source hne hp (accepted_mono ha (by decide)), headerVarInt_ok ((pending_afterIndicator w d).trans hp) (hsource hne).1,
    upTo_two hne]

end Source

theorem header_segmentOutOfBounds {d : Dec} {w : StreamHeader} {rest : Bytes} (he : w.Encoded) (ha : w.Accepted 2 d)
    (hp : d.pending = w.upTo 3 ++ rest) (h : w.bound d < w.pos + w.size) :
    (parseWindowHeader d).Raises .sourceSegmentOutOfBounds := by
  have hne : w.space ≠ .none := by
    intro hs
    obtain ⟨hnone, -⟩ := he
    obtain ⟨hsize, hpos⟩ := hnone hs
    omega
  rw [upTo_three hne, List.append_assoc] at hp
  have hparse := stage2 hne hp ha he
  obtain ⟨-, hsource, -⟩ := he
  refine raises_of_value hparse (pending_afterIndicator w d) hp (hsource hne).2 (if_pos ?_)
  rwa [winIndicator_afterIndicator, segmentBound_afterIndicator hne]

/-! ### The other fields -/

section Fields

variable {d : Dec} {w : StreamHeader} {rest : Bytes} (he : w.Encoded)
include he

/-- The eight VarInts of a header, each in turn overflowing (R311): what is read before it, and the field. -/
theorem header_overflow {k : Nat} (ha : w.Accepted k d) (hp : d.pending = w.upTo k ++ rest) (h : Overflows rest)
    (hk : (k = 1 ∧ w.space ≠ .none) ∨ (k = 2 ∧ w.space ≠ .none) ∨ k = 3 ∨ k = 4 ∨ k = 6 ∨ k = 7 ∨ k = 8 ∨
      (k = 9 ∧ w.hasChecksum = true)) : (parseWindowHeader d).Raises .headerVarIntOverflow := by
  rcases hk with ⟨rfl, hne⟩ | ⟨rfl, hne⟩ | rfl | rfl | rfl | rfl | rfl | ⟨rfl, hck⟩
  · exact raises_of_overflow (stage1_source hne hp ha) (pending_afterIndicator w d) hp h
  · exact raises_of_overflow (stage2 hne hp ha he) (pending_afterIndicator w d) hp h
  · exact raises_of_overflow (stage3 hp ha he) (parsing_pending ..) hp h
  · exact raises_of_overflow (stage4 hp ha he) (parsing_pending ..) hp h
  · exact raises_of_overflow (stage6 hp ha he) (parsing_pending ..) hp h
  · exact raises_of_overflow (stage7 hp ha he) (parsing_pending ..) hp h
  · exact raises_of_overflow (stage8 hp ha he) (parsing_pending ..) hp h
  · have hparse := stage9 hp ha he
    rw [fromChecksum, parseChecksum, parsing_hasChecksum, if_pos hck] at hparse
    exact raises_of_overflow hparse (parsing_pending ..) hp h

theorem header_windowTooLarge (ha : w.Accepted 4 d) (hp : d.pending = w.upTo 5 ++ rest)
    (h : d.maxTargetWindowSize.toNat < w.targetLen) : (parseWindowHeader d).Raises .windowTooLarge := by
  rw [upTo_succ (k := 4) rfl, List.append_assoc] at hp
  have hparse := stage4 hp ha he
  obtain ⟨-, -, -, htarget, -⟩ := he
  exact raises_of_value hparse (parsing_pending ..) hp htarget (if_pos (by rwa [parsing_maxTargetWindowSize]))

theorem header_fileTooLarge (ha : w.Accepted 4 d) (hp : d.pending = w.upTo 5 ++ rest)
    (hfits : w.targetLen ≤ d.maxTargetWindowSize.toNat)
    (h : d.maxTargetFileSize.toNat < (activeCtx d).totalTargetLen + w.targetLen) :
    (parseWindowHeader d).Raises .targetFileTooLarge := by
  rw [upTo_succ (k := 4) rfl, List.append_assoc] at hp
  have hparse := stage4 hp ha he
  obtain ⟨-, -, -, htarget, -⟩ := he
  refine raises_of_value hparse (parsing_pending ..) hp htarget ((if_neg ?_).trans (if_pos ?_))
  · rwa [parsing_maxTargetWindowSize, Nat.not_lt]
  · rwa [parsing_maxTargetFileSize, parsing_total]

theorem header_deltaIndicator {di : Byte} (ha : w.Accepted 5 d) (hp : d.pending = w.upTo 5 ++ di :: rest) (h : di ≠ 0) :
    (parseWindowHeader d).Raises .deltaIndicatorNonZero := by
  rw [stage5 hp ha he, fromIndicator, parseDeltaIndicator, headerByte_ok ((parsing_pending ..).trans hp), if_pos h]
  exact ⟨_, rfl⟩

theorem header_dataTooLarge (ha : w.Accepted 6 d) (hp : d.pending = w.upTo 7 ++ rest) (h : d.maxSectionSize.toNat < w.dataLen) :
    (parseWindowHeader d).Raises .sectionTooLarge := by
  rw [upTo_succ (k := 6) rfl, List.append_assoc] at hp
  have hparse := stage6 hp ha he
  obtain ⟨-, -, -, -, hdata, -⟩ := he
  exact raises_of_value hparse (parsing_pending ..) hp hdata (if_pos (by rwa [parsing_maxSectionSize]))

theorem header_instTooLarge (ha : w.Accepted 7 d) (hp : d.pending = w.upTo 8 ++ rest) (h : d.maxSectionSize.toNat < w.instLen) :
    (parseWindowHeader d).Raises .sectionTooLarge := by
  rw [upTo_succ (k := 7) rfl, List.append_assoc] at hp
  have hparse := stage7 hp ha he
  obtain ⟨-, -, -, -, -, hinst, -⟩ := he
  exact raises_of_value hparse (parsing_pending ..) hp hinst (if_pos (by rwa [parsing_maxSectionSize]))

theorem header_addrTooLarge (ha : w.Accepted 8 d) (hp : d.pending = w.upTo 9 ++ rest) (h : d.maxSectionSize.toNat < w.addrLen) :
    (parseWindowHeader d).Raises .sectionTooLarge := by
  rw [upTo_succ (k := 8) rfl, List.append_assoc] at hp
  have hparse := stage8 hp ha he
  obtain ⟨-, -, -, -, -, -, haddr, -⟩ := he
  exact raises_of_value hparse (parsing_pending ..) hp haddr (if_pos (by rwa [parsing_maxSectionSize]))

theorem header_lengthMismatch (ha : w.Accepted 10 d) (hp : d.pending = w.upTo 10 ++ rest) (h : ¬ w.Consistent) :
    (parseWindowHeader d).Raises .deltaLengthMismatch := ⟨_, (parseWindowHeader_stream hp ha he).2 h⟩

end Fields

/-! ### The command -/

/-- A header that raises is not empty. -/
theorem pending_of_raises {d : Dec} {c : Cause} (h : (parseWindowHeader d).Raises c) : d.pending ≠ [] := by
  intro hp
  obtain ⟨d', h⟩ := h
  have hmore : parseWinIndicator d 0 = .more := by
    rw [parseWinIndicator, headerByte, hp, byteRead_end (Nat.zero_le _)]
  rw [parseWindowHeader_eq, hmore] at h
  cases h

theorem chunk_header_raises {s : State} {chunk : Bytes} {c : Cause} (hinv : Inv s) (hat : AtWindow s.dec)
    (h : (parseWindowHeader (addPending chunk s.dec)).Raises c) : FailsWith c s (exec (.decChunk chunk) s) := by
  obtain ⟨hsize, htotal, -⟩ := liveOk_active (liveOk_addPending chunk (liveOk_of_decInv hinv.1 (atWindow_live hat)))
  have hparsed := parseWindowHeader_leads _ hsize htotal
  have hpend := pending_of_raises h
  obtain ⟨d, h⟩ := h
  rw [h] at hparsed
  exact chunk_header_raise hat hpend h hparsed

/-- Settles O35, check by check. -/
theorem headerErrors : Obligations.HeaderErrors := by
  unfold Obligations.HeaderErrors
  intro s chunk w rest hinv hr hat he
  have hfails : ∀ {c : Cause}, (parseWindowHeader (addPending chunk s.dec)).Raises c → FailsWith c s (exec (.decChunk chunk) s) :=
    chunk_header_raises hinv hat
  refine ⟨fun wi hp => ⟨?_, ?_, ?_⟩, ?_, ?_, ?_, ?_, ?_, ?_, ?_, ?_, ?_⟩
  · exact fun h => hfails (header_reserved hp h)
  · exact fun hclear h => hfails (header_sourceAndTarget hp hclear h)
  · exact fun hclear h hvcd => hfails (header_targetDisallowed hp hclear h hvcd)
  · exact fun k ha hp h hk => hfails (header_overflow he ha hp h hk)
  · exact fun ha hp h => hfails (header_segmentOutOfBounds he ha hp h)
  · exact fun ha hp h => hfails (header_windowTooLarge he ha hp h)
  · exact fun ha hp hfits h => hfails (header_fileTooLarge he ha hp hfits h)
  · exact fun ha di hp h => hfails (header_deltaIndicator he ha hp h)
  · exact fun ha hp h => hfails (header_dataTooLarge he ha hp h)
  · exact fun ha hp h => hfails (header_instTooLarge he ha hp h)
  · exact fun ha hp h => hfails (header_addrTooLarge he ha hp h)
  · exact fun ha hp h => hfails (header_lengthMismatch he ha hp h)

/-! ## A window that waits -/

theorem wantMore_atWindow {d : Dec} (h : AtWindow d) :
    wantMore d = { d with state := if d.state = .customTable then .customTable else .inWindow } := by
  rcases h with h | h | ⟨h, -⟩ <;> simp [wantMore, h]
  rw [← h]

/-- Settles O36: `parse_accept_len` says that the window is not whole. -/
theorem windowWaits : Obligations.WindowWaits := by
  unfold Obligations.WindowWaits
  intro s chunk w body missing hinv hr hat he ha hc hbody hmissing hpend hstream
  obtain ⟨hitem, hrest⟩ := driveItem_atWindow (d := addPending chunk s.dec) hat hpend
  have hmore := parse_accept_len (d := addPending chunk s.dec) hstream ha he hc hmissing hbody
  rw [chunk_more (atWindow_live hat) hrest (hitem.trans hmore), wantMore_atWindow (d := addPending chunk s.dec) hat]
  rfl

/-! ## A window that runs -/

/-- At a window the nested context, if there is one, is in phase `INNER_WINDOWS`. -/
theorem atWindow_inner {d : Dec} {n : Nested} (h : NestedOk d) (hat : AtWindow d) (hn : d.nested = some n) :
    n.phase = .innerWindows := by
  unfold NestedOk at h
  rw [hn] at h
  rcases hat with hst | hst | ⟨-, m, hm, hph⟩
  · exact nomatch hst.symm.trans h.1
  · exact nomatch hst.symm.trans h.1
  · cases hn.symm.trans hm
    exact hph

/-- A driver whose next item is the rest of the window in `e` is the replay of that window and then the rest of the command. -/
theorem drive_finishWindow {d e : Dec} (h : LiveOk d) (hr : d.replaying = false) (ha : atRest d = false)
    (hd : driveItem d = finishWindow e) : drive d = (replayRest e).andThen resumeDrive := by
  have hsound := driveItem_sound h hr
  rw [drive_item ha]
  cases hreplay : replayRest e with
  | raise c d' => rw [hd, finishWindow, hreplay]; rfl
  | fault f => rw [hd, finishWindow, hreplay]; rfl
  | ok d' =>
    have hclose : driveItem d = closeWindow d' := by rw [hd, finishWindow, hreplay]
    rw [Run.andThen, resumeDrive, hclose]
    cases hitem : closeWindow d' with
    | done d'' =>
      rw [hclose, hitem] at hsound
      obtain ⟨hlive, hrep, hshort⟩ := hsound
      exact driveLoop_eq_drive hlive hrep hshort
    | more => exact absurd hitem (closeWindow_not_more d')
    | raise c d'' => rfl
    | fault f => rfl

/-- Settles O37: the command is the rest of the command from the start of the replay, which `reachesEnd_of_windowLive` says the steps
reach. -/
theorem windowRuns : Obligations.WindowRuns := by
  unfold Obligations.WindowRuns
  intro s chunk w body rest hinv hr hat he ha hc hbody hstream
  have hlive := liveOk_addPending chunk (liveOk_of_decInv hinv.1 (atWindow_live hat))
  have hp : (addPending chunk s.dec).pending = w.upTo 10 ++ (body ++ rest) := by
    rw [← List.append_assoc]
    exact hstream
  have hpend : (addPending chunk s.dec).pending ≠ [] := by
    rw [hp]
    simp [StreamHeader.upTo, StreamHeader.fields]
  obtain ⟨hitem, hrest⟩ := driveItem_atWindow (d := addPending chunk s.dec) hat hpend
  obtain ⟨hdecode, hwindow⟩ := decodeWindow_started hlive (fun n hn => atWindow_inner hlive.nested hat hn) hp ha he hc hbody
  have hchunk : exec (.decChunk chunk) s = restOfCommand { s with dec := w.started (s.dec.pending ++ chunk) s.dec } := by
    rw [chunk_self (atWindow_live hat), drive_finishWindow hlive hr hrest (hitem.trans hdecode)]
    exact (endCommand_congr rfl rfl _).symm
  have hleft : (activeWin (w.started (s.dec.pending ++ chunk) s.dec)).instLen
      - (activeWin (w.started (s.dec.pending ++ chunk) s.dec)).ip ≤ w.instLen := by rw [win_started]; exact Nat.sub_le _ _
  have hreplaying : (w.started (s.dec.pending ++ chunk) s.dec).replaying = true := by simp [StreamHeader.started]
  obtain ⟨n, t, hn, hrun, hend, hcommand⟩ := reachesEnd_of_windowLive
    (s := { s with dec := w.started (s.dec.pending ++ chunk) s.dec }) hwindow hreplaying hleft
  exact ⟨n, t, hn, hchunk.trans hcommand, hrun, hend⟩

end Sys2Proof.Machine

/-! PROOFS. The Adler32 unit (46_adler32.md): the two sums (R360), the loop continued (R361), and one changed byte (R364). -/

namespace Sys2Proof.Machine

open Sys2Proof.Safety

/-! ## The two sums -/

/-- Both sums fit 16 bits, so the checksum holds each whole (R360). -/
theorem adler32_toNat (s : Bytes) : (adler32 s).toNat = (adlerPair (1, 0) s).2 * 65536 + (adlerPair (1, 0) s).1 := by
  obtain ⟨ha, hb⟩ := adlerPair_lt (1, 0) ⟨by decide, by decide⟩ s
  rw [adler32, BitVec.toNat_ofNat]
  exact Nat.mod_eq_of_lt (by omega)

/-- The halves of the checksum are the two sums (R360). -/
theorem adler32_toNat_eq_sums (s : Bytes) : (adler32 s).toNat =
    (s.length + adlerWeighted s) % 65521 * 65536 + (1 + (s.map BitVec.toNat).sum) % 65521 := by
  rw [adler32_toNat, adlerPair_fst (1, 0) (by decide), adlerPair_snd (1, 0) (by decide), Nat.zero_add, Nat.mul_one]

/-! ## The loop goes on -/

/-- The loop goes on over `t` from where it stood after `s` (R361). -/
theorem adlerPair_append (p : Nat × Nat) (s t : Bytes) : adlerPair p (s ++ t) = adlerPair (adlerPair p s) t :=
  List.foldl_append

/-! ## A changed byte -/

/-- Strings with one checksum have byte sums that agree modulo 65521. -/
theorem sum_mod_eq_of_adler32_eq {s t : Bytes} (h : adler32 s = adler32 t) :
    (1 + (s.map BitVec.toNat).sum) % 65521 = (1 + (t.map BitVec.toNat).sum) % 65521 := by
  have hs := adler32_toNat_eq_sums s
  have ht := adler32_toNat_eq_sums t
  rw [h] at hs
  omega

/-- Two bytes differ by less than the modulus, so changing one changes the sum (R364). -/
theorem adler32_ne_of_byte_ne (before after : Bytes) {x y : Byte} (hxy : x ≠ y) :
    adler32 (before ++ x :: after) ≠ adler32 (before ++ y :: after) := by
  intro h
  have hsum := sum_mod_eq_of_adler32_eq h
  simp only [List.map_append, List.map_cons, List.sum_append, List.sum_cons] at hsum
  have hx := x.isLt
  have hy := y.isLt
  exact hxy (BitVec.eq_of_toNat_eq (by omega))

/-- Settles O16: the two sums are the halves of the checksum, the loop is a fold, and the low half alone tells the changed byte. -/
theorem adlerSeesEveryByte : Obligations.AdlerSeesEveryByte := by
  unfold Obligations.AdlerSeesEveryByte
  exact ⟨adler32_toNat_eq_sums, adlerPair_append (1, 0), fun before after _ _ hxy => adler32_ne_of_byte_ne before after hxy⟩

end Sys2Proof.Machine

/-! PROOFS. Errors (60_exceptions.md): the refusals that do not poison (R386), the two ways out of an error state (R388), how encoder
commands fail (R387), and what a raise does to the decoder (R385). -/

namespace Sys2Proof.Machine

open Sys2Proof.Safety

/-! ## Refusals -/

theorem chunk_notStarted {s : State} (chunk : Bytes) (h : s.dec.state = .idle ∨ s.dec.state = .finished) :
    exec (.decChunk chunk) s = .next { s with result := some (errOf .decoderNotStarted) } := by
  rcases h with h | h <;> rw [exec_decChunk, execDecChunk, h]

theorem finish_notStarted {s : State} (h : s.dec.state = .idle ∨ s.dec.state = .finished) :
    exec .decFinish s = .next { s with result := some (errOf .decoderNotStarted) } := by
  rcases h with h | h <;> rw [exec_decFinish, execDecFinish, h]

/-- Settles O44, state by state; an unknown code is refused by the fetch. -/
theorem decoderRefusals : Obligations.DecoderRefusals := by
  unfold Obligations.DecoderRefusals
  intro s chunk
  refine ⟨fun h => ⟨chunk_notStarted chunk h, finish_notStarted h⟩, fun h => ⟨chunk_poisoned chunk h, finish_poisoned h⟩,
    fun t rest hr hc hdec henc => ?_, fun b v w i hi => ?_⟩
  · have hcode := isCommandCode_eq_false hdec henc
    exact step_of_fetch_unknownCommand ((fetch_of_between hr).trans (fetchCommand_unknownCommand hc hcode))
  · simp only [List.mem_cons, List.not_mem_nil, or_false] at hi
    rcases hi with rfl | rfl | rfl | rfl <;> exact ⟨_, rfl, rfl, rfl⟩

/-! ## Leaving an error state -/

/-- In `POISONED` the decoder moves only by `DEC_START` and the setters (R386, R388). -/
theorem DecMove.poisoned_keeps {s t : State} (m : DecMove s t) (hs : s.dec.state = .poisoned) (hstart : ¬ Issues 0x01 s) :
    t.dec = { s.dec with
      allowVcdTarget := t.dec.allowVcdTarget, maxTargetFileSize := t.dec.maxTargetFileSize,
      maxTargetWindowSize := t.dec.maxTargetWindowSize, maxSectionSize := t.dec.maxSectionSize } := by
  cases m with
  | same h | vcd _ _ h | file _ _ h | win _ _ h | sec _ _ h => rw [h]
  | session h => exact absurd h hstart
  | ran _ h | raised _ _ _ h => exact absurd hs h

/-- In `FAILED` the encoder moves only by `ENC_NEW` (R387, R388). -/
theorem EncMove.failed_keeps {s t : State} (m : EncMove s t) (hs : s.enc.state = .failed) (hnew : ¬ Issues 0x10 s) :
    t.enc = s.enc := by
  cases m with
  | same h => exact h
  | new h => exact absurd h hnew
  | failed _ h | ran h => exact absurd hs h

/-- Settles O47: of the moves of `step_move` only those remain that `poisoned_keeps` and `failed_keeps` name. -/
theorem leavingErrorState : Obligations.LeavingErrorState := by
  unfold Obligations.LeavingErrorState
  exact ⟨fun s t hinv hs he hstart => (step_move hinv he).1.poisoned_keeps hs hstart,
    fun s t hinv hs he hnew => (step_move hinv he).2.failed_keeps hs hnew⟩

/-! ## How encoder commands fail -/

/-- The result of a command that ends well is no error; one that raises has found an opcode wherever the table is `valid`. -/
def EncEnd.Answers (valid : Prop) : EncEnd → Prop
  | .ok _ r => ∀ kind cause, r ≠ .err kind cause
  | .raise c => valid → c ≠ .noOpcodeForInstruction

section Answers

variable {valid : Prop}

theorem answers_ok (e : Enc) : (EncEnd.ok e .ok).Answers valid := fun _ _ => Result.noConfusion

theorem answers_okValue (e : Enc) (v : Nat) : (EncEnd.ok e (.okValue v)).Answers valid := fun _ _ => Result.noConfusion

theorem answers_raise {c : Cause} (h : c ≠ .noOpcodeForInstruction) : (EncEnd.raise c).Answers valid := fun _ => h

theorem answers_ite {p : Prop} [Decidable p] {b b' : EncEnd} (h : b.Answers valid) (h' : b'.Answers valid) :
    (if p then b else b').Answers valid := by
  split
  · exact h
  · exact h'

theorem whenReady_answers {e : Enc} {b : EncEnd} (h : b.Answers valid) : (whenReady e b).Answers valid :=
  answers_ite h (answers_raise (by decide))

/-- The explicit-size opcode that a valid table has is found (R152, R222). -/
theorem addInstruction_answers {k : InstKind} {n mode : Nat} {place : Enc → Enc} {e : Enc}
    (h : valid → ∃ op, imapFirst e.etab k 0 mode = some op) : (addInstruction k n mode place e).Answers valid := by
  refine answers_ite (answers_raise (by decide)) ?_
  split
  next hnone =>
    intro hvalid
    obtain ⟨e', he⟩ := encodeInstruction_isSome (size := n) (h hvalid)
    exact absurd (hnone.symm.trans he) (Option.some_ne_none e').symm
  next => exact answers_ok _

end Answers

/-- The table of a good encoder has an explicit-size opcode for every instruction (R152 V4). -/
theorem imapFirst_of_encInv {e : Enc} (h : EncInv e) :
    (∃ op, imapFirst e.etab .add 0 0 = some op) ∧ (∃ op, imapFirst e.etab .run 0 0 = some op) ∧
      ∀ addr here : Nat, ∃ op, imapFirst e.etab .copy 0 (acEncode e.cache addr here).1 = some op := by
  obtain ⟨hcache, ⟨-, hvalid, hmode, -⟩, -⟩ := h
  obtain ⟨hadd, hrun, hcopy⟩ := imapFirst_isSome hvalid
  exact ⟨hadd, hrun, fun addr here => hcopy _ (hmode ▸ acEncode_mode hcache addr here)⟩

/-- Every encoder command but `ENC_NEW` is refused in `FAILED`, and ends as its body answers elsewhere (R387). -/
theorem exec_eq_encCommand {i : Instr} (h : isEncoderCommand i = true) (hnew : ∀ b c, i ≠ .encNew b c) :
    ∃ body : Enc → EncEnd, (∀ s, exec i s = encCommand s body) ∧ ∀ e, (body e).Answers (EncInv e) := by
  cases i
  case encNew interleaved custom => exact absurd rfl (hnew interleaved custom)
  case encInit size => exact ⟨_, exec_encInit size, fun e => answers_ok _⟩
  case encAdd n offset len bytes =>
    exact ⟨_, execEncAdd_eq n offset len bytes, fun e => whenReady_answers
      (answers_ite (answers_raise (by decide)) (addInstruction_answers fun hinv => (imapFirst_of_encInv hinv).1))⟩
  case encRun size byte =>
    exact ⟨_, execEncRun_eq size byte, fun e => whenReady_answers
      (addInstruction_answers fun hinv => (imapFirst_of_encInv hinv).2.1)⟩
  case encCopy offset size =>
    exact ⟨_, execEncCopy_eq offset size, fun e => whenReady_answers
      (answers_ite (answers_raise (by decide)) (addInstruction_answers fun hinv => (imapFirst_of_encInv hinv).2.2 _ _))⟩
  case encAddChecksum checksum => exact ⟨_, exec_encAddChecksum checksum, fun e => whenReady_answers (answers_ok _)⟩
  case encOutput =>
    exact ⟨_, exec_encOutput, fun e => whenReady_answers
      (answers_ite (answers_ok _) (answers_ite (answers_raise (by decide)) (answers_ok _)))⟩
  case encWriteHeader extensions => exact ⟨_, exec_encWriteHeader extensions, fun e => answers_ok _⟩
  case encTargetLength => exact ⟨_, exec_encTargetLength, fun e => answers_okValue e _⟩
  case encGetDeltaWindowSize => exact ⟨_, exec_encGetDeltaWindowSize, fun e => whenReady_answers (answers_okValue e _)⟩
  all_goals exact absurd h Bool.false_ne_true

/-- How an encoder command ends that is not refused: with a result that is no error, or with the failure registers written. -/
theorem exec_encoder_cases {i : Instr} {s : State} (h : isEncoderCommand i = true)
    (hs : s.enc.state ≠ .failed ∨ ∃ b c, i = .encNew b c) :
    (∃ e r, exec i s = .next { s with enc := e, result := some r } ∧ ∀ kind cause, r ≠ .err kind cause) ∨
      ∃ c, exec i s = .next (encFailed c s) ∧ (EncInv s.enc → c ≠ .noOpcodeForInstruction) := by
  by_cases hnew : ∃ b c, i = .encNew b c
  · obtain ⟨interleaved, custom, rfl⟩ := hnew
    rw [exec_encNew, execEncNew]
    cases encConfigure custom s.enc with
    | some e => exact .inl ⟨_, _, rfl, fun _ _ => Result.noConfusion⟩
    | none => exact .inr ⟨_, rfl, fun _ => by decide⟩
  · obtain ⟨body, hbody, hanswers⟩ := exec_eq_encCommand h fun b c he => hnew ⟨b, c, he⟩
    have hlive := hs.resolve_right hnew
    have hanswer := hanswers s.enc
    rw [hbody]
    cases he : body s.enc with
    | ok e r => exact .inl ⟨e, r, encCommand_ok hlive he, by rwa [he] at hanswer⟩
    | raise c => exact .inr ⟨c, encCommand_raise hlive he, by rwa [he] at hanswer⟩

/-- No other error looks like NoOpcodeForInstruction on `RESULT` (R372). -/
theorem errOf_ne_noOpcode {c : Cause} (h : c ≠ .noOpcodeForInstruction) : errOf c ≠ errOf .noOpcodeForInstruction := by
  cases c
  case noOpcodeForInstruction => exact absurd rfl h
  all_goals decide

/-- A command refused in `FAILED` answers CommandAfterFailure (R387). -/
theorem exec_encoder_failed {i : Instr} {s : State} (h : isEncoderCommand i = true) (hnew : ∀ b c, i ≠ .encNew b c)
    (hs : s.enc.state = .failed) : exec i s = .next { s with result := some (errOf .commandAfterFailure) } := by
  obtain ⟨body, hbody, -⟩ := exec_eq_encCommand h hnew
  rw [hbody, encCommand_failed hs]

/-- Settles O59: a command is refused, or ends as `exec_encoder_cases` says. -/
theorem encoderFailure : Obligations.EncoderFailure := by
  unfold Obligations.EncoderFailure
  refine ⟨fun i s h hnew hs => exec_encoder_failed h hnew hs, fun i s t kind cause h hs he hres => ?_, fun i s t hinv h he => ?_⟩
  · rcases exec_encoder_cases h hs with ⟨e, r, hok, hr⟩ | ⟨c, hraise, -⟩
    · cases hok.symm.trans he
      exact absurd (Option.some.inj hres) (hr kind cause)
    · cases hraise.symm.trans he
      cases hres
      rfl
  · by_cases hs : s.enc.state ≠ .failed ∨ ∃ b c, i = .encNew b c
    · rcases exec_encoder_cases h hs with ⟨e, r, hok, hr⟩ | ⟨c, hraise, hc⟩
      · cases hok.symm.trans he
        exact fun hres => hr _ _ (Option.some.inj hres)
      · cases hraise.symm.trans he
        exact fun hres => errOf_ne_noOpcode (hc hinv) (Option.some.inj hres)
    · obtain ⟨hfailed, hnew⟩ := not_or.mp hs
      cases (exec_encoder_failed h (fun b c hi => hnew ⟨b, c, hi⟩) (Decidable.not_not.mp hfailed)).symm.trans he
      exact fun hres => errOf_ne_noOpcode (c := .commandAfterFailure) (by decide) (Option.some.inj hres)

/-! ## A raise, in whatever step -/

/-- A step that enters `POISONED` has raised: it delivers and then poisons (R385). -/
theorem DecMove.raises {s t : State} (m : DecMove s t) (hs : s.dec.state ≠ .poisoned) (ht : t.dec.state = .poisoned) :
    ∃ c d, Delivers s.dec d ∧ t.dec = decRaise c d ∧ t.result = some (errOf c) ∧ t.enc = s.enc := by
  cases m with
  | same h | vcd _ _ h | file _ _ h | win _ _ h | sec _ _ h => rw [h] at ht; exact absurd ht hs
  | session _ dictionary h => rw [h] at ht; exact absurd ht DecState.noConfusion
  | ran _ _ h => exact absurd ht h
  | raised c d h _ h2 h3 h4 => exact ⟨c, d, h, h2, h3, h4⟩

/-- What a quiet step delivers is nothing. -/
theorem Quiet.delivers_nothing {d d' : Dec} {out : Bytes} (h : Quiet d d') (hout : d'.sink = d.sink ++ out) : out = [] := by
  obtain ⟨hsink, -⟩ := h
  exact List.self_eq_append_right.mp (hsink.symm.trans hout)

theorem quiet_decRaise (c : Cause) (d : Dec) : Quiet d (decRaise c d) := ⟨rfl, rfl, rfl⟩

/-- An opcode delivers nothing, whether it goes on or raises (R323). -/
theorem step_opcode_quiet {s t : State} (hinv : Inv s) (hr : s.dec.replaying = true)
    (hi : (activeWin s.dec).ip < (activeWin s.dec).instLen) (he : step s = .next t) : Quiet s.dec t.dec := by
  have hw := windowLive_of_inv hinv.1 hr
  have hsound := replayOne_sound hw.window (liveOk_active hw.session).2.2 hi
  have hreplayed := replayOne_replayed s.dec
  cases hone : replayOne s.dec with
  | ok d =>
    rw [hone] at hreplayed
    cases (step_of_replayOne_ok hw.window hr hi hone).symm.trans he
    exact quiet_replayed hreplayed
  | raise c d =>
    rw [hone] at hreplayed
    cases (step_of_replayOne_raise hw.window hr hi hone).symm.trans he
    exact (quiet_replayed hreplayed).trans (quiet_decRaise c d)
  | fault f =>
    rw [hone] at hsound
    exact hsound.elim

theorem finish_quiet {s t : State} (he : exec .decFinish s = .next t) : Quiet s.dec t.dec := by
  rw [exec_decFinish, execDecFinish] at he
  cases hs : s.dec.state <;> simp only [hs] at he
  case idle | finished | poisoned => cases he; exact ⟨rfl, rfl, rfl⟩
  all_goals split at he <;> cases he <;> exact ⟨rfl, rfl, rfl⟩

/-- The code 0x03 is that of `DEC_FINISH` (R117). -/
theorem decodeCommand_finish {c : HostCmd} {i : Instr} (hc : c.code = 0x03) (hd : decodeCommand c = .ok i) : i = .decFinish := by
  rw [decodeCommand, if_neg (by simp [hc]), if_neg (by simp [hc]), if_pos hc] at hd
  obtain ⟨rfl, -⟩ := acceptIf_ok hd
  rfl

/-- `DEC_FINISH` delivers nothing (R303). -/
theorem step_finish_quiet {s t : State} (hi : Issues 0x03 s) (he : step s = .next t) : Quiet s.dec t.dec := by
  obtain ⟨hr, c, rest, hcmds, hcode⟩ := hi
  have hfetch := fetch_of_between hr
  rcases fetchCommand_cases s with ⟨-, hf⟩ | ⟨c', rest', hcmds', ⟨i, hd, hf⟩ | hf | ⟨k, hf⟩⟩ <;> rw [hf] at hfetch
  · cases (step_of_fetch_idle hfetch).symm.trans he
    exact ⟨rfl, rfl, rfl⟩
  · cases hcmds.symm.trans hcmds'
    cases decodeCommand_finish hcode hd
    exact finish_quiet (s := { s with cmds := rest }) ((step_of_fetch_instr hfetch).symm.trans he)
  · cases (step_of_fetch_unknownCommand hfetch).symm.trans he
    exact ⟨rfl, rfl, rfl⟩
  · cases (step_of_fetch_illFormed hfetch).symm.trans he

theorem step_quiet {s t : State} (hinv : Inv s) (he : step s = .next t)
    (h : s.dec.replaying = true ∧ (activeWin s.dec).ip < (activeWin s.dec).instLen ∨ Issues 0x03 s) : Quiet s.dec t.dec := by
  rcases h with ⟨hr, hi⟩ | hi
  · exact step_opcode_quiet hinv hr hi he
  · exact step_finish_quiet hi he

/-! ## A chunk that raises -/

/-- What a live decoder holds in `PENDING` is no part of what makes it live. -/
theorem liveOk_withPending {d : Dec} (p : Bytes) (h : LiveOk d) : LiveOk { d with pending := p } :=
  ⟨⟨h.base.dictSize, h.base.dictLe, h.base.total, h.base.totalLt, h.base.sink⟩, h.nested, h.table, h.noError, h.live⟩

/-- With bytes pending the driver does not return at once (R302). -/
theorem atRest_eq_false {d : Dec} (h : d.pending ≠ []) : atRest d = false := by
  unfold atRest
  split <;> simp [h]

theorem wantMore_quiet (d : Dec) : Quiet d (wantMore d) := by
  unfold wantMore
  split <;> exact ⟨rfl, rfl, rfl⟩

theorem wantMore_pending (d : Dec) : (wantMore d).pending = d.pending := by
  unfold wantMore
  split <;> rfl

/-- A driver whose first item raises has raised it and delivered nothing (R302, R385). -/
theorem drive_of_driveItem_raise {d e : Dec} {c : Cause} (h : LiveOk d) (hp : d.pending ≠ []) (hd : driveItem d = .raise c e) :
    drive d = .raise c e ∧ Quiet d e := by
  refine ⟨?_, driveItem_quiet h hd⟩
  rw [drive_item (atRest_eq_false hp), hd]

/-- Where the first item of `part ++ more` raises, `part` alone raises or waits whole: no item of it is done, since an item that is
done does the same with more behind it. -/
theorem drive_part_of_raise {u e : Dec} {c : Cause} {part more : Bytes} (h : LiveOk u) (hr : u.replaying = false)
    (hnil : u.pending = []) (hraise : driveItem (addPending (part ++ more) u) = .raise c e) :
    (∃ d, drive (addPending part u) = .ok d ∧ Quiet u d ∧ d.pending = part) ∨
      ∃ c' d, drive (addPending part u) = .raise c' d ∧ Quiet u d := by
  have hpart : (addPending part u).pending = part := by rw [addPending_pending, hnil, List.nil_append]
  by_cases hp : part = []
  · subst hp
    rw [addPending_nil, drive_nothing h.live hnil]
    exact .inl ⟨_, rfl, ⟨rfl, rfl, rfl⟩, by rw [graft_pending, hnil, List.append_nil]⟩
  · have hlive := liveOk_addPending part h
    have hsound := driveItem_sound hlive hr
    have hpend : (addPending part u).pending ≠ [] := hpart.symm ▸ hp
    cases hd : driveItem (addPending part u) with
    | done d =>
      have hext := driveItem_addPending more (addPending part u)
      rw [hd, addPending_addPending] at hext
      exact absurd (hraise.symm.trans hext) Item.noConfusion
    | more =>
      refine .inl ⟨wantMore (addPending part u), ?_, wantMore_quiet _, (wantMore_pending _).trans hpart⟩
      rw [drive_item (atRest_eq_false hpend), hd]
    | raise c' d =>
      obtain ⟨hdrive, hquiet⟩ := drive_of_driveItem_raise hlive hpend hd
      exact .inr ⟨c', d, hdrive, hquiet⟩
    | fault f =>
      rw [hd] at hsound
      exact hsound.elim

/-- Only a driver that raises leaves the decoder poisoned (R302, R385). -/
theorem raise_of_poisoned {s t : State} {r : Run} (h : r.Drives) (he : endCommand s r = .next t) (ht : t.dec.state = .poisoned) :
    ∃ c d, r = .raise c d := by
  cases r with
  | ok d =>
    obtain ⟨-, -, hlive⟩ := h
    cases he
    exact absurd ht (live_not_poisoned hlive)
  | raise c d => exact ⟨c, d, rfl⟩
  | fault f => exact h.elim

/-- The machine with nothing in `PENDING`. -/
def nothingPending (s : State) : State := { s with dec := { s.dec with pending := [] } }

/-- A chunk with nothing pending before it is all there is in `PENDING` (R301). -/
theorem chunk_nothingPending {s : State} (chunk : Bytes) (hl : Live s.dec.state) :
    exec (.decChunk chunk) (nothingPending s) = endCommand s (drive { s.dec with pending := chunk }) :=
  chunk_eq (s := s) (d := { s.dec with pending := [] }) hl

/-- A chunk that raises is cut into a front part, all of whose items are done, and a rest, whose first item raises; the rest after
the front part is the whole chunk again (R385). -/
theorem chunk_cut {s : State} {chunk : Bytes} {c : Cause} {e : Dec} (h : LiveOk s.dec) (hr : s.dec.replaying = false)
    (hdrive : drive (addPending chunk s.dec) = .raise c e) :
    ∃ (front rest : Bytes) (u : State) (e' : Dec), s.dec.pending ++ chunk = front ++ rest ∧ rest ≠ [] ∧
      exec (.decChunk front) (nothingPending s) = .next u ∧ exec (.decChunk rest) u = exec (.decChunk chunk) s ∧
      u.result = some .ok ∧ u.dec.pending = [] ∧ LiveOk u.dec ∧ u.dec.replaying = false ∧
      driveItem (addPending rest u.dec) = .raise c e' := by
  have hlive := liveOk_addPending chunk h
  obtain ⟨front, rest, d, e', hcut, hne, hfront, hnil, hraise⟩ := driveLoop_cut hlive hr (Nat.lt_succ_self _) hdrive
  have hsound := drive_sound (liveOk_withPending front hlive) hr
  rw [hfront] at hsound
  obtain ⟨hgood, hrest, hl⟩ := hsound
  have hu : exec (.decChunk front) (nothingPending s) = .next { s with dec := d, result := some .ok } :=
    (chunk_nothingPending front h.live).trans (congrArg (endCommand s) hfront)
  obtain ⟨u, hu', hjoin⟩ := chunk_chunk (s := nothingPending s) front rest fun _ => ⟨liveOk_withPending [] h, hr⟩
  cases hu.symm.trans hu'
  refine ⟨front, rest, _, e', hcut, hne, hu, ?_, rfl, hnil, liveOk_of_decInv hgood hl, hrest, hraise⟩
  rw [hjoin, ← hcut, chunk_nothingPending _ h.live, chunk_self h.live]
  rfl

/-- Settles O46: `step_move` says what a step that raises does, and `driveLoop_cut` where a chunk that raises is cut. -/
theorem poisoning : Obligations.Poisoning := by
  unfold Obligations.Poisoning
  refine ⟨fun s t hinv he hs ht => ?_, fun s t chunk hinv hr hsession he ht => ?_⟩
  · obtain ⟨c, d, hd, hdec, hres, henc⟩ := (step_move hinv he).1.raises hs ht
    have hquiet := step_quiet hinv he
    rw [hdec] at hquiet ⊢
    obtain ⟨⟨out, hsink, hdtarget, htotal⟩, ⟨hdict, hsize⟩, hvcd, hfile, hwin, hsec⟩ := hd.trans (delivers_decRaise c d)
    exact ⟨causeKind_ne_zero c, hres, rfl, rfl, rfl, rfl,
      ⟨out, hsink, hdtarget, htotal, fun h => (hquiet h).delivers_nothing hsink⟩, hdict, hsize, hvcd, hfile, hwin, hsec, henc⟩
  · have hlive := liveOk_of_decInv hinv.1 hsession
    rw [chunk_self hsession] at he
    obtain ⟨c, e, hdrive⟩ := raise_of_poisoned (drive_sound (liveOk_addPending chunk hlive) hr) he ht
    obtain ⟨front, rest, u, e', hcut, hne, hfront, hjoin, hok, hnil, hu, hru, hraise⟩ := chunk_cut hlive hr hdrive
    have hpend : (addPending rest u.dec).pending ≠ [] := by rwa [addPending_pending, hnil, List.nil_append]
    obtain ⟨hrun, hsink, hdtarget, htotal⟩ := drive_of_driveItem_raise (liveOk_addPending rest hu) hpend hraise
    rw [← chunk_self hsession, ← hjoin] at he
    have hrest := he
    rw [chunk_self hu.live, hrun] at hrest
    cases hrest
    refine ⟨front, rest, u, hcut, hfront, hok, hnil, he, hsink, hdtarget, htotal, fun part more hparts => ?_⟩
    rw [chunk_self hu.live]
    rcases drive_part_of_raise hu hru hnil (hparts ▸ hraise) with
      ⟨d, hd, ⟨hsink, hdtarget, -⟩, hwait⟩ | ⟨c', d, hd, hsink, hdtarget, -⟩ <;> rw [hd]
    · exact ⟨_, rfl, hsink, hdtarget, .inr ⟨rfl, hwait⟩⟩
    · exact ⟨_, rfl, hsink, hdtarget, .inl rfl⟩

end Sys2Proof.Machine
